-- ==== Sys2Proof/Word.lean ====
section
/-! DEFINITION. The widths the spec names: bytes, 32-bit words, 64-bit scalars and 96-bit instruction slots. -/

namespace Sys2Proof

/-- One byte of memory (00 R4: multi-byte values are little-endian). -/
abbrev Byte := BitVec 8

/-- A vector register element, a pc and a meeting register (05 R96, 03 R37). -/
abbrev Word := BitVec 32

/-- A scalar register, a mask register, a CSR (05 R94, R96). -/
abbrev DWord := BitVec 64

/-- One slot of a fetch line (05 R75). -/
abbrev SlotBits := BitVec 96

/-- A trap cause code, ten bits wide (21 R325). -/
abbrev Cause := BitVec 10

end Sys2Proof
end

