-- ==== Sys2Proof/Syntax.lean ====
section
/-! DEFINITION. The instructions and device steps as data: the operand fields of the seven formats (05 R84 to R93)
and one constructor for each row of the opcode table. -/

namespace Sys2Proof

/-- The type codes of 05 R95, in the order of their codes 0 to 15. -/
inductive Ty where
  | i32 | n32 | i64 | n64 | i16 | n16 | i8 | n8 | f32 | f16 | bf16 | f64 | e4m3 | e5m2 | e2m1 | b32
  deriving DecidableEq, Repr

/-- Rounding modes, codes 0 to 3 (05 R84, 07 R120). -/
inductive Rm where
  | rne | rtz | rup | rdn
  deriving DecidableEq, Repr

/-- The modifier of operand A, codes 0 to 3 (05 R84, R86). -/
inductive Am where
  | none | neg | abs | negAbs
  deriving DecidableEq, Repr

/-- The kind of operand B or C, codes 0 to 3 (05 R84). -/
inductive Kind where
  | vec | scalar | imm | reserved
  deriving DecidableEq, Repr

/-- Memory order, codes 0 to 3 (05 R90). -/
inductive Ord4 where
  | relaxed | acquire | release | acqRel
  deriving DecidableEq, Repr

/-- Conditions of SCMP and VICMP, FN 0 to 9 (09 R143). -/
inductive Cond where
  | eq | ne | lt | le | gt | ge | ltn | len | gtn | gen
  deriving DecidableEq, Repr

/-- Conditions of VFCMP, FN 0 to 7 (09 R151). -/
inductive FCond where
  | eq | ne | lt | le | gt | ge | uno | ord
  deriving DecidableEq, Repr

/-- Operations of ATOM other than CLASP (11 R183). -/
inductive AtomOp where
  | add | fadd | min | max | and | or | xor | exch | cas | max64
  deriving DecidableEq, Repr

/-- Operations of RED (11 R183). -/
inductive RedOp where
  | add | fadd | min | max | and | or | xor | max64
  deriving DecidableEq, Repr

/-- Memory types of a page (15 R219), codes 0 to 3 of 21 R340. -/
inductive MemType where
  | dev | host | peer | stream
  deriving DecidableEq, Repr

/-- The V format and, with its departures, the S and K formats (05 R84, R88, R89): every bit but OP and FN. -/
structure VF where
  imm : Word
  sat : Bool
  rm : Rm
  am : Am
  ck : Kind
  bk : Kind
  rc : Bool
  rb : Bool
  ra : Bool
  c : BitVec 8
  b : BitVec 8
  a : BitVec 8
  d : BitVec 8
  gn : Bool
  gk : BitVec 4
  ty : Ty
  deriving DecidableEq, Repr

/-- The M format (05 R90). The reserved bits [63:56] are 0 in every instruction. -/
structure MF where
  ofs : Word
  space : Bool
  rmt : Bool
  ch : BitVec 2
  nf : Bool
  ord : Ord4
  sc : BitVec 3
  cnt : BitVec 2
  b : BitVec 8
  a : BitVec 8
  d : BitVec 8
  gn : Bool
  gk : BitVec 4
  ty : Ty
  deriving DecidableEq, Repr

/-- The B format (05 R91). Its reserved bits are 0 in every instruction. -/
structure BF where
  disp : Word
  c : BitVec 8
  b : BitVec 8
  a : BitVec 8
  uni : Bool
  gn : Bool
  gk : BitVec 4
  deriving DecidableEq, Repr

/-- The X format of the quad control core (05 R92). -/
structure XF where
  prio : BitVec 2
  tag : BitVec 16
  ovw : Bool
  gcn : Bool
  gc : BitVec 3
  ss : BitVec 6
  sb : BitVec 6
  sa : BitVec 6
  kb : BitVec 6
  spc : BitVec 3
  mp : BitVec 3
  md : BitVec 3
  tb : Ty
  ta : Ty
  deriving DecidableEq, Repr

/-- The C format (05 R93). -/
structure CF where
  csr : BitVec 12
  a : BitVec 8
  d : BitVec 8
  gn : Bool
  gk : BitVec 4
  deriving DecidableEq, Repr

/-- The two registers of the private pool (25 R374). -/
inductive PoolReg where
  | base | size
  deriving DecidableEq, Repr

/-- Host-visible partition registers whose write has no behaviour of its own (25 R374), and a Partition CSR by its
number (19 R320, 21 R336). -/
inductive HostReg where
  | ptroot | trapvec | evbase | evctl | evhead | evselc | evseld0 | evseld1
  | csr (n : BitVec 12)
  deriving DecidableEq, Repr

/-- The two UCIe links of a die (01 R29). -/
inductive Link where
  | a | b
  deriving DecidableEq, Repr

/-- What firmware does with one die's step at a power sample (25 R392). -/
inductive DvfsMove where
  | stay | faster | slower
  deriving DecidableEq, Repr

/-- The arguments of a management command (25 R375). -/
structure MArgs where
  m0 : DWord
  m1 : DWord
  m2 : DWord
  m3 : DWord
  deriving DecidableEq, Repr

/-- What the physical world decides at power-on: the fuse data of the package, its four identifiers and each die's row
repairs (01 R17, R25), whether the identifiers were exchanged in time, which die's third image copy failed, if any, and
whether the storage port has the named namespace (25 R380, R377). -/
structure BootInput where
  dieids : List (BitVec 8)
  repairs : List (List (Nat × Nat × Nat))
  exchanged : Bool
  failedCopy : Option Nat
  nvmePresent : Bool
  deriving DecidableEq, Repr


/-- One constructor for each row of the opcode table: the instructions of the opcode map (05 R103), a slot value
that is no instruction (05 R100), and the steps the device takes of its own or at the host's hand. -/
inductive Instr where
  /-- NOP, major 0x00 (R164). -/
  | nop (f : BF)
  /-- EXIT, major 0x00 (R164). -/
  | exit (f : BF)
  /-- YIELD, major 0x00 (R164). -/
  | yield (f : BF)
  /-- SADD, major 0x01 (R141). -/
  | sadd (f : VF)
  /-- SSUB, major 0x01 (R141). -/
  | ssub (f : VF)
  /-- SMUL, major 0x01 (R141). -/
  | smul (f : VF)
  /-- SMULH, major 0x01 (R141). -/
  | smulh (f : VF)
  /-- SMULHN, major 0x01 (R141). -/
  | smulhn (f : VF)
  /-- SAND, major 0x01 (R141). -/
  | sand (f : VF)
  /-- SOR, major 0x01 (R141). -/
  | sor (f : VF)
  /-- SXOR, major 0x01 (R141). -/
  | sxor (f : VF)
  /-- SANDN, major 0x01 (R141). -/
  | sandn (f : VF)
  /-- SSHL, major 0x01 (R141). -/
  | sshl (f : VF)
  /-- SSHR, major 0x01 (R141). -/
  | sshr (f : VF)
  /-- SSRA, major 0x01 (R141). -/
  | ssra (f : VF)
  /-- SMIN, major 0x01 (R141). -/
  | smin (f : VF)
  /-- SMAX, major 0x01 (R141). -/
  | smax (f : VF)
  /-- SMINN, major 0x01 (R141). -/
  | sminn (f : VF)
  /-- SMAXN, major 0x01 (R141). -/
  | smaxn (f : VF)
  /-- SMOV, major 0x02 (R142). -/
  | smov (f : VF)
  /-- SLI, major 0x02 (R142). -/
  | sli (f : VF)
  /-- SLIH, major 0x02 (R142). -/
  | slih (f : VF)
  /-- SSEL, major 0x02 (R142). -/
  | ssel (f : VF)
  /-- SBFE, major 0x02 (R142). -/
  | sbfe (f : VF)
  /-- SBFI, major 0x02 (R142). -/
  | sbfi (f : VF)
  /-- SPOPC, major 0x02 (R142). -/
  | spopc (f : VF)
  /-- SCLZ, major 0x02 (R142). -/
  | sclz (f : VF)
  /-- SBREV, major 0x02 (R142). -/
  | sbrev (f : VF)
  /-- SCMP, major 0x03 (R143). -/
  | scmp (cond : Cond) (f : VF)
  /-- SDIV, major 0x04 (R144). -/
  | sdiv (f : VF)
  /-- SDIVN, major 0x04 (R144). -/
  | sdivn (f : VF)
  /-- SREM, major 0x04 (R144). -/
  | srem (f : VF)
  /-- SREMN, major 0x04 (R144). -/
  | sremn (f : VF)
  /-- VADD, major 0x10 (R145). -/
  | vadd (f : VF)
  /-- VSUB, major 0x10 (R145). -/
  | vsub (f : VF)
  /-- VRSUB, major 0x10 (R145). -/
  | vrsub (f : VF)
  /-- VMUL, major 0x10 (R145). -/
  | vmul (f : VF)
  /-- VMULH, major 0x10 (R145). -/
  | vmulh (f : VF)
  /-- VMULHN, major 0x10 (R145). -/
  | vmulhn (f : VF)
  /-- VAND, major 0x10 (R145). -/
  | vand (f : VF)
  /-- VOR, major 0x10 (R145). -/
  | vor (f : VF)
  /-- VXOR, major 0x10 (R145). -/
  | vxor (f : VF)
  /-- VANDN, major 0x10 (R145). -/
  | vandn (f : VF)
  /-- VSHL, major 0x10 (R145). -/
  | vshl (f : VF)
  /-- VSHR, major 0x10 (R145). -/
  | vshr (f : VF)
  /-- VSRA, major 0x10 (R145). -/
  | vsra (f : VF)
  /-- VMIN, major 0x10 (R145). -/
  | vmin (f : VF)
  /-- VMAX, major 0x10 (R145). -/
  | vmax (f : VF)
  /-- VABSD, major 0x10 (R145). -/
  | vabsd (f : VF)
  /-- VMAD, major 0x11 (R146). -/
  | vmad (f : VF)
  /-- VMOV, major 0x11 (R146). -/
  | vmov (f : VF)
  /-- VSEL, major 0x11 (R146). -/
  | vsel (f : VF)
  /-- VBFE, major 0x11 (R146). -/
  | vbfe (f : VF)
  /-- VBFI, major 0x11 (R146). -/
  | vbfi (f : VF)
  /-- VPOPC, major 0x11 (R146). -/
  | vpopc (f : VF)
  /-- VCLZ, major 0x11 (R146). -/
  | vclz (f : VF)
  /-- VBREV, major 0x11 (R146). -/
  | vbrev (f : VF)
  /-- VDOT4, major 0x11 (R146). -/
  | vdot4 (f : VF)
  /-- VDOT2, major 0x11 (R146). -/
  | vdot2 (f : VF)
  /-- VMADW, major 0x11 (R146). -/
  | vmadw (f : VF)
  /-- VICMP, major 0x12 (R147). -/
  | vicmp (cond : Cond) (f : VF)
  /-- VDIV, major 0x13 (R148). -/
  | vdiv (f : VF)
  /-- VDIVN, major 0x13 (R148). -/
  | vdivn (f : VF)
  /-- VREM, major 0x13 (R148). -/
  | vrem (f : VF)
  /-- VREMN, major 0x13 (R148). -/
  | vremn (f : VF)
  /-- VFADD, major 0x20 (R149). -/
  | vfadd (f : VF)
  /-- VFSUB, major 0x20 (R149). -/
  | vfsub (f : VF)
  /-- VFMUL, major 0x20 (R149). -/
  | vfmul (f : VF)
  /-- VFMA, major 0x20 (R149). -/
  | vfma (f : VF)
  /-- VFMS, major 0x20 (R149). -/
  | vfms (f : VF)
  /-- VFNMA, major 0x20 (R149). -/
  | vfnma (f : VF)
  /-- VFNMS, major 0x20 (R149). -/
  | vfnms (f : VF)
  /-- VFMIN, major 0x20 (R150). -/
  | vfmin (f : VF)
  /-- VFMAX, major 0x20 (R150). -/
  | vfmax (f : VF)
  /-- VFMINN, major 0x20 (R150). -/
  | vfminn (f : VF)
  /-- VFMAXN, major 0x20 (R150). -/
  | vfmaxn (f : VF)
  /-- VFCPYS, major 0x20 (R150). -/
  | vfcpys (f : VF)
  /-- VFCMP, major 0x21 (R151). -/
  | vfcmp (cond : FCond) (f : VF)
  /-- VFRCP, major 0x22 (R152). -/
  | vfrcp (f : VF)
  /-- VFRSQ, major 0x22 (R152). -/
  | vfrsq (f : VF)
  /-- VFSQRT, major 0x22 (R152). -/
  | vfsqrt (f : VF)
  /-- VFEXP2, major 0x22 (R152). -/
  | vfexp2 (f : VF)
  /-- VFLOG2, major 0x22 (R152). -/
  | vflog2 (f : VF)
  /-- VFSINP, major 0x22 (R152). -/
  | vfsinp (f : VF)
  /-- VFCOSP, major 0x22 (R152). -/
  | vfcosp (f : VF)
  /-- VFTANH, major 0x22 (R152). -/
  | vftanh (f : VF)
  /-- VFDIV, major 0x23 (R153). -/
  | vfdiv (f : VF)
  /-- VFSQRTC, major 0x23 (R153). -/
  | vfsqrtc (f : VF)
  /-- VFCVT, major 0x24 (R154). -/
  | vfcvt (f : VF)
  /-- VFTOI, major 0x24 (R154). -/
  | vftoi (f : VF)
  /-- VITOF, major 0x24 (R154). -/
  | vitof (f : VF)
  /-- VFRINT, major 0x24 (R155). -/
  | vfrint (f : VF)
  /-- VFCLASS, major 0x24 (R155). -/
  | vfclass (f : VF)
  /-- VFGETX, major 0x24 (R155). -/
  | vfgetx (f : VF)
  /-- VFLDX, major 0x24 (R155). -/
  | vfldx (f : VF)
  /-- VPADD, major 0x30 (R156). -/
  | vpadd (f : VF)
  /-- VPSUB, major 0x30 (R156). -/
  | vpsub (f : VF)
  /-- VPMUL, major 0x30 (R156). -/
  | vpmul (f : VF)
  /-- VPFMA, major 0x30 (R156). -/
  | vpfma (f : VF)
  /-- VPMIN, major 0x30 (R156). -/
  | vpmin (f : VF)
  /-- VPMAX, major 0x30 (R156). -/
  | vpmax (f : VF)
  /-- VPACK2, major 0x31 (R157). -/
  | vpack2 (f : VF)
  /-- VUNPK2, major 0x31 (R157). -/
  | vunpk2 (f : VF)
  /-- VPACK4, major 0x31 (R157). -/
  | vpack4 (f : VF)
  /-- VUNPK4, major 0x31 (R157). -/
  | vunpk4 (f : VF)
  /-- VSCL, major 0x32 (R158). -/
  | vscl (f : VF)
  /-- KAND, major 0x48 (R159). -/
  | kand (f : VF)
  /-- KOR, major 0x48 (R159). -/
  | kor (f : VF)
  /-- KXOR, major 0x48 (R159). -/
  | kxor (f : VF)
  /-- KANDN, major 0x48 (R159). -/
  | kandn (f : VF)
  /-- KNOT, major 0x48 (R159). -/
  | knot (f : VF)
  /-- KMOV, major 0x48 (R159). -/
  | kmov (f : VF)
  /-- KPOPC, major 0x49 (R160). -/
  | kpopc (f : VF)
  /-- KFFS, major 0x49 (R160). -/
  | kffs (f : VF)
  /-- KSET, major 0x49 (R160). -/
  | kset (f : VF)
  /-- KGET, major 0x49 (R160). -/
  | kget (f : VF)
  /-- KTOV, major 0x49 (R161). -/
  | ktov (f : VF)
  /-- VTOK, major 0x49 (R161). -/
  | vtok (f : VF)
  /-- VFADDX, major 0x38 (R204). -/
  | vfaddx (f : VF)
  /-- VFSUBX, major 0x38 (R204). -/
  | vfsubx (f : VF)
  /-- VFMULX, major 0x38 (R204). -/
  | vfmulx (f : VF)
  /-- VFNORM, major 0x38 (R204). -/
  | vfnorm (f : VF)
  /-- DWADD, major 0x39 (R207). -/
  | dwadd (f : VF)
  /-- DWSUB, major 0x39 (R207). -/
  | dwsub (f : VF)
  /-- DWMUL, major 0x39 (R207). -/
  | dwmul (f : VF)
  /-- DWADDS, major 0x39 (R207). -/
  | dwadds (f : VF)
  /-- DWMULS, major 0x39 (R207). -/
  | dwmuls (f : VF)
  /-- VREDX, major 0x3A (R208). -/
  | vredx (f : VF)
  /-- VREDDW, major 0x3A (R208). -/
  | vreddw (f : VF)
  /-- VDOTX, major 0x3A (R208). -/
  | vdotx (f : VF)
  /-- VSHFI, major 0x40 (R210). -/
  | vshfi (f : VF)
  /-- VSHFU, major 0x40 (R210). -/
  | vshfu (f : VF)
  /-- VSHFD, major 0x40 (R210). -/
  | vshfd (f : VF)
  /-- VSHFX, major 0x40 (R210). -/
  | vshfx (f : VF)
  /-- VBCAST, major 0x40 (R210). -/
  | vbcast (f : VF)
  /-- VREDADD, major 0x41 (R211). -/
  | vredadd (f : VF)
  /-- VREDMIN, major 0x41 (R211). -/
  | vredmin (f : VF)
  /-- VREDMAX, major 0x41 (R211). -/
  | vredmax (f : VF)
  /-- VREDAND, major 0x41 (R211). -/
  | vredand (f : VF)
  /-- VREDOR, major 0x41 (R211). -/
  | vredor (f : VF)
  /-- VREDXOR, major 0x41 (R211). -/
  | vredxor (f : VF)
  /-- VREDFADD, major 0x41 (R211). -/
  | vredfadd (f : VF)
  /-- VREDFMIN, major 0x41 (R211). -/
  | vredfmin (f : VF)
  /-- VREDFMAX, major 0x41 (R211). -/
  | vredfmax (f : VF)
  /-- VSCANI, major 0x42 (R212). -/
  | vscani (f : VF)
  /-- VSCANE, major 0x42 (R212). -/
  | vscane (f : VF)
  /-- VBALLOT, major 0x43 (R213). -/
  | vballot (f : VF)
  /-- VANY, major 0x43 (R213). -/
  | vany (f : VF)
  /-- VALL, major 0x43 (R213). -/
  | vall (f : VF)
  /-- VMATCH, major 0x43 (R213). -/
  | vmatch (f : VF)
  /-- DDX, major 0x44 (R214). -/
  | ddx (f : VF)
  /-- DDY, major 0x44 (R214). -/
  | ddy (f : VF)
  /-- DDXF, major 0x44 (R214). -/
  | ddxf (f : VF)
  /-- DDYF, major 0x44 (R214). -/
  | ddyf (f : VF)
  /-- VQSWX, major 0x45 (R215). -/
  | vqswx (f : VF)
  /-- VQSWY, major 0x45 (R215). -/
  | vqswy (f : VF)
  /-- VQSWD, major 0x45 (R215). -/
  | vqswd (f : VF)
  /-- MSTAT, major 0x46 (R216). -/
  | mstat (f : VF)
  /-- BRA, major 0x50 (R165). -/
  | bra (f : BF)
  /-- BRX, major 0x50 (R166). -/
  | brx (f : BF)
  /-- CALL, major 0x51 (R167). -/
  | call (f : BF)
  /-- CALLX, major 0x51 (R167). -/
  | callx (f : BF)
  /-- RET, major 0x51 (R167). -/
  | ret (f : BF)
  /-- MEET, major 0x52 (R39). -/
  | meet (f : BF)
  /-- JOIN, major 0x52 (R39). -/
  | join (f : BF)
  /-- SUCC, major 0x53 (R51). -/
  | succ (f : BF)
  /-- SUCC2, major 0x53 (R51). -/
  | succ2 (f : BF)
  /-- ENTER, major 0x54 (R170). -/
  | enter (f : BF)
  /-- LEAVE, major 0x54 (R170). -/
  | leave (f : BF)
  /-- TRAP, major 0x55 (R171). -/
  | trap (f : BF)
  /-- BKPT, major 0x55 (R171). -/
  | bkpt (f : BF)
  /-- TRET, major 0x55 (R330). -/
  | tret (f : BF)
  /-- MIGRATE, major 0x56 (R68). -/
  | migrate (f : BF)
  /-- LD, major 0x58 (R177). -/
  | ld (f : MF)
  /-- LDNC, major 0x58 (R177). -/
  | ldnc (f : MF)
  /-- LDR, major 0x58 (R177). -/
  | ldr (f : MF)
  /-- ST, major 0x59 (R178). -/
  | st (f : MF)
  /-- STNC, major 0x59 (R178). -/
  | stnc (f : MF)
  /-- STR, major 0x59 (R178). -/
  | str (f : MF)
  /-- LDS, major 0x5A (R179). -/
  | lds (f : MF)
  /-- STS, major 0x5A (R179). -/
  | sts (f : MF)
  /-- LDP, major 0x5B (R180). -/
  | ldp (f : MF)
  /-- STP, major 0x5B (R180). -/
  | stp (f : MF)
  /-- ATOM, major 0x5C (R183). -/
  | atom (op : AtomOp) (f : MF)
  /-- ATOM_CLASP, major 0x5C (R58). -/
  | atomClasp (f : MF)
  /-- RED, major 0x5D (R183). -/
  | red (op : RedOp) (f : MF)
  /-- FENCE, major 0x5E (R185). -/
  | fence (f : MF)
  /-- LFENCE, major 0x5E (R186). -/
  | lfence (f : MF)
  /-- ICINV, major 0x5E (R187). -/
  | icinv (f : MF)
  /-- CINV, major 0x5E (R188). -/
  | cinv (f : MF)
  /-- CWB, major 0x5E (R188). -/
  | cwb (f : MF)
  /-- PREF, major 0x5E (R188). -/
  | pref (f : MF)
  /-- CPY, major 0x5F (R190). -/
  | cpy (f : MF)
  /-- WAITC, major 0x5F (R192). -/
  | waitc (f : MF)
  /-- EMIT, major 0x68 (R193). -/
  | emit (f : MF)
  /-- LAUNCH, major 0x69 (R194). -/
  | launch (f : MF)
  /-- GETID, major 0x6A (R195). -/
  | getid (f : CF)
  /-- CLOCK, major 0x6A (R196). -/
  | clock (f : CF)
  /-- TEX, major 0x6C (R271). -/
  | tex (f : MF)
  /-- TEXL, major 0x6C (R271). -/
  | texl (f : MF)
  /-- TEXG, major 0x6C (R271). -/
  | texg (f : MF)
  /-- TEXQ, major 0x6C (R271). -/
  | texq (f : MF)
  /-- RASTQ, major 0x6D (R277). -/
  | rastq (f : MF)
  /-- TRACE, major 0x6E (R284). -/
  | trace (f : MF)
  /-- VERDICT, major 0x6E (R287). -/
  | verdict (f : MF)
  /-- BOXT, major 0x6F (R288). -/
  | boxt (f : MF)
  /-- TRIT, major 0x6F (R289). -/
  | trit (f : MF)
  /-- MMA, major 0x70 (R265). -/
  | mma (f : XF)
  /-- MMAS, major 0x70 (R265). -/
  | mmas (f : XF)
  /-- MSCL, major 0x71 (R266). -/
  | mscl (f : XF)
  /-- MZERO, major 0x72 (R267). -/
  | mzero (f : XF)
  /-- MCPYO, major 0x72 (R267). -/
  | mcpyo (f : XF)
  /-- MCPYI, major 0x72 (R267). -/
  | mcpyi (f : XF)
  /-- MWAIT, major 0x73 (R268). -/
  | mwait (f : XF)
  /-- PPOINT, major 0x73 (R269). -/
  | ppoint (f : XF)
  /-- CSRR, major 0x78 (R198). -/
  | csrr (f : CF)
  /-- CSRW, major 0x78 (R198). -/
  | csrw (f : CF)
  /-- CSRS, major 0x78 (R198). -/
  | csrs (f : CF)
  /-- CSRC, major 0x78 (R198). -/
  | csrc (f : CF)
  /-- EVRD, major 0x79 (R199). -/
  | evrd (f : CF)
  /-- A slot value that decodes to no instruction (R100). -/
  | illegalOpcode (w : SlotBits)
  /-- PENDING_RESULT_LANDS (R46): a variable-latency result is written back, ending a switch park once all of the run's results have landed. -/
  | pendingResultLands (group : Nat)
  /-- RUN_LIMIT_SWITCH (R43): hardware inserts a switch after the 24th instruction of a run. -/
  | runLimitSwitch (group : Nat)
  /-- YIELD_EXPIRY (R164): 64 clocks after a YIELD pass and the group becomes ready again. -/
  | yieldExpiry (group : Nat)
  /-- REGROUP_TIMEOUT (R74): REGTO cycles pass at a gathering, which then forms a partial group. -/
  | regroupTimeout (team : Nat) (start : Word)
  /-- TEAM_SWAP (R61): a team parked for SWAPTHR cycles is saved to shadow storage. -/
  | teamSwap (team : Nat)
  /-- TEAM_RESTORE (R62): a swapped team whose wake condition holds is restored on a core of its cluster. -/
  | teamRestore (team : Nat) (core : Nat)
  /-- TEAM_END (R164): a team ends once its groups have ended and its memory operations completed, possibly completing a tile or grid. -/
  | teamEnd (team : Nat)
  /-- TEAM_GATE_OPEN (R291): the team gate opens so the other groups and the control thread start. -/
  | teamGateOpen (team : Nat)
  /-- CHILD_LAUNCH_VALIDATE (R201): the launch unit validates the next pending-launch entry and queues or rejects the grid. -/
  | childLaunchValidate (team : Nat)
  /-- CLUSTER_ADMIT (R73): a waiting cluster is admitted to its cores and its groups are placed in quarters. -/
  | clusterAdmit (grid : Nat) (cluster : Nat)
  /-- RECORD_GATHER (R67): a continuation record reaches a gatherer and a full group launches. -/
  | recordGather (op : Nat)
  /-- RECORD_GROUP_TIMEOUT (R67): RECTO cycles pass and a partial record group is launched. -/
  | recordGroupTimeout (die : Nat) (entry : Nat)
  /-- GATHERED_GROUP_ADMIT (R318): a gathered group is admitted to the lowest-indexed core that can hold it. -/
  | gatheredGroupAdmit (grid : Nat)
  /-- MIGRATE_LANDING (R68): a migrating group takes a free landing slot and resumes. -/
  | migrateLanding (group : Nat)
  /-- TEXTURE_SAMPLE (R274): the texture unit serves a queue entry and writes the results. -/
  | textureSample (core : Nat)
  /-- TEST_UNIT_SERVICE (R288): the box/triangle test unit serves an entry and writes the results. -/
  | testUnitService (core : Nat)
  /-- RASTER_CLASSIFY (R279): the raster unit reads a batch and classifies its triangles. -/
  | rasterClassify (quad : Nat)
  /-- SOFTWARE_QUEUE_APPEND (R281): once there is room, the unit appends a triangle to the software queue. -/
  | softwareQueueAppend (quad : Nat)
  /-- RAY_ACCEPT (R284): a ray record is accepted into a ray-table entry. -/
  | rayAccept (quad : Nat)
  /-- RAY_TRAVERSE (R285): a ray is traversed until a candidate suspends it or it ends and writes its hit record. -/
  | rayTraverse (quad : Nat) (ray : Nat)
  /-- CANDIDATE_GATHER (R286): a candidate enters the gatherer for its shader-table entry. -/
  | candidateGather (quad : Nat) (ray : Nat)
  /-- CANDIDATE_GROUP_TIMEOUT (R286): RECTO cycles pass and a partial callback group is launched. -/
  | candidateGroupTimeout (quad : Nat) (entry : Nat)
  /-- CALLBACK_GROUP_ADMIT (R286): a callback group is admitted to a core of the ray's die. -/
  | callbackGroupAdmit (grid : Nat)
  /-- VERDICT_APPLY (R287): the traversal unit applies a verdict to its candidate. -/
  | verdictApply (quad : Nat)
  /-- TILE_FETCH (R259): the tile fetch unit fetches and pins an entry's operands. -/
  | tileFetch (quad : Nat) (entry : Nat)
  /-- MCPYO_ARM (R267): once its destination lines are present, an MCPYO entry clears them. -/
  | mcpyoArm (quad : Nat) (entry : Nat)
  /-- ENGINE_GRANT (R258): the arbiter grants a ready reservation-table entry to the free engine. -/
  | engineGrant (quad : Nat)
  /-- ENGINE_OP_COMPLETE (R258): an engine operation completes, writes its tile and frees its entry. -/
  | engineOpComplete (quad : Nat)
  /-- COPY_EXECUTE (R190): the copy engine moves the rows, zero-fills faulting segments and completes. -/
  | copyExecute (op : Nat)
  /-- STORE_PERFORMED (R227): a store is performed at its scope and its counter entry completes. -/
  | storePerformed (op : Nat)
  /-- ATOMIC_PERFORM (R242): a far atomic executes at the home slice or bank and returns its value. -/
  | atomicPerform (op : Nat)
  /-- WRITE_BUFFER_COMMIT (R16): stores leave the bank write buffer in acceptance order. -/
  | writeBufferCommit (bank : Nat)
  /-- FENCE_COMPLETE (R185): a fence completes once earlier operations and read-backs are done. -/
  | fenceComplete (op : Nat)
  /-- LFENCE_COMPLETE (R186): an LFENCE completes once earlier stacked stores are accepted. -/
  | lfenceComplete (op : Nat)
  /-- ICINV_ACK (R187): all cores acknowledge an ICINV and the group unparks. -/
  | icinvAck (op : Nat)
  /-- PROMOTION_REQUEST (R241): the owner core receives a promotion request and publishes its write-backs at device scope. -/
  | promotionRequest (core : Nat)
  /-- HOME_EVICTION (R250): a home slice evicts a line with an owner record after performing promotion. -/
  | homeEviction (ty : MemType) (line : Nat)
  /-- PAGE_WALK (R342): a queued translation walk reads the page tables. -/
  | pageWalk (die : Nat)
  /-- STREAM_FILL (R276): the streaming engine reads, decodes and installs a stream page, then wakes the waiters. -/
  | streamFill (die : Nat)
  /-- QUEUE_DOORBELL (R293): a write of QTAIL, checked for overflow while enabled. -/
  | queueDoorbell (part : Nat) (queue : Nat) (value : Word)
  /-- QUEUE_CONTROL_WRITE (R293): a write of QCTL, stored with ENABLE clear when illegal. -/
  | queueControlWrite (part : Nat) (queue : Nat) (value : DWord)
  /-- QUEUE_BASE_WRITE (R293): a write of QBASE while the queue is enabled clears ENABLE. -/
  | queueBaseWrite (part : Nat) (queue : Nat) (value : DWord)
  /-- PRNGSEED_WRITE (R295): a write of PRNGSEED sets the generator state. -/
  | prngseedWrite (part : Nat) (value : Word)
  /-- PRNGSTATE_WRITE (R320): a write of PRNGSTATE stores the value, or 1 for 0. -/
  | prngstateWrite (part : Nat) (value : Word)
  /-- PRIVPOOL_WRITE (R374): a write of PRIVPOOL or PRIVSIZE, ignored with an event while allocations exist. -/
  | privpoolWrite (part : Nat) (reg : PoolReg) (value : DWord)
  /-- REGION_TABLE_WRITE (R385): a write of a region-table entry, refused while a team is resident. -/
  | regionTableWrite (part : Nat) (index : Nat) (bytes : List Byte)
  /-- REGISTER_WRITE (R197): a write of any register that has no behaviour of its own. -/
  | registerWrite (part : Nat) (reg : HostReg) (value : DWord)
  /-- LOTTERY_DRAW (R295): the launch unit draws a winning host queue and takes its next packet. -/
  | lotteryDraw (part : Nat)
  /-- PACKET_VALIDATE (R296): a taken packet is read, validated as a grid or graph, and QHEAD advances. -/
  | packetValidate (part : Nat)
  /-- TILE_LAUNCH (R312): a released tile obtains its blocks and is queued as a grid. -/
  | tileLaunch (part : Nat) (pass : Nat)
  /-- THERMAL_UPDATE (R313): every 10 us the thermal model updates and deferred clusters are retried. -/
  | thermalUpdate (die : Nat) (temps : List Nat) (power : List Nat)
  /-- JOB_DEADLINE (R317): a job's timer exceeds DEADLINE and the partition halts. -/
  | jobDeadline (job : Nat)
  /-- PREEMPT_HALT (R334): at PREDL1 every resident team is halted and saved. -/
  | preemptHalt (part : Nat)
  /-- PREEMPT_RESET (R335): at PREDL2 the unsaved part of the partition is reset. -/
  | preemptReset (part : Nat)
  /-- CREATE (R375): management command that creates a partition. -/
  | create (fn : Nat) (args : MArgs)
  /-- DESTROY (R375): management command that destroys a partition. -/
  | destroy (fn : Nat) (args : MArgs)
  /-- PREEMPT (R333): management command that requests pre-emption of a partition. -/
  | preempt (fn : Nat) (args : MArgs)
  /-- RESUME (R338): management command that restores a halted partition. -/
  | resume (fn : Nat) (args : MArgs)
  /-- SHOOTDOWN (R343): management command that invalidates translations of a range on all cores. -/
  | shootdown (fn : Nat) (args : MArgs)
  /-- FAULT_ANSWER (R331): management command that resolves or rejects a parked page fault. -/
  | faultAnswer (fn : Nat) (args : MArgs)
  /-- DEBUG_RESUME (R346): management command that resumes a group halted by a debug match. -/
  | debugResume (fn : Nat) (args : MArgs)
  /-- PATCH_LOAD (R361): management command that verifies and loads a Bezel patch image. -/
  | patchLoad (fn : Nat) (args : MArgs)
  /-- RAISE_FLOOR (R375): management command that raises the fused rollback floors. -/
  | raiseFloor (fn : Nat) (args : MArgs)
  /-- EVICT (R337): management command that moves a partition's stacked memory and image to GDDR. -/
  | evict (fn : Nat) (args : MArgs)
  /-- RELOAD (R375): management command that brings an evicted partition back. -/
  | reload (fn : Nat) (args : MArgs)
  /-- FLASH_WRITE (R375): management command that writes a firmware image to flash. -/
  | flashWrite (fn : Nat) (args : MArgs)
  /-- ATTEST (R384): management command that returns signed die and package reports. -/
  | attest (fn : Nat) (args : MArgs)
  /-- HOST_GDDR_ACCESS (R248): a host read or write of GDDR over CXL.mem reaches the home slice. -/
  | hostGddrAccess (addr : Nat) (count : Nat) (data : Option (List Byte))
  /-- EVENT_RECORD_DELIVER (R388): queued or spilled event records drain into a function's event ring. -/
  | eventRecordDeliver (fn : Nat)
  /-- HOST_LINK_DOWN (R376): host link loss halts every partition. -/
  | hostLinkDown
  /-- UCIE_RETRAIN (R379): a UCIe link retrains after a burst of errors. -/
  | ucieRetrain (die : Nat) (link : Link) (ok : Bool)
  /-- DVFS_SAMPLE (R392): every 1 ms firmware samples power and moves die DVFS steps. -/
  | dvfsSample (moves : List DvfsMove)
  /-- BACKGROUND_SCRUB (R34): a background scrub finding an uncorrectable error writes an event record. -/
  | backgroundScrub (die : Nat) (unit : Nat) (addr : DWord)
  /-- ROW_REPAIR (R17): firmware maps a faulty row onto a spare at run time. -/
  | rowRepair (die : Nat) (column : Nat) (bank : Nat) (row : Nat)
  /-- POWER_ON (R380): power-on or package reset runs the boot sequence. -/
  | powerOn (inp : BootInput)
  /-- POWER_OFF (R394): package power off loses all state. -/
  | powerOff
  /-- HOST_LINK_TRAINED (R376): the host link trains again after going down, and the HOST_LINK_DOWN records held in the spill rings are then delivered. -/
  | hostLinkTrained
  /-- CXL_CACHE_SNOOP (R248): a host write to HOST memory reaches the device over CXL.cache as a snoop that invalidates the copy of the line held in the device-side home slice. -/
  | cxlCacheSnoop (addr : Nat) (data : List Byte)
  deriving DecidableEq, Repr

end Sys2Proof
end

