-- ==== Sys2Proof/Config.lean ====
section
/-! DEFINITION. What the spec leaves to a part of the device or to the physical world: opaque constants with no body,
so that no statement can rest on a value of theirs (log entries 3, 4, 7, 9, 10, 62, 97 and 128). -/

namespace Sys2Proof

/-- A byte of memory that nothing has written since its contents became undefined; `seed` numbers the occasion. -/
opaque Config.undefByte : Nat → Nat → Byte

/-- A 32-bit register value the spec leaves undefined, taken at the counter `State.fresh`. -/
opaque Config.freeWord : Nat → Word

/-- A 64-bit register value the spec leaves undefined. -/
opaque Config.freeDWord : Nat → DWord

/-- How many 1.9 GHz clocks a step takes. -/
opaque Config.stepTicks : Nat → Nat

/-- Which result within its bound an SFU member returns: a fixed function of member, type and input (07 R136). -/
opaque Config.sfuPick : Nat → Ty → DWord → Nat

/-- Where within 2^-8 of the footprint the level of detail falls, in units of 2^-24 (17 R274). -/
opaque Config.lodPick : Nat → Nat

/-- Which of the sixteen entries of a 64 KiB page whose entries differ is used (21 R340). -/
opaque Config.entryPick : Nat → Nat

/-- Pages that the page pool of the streaming engines receives; the spec does not say who supplies them. -/
opaque Config.poolSupply : Nat → List Nat

/-- Whether the package is built with 128 GiB of GDDR instead of 64 (00 R7). -/
opaque Config.clamshell : Bool

/-- The secret in the fuses of the die at a position (25 R384). -/
opaque Config.fuseSecret : Nat → List Byte

/-- The per-message number of a die's signature over a byte string, which FIPS 186-5 leaves to the signer (25 R384). -/
opaque Config.signNumber : Nat → List Byte → Nat

/-- The certificate of a die's attestation key (25 R384). -/
opaque Config.certificate : Nat → List Byte

end Sys2Proof
end

