-- ==== Sys2Proof/Decode.lean ====
section
/-! DEFINITION. From the 96 bits of a slot to an instruction and back (05 R83 to R93, R103), the shape each member
gives its operand fields, and the decode checks 4 to 8 of 05 R101. -/

namespace Sys2Proof

/-! ### Codes of the enumerated fields -/

def codeOfTy : Ty → BitVec 4
  | .i32 => 0 | .n32 => 1 | .i64 => 2 | .n64 => 3 | .i16 => 4 | .n16 => 5 | .i8 => 6 | .n8 => 7
  | .f32 => 8 | .f16 => 9 | .bf16 => 10 | .f64 => 11 | .e4m3 => 12 | .e5m2 => 13 | .e2m1 => 14 | .b32 => 15

/-- The type with a code (05 R95). -/
def tyOfCode (c : BitVec 4) : Ty :=
  match c.toNat with
  | 0 => .i32 | 1 => .n32 | 2 => .i64 | 3 => .n64 | 4 => .i16 | 5 => .n16 | 6 => .i8 | 7 => .n8
  | 8 => .f32 | 9 => .f16 | 10 => .bf16 | 11 => .f64 | 12 => .e4m3 | 13 => .e5m2 | 14 => .e2m1 | _ => .b32

def codeOfRm : Rm → BitVec 2
  | .rne => 0 | .rtz => 1 | .rup => 2 | .rdn => 3

/-- The rounding mode with a code (05 R84). -/
def rmOfCode (c : BitVec 2) : Rm :=
  match c.toNat with
  | 0 => .rne | 1 => .rtz | 2 => .rup | _ => .rdn

def codeOfAm : Am → BitVec 2
  | .none => 0 | .neg => 1 | .abs => 2 | .negAbs => 3

def amOfCode (c : BitVec 2) : Am :=
  match c.toNat with
  | 0 => .none | 1 => .neg | 2 => .abs | _ => .negAbs

def codeOfKind : Kind → BitVec 2
  | .vec => 0 | .scalar => 1 | .imm => 2 | .reserved => 3

def kindOfCode (c : BitVec 2) : Kind :=
  match c.toNat with
  | 0 => .vec | 1 => .scalar | 2 => .imm | _ => .reserved

def codeOfOrd : Ord4 → BitVec 2
  | .relaxed => 0 | .acquire => 1 | .release => 2 | .acqRel => 3

def ordOfCode (c : BitVec 2) : Ord4 :=
  match c.toNat with
  | 0 => .relaxed | 1 => .acquire | 2 => .release | _ => .acqRel

def codeOfCond : Cond → BitVec 4
  | .eq => 0 | .ne => 1 | .lt => 2 | .le => 3 | .gt => 4 | .ge => 5 | .ltn => 6 | .len => 7 | .gtn => 8 | .gen => 9

/-- The condition of SCMP and VICMP that FN names (09 R143). -/
def condOfCode (n : Nat) : Option Cond :=
  match n with
  | 0 => some .eq | 1 => some .ne | 2 => some .lt | 3 => some .le | 4 => some .gt | 5 => some .ge
  | 6 => some .ltn | 7 => some .len | 8 => some .gtn | 9 => some .gen | _ => none

def codeOfFCond : FCond → BitVec 4
  | .eq => 0 | .ne => 1 | .lt => 2 | .le => 3 | .gt => 4 | .ge => 5 | .uno => 6 | .ord => 7

/-- The condition of VFCMP that FN names (09 R151). -/
def fcondOfCode (n : Nat) : Option FCond :=
  match n with
  | 0 => some .eq | 1 => some .ne | 2 => some .lt | 3 => some .le | 4 => some .gt | 5 => some .ge
  | 6 => some .uno | 7 => some .ord | _ => none

def codeOfAtomOp : AtomOp → BitVec 4
  | .add => 0 | .fadd => 1 | .min => 2 | .max => 3 | .and => 4 | .or => 5 | .xor => 6 | .exch => 7 | .cas => 8
  | .max64 => 9

/-- The operation of ATOM that FN names (11 R183); CLASP, FN 10, is a member of its own. -/
def atomOpOfCode (n : Nat) : Option AtomOp :=
  match n with
  | 0 => some .add | 1 => some .fadd | 2 => some .min | 3 => some .max | 4 => some .and | 5 => some .or
  | 6 => some .xor | 7 => some .exch | 8 => some .cas | 9 => some .max64 | _ => none

def codeOfRedOp : RedOp → BitVec 4
  | .add => 0 | .fadd => 1 | .min => 2 | .max => 3 | .and => 4 | .or => 5 | .xor => 6 | .max64 => 9

/-- The operation of RED that FN names. DEDUCED: R183 numbers MAX64 as FN 9 and makes 7, 8 and 10 illegal for RED,
where R103's list would give it FN 7 (log entry 15). -/
def redOpOfCode (n : Nat) : Option RedOp :=
  match n with
  | 0 => some .add | 1 => some .fadd | 2 => some .min | 3 => some .max | 4 => some .and | 5 => some .or
  | 6 => some .xor | 9 => some .max64 | _ => none

/-! ### Formats -/

/-- Bit `k` of a slot as a truth value. -/
def slotBit (w : SlotBits) (k : Nat) : Bool := (w.extractLsb' k 1) == 1

def oneBit (b : Bool) : BitVec 1 := if b then 1 else 0

/-- The V format's fields (05 R84). -/
def fieldsV (w : SlotBits) : VF where
  imm := w.extractLsb' 64 32
  sat := slotBit w 63
  rm := rmOfCode (w.extractLsb' 61 2)
  am := amOfCode (w.extractLsb' 59 2)
  ck := kindOfCode (w.extractLsb' 57 2)
  bk := kindOfCode (w.extractLsb' 55 2)
  rc := slotBit w 54
  rb := slotBit w 53
  ra := slotBit w 52
  c := w.extractLsb' 44 8
  b := w.extractLsb' 36 8
  a := w.extractLsb' 28 8
  d := w.extractLsb' 20 8
  gn := slotBit w 19
  gk := w.extractLsb' 15 4
  ty := tyOfCode (w.extractLsb' 11 4)

/-- A slot of the V format, from the high bit down (05 R84). -/
def wordV (op : BitVec 7) (fn : BitVec 4) (f : VF) : SlotBits :=
  f.imm ++ oneBit f.sat ++ codeOfRm f.rm ++ codeOfAm f.am ++ codeOfKind f.ck ++ codeOfKind f.bk ++ oneBit f.rc
    ++ oneBit f.rb ++ oneBit f.ra ++ f.c ++ f.b ++ f.a ++ f.d ++ oneBit f.gn ++ f.gk ++ codeOfTy f.ty ++ fn ++ op

/-- The M format's fields (05 R90). -/
def fieldsM (w : SlotBits) : MF where
  ofs := w.extractLsb' 64 32
  space := slotBit w 55
  rmt := slotBit w 54
  ch := w.extractLsb' 52 2
  nf := slotBit w 51
  ord := ordOfCode (w.extractLsb' 49 2)
  sc := w.extractLsb' 46 3
  cnt := w.extractLsb' 44 2
  b := w.extractLsb' 36 8
  a := w.extractLsb' 28 8
  d := w.extractLsb' 20 8
  gn := slotBit w 19
  gk := w.extractLsb' 15 4
  ty := tyOfCode (w.extractLsb' 11 4)

/-- A slot of the M format (05 R90). -/
def wordM (op : BitVec 7) (fn : BitVec 4) (f : MF) : SlotBits :=
  f.ofs ++ (0 : BitVec 8) ++ oneBit f.space ++ oneBit f.rmt ++ f.ch ++ oneBit f.nf ++ codeOfOrd f.ord ++ f.sc ++ f.cnt
    ++ f.b ++ f.a ++ f.d ++ oneBit f.gn ++ f.gk ++ codeOfTy f.ty ++ fn ++ op

/-- The B format's fields (05 R91). -/
def fieldsB (w : SlotBits) : BF where
  disp := w.extractLsb' 64 32
  c := w.extractLsb' 44 8
  b := w.extractLsb' 36 8
  a := w.extractLsb' 28 8
  uni := slotBit w 20
  gn := slotBit w 19
  gk := w.extractLsb' 15 4

/-- A slot of the B format (05 R91). -/
def wordB (op : BitVec 7) (fn : BitVec 4) (f : BF) : SlotBits :=
  f.disp ++ (0 : BitVec 12) ++ f.c ++ f.b ++ f.a ++ (0 : BitVec 7) ++ oneBit f.uni ++ oneBit f.gn ++ f.gk
    ++ (0 : BitVec 4) ++ fn ++ op

/-- The X format's fields (05 R92). -/
def fieldsX (w : SlotBits) : XF where
  prio := w.extractLsb' 80 2
  tag := w.extractLsb' 64 16
  ovw := slotBit w 56
  gcn := slotBit w 55
  gc := w.extractLsb' 52 3
  ss := w.extractLsb' 46 6
  sb := w.extractLsb' 40 6
  sa := w.extractLsb' 34 6
  kb := w.extractLsb' 28 6
  spc := w.extractLsb' 25 3
  mp := w.extractLsb' 22 3
  md := w.extractLsb' 19 3
  tb := tyOfCode (w.extractLsb' 15 4)
  ta := tyOfCode (w.extractLsb' 11 4)

/-- A slot of the X format (05 R92). -/
def wordX (op : BitVec 7) (fn : BitVec 4) (f : XF) : SlotBits :=
  (0 : BitVec 14) ++ f.prio ++ f.tag ++ (0 : BitVec 7) ++ oneBit f.ovw ++ oneBit f.gcn ++ f.gc ++ f.ss ++ f.sb ++ f.sa
    ++ f.kb ++ f.spc ++ f.mp ++ f.md ++ codeOfTy f.tb ++ codeOfTy f.ta ++ fn ++ op

/-- The C format's fields (05 R93). -/
def fieldsC (w : SlotBits) : CF where
  csr := w.extractLsb' 64 12
  a := w.extractLsb' 28 8
  d := w.extractLsb' 20 8
  gn := slotBit w 19
  gk := w.extractLsb' 15 4

/-- A slot of the C format (05 R93). -/
def wordC (op : BitVec 7) (fn : BitVec 4) (f : CF) : SlotBits :=
  (0 : BitVec 20) ++ f.csr ++ (0 : BitVec 28) ++ f.a ++ f.d ++ oneBit f.gn ++ f.gk ++ (0 : BitVec 4) ++ fn ++ op

/-- The formats (05 R84 to R93); S and K share the V layout. -/
inductive Format where
  | v | m | b | x | c
  deriving DecidableEq, Repr

/-- The format of an assigned major (05 R103). -/
def formatOf (major : Nat) : Format :=
  if major = 0x00 ∨ (0x50 ≤ major ∧ major ≤ 0x56) then .b
  else if (0x58 ≤ major ∧ major ≤ 0x69) ∨ (0x6C ≤ major ∧ major ≤ 0x6F) then .m
  else if 0x70 ≤ major ∧ major ≤ 0x73 then .x
  else if major = 0x6A ∨ major = 0x78 ∨ major = 0x79 then .c
  else .v

/-- The reserved bits of a format are 0 (05 R90 to R93); a nonzero one is ILLEGAL_FIELD. -/
def reservedZero (fm : Format) (w : SlotBits) : Bool :=
  match fm with
  | .v => true
  | .m => w.extractLsb' 56 8 == 0
  | .b => w.extractLsb' 52 12 == 0 && w.extractLsb' 21 7 == 0 && w.extractLsb' 11 4 == 0
  | .x => w.extractLsb' 82 14 == 0 && w.extractLsb' 57 7 == 0
  | .c => w.extractLsb' 76 20 == 0 && w.extractLsb' 36 28 == 0 && w.extractLsb' 11 4 == 0

/-- Why a slot value is no instruction (05 R100, R101 steps 3 and 5). -/
inductive Reject where
  /-- An unassigned major or an unassigned FN of an assigned one. -/
  | unassigned
  /-- Major 0x7C to 0x7F. -/
  | reservedMajor
  /-- A reserved bit of the format is set. -/
  | reservedBits
  deriving DecidableEq, Repr

def majorOf (w : SlotBits) : Nat := (w.extractLsb' 0 7).toNat
def fnOf (w : SlotBits) : Nat := (w.extractLsb' 7 4).toNat

/-- The instruction a major and FN name, with its fields read from the slot (05 R103). -/
def construct (w : SlotBits) : Option Instr :=
  match majorOf w with
  | 0x00 =>
    match fnOf w with
    | 0 => some (.nop (fieldsB w))
    | 1 => some (.exit (fieldsB w))
    | 2 => some (.yield (fieldsB w))
    | _ => none
  | 0x01 =>
    match fnOf w with
    | 0 => some (.sadd (fieldsV w))
    | 1 => some (.ssub (fieldsV w))
    | 2 => some (.smul (fieldsV w))
    | 3 => some (.smulh (fieldsV w))
    | 4 => some (.smulhn (fieldsV w))
    | 5 => some (.sand (fieldsV w))
    | 6 => some (.sor (fieldsV w))
    | 7 => some (.sxor (fieldsV w))
    | 8 => some (.sandn (fieldsV w))
    | 9 => some (.sshl (fieldsV w))
    | 10 => some (.sshr (fieldsV w))
    | 11 => some (.ssra (fieldsV w))
    | 12 => some (.smin (fieldsV w))
    | 13 => some (.smax (fieldsV w))
    | 14 => some (.sminn (fieldsV w))
    | 15 => some (.smaxn (fieldsV w))
    | _ => none
  | 0x02 =>
    match fnOf w with
    | 0 => some (.smov (fieldsV w))
    | 1 => some (.sli (fieldsV w))
    | 2 => some (.slih (fieldsV w))
    | 3 => some (.ssel (fieldsV w))
    | 4 => some (.sbfe (fieldsV w))
    | 5 => some (.sbfi (fieldsV w))
    | 6 => some (.spopc (fieldsV w))
    | 7 => some (.sclz (fieldsV w))
    | 8 => some (.sbrev (fieldsV w))
    | _ => none
  | 0x03 => (condOfCode (fnOf w)).map fun k => .scmp k (fieldsV w)
  | 0x04 =>
    match fnOf w with
    | 0 => some (.sdiv (fieldsV w))
    | 1 => some (.sdivn (fieldsV w))
    | 2 => some (.srem (fieldsV w))
    | 3 => some (.sremn (fieldsV w))
    | _ => none
  | 0x10 =>
    match fnOf w with
    | 0 => some (.vadd (fieldsV w))
    | 1 => some (.vsub (fieldsV w))
    | 2 => some (.vrsub (fieldsV w))
    | 3 => some (.vmul (fieldsV w))
    | 4 => some (.vmulh (fieldsV w))
    | 5 => some (.vmulhn (fieldsV w))
    | 6 => some (.vand (fieldsV w))
    | 7 => some (.vor (fieldsV w))
    | 8 => some (.vxor (fieldsV w))
    | 9 => some (.vandn (fieldsV w))
    | 10 => some (.vshl (fieldsV w))
    | 11 => some (.vshr (fieldsV w))
    | 12 => some (.vsra (fieldsV w))
    | 13 => some (.vmin (fieldsV w))
    | 14 => some (.vmax (fieldsV w))
    | 15 => some (.vabsd (fieldsV w))
    | _ => none
  | 0x11 =>
    match fnOf w with
    | 0 => some (.vmad (fieldsV w))
    | 1 => some (.vmov (fieldsV w))
    | 2 => some (.vsel (fieldsV w))
    | 3 => some (.vbfe (fieldsV w))
    | 4 => some (.vbfi (fieldsV w))
    | 5 => some (.vpopc (fieldsV w))
    | 6 => some (.vclz (fieldsV w))
    | 7 => some (.vbrev (fieldsV w))
    | 8 => some (.vdot4 (fieldsV w))
    | 9 => some (.vdot2 (fieldsV w))
    | 10 => some (.vmadw (fieldsV w))
    | _ => none
  | 0x12 => (condOfCode (fnOf w)).map fun k => .vicmp k (fieldsV w)
  | 0x13 =>
    match fnOf w with
    | 0 => some (.vdiv (fieldsV w))
    | 1 => some (.vdivn (fieldsV w))
    | 2 => some (.vrem (fieldsV w))
    | 3 => some (.vremn (fieldsV w))
    | _ => none
  | 0x20 =>
    match fnOf w with
    | 0 => some (.vfadd (fieldsV w))
    | 1 => some (.vfsub (fieldsV w))
    | 2 => some (.vfmul (fieldsV w))
    | 3 => some (.vfma (fieldsV w))
    | 4 => some (.vfms (fieldsV w))
    | 5 => some (.vfnma (fieldsV w))
    | 6 => some (.vfnms (fieldsV w))
    | 7 => some (.vfmin (fieldsV w))
    | 8 => some (.vfmax (fieldsV w))
    | 9 => some (.vfminn (fieldsV w))
    | 10 => some (.vfmaxn (fieldsV w))
    | 11 => some (.vfcpys (fieldsV w))
    | _ => none
  | 0x21 => (fcondOfCode (fnOf w)).map fun k => .vfcmp k (fieldsV w)
  | 0x22 =>
    match fnOf w with
    | 0 => some (.vfrcp (fieldsV w))
    | 1 => some (.vfrsq (fieldsV w))
    | 2 => some (.vfsqrt (fieldsV w))
    | 3 => some (.vfexp2 (fieldsV w))
    | 4 => some (.vflog2 (fieldsV w))
    | 5 => some (.vfsinp (fieldsV w))
    | 6 => some (.vfcosp (fieldsV w))
    | 7 => some (.vftanh (fieldsV w))
    | _ => none
  | 0x23 =>
    match fnOf w with
    | 0 => some (.vfdiv (fieldsV w))
    | 1 => some (.vfsqrtc (fieldsV w))
    | _ => none
  | 0x24 =>
    match fnOf w with
    | 0 => some (.vfcvt (fieldsV w))
    | 1 => some (.vftoi (fieldsV w))
    | 2 => some (.vitof (fieldsV w))
    | 3 => some (.vfrint (fieldsV w))
    | 4 => some (.vfclass (fieldsV w))
    | 5 => some (.vfgetx (fieldsV w))
    | 6 => some (.vfldx (fieldsV w))
    | _ => none
  | 0x30 =>
    match fnOf w with
    | 0 => some (.vpadd (fieldsV w))
    | 1 => some (.vpsub (fieldsV w))
    | 2 => some (.vpmul (fieldsV w))
    | 3 => some (.vpfma (fieldsV w))
    | 4 => some (.vpmin (fieldsV w))
    | 5 => some (.vpmax (fieldsV w))
    | _ => none
  | 0x31 =>
    match fnOf w with
    | 0 => some (.vpack2 (fieldsV w))
    | 1 => some (.vunpk2 (fieldsV w))
    | 2 => some (.vpack4 (fieldsV w))
    | 3 => some (.vunpk4 (fieldsV w))
    | _ => none
  | 0x32 =>
    match fnOf w with
    | 0 => some (.vscl (fieldsV w))
    | _ => none
  | 0x38 =>
    match fnOf w with
    | 0 => some (.vfaddx (fieldsV w))
    | 1 => some (.vfsubx (fieldsV w))
    | 2 => some (.vfmulx (fieldsV w))
    | 3 => some (.vfnorm (fieldsV w))
    | _ => none
  | 0x39 =>
    match fnOf w with
    | 0 => some (.dwadd (fieldsV w))
    | 1 => some (.dwsub (fieldsV w))
    | 2 => some (.dwmul (fieldsV w))
    | 3 => some (.dwadds (fieldsV w))
    | 4 => some (.dwmuls (fieldsV w))
    | _ => none
  | 0x3A =>
    match fnOf w with
    | 0 => some (.vredx (fieldsV w))
    | 1 => some (.vreddw (fieldsV w))
    | 2 => some (.vdotx (fieldsV w))
    | _ => none
  | 0x40 =>
    match fnOf w with
    | 0 => some (.vshfi (fieldsV w))
    | 1 => some (.vshfu (fieldsV w))
    | 2 => some (.vshfd (fieldsV w))
    | 3 => some (.vshfx (fieldsV w))
    | 4 => some (.vbcast (fieldsV w))
    | _ => none
  | 0x41 =>
    match fnOf w with
    | 0 => some (.vredadd (fieldsV w))
    | 1 => some (.vredmin (fieldsV w))
    | 2 => some (.vredmax (fieldsV w))
    | 3 => some (.vredand (fieldsV w))
    | 4 => some (.vredor (fieldsV w))
    | 5 => some (.vredxor (fieldsV w))
    | 6 => some (.vredfadd (fieldsV w))
    | 7 => some (.vredfmin (fieldsV w))
    | 8 => some (.vredfmax (fieldsV w))
    | _ => none
  | 0x42 =>
    match fnOf w with
    | 0 => some (.vscani (fieldsV w))
    | 1 => some (.vscane (fieldsV w))
    | _ => none
  | 0x43 =>
    match fnOf w with
    | 0 => some (.vballot (fieldsV w))
    | 1 => some (.vany (fieldsV w))
    | 2 => some (.vall (fieldsV w))
    | 3 => some (.vmatch (fieldsV w))
    | _ => none
  | 0x44 =>
    match fnOf w with
    | 0 => some (.ddx (fieldsV w))
    | 1 => some (.ddy (fieldsV w))
    | 2 => some (.ddxf (fieldsV w))
    | 3 => some (.ddyf (fieldsV w))
    | _ => none
  | 0x45 =>
    match fnOf w with
    | 0 => some (.vqswx (fieldsV w))
    | 1 => some (.vqswy (fieldsV w))
    | 2 => some (.vqswd (fieldsV w))
    | _ => none
  | 0x46 =>
    match fnOf w with
    | 0 => some (.mstat (fieldsV w))
    | _ => none
  | 0x48 =>
    match fnOf w with
    | 0 => some (.kand (fieldsV w))
    | 1 => some (.kor (fieldsV w))
    | 2 => some (.kxor (fieldsV w))
    | 3 => some (.kandn (fieldsV w))
    | 4 => some (.knot (fieldsV w))
    | 5 => some (.kmov (fieldsV w))
    | _ => none
  | 0x49 =>
    match fnOf w with
    | 0 => some (.kpopc (fieldsV w))
    | 1 => some (.kffs (fieldsV w))
    | 2 => some (.kset (fieldsV w))
    | 3 => some (.kget (fieldsV w))
    | 4 => some (.ktov (fieldsV w))
    | 5 => some (.vtok (fieldsV w))
    | _ => none
  | 0x50 =>
    match fnOf w with
    | 0 => some (.bra (fieldsB w))
    | 1 => some (.brx (fieldsB w))
    | _ => none
  | 0x51 =>
    match fnOf w with
    | 0 => some (.call (fieldsB w))
    | 1 => some (.callx (fieldsB w))
    | 2 => some (.ret (fieldsB w))
    | _ => none
  | 0x52 =>
    match fnOf w with
    | 0 => some (.meet (fieldsB w))
    | 1 => some (.join (fieldsB w))
    | _ => none
  | 0x53 =>
    match fnOf w with
    | 0 => some (.succ (fieldsB w))
    | 1 => some (.succ2 (fieldsB w))
    | _ => none
  | 0x54 =>
    match fnOf w with
    | 0 => some (.enter (fieldsB w))
    | 1 => some (.leave (fieldsB w))
    | _ => none
  | 0x55 =>
    match fnOf w with
    | 0 => some (.trap (fieldsB w))
    | 1 => some (.bkpt (fieldsB w))
    | 2 => some (.tret (fieldsB w))
    | _ => none
  | 0x56 =>
    match fnOf w with
    | 0 => some (.migrate (fieldsB w))
    | _ => none
  | 0x58 =>
    match fnOf w with
    | 0 => some (.ld (fieldsM w))
    | 1 => some (.ldnc (fieldsM w))
    | 2 => some (.ldr (fieldsM w))
    | _ => none
  | 0x59 =>
    match fnOf w with
    | 0 => some (.st (fieldsM w))
    | 1 => some (.stnc (fieldsM w))
    | 2 => some (.str (fieldsM w))
    | _ => none
  | 0x5A =>
    match fnOf w with
    | 0 => some (.lds (fieldsM w))
    | 1 => some (.sts (fieldsM w))
    | _ => none
  | 0x5B =>
    match fnOf w with
    | 0 => some (.ldp (fieldsM w))
    | 1 => some (.stp (fieldsM w))
    | _ => none
  | 0x5C => if fnOf w = 10 then some (.atomClasp (fieldsM w)) else (atomOpOfCode (fnOf w)).map fun k => .atom k (fieldsM w)
  | 0x5D => (redOpOfCode (fnOf w)).map fun k => .red k (fieldsM w)
  | 0x5E =>
    match fnOf w with
    | 0 => some (.fence (fieldsM w))
    | 1 => some (.lfence (fieldsM w))
    | 2 => some (.icinv (fieldsM w))
    | 3 => some (.cinv (fieldsM w))
    | 4 => some (.cwb (fieldsM w))
    | 5 => some (.pref (fieldsM w))
    | _ => none
  | 0x5F =>
    match fnOf w with
    | 0 => some (.cpy (fieldsM w))
    | 1 => some (.waitc (fieldsM w))
    | _ => none
  | 0x68 =>
    match fnOf w with
    | 0 => some (.emit (fieldsM w))
    | _ => none
  | 0x69 =>
    match fnOf w with
    | 0 => some (.launch (fieldsM w))
    | _ => none
  | 0x6A =>
    match fnOf w with
    | 0 => some (.getid (fieldsC w))
    | 1 => some (.clock (fieldsC w))
    | _ => none
  | 0x6C =>
    match fnOf w with
    | 0 => some (.tex (fieldsM w))
    | 1 => some (.texl (fieldsM w))
    | 2 => some (.texg (fieldsM w))
    | 3 => some (.texq (fieldsM w))
    | _ => none
  | 0x6D =>
    match fnOf w with
    | 0 => some (.rastq (fieldsM w))
    | _ => none
  | 0x6E =>
    match fnOf w with
    | 0 => some (.trace (fieldsM w))
    | 1 => some (.verdict (fieldsM w))
    | _ => none
  | 0x6F =>
    match fnOf w with
    | 0 => some (.boxt (fieldsM w))
    | 1 => some (.trit (fieldsM w))
    | _ => none
  | 0x70 =>
    match fnOf w with
    | 0 => some (.mma (fieldsX w))
    | 1 => some (.mmas (fieldsX w))
    | _ => none
  | 0x71 =>
    match fnOf w with
    | 0 => some (.mscl (fieldsX w))
    | _ => none
  | 0x72 =>
    match fnOf w with
    | 0 => some (.mzero (fieldsX w))
    | 1 => some (.mcpyo (fieldsX w))
    | 2 => some (.mcpyi (fieldsX w))
    | _ => none
  | 0x73 =>
    match fnOf w with
    | 0 => some (.mwait (fieldsX w))
    | 1 => some (.ppoint (fieldsX w))
    | _ => none
  | 0x78 =>
    match fnOf w with
    | 0 => some (.csrr (fieldsC w))
    | 1 => some (.csrw (fieldsC w))
    | 2 => some (.csrs (fieldsC w))
    | 3 => some (.csrc (fieldsC w))
    | _ => none
  | 0x79 =>
    match fnOf w with
    | 0 => some (.evrd (fieldsC w))
    | _ => none
  | _ => none

/-- Decoding of any slot value (05 R100, R103). -/
def decode (w : SlotBits) : Except Reject Instr :=
  match construct w with
  | some i => if reservedZero (formatOf (majorOf w)) w then .ok i else .error .reservedBits
  | none => if 0x7C ≤ majorOf w then .error .reservedMajor else .error .unassigned

/-- The slot that holds an instruction, from the same tables (05 R84 to R93, R103); the steps of the device and a
slot value that is no instruction have none. -/
def encode : Instr → Option SlotBits
  | .nop f => some (wordB 0x00 0 f)
  | .exit f => some (wordB 0x00 1 f)
  | .yield f => some (wordB 0x00 2 f)
  | .sadd f => some (wordV 0x01 0 f)
  | .ssub f => some (wordV 0x01 1 f)
  | .smul f => some (wordV 0x01 2 f)
  | .smulh f => some (wordV 0x01 3 f)
  | .smulhn f => some (wordV 0x01 4 f)
  | .sand f => some (wordV 0x01 5 f)
  | .sor f => some (wordV 0x01 6 f)
  | .sxor f => some (wordV 0x01 7 f)
  | .sandn f => some (wordV 0x01 8 f)
  | .sshl f => some (wordV 0x01 9 f)
  | .sshr f => some (wordV 0x01 10 f)
  | .ssra f => some (wordV 0x01 11 f)
  | .smin f => some (wordV 0x01 12 f)
  | .smax f => some (wordV 0x01 13 f)
  | .sminn f => some (wordV 0x01 14 f)
  | .smaxn f => some (wordV 0x01 15 f)
  | .smov f => some (wordV 0x02 0 f)
  | .sli f => some (wordV 0x02 1 f)
  | .slih f => some (wordV 0x02 2 f)
  | .ssel f => some (wordV 0x02 3 f)
  | .sbfe f => some (wordV 0x02 4 f)
  | .sbfi f => some (wordV 0x02 5 f)
  | .spopc f => some (wordV 0x02 6 f)
  | .sclz f => some (wordV 0x02 7 f)
  | .sbrev f => some (wordV 0x02 8 f)
  | .scmp k f => some (wordV 0x03 (codeOfCond k) f)
  | .sdiv f => some (wordV 0x04 0 f)
  | .sdivn f => some (wordV 0x04 1 f)
  | .srem f => some (wordV 0x04 2 f)
  | .sremn f => some (wordV 0x04 3 f)
  | .vadd f => some (wordV 0x10 0 f)
  | .vsub f => some (wordV 0x10 1 f)
  | .vrsub f => some (wordV 0x10 2 f)
  | .vmul f => some (wordV 0x10 3 f)
  | .vmulh f => some (wordV 0x10 4 f)
  | .vmulhn f => some (wordV 0x10 5 f)
  | .vand f => some (wordV 0x10 6 f)
  | .vor f => some (wordV 0x10 7 f)
  | .vxor f => some (wordV 0x10 8 f)
  | .vandn f => some (wordV 0x10 9 f)
  | .vshl f => some (wordV 0x10 10 f)
  | .vshr f => some (wordV 0x10 11 f)
  | .vsra f => some (wordV 0x10 12 f)
  | .vmin f => some (wordV 0x10 13 f)
  | .vmax f => some (wordV 0x10 14 f)
  | .vabsd f => some (wordV 0x10 15 f)
  | .vmad f => some (wordV 0x11 0 f)
  | .vmov f => some (wordV 0x11 1 f)
  | .vsel f => some (wordV 0x11 2 f)
  | .vbfe f => some (wordV 0x11 3 f)
  | .vbfi f => some (wordV 0x11 4 f)
  | .vpopc f => some (wordV 0x11 5 f)
  | .vclz f => some (wordV 0x11 6 f)
  | .vbrev f => some (wordV 0x11 7 f)
  | .vdot4 f => some (wordV 0x11 8 f)
  | .vdot2 f => some (wordV 0x11 9 f)
  | .vmadw f => some (wordV 0x11 10 f)
  | .vicmp k f => some (wordV 0x12 (codeOfCond k) f)
  | .vdiv f => some (wordV 0x13 0 f)
  | .vdivn f => some (wordV 0x13 1 f)
  | .vrem f => some (wordV 0x13 2 f)
  | .vremn f => some (wordV 0x13 3 f)
  | .vfadd f => some (wordV 0x20 0 f)
  | .vfsub f => some (wordV 0x20 1 f)
  | .vfmul f => some (wordV 0x20 2 f)
  | .vfma f => some (wordV 0x20 3 f)
  | .vfms f => some (wordV 0x20 4 f)
  | .vfnma f => some (wordV 0x20 5 f)
  | .vfnms f => some (wordV 0x20 6 f)
  | .vfmin f => some (wordV 0x20 7 f)
  | .vfmax f => some (wordV 0x20 8 f)
  | .vfminn f => some (wordV 0x20 9 f)
  | .vfmaxn f => some (wordV 0x20 10 f)
  | .vfcpys f => some (wordV 0x20 11 f)
  | .vfcmp k f => some (wordV 0x21 (codeOfFCond k) f)
  | .vfrcp f => some (wordV 0x22 0 f)
  | .vfrsq f => some (wordV 0x22 1 f)
  | .vfsqrt f => some (wordV 0x22 2 f)
  | .vfexp2 f => some (wordV 0x22 3 f)
  | .vflog2 f => some (wordV 0x22 4 f)
  | .vfsinp f => some (wordV 0x22 5 f)
  | .vfcosp f => some (wordV 0x22 6 f)
  | .vftanh f => some (wordV 0x22 7 f)
  | .vfdiv f => some (wordV 0x23 0 f)
  | .vfsqrtc f => some (wordV 0x23 1 f)
  | .vfcvt f => some (wordV 0x24 0 f)
  | .vftoi f => some (wordV 0x24 1 f)
  | .vitof f => some (wordV 0x24 2 f)
  | .vfrint f => some (wordV 0x24 3 f)
  | .vfclass f => some (wordV 0x24 4 f)
  | .vfgetx f => some (wordV 0x24 5 f)
  | .vfldx f => some (wordV 0x24 6 f)
  | .vpadd f => some (wordV 0x30 0 f)
  | .vpsub f => some (wordV 0x30 1 f)
  | .vpmul f => some (wordV 0x30 2 f)
  | .vpfma f => some (wordV 0x30 3 f)
  | .vpmin f => some (wordV 0x30 4 f)
  | .vpmax f => some (wordV 0x30 5 f)
  | .vpack2 f => some (wordV 0x31 0 f)
  | .vunpk2 f => some (wordV 0x31 1 f)
  | .vpack4 f => some (wordV 0x31 2 f)
  | .vunpk4 f => some (wordV 0x31 3 f)
  | .vscl f => some (wordV 0x32 0 f)
  | .vfaddx f => some (wordV 0x38 0 f)
  | .vfsubx f => some (wordV 0x38 1 f)
  | .vfmulx f => some (wordV 0x38 2 f)
  | .vfnorm f => some (wordV 0x38 3 f)
  | .dwadd f => some (wordV 0x39 0 f)
  | .dwsub f => some (wordV 0x39 1 f)
  | .dwmul f => some (wordV 0x39 2 f)
  | .dwadds f => some (wordV 0x39 3 f)
  | .dwmuls f => some (wordV 0x39 4 f)
  | .vredx f => some (wordV 0x3A 0 f)
  | .vreddw f => some (wordV 0x3A 1 f)
  | .vdotx f => some (wordV 0x3A 2 f)
  | .vshfi f => some (wordV 0x40 0 f)
  | .vshfu f => some (wordV 0x40 1 f)
  | .vshfd f => some (wordV 0x40 2 f)
  | .vshfx f => some (wordV 0x40 3 f)
  | .vbcast f => some (wordV 0x40 4 f)
  | .vredadd f => some (wordV 0x41 0 f)
  | .vredmin f => some (wordV 0x41 1 f)
  | .vredmax f => some (wordV 0x41 2 f)
  | .vredand f => some (wordV 0x41 3 f)
  | .vredor f => some (wordV 0x41 4 f)
  | .vredxor f => some (wordV 0x41 5 f)
  | .vredfadd f => some (wordV 0x41 6 f)
  | .vredfmin f => some (wordV 0x41 7 f)
  | .vredfmax f => some (wordV 0x41 8 f)
  | .vscani f => some (wordV 0x42 0 f)
  | .vscane f => some (wordV 0x42 1 f)
  | .vballot f => some (wordV 0x43 0 f)
  | .vany f => some (wordV 0x43 1 f)
  | .vall f => some (wordV 0x43 2 f)
  | .vmatch f => some (wordV 0x43 3 f)
  | .ddx f => some (wordV 0x44 0 f)
  | .ddy f => some (wordV 0x44 1 f)
  | .ddxf f => some (wordV 0x44 2 f)
  | .ddyf f => some (wordV 0x44 3 f)
  | .vqswx f => some (wordV 0x45 0 f)
  | .vqswy f => some (wordV 0x45 1 f)
  | .vqswd f => some (wordV 0x45 2 f)
  | .mstat f => some (wordV 0x46 0 f)
  | .kand f => some (wordV 0x48 0 f)
  | .kor f => some (wordV 0x48 1 f)
  | .kxor f => some (wordV 0x48 2 f)
  | .kandn f => some (wordV 0x48 3 f)
  | .knot f => some (wordV 0x48 4 f)
  | .kmov f => some (wordV 0x48 5 f)
  | .kpopc f => some (wordV 0x49 0 f)
  | .kffs f => some (wordV 0x49 1 f)
  | .kset f => some (wordV 0x49 2 f)
  | .kget f => some (wordV 0x49 3 f)
  | .ktov f => some (wordV 0x49 4 f)
  | .vtok f => some (wordV 0x49 5 f)
  | .bra f => some (wordB 0x50 0 f)
  | .brx f => some (wordB 0x50 1 f)
  | .call f => some (wordB 0x51 0 f)
  | .callx f => some (wordB 0x51 1 f)
  | .ret f => some (wordB 0x51 2 f)
  | .meet f => some (wordB 0x52 0 f)
  | .join f => some (wordB 0x52 1 f)
  | .succ f => some (wordB 0x53 0 f)
  | .succ2 f => some (wordB 0x53 1 f)
  | .enter f => some (wordB 0x54 0 f)
  | .leave f => some (wordB 0x54 1 f)
  | .trap f => some (wordB 0x55 0 f)
  | .bkpt f => some (wordB 0x55 1 f)
  | .tret f => some (wordB 0x55 2 f)
  | .migrate f => some (wordB 0x56 0 f)
  | .ld f => some (wordM 0x58 0 f)
  | .ldnc f => some (wordM 0x58 1 f)
  | .ldr f => some (wordM 0x58 2 f)
  | .st f => some (wordM 0x59 0 f)
  | .stnc f => some (wordM 0x59 1 f)
  | .str f => some (wordM 0x59 2 f)
  | .lds f => some (wordM 0x5A 0 f)
  | .sts f => some (wordM 0x5A 1 f)
  | .ldp f => some (wordM 0x5B 0 f)
  | .stp f => some (wordM 0x5B 1 f)
  | .atom k f => some (wordM 0x5C (codeOfAtomOp k) f)
  | .atomClasp f => some (wordM 0x5C 10 f)
  | .red k f => some (wordM 0x5D (codeOfRedOp k) f)
  | .fence f => some (wordM 0x5E 0 f)
  | .lfence f => some (wordM 0x5E 1 f)
  | .icinv f => some (wordM 0x5E 2 f)
  | .cinv f => some (wordM 0x5E 3 f)
  | .cwb f => some (wordM 0x5E 4 f)
  | .pref f => some (wordM 0x5E 5 f)
  | .cpy f => some (wordM 0x5F 0 f)
  | .waitc f => some (wordM 0x5F 1 f)
  | .emit f => some (wordM 0x68 0 f)
  | .launch f => some (wordM 0x69 0 f)
  | .getid f => some (wordC 0x6A 0 f)
  | .clock f => some (wordC 0x6A 1 f)
  | .tex f => some (wordM 0x6C 0 f)
  | .texl f => some (wordM 0x6C 1 f)
  | .texg f => some (wordM 0x6C 2 f)
  | .texq f => some (wordM 0x6C 3 f)
  | .rastq f => some (wordM 0x6D 0 f)
  | .trace f => some (wordM 0x6E 0 f)
  | .verdict f => some (wordM 0x6E 1 f)
  | .boxt f => some (wordM 0x6F 0 f)
  | .trit f => some (wordM 0x6F 1 f)
  | .mma f => some (wordX 0x70 0 f)
  | .mmas f => some (wordX 0x70 1 f)
  | .mscl f => some (wordX 0x71 0 f)
  | .mzero f => some (wordX 0x72 0 f)
  | .mcpyo f => some (wordX 0x72 1 f)
  | .mcpyi f => some (wordX 0x72 2 f)
  | .mwait f => some (wordX 0x73 0 f)
  | .ppoint f => some (wordX 0x73 1 f)
  | .csrr f => some (wordC 0x78 0 f)
  | .csrw f => some (wordC 0x78 1 f)
  | .csrs f => some (wordC 0x78 2 f)
  | .csrc f => some (wordC 0x78 3 f)
  | .evrd f => some (wordC 0x79 0 f)
  | .illegalOpcode _ => none
  | .pendingResultLands _ => none
  | .runLimitSwitch _ => none
  | .yieldExpiry _ => none
  | .regroupTimeout _ _ => none
  | .teamSwap _ => none
  | .teamRestore _ _ => none
  | .teamEnd _ => none
  | .teamGateOpen _ => none
  | .childLaunchValidate _ => none
  | .clusterAdmit _ _ => none
  | .recordGather _ => none
  | .recordGroupTimeout _ _ => none
  | .gatheredGroupAdmit _ => none
  | .migrateLanding _ => none
  | .textureSample _ => none
  | .testUnitService _ => none
  | .rasterClassify _ => none
  | .softwareQueueAppend _ => none
  | .rayAccept _ => none
  | .rayTraverse _ _ => none
  | .candidateGather _ _ => none
  | .candidateGroupTimeout _ _ => none
  | .callbackGroupAdmit _ => none
  | .verdictApply _ => none
  | .tileFetch _ _ => none
  | .mcpyoArm _ _ => none
  | .engineGrant _ => none
  | .engineOpComplete _ => none
  | .copyExecute _ => none
  | .storePerformed _ => none
  | .atomicPerform _ => none
  | .writeBufferCommit _ => none
  | .fenceComplete _ => none
  | .lfenceComplete _ => none
  | .icinvAck _ => none
  | .promotionRequest _ => none
  | .homeEviction _ _ => none
  | .pageWalk _ => none
  | .streamFill _ => none
  | .queueDoorbell _ _ _ => none
  | .queueControlWrite _ _ _ => none
  | .queueBaseWrite _ _ _ => none
  | .prngseedWrite _ _ => none
  | .prngstateWrite _ _ => none
  | .privpoolWrite _ _ _ => none
  | .regionTableWrite _ _ _ => none
  | .registerWrite _ _ _ => none
  | .lotteryDraw _ => none
  | .packetValidate _ => none
  | .tileLaunch _ _ => none
  | .thermalUpdate _ _ _ => none
  | .jobDeadline _ => none
  | .preemptHalt _ => none
  | .preemptReset _ => none
  | .create _ _ => none
  | .destroy _ _ => none
  | .preempt _ _ => none
  | .resume _ _ => none
  | .shootdown _ _ => none
  | .faultAnswer _ _ => none
  | .debugResume _ _ => none
  | .patchLoad _ _ => none
  | .raiseFloor _ _ => none
  | .evict _ _ => none
  | .reload _ _ => none
  | .flashWrite _ _ => none
  | .attest _ _ => none
  | .hostGddrAccess _ _ _ => none
  | .eventRecordDeliver _ => none
  | .hostLinkDown => none
  | .ucieRetrain _ _ _ => none
  | .dvfsSample _ => none
  | .backgroundScrub _ _ _ => none
  | .rowRepair _ _ _ _ => none
  | .powerOn _ => none
  | .powerOff => none
  | .hostLinkTrained => none
  | .cxlCacheSnoop _ _ => none

/-- An instruction from bits numbered as the opcode table numbers them. -/
def decodeTableWord (_nbits w : Nat) : Option Instr :=
  match decode (BitVec.ofNat 96 w) with
  | .ok i => some i
  | .error _ => none

/-! ### Types -/

/-- Signed and unsigned integer types (05 R95). -/
def isSigned (t : Ty) : Bool := t == .i32 || t == .i64 || t == .i16 || t == .i8
def isUnsigned (t : Ty) : Bool := t == .n32 || t == .n64 || t == .n16 || t == .n8
def isInt (t : Ty) : Bool := isSigned t || isUnsigned t
def isFloat (t : Ty) : Bool :=
  t == .f32 || t == .f16 || t == .bf16 || t == .f64 || t == .e4m3 || t == .e5m2 || t == .e2m1
/-- The three narrow formats. -/
def isNarrow (t : Ty) : Bool := t == .e4m3 || t == .e5m2 || t == .e2m1
def isWide (t : Ty) : Bool := t == .i64 || t == .n64 || t == .f64

/-- The width of a type in bits. -/
def bitsOf (t : Ty) : Nat :=
  match t with
  | .i64 | .n64 | .f64 => 64
  | .i32 | .n32 | .f32 | .b32 => 32
  | .i16 | .n16 | .f16 | .bf16 => 16
  | .i8 | .n8 | .e4m3 | .e5m2 => 8
  | .e2m1 => 4

/-- Bytes of an element in memory (11 R175); e2m1 has none. -/
def elemBytes (t : Ty) : Nat := if t = .e2m1 then 0 else bitsOf t / 8

/-! ### Operand shapes -/

/-- What an eight-bit register field must hold (05 R97, and the member tables). -/
inductive Slot where
  /-- Unused: must be 0. -/
  | zero
  /-- Unused: must be 0xFF. -/
  | ff
  /-- `n` vector registers from a multiple of `al`. -/
  | vec (n al : Nat)
  /-- One vector register, or 0xFF for none. -/
  | vecOrFF (n al : Nat)
  /-- A scalar register. -/
  | scalar
  /-- A scalar register, or 0xFF for none. -/
  | scalarOrFF
  /-- A scalar register, or on the control core a condition register named by bit [5] (09 R143). -/
  | scalarOrCond
  /-- A mask register. -/
  | mask
  /-- `n` consecutive mask registers. -/
  | masks (n : Nat)
  /-- An accumulator tile of the team (13 R216). -/
  | tile
  /-- A class number below `n` (11 R192). -/
  | below (n : Nat)
  deriving DecidableEq, Repr

/-- A source operand with a kind: what kind 0 names, whether kinds 1 and 2 are accepted, and how many low bits an
immediate of this operand may use (05 R84, R85). -/
structure Src where
  reg : Option Slot
  scalar : Bool
  imm : Bool
  immBits : Nat
  deriving DecidableEq, Repr

/-- The shape a member gives the V layout. -/
structure VShape where
  ty : Bool
  sat : Bool
  rm : Bool
  am : Bool
  d : Slot
  a : Slot
  b : Src
  c : Src
  immUsed : Bool
  extra : Bool
  deriving DecidableEq, Repr

/-- The shape a member gives the M format. -/
structure MShape where
  ty : Bool
  cnt : Bool
  space : Bool
  rmt : Bool
  ch : Bool
  nf : Bool
  ord : Bool
  sc : Bool
  ofs : Bool
  d : Slot
  a : Slot
  b : Slot
  deriving DecidableEq, Repr

/-- What DISP of the B format holds (11 R163). -/
inductive DispUse where
  | zero | target | count | code
  deriving DecidableEq, Repr

/-- What GK and GN may hold (11 R163). -/
inductive GuardUse where
  | guard | ignored | zero
  deriving DecidableEq, Repr

/-- The shape a member gives the B format. -/
structure BShape where
  a : Slot
  b : Slot
  c : Slot
  disp : DispUse
  guard : GuardUse
  uni : Bool
  deriving DecidableEq, Repr

/-- The shape of an instruction, with its fields. -/
inductive Shape where
  | v (scalarFormat : Bool) (sh : VShape) (f : VF)
  | m (sh : MShape) (f : MF)
  | b (sh : BShape) (f : BF)
  | x (fieldsOk : Bool) (regsOk : Bool) (tiles : List (BitVec 3)) (f : XF)
  | c (csrOk : Bool) (d a : Slot) (f : CF)
  /-- A slot value that is no instruction, or a step of the device. -/
  | none
  deriving DecidableEq, Repr

/-- A value of type `t` in vector registers: a pair for a 64-bit type (05 R96). -/
def slotOfTy (t : Ty) : Slot := if isWide t then .vec 2 2 else .vec 1 1

/-- Bits of an immediate of type `t` that may be nonzero (05 R85). -/
def immBitsOf (t : Ty) : Nat :=
  if bitsOf t = 16 then 16 else if t = .i8 ∨ t = .n8 then 8 else 32

def srcNone : Src := ⟨some .zero, false, false, 32⟩
/-- An operand of type `t`, of any kind. -/
def srcOf (t : Ty) : Src := ⟨some (slotOfTy t), true, true, immBitsOf t⟩
/-- A 32-bit operand, whatever TY is (09 R137). -/
def srcWord : Src := ⟨some (.vec 1 1), true, true, 32⟩
/-- An immediate only. -/
def srcImm : Src := ⟨none, false, true, 32⟩
/-- A scalar register or an immediate. -/
def srcUniform : Src := ⟨none, true, true, 32⟩
/-- A register of one file, kind 0. -/
def srcReg (s : Slot) : Src := ⟨some s, false, false, 32⟩
/-- The S format's source: a scalar register or an immediate (05 R88). -/
def srcS : Src := ⟨some .scalar, false, true, 32⟩

/-- The V layout with nothing but D and A. -/
def vBase (ty : Bool) (d a : Slot) : VShape := ⟨ty, false, false, false, d, a, srcNone, srcNone, false, true⟩

/-- The S format (05 R88, 09 R140): TY, AM, RM and SAT must be 0. -/
def sShape (f : VF) (d a : Slot) (b c : Src) : VShape := { vBase (f.ty == .i32) d a with b := b, c := c }

/-- The K format (05 R89): TY, AM, RM, SAT and the reuse bits must be 0. -/
def kShape (f : VF) (d a : Slot) (b : Src) : VShape := { vBase (f.ty == .i32 && !f.ra && !f.rb && !f.rc) d a with b := b }

/-- A vector member with sources `a` and `b` of the type named by TY. -/
def vShape (ok : Bool) (f : VF) (sat rm am : Bool) (b c : Src) : VShape :=
  ⟨ok, sat, rm, am, slotOfTy f.ty, slotOfTy f.ty, b, c, false, true⟩

/-- R86: the types for which a nonzero AM is defined. -/
def amTy (t : Ty) : Bool := isFloat t || isSigned t

def bitLike (t : Ty) : Bool := isInt t || t == .b32
def f4 (t : Ty) : Bool := t == .f64 || t == .f32 || t == .f16 || t == .bf16
def word4 (t : Ty) : Bool := t == .i32 || t == .n32 || t == .i64 || t == .n64
def b32n64 (t : Ty) : Bool := t == .b32 || t == .n64

/-- VFCVT's exact conversions: the destination holds every value of the source (09 R154, 07 R129). DEDUCED: f16
and bf16 to f32 are of them, though the list that closes R154 leaves them out (log entry 16). -/
def exactCvt (src dst : Ty) : Bool :=
  (isNarrow src && (dst == .f32 || dst == .f64))
  || ((src == .f16 || src == .bf16) && dst == .f32)
  || ((src == .e4m3 || src == .e5m2) && (dst == .f16 || dst == .bf16))
  || (src == .e2m1 && isFloat dst && dst != .e2m1)
  || ((src == .f32 || src == .f16 || src == .bf16) && dst == .f64)

/-- VFCVT's rounding conversions (09 R154). -/
def roundCvt (src dst : Ty) : Bool :=
  (f4 src && (dst == .f32 || dst == .f16 || dst == .bf16) && src != dst)
  || ((src == .f32 || src == .f16 || src == .bf16) && isNarrow dst)

/-- The shape of a conversion of major 0x24, FN 0 to 2 (09 R154). -/
def cvtShape (f : VF) (ok sat rm : Bool) : VShape :=
  let src := tyOfCode (f.imm.extractLsb' 0 4)
  ⟨ok && f.imm.extractLsb' 4 28 == 0, sat, rm, amTy src, slotOfTy f.ty, slotOfTy src, srcNone, srcNone, true, true⟩

def cvtSrc (f : VF) : Ty := tyOfCode (f.imm.extractLsb' 0 4)

/-- A half selector: BK = 2, B = 0 and IMM 0 or 1 at e2m1, no B elsewhere (09 R157). -/
def halfSrc (f : VF) : Src := if f.ty = .e2m1 then srcImm else srcNone
def halfOk (f : VF) : Bool := f.ty != .e2m1 || f.imm.toNat ≤ 1

def packTy4 (t : Ty) : Bool := t == .e4m3 || t == .e5m2 || t == .i8 || t == .n8 || t == .e2m1
def packTy2 (t : Ty) : Bool := t == .f16 || t == .bf16 || t == .i16 || t == .n16
def packedTy (t : Ty) : Bool := t == .f16 || t == .bf16 || t == .e4m3 || t == .e5m2

/-- A packed operand: one packed lane from any kind, an immediate of f16 or bf16 in its low 16 bits (09 R156, 05
R85; log entry 17). -/
def srcPacked (t : Ty) : Src := ⟨some (.vec 1 1), true, true, immBitsOf t⟩
def packShape (f : VF) (rnd : Bool) (c : Src) : VShape :=
  ⟨packedTy f.ty, rnd, rnd, true, .vec 1 1, .vec 1 1, srcPacked f.ty, c, false, true⟩

def exactDst (t : Ty) : Slot := if t = .f64 then .vec 4 4 else .vec 2 2
def f32f64 (t : Ty) : Bool := t == .f32 || t == .f64

/-- Major 0x38 (13 R204). -/
def pairShape (f : VF) : VShape :=
  ⟨f32f64 f.ty, false, false, true, exactDst f.ty, slotOfTy f.ty, srcOf f.ty, srcNone, false, true⟩

/-- Major 0x39 (13 R206). -/
def dwShape (f : VF) (b : Src) : VShape :=
  ⟨f32f64 f.ty, false, false, false, exactDst f.ty, exactDst f.ty, b, srcNone, false, true⟩

def shufShape (f : VF) (b : Src) : VShape := vShape (b32n64 f.ty) f false false false b srcNone
def redShape (ok : Bool) (f : VF) : VShape := vShape ok f false false false srcNone srcNone

/-- The types of a scan operation (13 R212). -/
def scanTyOk (op : Nat) (t : Ty) : Bool :=
  if op ≤ 2 then word4 t else if op ≤ 5 then b32n64 t else op == 6 && t == .f32

def scanShape (f : VF) : VShape :=
  { vShape (scanTyOk f.imm.toNat f.ty) f false false false srcImm srcNone with extra := true }

/-! ### Shapes of the M format -/

def relax (f : MF) : Bool := f.ord == .relaxed
def noHints (f : MF) : Bool := !f.nf && f.ch == 0
def relOk (f : MF) : Bool := f.ord == .relaxed || f.ord == .release
def acqOk (f : MF) : Bool := f.ord == .relaxed || f.ord == .acquire

/-- CNT and the element size (11 R175). -/
def cntOk (f : MF) : Bool :=
  match elemBytes f.ty with
  | 1 | 2 => f.cnt == 0
  | 4 => true
  | 8 => f.cnt == 1 || f.cnt == 3
  | _ => false

/-- The data registers of a load or store (11 R175). -/
def dataSlot (f : MF) : Slot :=
  if isWide f.ty then .vec (f.cnt.toNat + 1) 2 else .vec (f.cnt.toNat + 1) 1

/-- RMT: only with an acquire of global memory (11 R176) at device scope or wider (15 R241). -/
def rmtOk (f : MF) : Bool :=
  !f.rmt || ((f.ord == .acquire || f.ord == .acqRel) && !f.space && 3 ≤ f.sc.toNat)

/-- Loads and stores (11 R176). -/
def accessShape (f : MF) (space rmt ch ord sc : Bool) (a : Slot) : MShape :=
  ⟨f.ty != .e2m1, cntOk f, space, rmt, ch, !f.nf, ord, sc, true, dataSlot f, a, .vecOrFF 1 1⟩

/-- The type row of an atomic operation (11 R183). -/
def atomTyOk (op : AtomOp) (t : Ty) : Bool :=
  match op with
  | .add | .min | .max => word4 t
  | .fadd => f32f64 t
  | .and | .or | .xor | .exch | .cas => b32n64 t
  | .max64 => t == .n64

def redAsAtom : RedOp → AtomOp
  | .add => .add | .fadd => .fadd | .min => .min | .max => .max | .and => .and | .or => .or | .xor => .xor
  | .max64 => .max64

/-- ATOM and RED (11 R176, R183): scopes 0 to 4, or 0 to 2 in the scratchpad, where NF is 0. -/
def atomShape (f : MF) (ok rmt ord : Bool) (d : Slot) : MShape :=
  ⟨ok, f.cnt == 0, true, rmt, f.ch == 0, !(f.space && f.nf), ord,
    if f.space then f.sc.toNat ≤ 2 else f.sc.toNat ≤ 4, true, d, .scalarOrFF, .vecOrFF 1 1⟩

/-- CAS takes its two operands from a pair or a quad (11 R183). -/
def atomSlot (op : AtomOp) (t : Ty) : Slot :=
  if op = .cas then (if isWide t then .vec 4 4 else .vec 2 2) else slotOfTy t

/-- A member of the M format that uses none of the data fields; the caller opens the ones it uses. -/
def mBase (f : MF) (ty : Bool) (d a b : Slot) : MShape :=
  ⟨ty, f.cnt == 0, !f.space, !f.rmt, f.ch == 0, !f.nf, relax f, f.sc == 0, true, d, a, b⟩

def tyZero (f : MF) : Bool := f.ty == .i32

/-- The scopes of an engine submission (15 R243). -/
def engScope (f : MF) : Bool := f.sc == 0 || f.sc == 2 || f.sc == 3 || f.sc == 4

def texShape (f : MF) (n : Nat) : MShape :=
  { mBase f (f.ty == .f32) (.vec (f.cnt.toNat + 1) 1) .scalar (.vec n 1) with
    cnt := true, sc := engScope f,
    ofs := f.ofs.extractLsb' 12 20 == 0 && f.a != 0xFF && f.b != 0xFF }

def testShape (f : MF) : MShape :=
  { mBase f (f.ty == .b32) (.vec 4 1) .scalarOrFF (.vec 8 1) with
    cnt := f.cnt == 3, sc := engScope f, ofs := f.b != 0xFF }

/-! ### Shapes of the B, X and C formats -/

def bBase : BShape := ⟨.zero, .zero, .zero, .zero, .guard, false⟩

/-- Every X field but the tile fields, GC, TAG and PRIO is 0. -/
structure XUse where
  types : Bool
  md : Bool
  mp : Bool
  spc : Bool
  kb : Bool
  sa : Bool
  sb : Bool
  ss : Bool
  ovw : Bool
  prio : Bool
  deriving DecidableEq, Repr

def xFieldsOk (f : XF) (u : XUse) : Bool :=
  u.types && (u.md || f.md == 0) && (u.mp || f.mp == 0) && u.spc && f.spc.toNat ≤ 4 && u.kb
  && (u.sa || f.sa == 0) && (u.sb || f.sb == 0) && (u.ss || f.ss == 0) && (u.ovw || !f.ovw) && (u.prio || f.prio == 0)

/-- A set top bit in SA, SB or SS (05 R92). -/
def xRegsOk (f : XF) : Bool := f.sa.toNat < 32 && f.sb.toNat < 32 && f.ss.toNat < 32

/-- The legal type pairs of MMA and MMAS (17 R264). -/
def mmaTypes (ta tb : Ty) : Bool :=
  (ta == .e2m1 && tb == .e2m1)
  || ((ta == .e4m3 || ta == .e5m2) && (tb == .e4m3 || tb == .e5m2))
  || ((ta == .i8 || ta == .n8) && (tb == .i8 || tb == .n8))
  || (ta == .f16 && tb == .f16) || (ta == .bf16 && tb == .bf16)

def xNoTypes (f : XF) : Bool := f.ta == .i32 && f.tb == .i32
def copyTy (t : Ty) : Bool := t == .f32 || t == .f16 || t == .bf16 || t == .e4m3

/-! ### CSRs -/

/-- The access classes of 11 R197. -/
inductive CsrClass where
  | user | identity | stack | trap | partition
  deriving DecidableEq, Repr

/-- The class of a CSR number, none where the number names no CSR (05 R94). -/
def csrClass (n : Nat) : Option CsrClass :=
  if n ≤ 2 then some .user
  else if 0x10 ≤ n ∧ n ≤ 0x15 then some .identity
  else if n = 0x20 ∨ n = 0x21 then some .stack
  else if (0x100 ≤ n ∧ n ≤ 0x106) ∨ (0x110 ≤ n ∧ n ≤ 0x11A) then some .trap
  else if 0x200 ≤ n ∧ n ≤ 0x20D then some .partition
  else none

/-- The CSRs of the control core (05 R102). -/
def csrOnControl (n : Nat) : Bool :=
  (0x100 ≤ n && n ≤ 0x105) || n == 0x012 || n == 0x014 || (0x200 ≤ n && n ≤ 0x20D)

/-- Whether the field checks admit the CSR: it exists, the control core reaches it, and no Identity CSR is written
(05 R93, R102; 11 R197). -/
def csrFieldOk (ctl write : Bool) (n : Nat) : Bool :=
  match csrClass n with
  | none => false
  | some cl => (!ctl || csrOnControl n) && !(write && cl == .identity)

/-- Whether the privilege admits the access (11 R197). -/
def csrPrivOk (priv write : Bool) (n : Nat) : Bool :=
  match csrClass n with
  | some .trap => priv
  | some .stack | some .partition => priv || !write
  | _ => true

/-! ### The shape of every instruction -/

/-- What the decode checks know of the issuer (05 R101, R102). -/
structure CheckEnv where
  ctl : Bool
  v : Nat
  acct : Nat
  quadBound : Bool
  priv : Bool
  deriving DecidableEq, Repr

def sAlu (f : VF) : Shape := .v true (sShape f .scalar .scalar srcS srcNone) f
def sUn (f : VF) : Shape := .v true (sShape f .scalar .scalar srcNone srcNone) f
def sTern (f : VF) : Shape := .v true (sShape f .scalar .scalar srcS srcS) f
def sImm (f : VF) : Shape := .v true (sShape f .scalar .zero srcImm srcNone) f
def vInt (f : VF) : Shape := .v false (vShape (isInt f.ty) f true false true (srcOf f.ty) srcNone) f
def vIntNoSat (ok : Bool) (f : VF) : Shape := .v false (vShape ok f false false true (srcOf f.ty) srcNone) f
def vShift (f : VF) : Shape := .v false (vShape (bitLike f.ty) f false false true srcWord srcNone) f
def vCount (f : VF) : Shape := .v false { vShape (b32n64 f.ty) f false false true srcNone srcNone with d := .vec 1 1 } f
def vBits (f : VF) : Shape := .v false (vShape (b32n64 f.ty) f false false true srcNone srcNone) f
def vDot (ok : Bool) (f : VF) : Shape := .v false (vShape ok f true false true srcWord srcWord) f
def vFp2 (f : VF) : Shape := .v false (vShape (f4 f.ty) f true true true (srcOf f.ty) srcNone) f
def vFp3 (f : VF) : Shape := .v false (vShape (f4 f.ty) f true true true (srcOf f.ty) (srcOf f.ty)) f
def vFpSel (f : VF) : Shape := .v false (vShape (f4 f.ty) f false false true (srcOf f.ty) srcNone) f
def vSfu (f : VF) : Shape := .v false (vShape (f.ty == .f32 || f.ty == .f16) f false false true srcNone srcNone) f
def vFpUn (ok : Bool) (f : VF) (rm : Bool) : Shape := .v false (vShape ok f false rm true srcNone srcNone) f
def vPack (f : VF) (rnd : Bool) (c : Src) : Shape := .v false (packShape f rnd c) f
def vShuf (f : VF) : Shape := .v false (shufShape f srcWord) f
def vRed (ok : Bool) (f : VF) : Shape := .v false (redShape ok f) f
def kBit (f : VF) (b : Src) : Shape := .v false (kShape f .mask .mask b) f
def engShape (f : MF) : MShape := { mBase f (f.ty == .b32) .zero .scalarOrFF (.vecOrFF 1 1) with sc := engScope f }
def rangeShape (f : MF) (sc : Bool) : MShape := { mBase f (tyZero f) .scalarOrFF .scalarOrFF .ff with sc := sc }
def ldShape (f : MF) (a : Slot) : MShape := accessShape f (!f.space) (rmtOk f) true (acqOk f) (f.sc.toNat ≤ 4) a
def stShape (f : MF) (a : Slot) : MShape := accessShape f (!f.space) (!f.rmt) true (relOk f) (f.sc.toNat ≤ 4) a

/-- The shape of an instruction as its member's description gives it. `ctl` tells the control core, where the B
format's registers are scalar (05 R91, R102). -/
def shapeOf (ctl : Bool) (i : Instr) : Shape :=
  let reg : Slot := if ctl then .scalar else .vec 1 1
  match i with
  | .nop f => .b { bBase with guard := .ignored } f
  | .exit f | .yield f => .b bBase f
  | .sadd f | .ssub f | .smul f | .smulh f | .smulhn f | .sand f | .sor f | .sxor f | .sandn f | .sshl f | .sshr f
  | .ssra f | .smin f | .smax f | .sminn f | .smaxn f => sAlu f
  | .smov f | .spopc f | .sclz f | .sbrev f => sUn f
  | .sli f | .slih f => sImm f
  | .ssel f | .sbfe f | .sbfi f => sTern f
  | .scmp _ f => .v true (sShape f .scalarOrCond .scalar srcS srcNone) f
  | .sdiv f | .sdivn f | .srem f | .sremn f => sAlu f
  | .vadd f | .vsub f | .vrsub f | .vmul f => vInt f
  | .vmulh f => vIntNoSat (isSigned f.ty) f
  | .vmulhn f => vIntNoSat (isUnsigned f.ty) f
  | .vand f | .vor f | .vxor f | .vandn f => vIntNoSat (bitLike f.ty) f
  | .vshl f | .vshr f | .vsra f => vShift f
  | .vmin f | .vmax f | .vabsd f => vIntNoSat (isInt f.ty) f
  | .vmad f => .v false (vShape (isInt f.ty) f true false true (srcOf f.ty) (srcOf f.ty)) f
  | .vmov f =>
    .v false { vShape (f.ty == .b32 || f.ty == .i64 || f.ty == .n64) f false false false (srcOf f.ty) srcNone with
      a := .zero } f
  | .vsel f =>
    .v false (vShape (f.ty == .b32 || f.ty == .i64 || f.ty == .n64) f false false true (srcOf f.ty) (srcReg .mask)) f
  | .vbfe f => .v false (vShape (f.ty == .i32 || f.ty == .n32 || f.ty == .b32) f false false true srcWord srcWord) f
  | .vbfi f => .v false (vShape (f.ty == .b32) f false false true srcWord srcWord) f
  | .vpopc f | .vclz f => vCount f
  | .vbrev f => vBits f
  | .vdot4 f => vDot (f.ty == .i8 || f.ty == .n8) f
  | .vdot2 f => .v false { vShape (f.ty == .i16 || f.ty == .n16) f true false true srcWord srcWord with
      d := .vec 1 1, a := .vec 1 1 } f
  | .vmadw f =>
    .v false { vShape (f.ty == .i32 || f.ty == .n32) f true false true srcWord ⟨some (.vec 2 2), true, true, 32⟩ with
      d := .vec 2 2, a := .vec 1 1 } f
  | .vicmp _ f => .v false { vShape (bitLike f.ty) f false false true (srcOf f.ty) srcNone with d := .mask } f
  | .vdiv f | .vrem f => vIntNoSat (f.ty == .i32 || f.ty == .i64) f
  | .vdivn f | .vremn f => vIntNoSat (f.ty == .n32 || f.ty == .n64) f
  | .vfadd f | .vfsub f | .vfmul f => vFp2 f
  | .vfma f | .vfms f | .vfnma f | .vfnms f => vFp3 f
  | .vfmin f | .vfmax f | .vfminn f | .vfmaxn f | .vfcpys f => vFpSel f
  | .vfcmp _ f => .v false { vShape (f4 f.ty) f false false true (srcOf f.ty) srcNone with d := .mask } f
  | .vfrcp f | .vfrsq f | .vfsqrt f | .vfexp2 f | .vflog2 f | .vfsinp f | .vfcosp f | .vftanh f => vSfu f
  | .vfdiv f =>
    .v false (vShape (f.ty == .f64 || f.ty == .f32 || f.ty == .f16) f true true true (srcOf f.ty) srcNone) f
  | .vfsqrtc f => vFpUn (f.ty == .f64 || f.ty == .f32 || f.ty == .f16) f true
  | .vfcvt f =>
    let e := exactCvt (cvtSrc f) f.ty
    .v false (cvtShape f (e || roundCvt (cvtSrc f) f.ty) (!e) (!e)) f
  | .vftoi f => .v false (cvtShape f (f4 (cvtSrc f) && isInt f.ty) false true) f
  -- SAT of VITOF covers bf16 (DEDUCED, log entry 104)
  | .vitof f =>
    .v false (cvtShape f (isInt (cvtSrc f) && isFloat f.ty) (f.ty != .f64 && f.ty != .f32) true) f
  | .vfrint f => vFpUn (f4 f.ty) f true
  | .vfclass f => .v false { vShape (isFloat f.ty) f false false true srcNone srcNone with d := .vec 1 1 } f
  | .vfgetx f => .v false { vShape (f4 f.ty) f false false true srcNone srcNone with d := .vec 1 1 } f
  | .vfldx f => .v false (vShape (f4 f.ty) f true true true srcWord srcNone) f
  | .vpadd f | .vpsub f | .vpmul f => vPack f true srcNone
  | .vpfma f => vPack f true (srcPacked f.ty)
  | .vpmin f | .vpmax f => vPack f false srcNone
  | .vpack2 f =>
    .v false ⟨packTy2 f.ty, true, isFloat f.ty, false, .vec 1 1, .vec 1 1, srcWord, srcNone, false, true⟩ f
  | .vunpk2 f =>
    .v false ⟨packTy2 f.ty, false, false, false, .vec 2 2, .vec 1 1, srcNone, srcNone, false, true⟩ f
  | .vpack4 f =>
    .v false ⟨packTy4 f.ty, true, isFloat f.ty, false, .vec 1 1, .vec 4 4, halfSrc f, srcNone, false, halfOk f⟩ f
  | .vunpk4 f =>
    .v false ⟨packTy4 f.ty, false, false, false, .vec 4 4, .vec 1 1, halfSrc f, srcNone, false, halfOk f⟩ f
  | .vscl f =>
    .v false ⟨f.ty == .f32 || packedTy f.ty, true, true, true, .vec 1 1, .vec 1 1, srcWord, srcNone, false, true⟩ f
  | .kand f | .kor f | .kxor f | .kandn f => kBit f (srcReg .mask)
  | .knot f | .kmov f => kBit f srcNone
  | .kpopc f | .kffs f | .kget f => .v false (kShape f .scalar .mask srcNone) f
  | .kset f => .v false (kShape f .mask .zero srcUniform) f
  | .ktov f =>
    .v false { kShape f (.vec 1 1) (.masks f.imm.toNat) srcImm with
      extra := 1 ≤ f.imm.toNat && f.imm.toNat ≤ 16 } f
  | .vtok f =>
    .v false { kShape f (.masks f.imm.toNat) (.vec 1 1) srcImm with
      extra := 1 ≤ f.imm.toNat && f.imm.toNat ≤ 16 } f
  | .vfaddx f | .vfsubx f | .vfmulx f | .vfnorm f => .v false (pairShape f) f
  | .dwadd f | .dwsub f | .dwmul f => .v false (dwShape f (srcReg (exactDst f.ty))) f
  | .dwadds f | .dwmuls f => .v false (dwShape f (srcOf f.ty)) f
  | .vredx f => .v false { redShape (f.ty == .f32) f with d := .vec 2 2 } f
  | .vreddw f => .v false { redShape (f.ty == .f32) f with d := .vec 2 2, a := .vec 2 2 } f
  | .vdotx f => .v false { redShape (f.ty == .f32) f with d := .vec 2 2, b := srcOf .f32 } f
  | .vshfi f | .vshfu f | .vshfd f | .vshfx f => vShuf f
  | .vbcast f => .v false (shufShape f srcUniform) f
  | .vredadd f | .vredmin f | .vredmax f => vRed (word4 f.ty) f
  | .vredand f | .vredor f | .vredxor f => vRed (b32n64 f.ty) f
  | .vredfadd f | .vredfmin f | .vredfmax f => vRed (f32f64 f.ty) f
  | .vscani f | .vscane f => .v false (scanShape f) f
  | .vballot f => .v false { redShape (f.ty == .b32) f with d := .scalar } f
  | .vany f | .vall f => vRed (f.ty == .b32) f
  | .vmatch f => .v false { redShape (b32n64 f.ty) f with d := .vec 2 2 } f
  | .ddx f | .ddy f | .ddxf f | .ddyf f =>
    .v false (vShape (f.ty == .f32 || f.ty == .f16) f false true true srcNone srcNone) f
  | .vqswx f | .vqswy f | .vqswd f => vRed (b32n64 f.ty) f
  | .mstat f => .v false { redShape (f.ty == .f32) f with d := .vec 3 1, a := .tile, b := srcUniform } f
  | .bra f => .b { bBase with disp := .target, uni := true } f
  | .brx f => .b { bBase with a := reg, uni := true } f
  | .call f => .b { bBase with a := reg, disp := .target, uni := true } f
  | .callx f => .b { bBase with a := reg, c := reg, uni := true } f
  | .ret f => .b { bBase with a := reg, uni := true } f
  | .meet f => .b { bBase with a := .vecOrFF 1 1, b := .mask, disp := .target, guard := .zero } f
  | .join f => .b { bBase with b := .mask, c := .vecOrFF 1 1, guard := .zero } f
  | .succ f => .b { bBase with disp := .target, guard := .zero } f
  | .succ2 f => .b { bBase with b := .mask, disp := .target, guard := .zero } f
  | .enter f | .leave f => .b { bBase with disp := .count, guard := .zero } f
  | .trap f => .b { bBase with disp := .code } f
  | .bkpt f => .b bBase f
  | .tret f => .b { bBase with guard := .zero } f
  | .migrate f => .b { bBase with a := .scalar, guard := .zero } f
  | .ld f => .m (ldShape f .scalarOrFF) f
  | .ldnc f =>
    .m (accessShape f (!f.space) (!f.rmt) (f.ch.toNat ≤ 2) (relax f) (f.sc == 0) .scalarOrFF) f
  | .ldr f => .m (ldShape f .scalarOrFF) f
  | .st f => .m (stShape f .scalarOrFF) f
  | .stnc f => .m (accessShape f (!f.space) (!f.rmt) (f.ch == 0) (relax f) (f.sc == 0) .scalarOrFF) f
  | .str f => .m (stShape f .scalarOrFF) f
  | .lds f => .m (accessShape f f.space (!f.rmt) (f.ch == 0) (acqOk f) (f.sc.toNat ≤ 2) .scalarOrFF) f
  | .sts f => .m (accessShape f f.space (!f.rmt) (f.ch == 0) (relOk f) (f.sc.toNat ≤ 2) .scalarOrFF) f
  | .ldp f | .stp f => .m (accessShape f (!f.space) (!f.rmt) (f.ch == 0) (relax f) (f.sc == 0) .scalarOrFF) f
  | .atom op f => .m (atomShape f (atomTyOk op f.ty) (rmtOk f) true (atomSlot op f.ty)) f
  | .atomClasp f => .m { atomShape f (f.ty == .b32) (rmtOk f) true (.vecOrFF 1 1) with space := f.space } f
  | .red op f => .m (atomShape f (atomTyOk (redAsAtom op) f.ty) (!f.rmt) (relOk f) (slotOfTy f.ty)) f
  | .fence f =>
    .m { mBase f (tyZero f) .zero .ff .ff with
      ord := f.ord != .relaxed, sc := f.sc.toNat ≤ 4,
      ofs := f.ofs == 0 || (f.ofs == 1 && f.sc.toNat == 4) } f
  | .lfence f => .m { mBase f (tyZero f) .zero .ff .ff with ofs := f.ofs == 0 } f
  | .icinv f => .m (rangeShape f (f.sc.toNat == 3 || f.sc.toNat == 4)) f
  | .cinv f => .m (rangeShape f (f.sc.toNat ≤ 3)) f
  | .cwb f => .m (rangeShape f (f.sc.toNat ≤ 4)) f
  | .pref f => .m { mBase f (tyZero f) .zero .scalarOrFF (.vecOrFF 1 1) with ch := f.ch.toNat ≤ 1 } f
  | .cpy f =>
    .m { mBase f (f.ty == .b32) .zero .scalarOrFF .ff with
      space := true, ord := relOk f, sc := f.sc.toNat ≤ 4 } f
  | .waitc f => .m { mBase f (tyZero f) (.below 5) .ff .ff with ofs := f.ofs.toNat ≤ 63 } f
  | .emit f => .m (mBase f (f.ty == .b32) .zero .scalarOrFF (.vecOrFF 1 1)) f
  | .launch f => .m (mBase f (tyZero f) .zero .scalarOrFF .ff) f
  | .getid f => .c (f.csr.toNat ≤ 4) (.vec 1 1) .zero f
  | .clock f => .c (f.csr == 0) .scalar .zero f
  | .tex f => .m (texShape f 3) f
  | .texl f => .m (texShape f 4) f
  | .texg f => .m (texShape f 7) f
  | .texq f =>
    .m { mBase f (f.ty == .b32) (.vec (f.cnt.toNat + 1) 1) .scalar .ff with
      cnt := true, sc := engScope f, ofs := f.ofs.toNat ≤ 255 && f.a != 0xFF } f
  | .rastq f => .m { engShape f with b := .ff } f
  | .trace f => .m (engShape f) f
  | .verdict f =>
    .m { mBase f (f.ty == .b32) (.vec 3 1) .ff .ff with cnt := f.cnt == 2, ofs := f.ofs == 0 } f
  | .boxt f | .trit f => .m (testShape f) f
  | .mma f =>
    .x (xFieldsOk f ⟨mmaTypes f.ta f.tb, false, true, f.spc == 0, true, true, true, true, true, true⟩)
      (xRegsOk f) [f.mp] f
  | .mmas f =>
    .x (xFieldsOk f ⟨mmaTypes f.ta f.tb, false, true, f.spc != 0, true, true, true, true, true, true⟩)
      (xRegsOk f) [f.mp] f
  | .mscl f =>
    .x (xFieldsOk f ⟨xNoTypes f && f.md != f.mp, true, true, f.spc == 0, f.kb == 0, true, true, true, true, true⟩)
      (xRegsOk f) [f.md, f.mp] f
  | .mzero f =>
    .x (xFieldsOk f ⟨xNoTypes f, true, false, f.spc == 0, f.kb == 0, false, false, false, false, true⟩)
      (xRegsOk f) [f.md] f
  | .mcpyo f =>
    .x (xFieldsOk f ⟨copyTy f.ta && f.tb == .i32, true, false, f.spc == 0, f.kb == 0, true, false, false, true, true⟩)
      (xRegsOk f) [f.md] f
  | .mcpyi f =>
    .x (xFieldsOk f ⟨copyTy f.ta && f.tb == .i32, true, false, f.spc == 0, f.kb == 0, true, false, false, false,
      true⟩) (xRegsOk f) [f.md] f
  | .mwait f =>
    .x (xFieldsOk f ⟨xNoTypes f, false, false, f.spc == 0, f.kb.extractLsb' 1 5 == 0, f.kb == 1, false, f.ovw, true,
      false⟩) (xRegsOk f) [] f
  | .ppoint f =>
    .x (xFieldsOk f ⟨xNoTypes f && f.tag.extractLsb' 8 8 == 0, false, false, f.spc == 0, f.kb == 0, false, false, false,
      false, false⟩) (xRegsOk f)
      ((List.range 8).filterMap fun n => if f.tag.getLsbD n then some (BitVec.ofNat 3 n) else .none) f
  | .csrr f => .c (csrFieldOk ctl false f.csr.toNat) .scalar .zero f
  | .csrw f | .csrs f | .csrc f => .c (csrFieldOk ctl true f.csr.toNat) .zero .scalar f
  | .evrd f => .c (f.csr.toNat ≤ 23) .scalar .zero f
  | _ => .none

/-! ### The decode checks 4 to 8 -/

def causeIllegalOpcode : Cause := 0x001
def causeReservedMajor : Cause := 0x002
def causeIllegalField : Cause := 0x003
def causeIllegalRegister : Cause := 0x004
def causePairAlign : Cause := 0x005
def causeIllegalContext : Cause := 0x006
def causePrivileged : Cause := 0x00A

/-- Check 5 on one register field. -/
def slotFieldOk (s : Slot) (v : BitVec 8) : Bool :=
  match s with
  | .zero => v == 0
  | .ff => v == 0xFF
  | .below n => v.toNat < n
  | _ => true

/-- Check 6 on one register field (05 R97). -/
def slotRegOk (env : CheckEnv) (s : Slot) (v : BitVec 8) : Bool :=
  match s with
  | .vec n _ => v.toNat + n ≤ env.v
  | .vecOrFF n _ => v == 0xFF || v.toNat + n ≤ env.v
  | .scalar => v.toNat < (if env.ctl then 32 else 64)
  | .scalarOrFF => v == 0xFF || v.toNat < (if env.ctl then 32 else 64)
  | .scalarOrCond =>
    if env.ctl then
      if v.getLsbD 5 then v.extractLsb' 6 2 == 0 && v.extractLsb' 3 2 == 0 else v.toNat < 32
    else v.toNat < 64
  | .mask => v.toNat < 16
  | .masks n => v.toNat + n ≤ 16
  | .tile => v.toNat < 8 && v.toNat < env.acct
  | _ => true

/-- Check 7 on one register field (05 R97). -/
def slotAlignOk (s : Slot) (v : BitVec 8) : Bool :=
  match s with
  | .vec _ al => v.toNat % al == 0
  | .vecOrFF _ al => v == 0xFF || v.toNat % al == 0
  | _ => true

/-- The slot a source field is judged by, under its kind. -/
def srcSlot (s : Src) (k : Kind) : Slot :=
  match k with
  | .vec => s.reg.getD .zero
  | .scalar => .scalar
  | _ => .zero

/-- Check 5 on a source operand: an accepted kind, a field of 0 under kind 2 and for an unused source, and an
immediate within its bits (05 R84, R85). -/
def srcFieldOk (s : Src) (k : Kind) (v : BitVec 8) (imm : Word) : Bool :=
  match k with
  | .vec => s.reg.isSome && slotFieldOk (s.reg.getD .zero) v
  | .scalar => s.scalar
  | .imm => s.imm && v == 0 && imm.toNat < 2 ^ s.immBits
  | .reserved => false

def isVecSlot (s : Slot) : Bool :=
  match s with
  | .vec _ _ => true
  | _ => false

/-- A reuse bit is legal only for a vector register read (05 R84). -/
def reuseOk (bit : Bool) (vec : Bool) : Bool := !bit || vec

/-- Check 5 on GK: the control core has eight condition registers (05 R88). -/
def gkOk (ctl : Bool) (gk : BitVec 4) : Bool := !ctl || !gk.getLsbD 3

/-- Check 5 of the V layout (05 R84 to R89). -/
def vFieldOk (env : CheckEnv) (scalarFormat : Bool) (sh : VShape) (f : VF) : Bool :=
  sh.ty && sh.extra && (sh.sat || !f.sat) && (sh.rm || f.rm == .rne)
  && (f.am == .none || (sh.am && (sh.immUsed || amTy f.ty)))
  && slotFieldOk sh.d f.d && slotFieldOk sh.a f.a
  && srcFieldOk sh.b f.bk f.b f.imm && srcFieldOk sh.c f.ck f.c f.imm
  && !(f.bk == .imm && f.ck == .imm)
  && (sh.immUsed || f.bk == .imm || f.ck == .imm || f.imm == 0)
  && reuseOk f.ra (!scalarFormat && isVecSlot sh.a)
  && reuseOk f.rb (!scalarFormat && f.bk == .vec && isVecSlot (sh.b.reg.getD .zero))
  && reuseOk f.rc (!scalarFormat && f.ck == .vec && isVecSlot (sh.c.reg.getD .zero))
  && gkOk env.ctl f.gk

def vRegOk (env : CheckEnv) (sh : VShape) (f : VF) : Bool :=
  slotRegOk env sh.d f.d && slotRegOk env sh.a f.a
  && slotRegOk env (srcSlot sh.b f.bk) f.b && slotRegOk env (srcSlot sh.c f.ck) f.c

def vAlignOk (sh : VShape) (f : VF) : Bool :=
  slotAlignOk sh.d f.d && slotAlignOk sh.a f.a && slotAlignOk (srcSlot sh.b f.bk) f.b
  && slotAlignOk (srcSlot sh.c f.ck) f.c

def mFieldOk (sh : MShape) (f : MF) : Bool :=
  sh.ty && sh.cnt && sh.space && sh.rmt && sh.ch && sh.nf && sh.ord && sh.sc && f.sc.toNat ≤ 4 && sh.ofs
  && slotFieldOk sh.d f.d && slotFieldOk sh.a f.a && slotFieldOk sh.b f.b

def mRegOk (env : CheckEnv) (sh : MShape) (f : MF) : Bool :=
  slotRegOk env sh.d f.d && slotRegOk env sh.a f.a && slotRegOk env sh.b f.b

def mAlignOk (sh : MShape) (f : MF) : Bool := slotAlignOk sh.d f.d && slotAlignOk sh.a f.a && slotAlignOk sh.b f.b

/-- DISP under its use (05 R91, 11 R163, R170, R171). -/
def dispOk (u : DispUse) (disp : Word) : Bool :=
  match u with
  | .zero => disp == 0
  | .target => (disp.extractLsb' 0 3).toNat ≤ 4
  | .count => disp.toNat % 16 == 0 && 16 ≤ disp.toNat && disp.toNat ≤ 0x1000000
  | .code => disp.toNat ≤ 63

def bFieldOk (env : CheckEnv) (sh : BShape) (f : BF) : Bool :=
  slotFieldOk sh.a f.a && slotFieldOk sh.b f.b && slotFieldOk sh.c f.c && dispOk sh.disp f.disp
  && (match sh.guard with
      | .guard => gkOk env.ctl f.gk
      | .ignored => true
      | .zero => f.gk == 0 && !f.gn)
  && (sh.uni || !f.uni)

def bRegOk (env : CheckEnv) (sh : BShape) (f : BF) : Bool :=
  slotRegOk env sh.a f.a && slotRegOk env sh.b f.b && slotRegOk env sh.c f.c

/-- Check 4 (05 R102): the control core's set, the X majors in a vector stream, and the derivatives outside a
quad-bound kernel (13 R214). -/
def contextOk (env : CheckEnv) (i : Instr) : Bool :=
  match shapeOf env.ctl i with
  | .v true _ _ => true
  | .x _ _ _ _ => env.ctl
  | .b _ _ =>
    match i with
    | .meet _ | .join _ | .succ _ | .succ2 _ | .enter _ | .leave _ | .migrate _ => !env.ctl
    | _ => true
  | .c _ _ _ _ =>
    match i with
    | .csrr _ | .csrw _ | .csrs _ | .csrc _ => true
    | _ => !env.ctl
  | .v false _ _ =>
    match i with
    | .ddx _ | .ddy _ | .ddxf _ | .ddyf _ => !env.ctl && env.quadBound
    | _ => !env.ctl
  | _ => !env.ctl

/-- Check 5. -/
def fieldOk (env : CheckEnv) (i : Instr) : Bool :=
  match shapeOf env.ctl i with
  | .v s sh f => vFieldOk env s sh f
  | .m sh f => mFieldOk sh f
  | .b sh f => bFieldOk env sh f
  | .x ok _ _ _ => ok
  | .c ok d a f => ok && slotFieldOk d f.d && slotFieldOk a f.a && gkOk env.ctl f.gk
  | .none => true

/-- Check 6. -/
def regOk (env : CheckEnv) (i : Instr) : Bool :=
  match shapeOf env.ctl i with
  | .v _ sh f => vRegOk env sh f
  | .m sh f => mRegOk env sh f
  | .b sh f => bRegOk env sh f
  | .x _ ok tiles _ => ok && tiles.all fun t => t.toNat < env.acct
  | .c _ d a f => slotRegOk env d f.d && slotRegOk env a f.a
  | .none => true

/-- Check 7. -/
def alignOk (i : Instr) : Bool :=
  match shapeOf false i with
  | .v _ sh f => vAlignOk sh f
  | .m sh f => mAlignOk sh f
  | _ => true

/-- Check 8 (05 R93, 11 R171, R197). -/
def privOk (env : CheckEnv) (i : Instr) : Bool :=
  match i with
  | .tret _ => env.priv
  | .csrr f => csrPrivOk env.priv false f.csr.toNat
  | .csrw f | .csrs f | .csrc f => csrPrivOk env.priv true f.csr.toNat
  | _ => true

/-- The decode checks 4 to 8 in their order: the cause of the first that fails (05 R101). -/
def checkInstr (env : CheckEnv) (i : Instr) : Option Cause :=
  if !contextOk env i then some causeIllegalContext
  else if !fieldOk env i then some causeIllegalField
  else if !regOk env i then some causeIllegalRegister
  else if !alignOk i then some causePairAlign
  else if !privOk env i then some causePrivileged
  else .none

/-- The cause of a slot value that is no instruction: checks 3 and 4, and check 5 for a reserved bit. -/
def rejectCause (env : CheckEnv) (w : SlotBits) : Cause :=
  match decode w with
  | .error .reservedMajor => causeReservedMajor
  | .error .unassigned => causeIllegalOpcode
  | .error .reservedBits =>
    match construct w with
    | some i => if contextOk env i then causeIllegalField else causeIllegalContext
    | .none => causeIllegalOpcode
  | .ok _ => causeIllegalOpcode

/-- The instruction a slot holds, the slot itself where it holds none. -/
def instrOf (w : SlotBits) : Instr :=
  match decode w with
  | .ok i => i
  | .error _ => .illegalOpcode w

/-- The heavy instructions (05 R104). -/
def isHeavy (i : Instr) : Bool :=
  match i with
  | .vfadd f | .vfsub f | .vfmul f | .vfma f | .vfms f | .vfnma f | .vfnms f | .vfmin f | .vfmax f | .vfminn f
  | .vfmaxn f | .vfcpys f | .vfcmp _ f | .vfrint f | .vfclass f | .vfgetx f | .vfldx f
  | .vfaddx f | .vfsubx f | .vfmulx f | .vfnorm f => f.ty == .f64
  | .vfcvt f | .vftoi f | .vitof f => f.ty == .f64 || cvtSrc f == .f64
  | .vfrcp _ | .vfrsq _ | .vfsqrt _ | .vfexp2 _ | .vflog2 _ | .vfsinp _ | .vfcosp _ | .vftanh _ | .vfdiv _
  | .vfsqrtc _ | .dwadd _ | .dwsub _ | .dwmul _ | .dwadds _ | .dwmuls _ | .mstat _ => true
  | _ => false

end Sys2Proof
end

