-- ==== Sys2Proof/Machine/Flags.lean ====
section
/-! DEFINITION. The bits of FST (07 R124) and how FTEN chooses a cause from them (07 R125). -/

namespace Sys2Proof.Machine

/-- A set of status bits, laid out as FST[6:0]. -/
abbrev FlagSet := BitVec 7

def flagNone : FlagSet := 0
/-- Invalid operation. -/
def flagNV : FlagSet := 0x01
/-- Overflow. -/
def flagOF : FlagSet := 0x02
/-- Underflow. -/
def flagUF : FlagSet := 0x04
/-- A pair or double-word result overflowed. -/
def flagXO : FlagSet := 0x08
/-- An error term of a pair was inexact. -/
def flagXL : FlagSet := 0x10
/-- A value was saturated. -/
def flagSAT : FlagSet := 0x20
/-- A derivative quad was split. -/
def flagDSPLIT : FlagSet := 0x40

/-- A flag that is raised where the condition holds. -/
def flagIf (c : Bool) (f : FlagSet) : FlagSet := if c then f else 0

/-- The union of a list of flag sets. -/
def flagUnion (l : List FlagSet) : FlagSet := l.foldl (· ||| ·) 0

/-- FST after an instruction raised `raised` (07 R124): the bits are ORed in, the rest of the register reads 0. -/
def fstAfter (fst : DWord) (raised : FlagSet) : DWord := (fst ||| raised.zeroExtend 64) &&& 0x7F

/-- The raised bits that FTEN enables (07 R125): FTEN[5:0] covers FST[5:0]. -/
def enabledBits (ften : DWord) (raised : FlagSet) : BitVec 6 := (ften.extractLsb' 0 6) &&& (raised.extractLsb' 0 6)

/-- The lowest set bit of a six-bit field. -/
def lowestBit (b : BitVec 6) : Option Nat := (List.range 6).find? fun i => b.getLsbD i

/-- The cause an arithmetic trap takes, 0x080 + i for the lowest enabled bit i raised (07 R125). -/
def arithCause (en : BitVec 6) : Option Cause := (lowestBit en).map fun i => BitVec.ofNat 10 (0x080 + i)

end Sys2Proof.Machine
end

