-- ==== Sys2Proof/Machine/Float.lean ====
section
/-! DEFINITION. Floating-point values, rounding, conversions and the helper functions of chapter 07: exact
arithmetic on dyadic numbers, rounded once. -/

namespace Sys2Proof.Machine

/-- A floating-point datum: a finite value is (-1)^neg * m * 2^e, and m = 0 is a signed zero (07 R111). -/
inductive FV where
  | nan (signalling : Bool)
  | inf (neg : Bool)
  | fin (neg : Bool) (m : Nat) (e : Int)
  deriving DecidableEq, Repr

/-- Fraction bits, exponent bits and bias of a format (07 R110). -/
structure Fmt where
  mb : Nat
  eb : Nat
  bias : Nat
  hasInf : Bool
  deriving DecidableEq, Repr

def fmtOf (t : Ty) : Fmt :=
  match t with
  | .f64 => ⟨52, 11, 1023, true⟩
  | .f16 => ⟨10, 5, 15, true⟩
  | .bf16 => ⟨7, 8, 127, true⟩
  | .e5m2 => ⟨2, 5, 15, true⟩
  | .e4m3 => ⟨3, 4, 7, false⟩
  | .e2m1 => ⟨1, 2, 1, false⟩
  | _ => ⟨23, 8, 127, true⟩

/-- The exponent of the smallest subnormal step. -/
def Fmt.qmin (F : Fmt) : Int := 1 - (F.bias : Int) - F.mb

/-- The exponent of the smallest normal. -/
def Fmt.emin (F : Fmt) : Int := 1 - (F.bias : Int)

/-- The code of the largest finite magnitude (07 R110). -/
def maxCode (t : Ty) : Nat :=
  match t with
  | .e4m3 => 0x7E
  | .e2m1 => 0x7
  | _ => let F := fmtOf t; ((2 ^ F.eb - 1) <<< F.mb) - 1

/-- The code of +infinity in a format that has one. -/
def infCode (t : Ty) : Nat := let F := fmtOf t; (2 ^ F.eb - 1) <<< F.mb

/-- The canonical NaN (07 R116); e2m1 has none and takes 0 in its place (07 R128). -/
def canonicalNaN (t : Ty) : DWord :=
  match t with
  | .f64 => 0x7FF8000000000000
  | .f16 => 0x7E00
  | .bf16 => 0x7FC0
  | .e5m2 => 0x7E
  | .e4m3 => 0x7F
  | .e2m1 => 0
  | _ => 0x7FC00000

def signBitOf (t : Ty) (neg : Bool) : Nat := if neg then 2 ^ (bitsOf t - 1) else 0

/-- The value of a code (07 R111 to R113); outside a block e2m1 0b1000 is -0. -/
def decodeFloat (t : Ty) (x : DWord) : FV :=
  let F := fmtOf t
  let n := x.toNat % 2 ^ bitsOf t
  let neg := n / 2 ^ (bitsOf t - 1) == 1
  let E := (n >>> F.mb) % 2 ^ F.eb
  let M := n % 2 ^ F.mb
  if F.hasInf && E == 2 ^ F.eb - 1 then
    if M = 0 then .inf neg else .nan (M < 2 ^ (F.mb - 1))
  else if t = .e4m3 ∧ E = 15 ∧ M = 7 then .nan false
  else if E = 0 then .fin neg M F.qmin
  else .fin neg (2 ^ F.mb + M) (F.qmin + (E - 1 : Nat))

def isNaN (v : FV) : Bool := match v with | .nan _ => true | _ => false
def isSNaN (v : FV) : Bool := match v with | .nan s => s | _ => false
def isInfV (v : FV) : Bool := match v with | .inf _ => true | _ => false
def isZeroV (v : FV) : Bool := match v with | .fin _ 0 _ => true | _ => false
def fvNeg (v : FV) : Bool := match v with | .nan _ => false | .inf s => s | .fin s _ _ => s
def negFV (v : FV) : FV := match v with | .nan s => .nan s | .inf s => .inf !s | .fin s m e => .fin (!s) m e

/-- Bits of a natural number. -/
def bitLen (n : Nat) : Nat := if n = 0 then 0 else Nat.log2 n + 1

/-- `n / 2^k` rounded to an integer in a mode, for a value of the given sign (07 R120). -/
def roundShift (rm : Rm) (neg : Bool) (n k : Nat) : Nat :=
  let q := n >>> k
  let r := n % 2 ^ k
  let up :=
    match rm with
    | .rne => decide (2 * r > 2 ^ k) || (decide (2 * r = 2 ^ k) && q % 2 == 1)
    | .rtz => false
    | .rup => r != 0 && !neg
    | .rdn => r != 0 && neg
  if up then q + 1 else q

/-- `m * 2^e` rounded to a multiple of `2^q`, as that multiple. -/
def roundAt (rm : Rm) (neg : Bool) (m : Nat) (e q : Int) : Nat :=
  if q ≤ e then m <<< (e - q).toNat else roundShift rm neg m (q - e).toNat

/-- Compare `m * 2^e` with `n * 2^f`. -/
def cmpMag (m : Nat) (e : Int) (n : Nat) (f : Int) : Ordering :=
  if e ≤ f then compare m (n <<< (f - e).toNat) else compare (m <<< (e - f).toNat) n

/-- A code from a significand at an exponent not below the subnormal step. -/
def packCode (F : Fmt) (r : Nat) (q : Int) : Nat :=
  if r < 2 ^ F.mb then r
  else if r = 2 ^ (F.mb + 1) then ((q - F.qmin).toNat + 2) <<< F.mb
  else (((q - F.qmin).toNat + 1) <<< F.mb) + (r - 2 ^ F.mb)

/-- Largest finite magnitude as significand and exponent. -/
def maxSig (t : Ty) : Nat × Int :=
  match decodeFloat t (BitVec.ofNat 64 (maxCode t)) with
  | .fin _ m e => (m, e)
  | _ => (0, 0)

/-- Whether the mode takes an overflow of this sign to infinity (07 R121). -/
def overflowToInf (rm : Rm) (neg : Bool) : Bool :=
  match rm with
  | .rne => true
  | .rtz => false
  | .rup => !neg
  | .rdn => neg

def largest (t : Ty) (neg : Bool) : DWord := BitVec.ofNat 64 (maxCode t + signBitOf t neg)

/-- Infinity, or what R121 puts in its place where the format has none. -/
def infinityOf (t : Ty) (neg : Bool) : DWord :=
  match t with
  | .e4m3 => BitVec.ofNat 64 (0x7F + signBitOf t neg)
  | .e2m1 => largest t neg
  | _ => BitVec.ofNat 64 (infCode t + signBitOf t neg)

/-- An overflow in mode `rm` (07 R121), or saturated (07 R123). -/
def overflowResult (t : Ty) (rm : Rm) (sat neg : Bool) : DWord × FlagSet :=
  if sat then (largest t neg, flagSAT)
  else (if overflowToInf rm neg then infinityOf t neg else largest t neg, flagOF)

def zeroOf (t : Ty) (neg : Bool) : DWord := if t = .e2m1 then 0 else BitVec.ofNat 64 (signBitOf t neg)

/-- A finite value rounded to a format, with flags (07 R120 to R123); `flush` writes a tiny result as zero (07 R126). -/
def roundFinite (t : Ty) (rm : Rm) (sat flush neg : Bool) (m : Nat) (e : Int) : DWord × FlagSet :=
  let F := fmtOf t
  if m = 0 then (zeroOf t neg, 0)
  else
    let qu := e + (bitLen m : Int) - (F.mb + 1 : Nat)
    let q := max qu F.qmin
    let r := roundAt rm neg m e q
    let tiny := cmpMag (roundAt rm neg m e qu) qu 1 F.emin == .lt
    let mx := maxSig t
    if cmpMag r q mx.1 mx.2 == .gt then overflowResult t rm sat neg
    else if tiny && flush then (zeroOf t neg, flagUF)
    else
      let uf := flagIf (tiny && !(cmpMag r q m e == .eq)) flagUF
      if r = 0 then (zeroOf t neg, uf)
      else (BitVec.ofNat 64 (packCode F r q + signBitOf t neg), uf)

/-- Any exact value written in a format. An infinity in a format without one is an overflow (07 R129). -/
def roundFV (t : Ty) (rm : Rm) (sat flush : Bool) (v : FV) : DWord × FlagSet :=
  match v with
  | .nan _ => (canonicalNaN t, 0)
  | .inf neg =>
    if sat then (largest t neg, flagSAT)
    else if (fmtOf t).hasInf then (infinityOf t neg, 0) else overflowResult t rm false neg
  | .fin neg m e => roundFinite t rm sat flush neg m e

/-! ### FMODE -/

/-- Whether FMODE flushes a type (07 R126). -/
def flushes (fmode : DWord) (t : Ty) : Bool :=
  match t with
  | .f16 => fmode.getLsbD 3
  | .f32 | .bf16 => fmode.getLsbD 2
  | _ => false

def isSubnormal (t : Ty) (x : DWord) : Bool :=
  let F := fmtOf t
  let n := x.toNat % 2 ^ bitsOf t
  (n >>> F.mb) % 2 ^ F.eb == 0 && n % 2 ^ F.mb != 0

/-- An operand's bits after flushing: a subnormal becomes a zero of its own sign (07 R126). -/
def flushBits (t : Ty) (flush : Bool) (x : DWord) : DWord :=
  if flush && isSubnormal t x then BitVec.ofNat 64 (signBitOf t (x.toNat / 2 ^ (bitsOf t - 1) % 2 == 1)) else x

def readFloat (t : Ty) (flush : Bool) (x : DWord) : FV := decodeFloat t (flushBits t flush x)

/-! ### Exact operations -/

/-- A signed integer as a sign and a magnitude at an exponent; a zero has the given sign. -/
def ofSigned (zeroNeg : Bool) (x : Int) (e : Int) : FV :=
  if x = 0 then .fin zeroNeg 0 0 else .fin (decide (x < 0)) x.natAbs e

def signedOf (neg : Bool) (m : Nat) : Int := if neg then -(m : Int) else m

/-- The exact sum of two finite values; an exact zero has the sign IEEE 754-2019 assigns in the mode (07 R120). -/
def addFinite (rm : Rm) (n₁ : Bool) (m₁ : Nat) (e₁ : Int) (n₂ : Bool) (m₂ : Nat) (e₂ : Int) : FV :=
  if m₁ = 0 ∧ m₂ = 0 then .fin (if n₁ = n₂ then n₁ else rm == .rdn) 0 0
  else
    let e := min e₁ e₂
    ofSigned (rm == .rdn) (signedOf n₁ (m₁ <<< (e₁ - e).toNat) + signedOf n₂ (m₂ <<< (e₂ - e).toNat)) e

/-- The sum, with whether the operation is invalid (∞ − ∞). -/
def addFV (rm : Rm) (x y : FV) : FV × Bool :=
  match x, y with
  | .nan _, _ => (.nan false, false)
  | _, .nan _ => (.nan false, false)
  | .inf a, .inf b => if a = b then (.inf a, false) else (.nan false, true)
  | .inf a, _ => (.inf a, false)
  | _, .inf b => (.inf b, false)
  | .fin n₁ m₁ e₁, .fin n₂ m₂ e₂ => (addFinite rm n₁ m₁ e₁ n₂ m₂ e₂, false)

/-- The product, with whether the operation is invalid (0 · ∞). -/
def mulFV (x y : FV) : FV × Bool :=
  match x, y with
  | .nan _, _ => (.nan false, false)
  | _, .nan _ => (.nan false, false)
  | .inf a, .inf b => (.inf (a != b), false)
  | .inf a, .fin b m _ => if m = 0 then (.nan false, true) else (.inf (a != b), false)
  | .fin a m _, .inf b => if m = 0 then (.nan false, true) else (.inf (a != b), false)
  | .fin a m e, .fin b n f => (.fin (a != b) (m * n) (e + f), false)

def anySNaN (l : List FV) : Bool := l.any isSNaN

/-- A rounded sum of two operands. -/
def faddV (t : Ty) (rm : Rm) (sat flush : Bool) (x y : FV) : DWord × FlagSet :=
  let s := addFV rm x y
  let r := roundFV t rm sat flush s.1
  (r.1, r.2 ||| flagIf (s.2 || anySNaN [x, y]) flagNV)

/-- A rounded product. -/
def fmulV (t : Ty) (rm : Rm) (sat flush : Bool) (x y : FV) : DWord × FlagSet :=
  let s := mulFV x y
  let r := roundFV t rm sat flush s.1
  (r.1, r.2 ||| flagIf (s.2 || anySNaN [x, y]) flagNV)

/-- A product plus a term, rounded once (09 R149); `negP` negates the product. 0 · ∞ + NaN sets NV. -/
def fmaV (t : Ty) (rm : Rm) (sat flush negP : Bool) (x y z : FV) : DWord × FlagSet :=
  let p := mulFV x y
  let s := addFV rm (if negP then negFV p.1 else p.1) z
  let r := roundFV t rm sat flush s.1
  (r.1, r.2 ||| flagIf (p.2 || s.2 || anySNaN [x, y, z]) flagNV)

/-- The quotient with a sticky last bit, wide enough for one correct rounding in any format. -/
def divMag (m₁ : Nat) (e₁ : Int) (m₂ : Nat) (e₂ : Int) : Nat × Int :=
  let k := 60 + bitLen m₂ - bitLen m₁
  let n := m₁ <<< k
  (2 * (n / m₂) + (if n % m₂ = 0 then 0 else 1), e₁ - e₂ - k - 1)

/-- The quotient (09 R153), with whether the operation is invalid. -/
def divFV (x y : FV) : FV × Bool :=
  match x, y with
  | .nan _, _ => (.nan false, false)
  | _, .nan _ => (.nan false, false)
  | .inf _, .inf _ => (.nan false, true)
  | .inf a, .fin b _ _ => (.inf (a != b), false)
  | .fin a _ _, .inf b => (.fin (a != b) 0 0, false)
  | .fin a m e, .fin b n f =>
    if n = 0 then if m = 0 then (.nan false, true) else (.inf (a != b), false)
    else if m = 0 then (.fin (a != b) 0 0, false)
    else let q := divMag m e n f; (.fin (a != b) q.1 q.2, false)

def fdivV (t : Ty) (rm : Rm) (sat flush : Bool) (x y : FV) : DWord × FlagSet :=
  let s := divFV x y
  let r := roundFV t rm sat flush s.1
  (r.1, r.2 ||| flagIf (s.2 || anySNaN [x, y]) flagNV)

/-- The integer square root, one bit a step from bit `k` down. -/
def isqrtFrom (n : Nat) : Nat → Nat → Nat
  | 0, r => if (r + 1) * (r + 1) ≤ n then r + 1 else r
  | k + 1, r => isqrtFrom n k (if (r + 2 ^ (k + 1)) * (r + 2 ^ (k + 1)) ≤ n then r + 2 ^ (k + 1) else r)

def isqrt (n : Nat) : Nat := isqrtFrom n (bitLen n / 2 + 1) 0

/-- The square root with a sticky last bit. -/
def sqrtMag (m : Nat) (e : Int) : Nat × Int :=
  let k := 130 - bitLen m
  let k' := if (e - k) % 2 = 0 then k else k + 1
  let n := m <<< k'
  let r := isqrt n
  (2 * r + (if r * r = n then 0 else 1), (e - k') / 2 - 1)

/-- The square root (09 R152, R153), with whether the operation is invalid. -/
def sqrtFV (x : FV) : FV × Bool :=
  match x with
  | .nan _ => (.nan false, false)
  | .inf true => (.nan false, true)
  | .inf false => (.inf false, false)
  | .fin neg m e =>
    if m = 0 then (.fin neg 0 0, false)
    else if neg then (.nan false, true)
    else let r := sqrtMag m e; (.fin false r.1 r.2, false)

def fsqrtV (t : Ty) (rm : Rm) (flush : Bool) (x : FV) : DWord × FlagSet :=
  let s := sqrtFV x
  let r := roundFV t rm false flush s.1
  (r.1, r.2 ||| flagIf (s.2 || isSNaN x) flagNV)

/-! ### Comparison -/

/-- Order of two finite or infinite values, zeros of either sign equal; none with a NaN (09 R151). -/
def cmpFV (x y : FV) : Option Ordering :=
  match x, y with
  | .nan _, _ => none
  | _, .nan _ => none
  | .inf a, .inf b => some (if a = b then .eq else if a then .lt else .gt)
  | .inf a, _ => some (if a then .lt else .gt)
  | _, .inf b => some (if b then .gt else .lt)
  | .fin a m e, .fin b n f =>
    if m = 0 ∧ n = 0 then some .eq
    else if m = 0 then some (if b then .gt else .lt)
    else if n = 0 then some (if a then .lt else .gt)
    else if a ≠ b then some (if a then .lt else .gt)
    else some (if a then (cmpMag m e n f).swap else cmpMag m e n f)

/-- `x` below `y`, where -0 counts as below +0 (09 R150). -/
def belowFV (x y : FV) : Bool :=
  match cmpFV x y with
  | some .lt => true
  | some .eq => isZeroV x && isZeroV y && fvNeg x && !fvNeg y
  | _ => false

/-- Minimum or maximum on bit patterns already read (09 R150): the chosen pattern, or the canonical NaN. -/
def minMaxBits (t : Ty) (max : Bool) (a b : DWord) : DWord × FlagSet :=
  let x := decodeFloat t a
  let y := decodeFloat t b
  let nv := flagIf (anySNaN [x, y]) flagNV
  if isNaN x || isNaN y then (canonicalNaN t, nv)
  else (if max then (if belowFV x y then b else a) else (if belowFV y x then b else a), nv)

/-- minimumNumber or maximumNumber on bit patterns already read (09 R150). -/
def minMaxNumBits (t : Ty) (max : Bool) (a b : DWord) : DWord × FlagSet :=
  let x := decodeFloat t a
  let y := decodeFloat t b
  let nv := flagIf (anySNaN [x, y]) flagNV
  if isNaN x && isNaN y then (canonicalNaN t, nv)
  else if isNaN x then (b, nv)
  else if isNaN y then (a, nv)
  else minMaxBits t max a b

/-! ### Conversions to integers -/

/-- A finite value rounded to an integer in a mode (07 R129). -/
def roundToInt (rm : Rm) (neg : Bool) (m : Nat) (e : Int) : Int := signedOf neg (roundAt rm neg m e 0)

/-- The least and the greatest value of an integer type. -/
def intMin (t : Ty) : Int := if isSigned t then -(2 ^ (bitsOf t - 1) : Nat) else 0
def intMax (t : Ty) : Int := if isSigned t then (2 ^ (bitsOf t - 1) : Nat) - 1 else (2 ^ bitsOf t : Nat) - 1

/-- An integer clamped to a type, and whether it changed (07 R123). -/
def clampInt (t : Ty) (x : Int) : Int × Bool :=
  if x < intMin t then (intMin t, true) else if intMax t < x then (intMax t, true) else (x, false)

/-- VFTOI of one value (07 R129). -/
def ftoi (t : Ty) (rm : Rm) (v : FV) : Int × FlagSet :=
  match v with
  | .nan _ => (0, flagNV)
  | .inf neg => (if neg then intMin t else intMax t, flagNV)
  | .fin neg m e => let c := clampInt t (roundToInt rm neg m e); (c.1, flagIf c.2 flagNV)

/-- The exact value of an integer. -/
def intFV (x : Int) : FV := .fin (decide (x < 0)) x.natAbs 0

/-! ### f32 and f64 helpers of other chapters -/

/-- RNE addition of two codes without flushing, flags dropped (07 R132). -/
def addRne (t : Ty) (a b : DWord) : DWord := (faddV t .rne false false (decodeFloat t a) (decodeFloat t b)).1
/-- RNE subtraction. -/
def subRne (t : Ty) (a b : DWord) : DWord := (faddV t .rne false false (decodeFloat t a) (negFV (decodeFloat t b))).1
/-- RNE multiplication. -/
def mulRne (t : Ty) (a b : DWord) : DWord := (fmulV t .rne false false (decodeFloat t a) (decodeFloat t b)).1
/-- RNE division. -/
def divRne (t : Ty) (a b : DWord) : DWord := (fdivV t .rne false false (decodeFloat t a) (decodeFloat t b)).1
/-- FMA of 07 R132. -/
def fmaRne (t : Ty) (a b c : DWord) : DWord :=
  (fmaV t .rne false false false (decodeFloat t a) (decodeFloat t b) (decodeFloat t c)).1
/-- The sign bit inverted. -/
def negBits (t : Ty) (a : DWord) : DWord := a ^^^ BitVec.ofNat 64 (2 ^ (bitsOf t - 1))

def nanCode (t : Ty) (a : DWord) : Bool := isNaN (decodeFloat t a)
def infBits (t : Ty) (a : DWord) : Bool := isInfV (decodeFloat t a)
def zeroBits (t : Ty) (a : DWord) : Bool := isZeroV (decodeFloat t a)

/-- a = 0 written as +0. -/
def posZero (t : Ty) (a : DWord) : DWord := if zeroBits t a then 0 else a

/-! ### Exact pairs (07 R133, R134) -/

/-- A pair of codes with the flags it raised. -/
structure PairR where
  hi : DWord
  lo : DWord
  flags : FlagSet
  deriving DecidableEq, Repr

/-- The flags that any two-operand pair function raises for its operands and its first rounding (13 R205). -/
def pairNV (t : Ty) (a b : DWord) (invalid : Bool) : FlagSet :=
  flagIf (anySNaN [decodeFloat t a, decodeFloat t b] || invalid) flagNV

/-- The exact difference of two values, rounded to nearest (exact where representable). -/
def diffRne (t : Ty) (x y : FV) : DWord := (roundFV t .rne false false (addFV .rne x (negFV y)).1).1

/-- TwoSum (07 R133); `fast` takes the error of FastTwoSum. -/
def twoSum (t : Ty) (fast : Bool) (a b : DWord) : PairR :=
  let x := decodeFloat t a
  let y := decodeFloat t b
  let nan := canonicalNaN t
  if isNaN x || isNaN y then ⟨nan, nan, pairNV t a b false⟩
  else
    let ex := addFV .rne x y
    let s := (roundFV t .rne false false ex.1).1
    if isInfV x || isInfV y then ⟨s, 0, pairNV t a b ex.2⟩
    else if infBits t s then ⟨s, nan, flagXO⟩
    else
      let e := if fast then subRne t b (subRne t s a) else diffRne t ex.1 (decodeFloat t s)
      ⟨s, posZero t e, 0⟩

/-- TwoProd (07 R134). -/
def twoProd (t : Ty) (a b : DWord) : PairR :=
  let x := decodeFloat t a
  let y := decodeFloat t b
  let nan := canonicalNaN t
  if isNaN x || isNaN y then ⟨nan, nan, pairNV t a b false⟩
  else
    let ex := mulFV x y
    let p := (roundFV t .rne false false ex.1).1
    if isInfV x || isInfV y then ⟨p, 0, pairNV t a b ex.2⟩
    else if infBits t p then ⟨p, nan, flagXO⟩
    else
      let d := (addFV .rne ex.1 (negFV (decodeFloat t p))).1
      let e := (roundFV t .rne false false d).1
      ⟨p, posZero t e, flagIf (!(cmpFV d (decodeFloat t e) == some .eq)) flagXL⟩

/-- A double word (13 R206). -/
structure DW where
  hi : DWord
  lo : DWord
  deriving DecidableEq, Repr

/-- A step of a double-word sequence: stops with the infinity at the first step that rounds to one (13 R207). -/
def dwStep (t : Ty) (x : DWord) (k : DWord → Except DWord DW) : Except DWord DW :=
  if infBits t x then .error x else k x

/-- A pair step: its first part is tested before its second. -/
def dwPair (t : Ty) (p : PairR) (k : DWord → DWord → Except DWord DW) : Except DWord DW :=
  if infBits t p.hi then .error p.hi else k p.hi p.lo

/-- The sequence of DWADD (13 R207). -/
def dwAddSeq (t : Ty) (a b : DW) : Except DWord DW :=
  dwPair t (twoSum t false a.hi b.hi) fun sh sl =>
  dwPair t (twoSum t false a.lo b.lo) fun th tl =>
  dwStep t (addRne t sl th) fun sl =>
  dwPair t (twoSum t true sh sl) fun vh vl =>
  dwStep t (addRne t vl tl) fun vl =>
  dwPair t (twoSum t true vh vl) fun h l => .ok ⟨h, l⟩

/-- The sequence of DWMUL. -/
def dwMulSeq (t : Ty) (a b : DW) : Except DWord DW :=
  dwPair t (twoProd t a.hi b.hi) fun ch e =>
  dwStep t (mulRne t a.hi b.lo) fun u =>
  dwStep t (fmaRne t a.lo b.hi u) fun u =>
  dwStep t (addRne t e u) fun e =>
  dwPair t (twoSum t true ch e) fun h l => .ok ⟨h, l⟩

/-- The sequence of DWADDS. -/
def dwAddsSeq (t : Ty) (a b : DW) : Except DWord DW :=
  dwPair t (twoSum t false a.hi b.hi) fun sh sl =>
  dwStep t (addRne t a.lo sl) fun v =>
  dwPair t (twoSum t true sh v) fun h l => .ok ⟨h, l⟩

/-- The sequence of DWMULS. -/
def dwMulsSeq (t : Ty) (a b : DW) : Except DWord DW :=
  dwPair t (twoProd t a.hi b.hi) fun ch e =>
  dwStep t (fmaRne t a.lo b.hi e) fun e =>
  dwPair t (twoSum t true ch e) fun h l => .ok ⟨h, l⟩

/-- The frame of 13 R207 around a sequence. `mul` names the operation, and a product's TwoProd may set XL. -/
def dwFrame (t : Ty) (mul : Bool) (seq : DW → DW → Except DWord DW) (a b : DW) : PairR :=
  let vs := [a.hi, a.lo, b.hi, b.lo].map (decodeFloat t)
  let nan := canonicalNaN t
  let nv := flagIf (anySNaN vs) flagNV
  if vs.any isNaN then ⟨nan, nan, nv⟩
  else if vs.any isInfV then
    let x := (addFV .rne (decodeFloat t a.hi) (decodeFloat t a.lo)).1
    let y := (addFV .rne (decodeFloat t b.hi) (decodeFloat t b.lo)).1
    let h := (if mul then mulFV x y else addFV .rne x y).1
    ⟨(roundFV t .rne false false h).1, 0, flagIf (isNaN h) flagNV⟩
  else
    let xl := if mul then (twoProd t a.hi b.hi).flags &&& flagXL else 0
    match seq a b with
    | .ok r => ⟨r.hi, r.lo, xl⟩
    | .error i => ⟨i, nan, xl ||| flagXO⟩

def dwAdd (t : Ty) (a b : DW) : PairR := dwFrame t false (dwAddSeq t) a b
def dwNeg (t : Ty) (b : DW) : DW := ⟨negBits t b.hi, negBits t b.lo⟩
def dwSub (t : Ty) (a b : DW) : PairR := dwAdd t a (dwNeg t b)
def dwMul (t : Ty) (a b : DW) : PairR := dwFrame t true (dwMulSeq t) a b
def dwAdds (t : Ty) (a : DW) (b : DWord) : PairR := dwFrame t false (dwAddsSeq t) a ⟨b, 0⟩
def dwMuls (t : Ty) (a : DW) (b : DWord) : PairR := dwFrame t true (dwMulsSeq t) a ⟨b, 0⟩

/-! ### The fixed lane tree (07 R135) -/

/-- One level: neighbours combine, the lower index first. -/
def treeLevel {α : Type} (f : α → α → α) : List α → List α
  | a :: b :: rest => f a b :: treeLevel f rest
  | l => l

/-- The root of the tree over a list, by levels. -/
def treeRoot {α : Type} (f : α → α → α) : Nat → List α → Option α
  | 0, l => l.head?
  | n + 1, l => treeRoot f n (treeLevel f l)

/-- The root over the lanes of a group of at most 64, or over the 128 columns of a tile row. -/
def laneTree {α : Type} (f : α → α → α) (l : List α) : Option α := treeRoot f 7 l

/-! ### e8m0 (07 R114, R130) -/

/-- A positive finite value rounded to e8m0. -/
def roundE8m0 (rm : Rm) (v : FV) : BitVec 8 × FlagSet :=
  match v with
  | .fin false m e =>
    if m = 0 then (0xFF, flagNV)
    else
      let k := e + (bitLen m : Int) - 1
      let up : Bool :=
        match rm with
        | .rtz | .rdn => false
        | .rup => !(cmpMag m e 1 k == .eq)
        | .rne => cmpMag m e 3 (k - 1) == .gt || (cmpMag m e 3 (k - 1) == .eq && (k + 127) % 2 != 0)
      let c := (if up then k + 1 else k) + 127
      if 254 < c then (0xFE, flagOF) else if c < 0 then (0x00, flagUF) else (BitVec.ofInt 8 c, 0)
  | _ => (0xFF, flagNV)

end Sys2Proof.Machine
end

