-- ==== Sys2Proof/Machine/State.lean ====
section
/-! DEFINITION. The state of the package as plain data: everything the spec names, and the fields the model adds
(log entries 2 and 7). -/

namespace Sys2Proof.Machine

/-! ### Memory -/

/-- Addresses from `lo` up to `hi`, not including it, whose unlisted bytes are the free values of `seed`. -/
structure UndefRange where
  lo : Nat
  hi : Nat
  seed : Nat
  deriving DecidableEq, Repr

/-- Byte-addressed memory: the listed cells, by rising address, and the ranges whose unlisted bytes are undefined, the
latest first; every other unlisted byte reads 0 (log entry 3). -/
structure Memory where
  cells : List Host.Cell
  undef : List UndefRange
  deriving DecidableEq, Repr

/-- Where a byte stands once an access has been translated. -/
inductive Loc where
  /-- A page of a type, at a physical address; `va` is the virtual address the access used (15 R235). -/
  | page (ty : MemType) (pa va : Nat)
  /-- The scratchpad allocation of a team (15 R221). -/
  | scratch (team off : Nat)
  /-- A ring block of a transient (15 R220). -/
  | ring (part tr tile off : Nat)
  /-- A stream page that is not installed: the access waits, by virtual address (11 R174). -/
  | stream (va : Nat)
  deriving DecidableEq, Repr

/-- A 64-byte line of an L1 (15 R225): type and line number, the virtual line it was reached by, its bytes, the mask of
dirty bytes, and whether LDNC filled it (11 R177). -/
structure L1Line where
  ty : MemType
  line : Nat
  va : Nat
  bytes : List Byte
  dirty : BitVec 64
  readOnly : Bool
  deriving DecidableEq, Repr

/-- A 256-byte line in a quad's slice of L2 (15 R226): a line homed there, whose bytes stand in the store behind its type
(log entry 12), or a non-home copy. -/
structure SliceLine where
  ty : MemType
  line : Nat
  home : Bool
  va : Nat
  bytes : List Byte
  dirty : BitVec 256
  deriving DecidableEq, Repr

/-- The owner record in a home entry (15 R241, 16 R250). -/
structure HomeOwner where
  ty : MemType
  line : Nat
  core : Nat
  deriving DecidableEq, Repr

/-- A cached translation of a 4 KiB page (21 R342). -/
structure TlbEntry where
  part : Nat
  /-- The level-3 table it was walked from. -/
  root : DWord
  page : Nat
  ty : MemType
  frame : Nat
  w : Bool
  x : Bool
  deriving DecidableEq, Repr

/-- A fetch line held by an instruction cache, by partition (none for the firmware window) and byte address of the
line; a shootdown marks it for re-translation (21 R344). -/
structure ILine where
  part : Option Nat
  va : Nat
  bytes : List Byte
  retranslate : Bool
  deriving DecidableEq, Repr

/-! ### Traps, parks and runs -/

/-- The trap CSRs of a group or a control thread (21 R325). -/
structure TrapRegs where
  tvec : Word
  cause : Cause
  ctl : Bool
  tpc : Word
  tval : DWord
  tmask : DWord
  ppriv : Bool
  inh : Bool
  ss : Bool
  bpskip : Bool
  pend : Bool
  deriving DecidableEq, Repr

/-- A trap chosen for a lane set (21 R327). -/
structure TrapReq where
  cause : Cause
  lanes : DWord
  tpc : Word
  tval : DWord
  /-- The virtual 4 KiB pages a PAGE_NOT_PRESENT names. -/
  pages : List Nat
  /-- Lanes that would go elsewhere than the next slot had the instruction completed, with their pcs (23 R358). -/
  goes : List (Nat × Word)
  /-- Whether it has passed the Bezel fault path (23 R358). -/
  bezelDone : Bool
  deriving DecidableEq, Repr

/-- The emulation record of a group (23 R355). -/
structure EmuRec where
  cause : Cause
  ctl : Bool
  tpc : Word
  tval : DWord
  tmask : DWord
  ppriv : Bool
  inh : Bool
  ss : Bool
  bpskip : Bool
  pend : Bool
  priv : Bool
  /-- The pc of the instruction the routine stands for, which a STEP after it names (21 R347). -/
  pc : Word
  deriving DecidableEq, Repr

/-- The five classes of outstanding operations (11 R189). -/
inductive OpClass where
  | load | store | copy | matrix | vq
  deriving DecidableEq, Repr

/-- The vertical queue classes (01 R22). -/
inductive VqClass where
  | texture | test | raster | traversal
  deriving DecidableEq, Repr

/-- What a parked pc-set waits for (03 R43, R50). -/
inductive Park where
  | none
  /-- Scratchpad lines, by team and line number (03 R57). -/
  | lines (l : List (Nat × Nat))
  /-- A full vertical queue, with the order in which the pc-sets parked (01 R23). -/
  | queue (c : VqClass) (order : Nat)
  | pendingLaunch
  /-- Until the counter is at most `n` (11 R192). -/
  | counter (c : OpClass) (n : Nat)
  /-- An incomplete FENCE or LFENCE of the group (11 R185, R186). -/
  | fence
  /-- Completion of one operation: an ICINV (11 R187). -/
  | op (id : Nat)
  /-- Held at a JOIN with mask register B and restore register C (03 R39). -/
  | join (b c : BitVec 8)
  /-- Held at a derivative instruction, with the lane's guard bit and the number of its issue (03 R64; 07 R125). -/
  | quad (i : Instr) (guardBit : Bool) (seq : Nat)
  /-- The HEAVY cap (03 R49). -/
  | heavy
  /-- A lane of a quad at a segment start that waits for the rest of its quad (03 R54). -/
  | arrive (start : Word)
  /-- Pages awaited from the host, by virtual 4 KiB page (21 R331), with the trap that a rejection raises. -/
  | host (pages : List Nat) (req : TrapReq)
  /-- A stream page awaited from the streaming engine, by virtual 64 KiB page (17 R276). -/
  | stream (page : Nat) (req : TrapReq)
  /-- A trap that waits for the handler (21 R329). -/
  | trap
  /-- Halted by a debug match (21 R346). -/
  | debug
  /-- A matched EMULATE that waits while another lane set is in a routine (log entry 20). -/
  | emulation
  deriving DecidableEq, Repr

/-- A run in progress (03 R43): the lanes of its pc-set, its count, the fetch line it last checked with its bytes, and
whether it is heavy-active (03 R49). -/
structure Run where
  lanes : DWord
  count : Nat
  line : Option (Word × List Byte)
  heavy : Bool
  deriving DecidableEq, Repr

/-- What a group does once the park of 03 R46 at a run end has completed. -/
inductive After where
  | exit (lanes : DWord)
  | trap (t : TrapReq)
  /-- Enabled status bits raised by a result (07 R125): the lanes, the bits, and of the raising instruction the pc and
  the number of its issue. -/
  | arith (lanes : DWord) (bits : BitVec 6) (pc : Word) (seq : Nat)
  /-- EMULATE (23 R355): the lanes, the pc of the routine, and the values of TCAUSE, TPC and TVAL. -/
  | emulate (lanes : DWord) (target : Word) (cause : Cause) (tpc : Word) (tval : DWord)
  /-- Lanes that arrive at a segment start of a regroupable kernel (03 R52). -/
  | arrive (lanes : DWord) (start : Word)
  | migrate (lanes : DWord) (addr : DWord) (pc : Word)
  /-- The team gate (18 R291). -/
  | gate
  /-- Lanes that single-step past an instruction (21 R347). -/
  | step (lanes : DWord) (pc : Word)
  deriving DecidableEq, Repr

/-- One lane of a group (03 R37). -/
structure Lane where
  pc : Word
  mr : Word
  exited : Bool
  priv : Bool
  helper : Bool
  /-- The launch-time lane index and private base (11 R180). -/
  home : Nat
  privBase : Nat
  v : List Word
  t : List Word
  park : Park
  /-- The parked lane set the lane belongs to, 0 for none (03 R41). -/
  set : Nat
  deriving DecidableEq, Repr

/-- What YIELD waits for (11 R164): the groups that have still to issue, and the time at which it issued. -/
structure YieldWait where
  others : List Nat
  start : Nat
  deriving DecidableEq, Repr

/-- An operand latch (06 R109). -/
structure Latch where
  /-- 0 to 2 for the positions A, B and C. -/
  pos : Nat
  reg : Nat
  /-- Registers of the operand, from `reg` up. -/
  n : Nat
  /-- The value it read, by lane and register. -/
  vals : List (List Word)
  deriving DecidableEq, Repr

/-- A register whose word an uncorrectable error has destroyed (01 R34): file 0 vector, 1 scalar, 2 mask (21 R324). -/
structure BadReg where
  file : Nat
  lane : Nat
  reg : Nat
  deriving DecidableEq, Repr

/-! ### Operations in flight -/

/-- A register write of a result. -/
inductive RegWrite where
  | vec (lane reg : Nat) (x : Word)
  | scalar (reg : Nat) (x : DWord)
  | mask (reg lane : Nat) (b : Bool)
  deriving DecidableEq, Repr

/-- One lane's access: the lane, where its bytes stand, and the bytes of a store. -/
structure Access where
  lane : Nat
  loc : Loc
  data : List Byte
  deriving DecidableEq, Repr

/-- One lane's atomic: its operands as values of the element. -/
structure AtomAcc where
  lane : Nat
  loc : Loc
  x : DWord
  y : DWord
  deriving DecidableEq, Repr

/-- A tensor region record (11 R190). -/
structure CopyRec where
  gaddr : Nat
  gstride : Int
  saddr : Nat
  sstride : Nat
  rowBytes : Nat
  rows : Nat
  toScratch : Bool
  deriving DecidableEq, Repr

/-- One texel of a sample: the pieces of its bytes, none for the border, and its place in a block. -/
structure Tap where
  pieces : List (Loc × Nat)
  x : Nat
  y : Nat
  deriving DecidableEq, Repr

/-- The texels of one level and the weights along x and y in 256ths (17 R274). -/
structure LevelTaps where
  taps : List Tap
  fx : Nat
  fy : Nat
  deriving DecidableEq, Repr

/-- One lane's sample: its levels, the weight of the second, whether its value is one the spec does not state, and
whether it was served by fallback (17 R275). -/
structure SampleLane where
  lane : Nat
  levels : List LevelTaps
  blend : Nat
  free : Bool
  fellBack : Bool
  deriving DecidableEq, Repr

/-- One lane's box or triangle test: the pieces of its record and its ray (17 R288). -/
structure TestLane where
  lane : Nat
  pieces : List (Loc × Nat)
  ray : List Word
  deriving DecidableEq, Repr

/-- What an operation in flight does. -/
inductive OpKind where
  /-- A result already computed: an SFU value, a quotient, a reduction, a CSR. -/
  | result (writes : List RegWrite) (flags : List (Nat × (BitVec 7)))
  /-- A load of `size` bytes a lane into registers from `d`, with scope, acquire and the LDNC and remote marks. -/
  | load (accs : List Access) (ty : Ty) (size d scope : Nat) (acquire remote readOnly bypass : Bool)
  | store (accs : List Access) (scope : Nat) (release noAlloc : Bool)
  | atom (op : AtomOp) (ty : Ty) (accs : List AtomAcc) (scope : Nat) (acquire release remote near : Bool)
      (ret : Option Nat)
  | clasp (accs : List AtomAcc) (scope : Nat) (acquire release : Bool) (ret : Option Nat)
  | invalidate (locs : List Loc) (scope : Nat)
  | writeBack (locs : List Loc) (scope : Nat)
  /-- A copy, with the pieces it has moved, by number, and whether each met a fault (11 R190, R191). -/
  | copy (c : CopyRec) (scope : Nat) (release : Bool) (moved : List (Nat × Bool))
  /-- Continuation records still to reach a gatherer. -/
  | emit (records : List (List Byte))
  | fence (scope : Nat) (acquire release pf : Bool)
  | lfence
  | icinv (va len : Nat) (allDies : Bool)
  /-- A texture entry: format, block, border, channels, first register, residency mask, lanes, scope. -/
  | sample (format bw bh : Nat) (border : List Word) (channels d mask : Nat) (lanes : List SampleLane) (scope : Nat)
  /-- A TEXQ entry, whose results were fixed when its resource entry was read. -/
  | query (writes : List RegWrite)
  /-- A test entry: triangles or boxes, first register, lanes, scope. -/
  | test (tri : Bool) (d : Nat) (lanes : List TestLane) (scope : Nat)
  /-- RASTQ, TRACE and VERDICT entries: the instruction, its guard set and the values it read at issue, lane by lane. -/
  | engine (i : Instr) (lanes : DWord) (args : List (Nat × List DWord))
  deriving DecidableEq, Repr

/-- An operation in flight (11 R189): number in issue order, group, core, counter class, whether it owes a register
result, whether that result is ready, whether the operation is complete, and its vertical queue entry. -/
structure Op where
  id : Nat
  group : Nat
  team : Nat
  part : Nat
  core : Nat
  pc : Word
  cls : Option OpClass
  kind : OpKind
  owes : Bool
  writes : Option (List RegWrite)
  flags : List (Nat × (BitVec 7))
  done : Bool
  queue : Option VqClass
  /-- Cores that have acknowledged a promotion request for a remote acquire (15 R241). -/
  acks : List Nat
  /-- Lanes of a TRACE, or stages of a queue entry, still to finish. -/
  left : Nat
  deriving DecidableEq, Repr

/-! ### Groups -/

/-- A group (03 R35, R37; 05 R94, R96). -/
structure Group where
  id : Nat
  team : Nat
  /-- GRPID (05 R94). -/
  idx : Nat
  w : Nat
  /-- Declared vector registers V. -/
  vn : Nat
  core : Nat
  quarter : Nat
  /-- In a landing slot after MIGRATE (03 R68). -/
  landed : Bool
  /-- Shipped to a die and waiting for a landing slot. -/
  shipping : Option Nat
  age : Nat
  lanes : List Lane
  s : List DWord
  k : List DWord
  fst : DWord
  ften : DWord
  fmode : DWord
  splim : DWord
  privb : DWord
  trap : TrapRegs
  emu : Bool
  emuRec : Option EmuRec
  /-- The die and number of its save area (23 R357). -/
  area : Nat × Nat
  run : Option Run
  /-- Lowest lane of the pc-set that ran last (03 R50). -/
  lastLow : Option Nat
  traps : List TrapReq
  after : List After
  yield : Option YieldWait
  latches : List Latch
  /-- Copies that met a fault and are not yet reported: the operation and the first faulting address (11 R191). -/
  copyFaults : List (Nat × DWord)
  /-- A single step is armed for these lanes (21 R347). -/
  stepping : Option DWord
  /-- Lanes resumed from a debug halt, whose next issue no comparator matches (log entry 21). -/
  resumed : DWord
  /-- Lanes that a TRET resumed with BPSKIP set, whose next issue no comparator matches (21 R346). -/
  skips : DWord
  /-- Numbers of lane sets taken so far. -/
  sets : Nat
  /-- Registers with an uncorrectable error (01 R34). -/
  bad : List BadReg
  /-- Replay records: loads abandoned at a save or with the host link, for the lanes that waited (21 R332, 25 R376). -/
  replays : List Op
  deriving DecidableEq, Repr

/-! ### Launches -/

/-- A launch packet (03 R69). -/
structure Packet where
  kind : Nat
  wcode : Nat
  vregs : Nat
  pri : Nat
  heavy : Nat
  entry : Word
  codeBase : DWord
  resBase : DWord
  args : DWord
  gridX : Nat
  gridY : Nat
  gridZ : Nat
  teamLanes : Nat
  clw : Nat
  clh : Nat
  scratch : Nat
  acct : Nat
  flags : BitVec 8
  pde : Nat
  ctlEntry : Word
  privB : Nat
  place : DWord
  mapLen : Nat
  deadline : DWord
  joinAddr : Word
  specBase : DWord
  reservedZero : Bool
  deriving DecidableEq, Repr

/-- An entry of a placement map (03 R71). -/
structure MapEntry where
  die : Nat
  x : Nat
  y : Nat
  zero : Nat
  deriving DecidableEq, Repr

/-- The line a child grid counts on: the launching cluster and the scratchpad address (03 R60). -/
structure JoinLine where
  grid : Nat
  cluster : Nat
  addr : Nat
  deriving DecidableEq, Repr

/-- Where a grid came from. -/
inductive Origin where
  | host (queue : Nat)
  | child
  /-- A tile instance: pass and tile index (19 R303). -/
  | tile (pass tile : Nat)
  /-- A group gathered from continuation records on a die, or from candidates of a quad's traversal unit. -/
  | records (die : Nat)
  | callback (quad : Nat)
  deriving DecidableEq, Repr

/-- A queued or running grid (03 R35, 19 R296). -/
structure Grid where
  id : Nat
  part : Nat
  packet : Packet
  origin : Origin
  /-- PTROOT and TRAPVEC as they stood when the launch began (25 R374). -/
  root : DWord
  trapVec : Word
  /-- Clusters up to `total`; those from `next` up wait, and so do those passed over below it. -/
  total : Nat
  next : Nat
  passed : List Nat
  map : List MapEntry
  /-- Clusters deferred until the next thermal update of a die (19 R314). -/
  deferred : List (Nat × Nat)
  job : Option Nat
  join : Option JoinLine
  /-- Records of a gathered group, one a lane, and the rays of a callback group. -/
  records : List (List Byte)
  rays : List (Nat × Nat)
  deriving DecidableEq, Repr

/-- A job and its timer (19 R317). -/
structure Job where
  id : Nat
  part : Nat
  start : Nat
  paused : Option Nat
  deadline : DWord
  acted : Bool
  queue : Nat
  addr : DWord
  deriving DecidableEq, Repr

/-- A lane on its way between groups (03 R52; 04 R74). -/
structure Arrival where
  clock : Nat
  group : Nat
  lane : Nat
  state : Lane
  fst : DWord
  ften : DWord
  fmode : DWord
  splim : DWord
  privb : DWord
  s : List DWord
  area : Nat × Nat
  tvec : Word
  /-- Vector registers of the lane with an uncorrectable error (01 R34). -/
  bad : List Nat
  deriving DecidableEq, Repr

/-- Lanes gathered at a segment start. -/
structure Gathering where
  start : Word
  arrivals : List Arrival
  deriving DecidableEq, Repr

/-- Where a team is. -/
inductive TeamPlace where
  | resident | swapped | saved
  deriving DecidableEq, Repr

/-- An entry of the pending-launch queue: the packet and whether LAUNCH counted it on a join line (03 R66). -/
structure PendLaunch where
  packet : List Byte
  join : Option JoinLine
  /-- The core whose group launched it. -/
  core : Nat
  deriving DecidableEq, Repr

/-- A team (03 R35). -/
structure Team where
  id : Nat
  part : Nat
  grid : Nat
  cluster : Nat
  idx : Nat
  /-- The core whose column holds its scratchpad, the core it runs on, and the cluster's origin and die. -/
  column : Nat
  core : Nat
  packet : Packet
  origin : Origin
  root : DWord
  tileXY : DWord
  scratch : Memory
  absent : List Nat
  pendLaunch : List PendLaunch
  gated : Bool
  /-- Set by the switch or the end of group 0 that opens the team gate: the number of the next operation then (18 R291,
  20 R322). -/
  gateMark : Option Nat
  gateOpen : Bool
  privAlloc : Option Nat
  place : TeamPlace
  parkedSince : Option Nat
  /-- Bytes of its saved state in shadow shares, by column (01 R32). -/
  shadow : List (Nat × Nat)
  tiles : List Memory
  /-- Accumulator tiles with an uncorrectable error (01 R34). -/
  badTiles : List Nat
  gatherings : List Gathering
  areas : List (Nat × Nat)
  /-- The quarters its groups were placed in. -/
  granted : List Nat
  ended : Bool
  job : Option Nat
  rays : List (Nat × Nat)
  deriving DecidableEq, Repr

/-! ### The control core and the matrix engine -/

/-- What a parked control thread waits for (17 R257, R268, R269). -/
inductive CtlPark where
  | none
  | line (team line : Nat)
  /-- MWAIT on a tag. -/
  | tag (tag : BitVec 16)
  /-- A full reservation table; parked posts are accepted in order. -/
  | table (order : Nat)
  | ppoint
  | host (pages : List Nat) (req : TrapReq)
  | stream (page : Nat) (req : TrapReq)
  deriving DecidableEq, Repr

/-- What an engine or the launch unit waits for: a page from the host (21 R331) or from the streaming engine (17 R276),
with the virtual address that missed; or a scratchpad line that is not present (17 R259). -/
inductive PageWait where
  | host (va : Nat)
  | stream (va : Nat)
  | line (team line : Nat)
  deriving DecidableEq, Repr

/-- A fault of a posted operation that no MWAIT has raised yet (17 R270). -/
structure PostedFault where
  op : Nat
  tag : BitVec 16
  cause : Cause
  tval : DWord
  deriving DecidableEq, Repr

/-- A control thread (17 R253). -/
structure Thread where
  team : Nat
  part : Nat
  quad : Nat
  slot : Nat
  s : List DWord
  c : List Bool
  /-- Scalar registers with an uncorrectable error (01 R34). -/
  bad : List Nat
  pc : Word
  priv : Bool
  exited : Bool
  /-- Saved ahead of its team by a halt-and-swap, with the tiles saved (17 R256, R269). -/
  saved : Option (BitVec 8)
  trap : TrapRegs
  line : Option (Word × List Byte)
  park : CtlPark
  faults : List PostedFault
  /-- A step of MWAIT already taken: the line has been acquired. -/
  waited : Bool
  stepping : Bool
  /-- Its first instruction has been checked for entry (05 R80). -/
  started : Bool
  /-- In a routine of the firmware, with what it returns to (23 R355). -/
  emu : Bool
  emuRec : Option EmuRec
  deriving DecidableEq, Repr

/-- How far an entry of the reservation table has come (17 R258, R259). -/
inductive EntryStage where
  | posted | armed | fetched | granted
  deriving DecidableEq, Repr

/-- A tile descriptor (17 R261). -/
structure TileDesc where
  base : DWord
  vstride : Nat
  vecs : Nat
  kblk : Nat
  type : Nat
  spn : Nat
  scale : DWord
  scstride : Nat
  spstride : Nat
  spare : DWord
  metaBase : DWord
  mstride : Nat
  reserved : Bool
  deriving DecidableEq, Repr

/-- An entry of a reservation table (17 R257): the posting thread's team, the instruction, and the scalar values it
read when posted. -/
structure Entry where
  id : Nat
  team : Nat
  slot : Nat
  instr : Instr
  prio : Nat
  tag : BitVec 16
  a : DWord
  b : DWord
  ss : DWord
  stage : EntryStage
  descA : Option TileDesc
  descB : Option TileDesc
  /-- Operand values fetched: the elements, as f32 or integer codes, per vector and K position. -/
  opA : List (List DWord)
  opB : List (List DWord)
  waits : Option PageWait
  deriving DecidableEq, Repr

/-! ### Rays and rasters -/

/-- A candidate hit (17 R285). -/
structure Candidate where
  kind : Nat
  t : Word
  u : Word
  v : Word
  prim : Word
  leaf : Word
  /-- The shader-table entry it goes to. -/
  shader : Word
  /-- Gathered into a callback group. -/
  sent : Bool
  deriving DecidableEq, Repr

/-- A node word on the stack of a ray: the word, the entry distance, and the child it stands in (17 R283, R285). -/
structure StackEntry where
  word : Word
  entry : Word
  ref : Word
  deriving DecidableEq, Repr

/-- Triangles of a leaf that are still to test: the leaf's place, the next and the last index, and NOP. -/
structure LeafTodo where
  ref : Word
  next : Nat
  last : Nat
  nop : Bool
  deriving DecidableEq, Repr

/-- An entry of a ray table (17 R284, R285): the record's address and the resource table it names, the record and the
BVH entry once they are read, and how far traversal has come. -/
structure Ray where
  slot : Nat
  gen : Nat
  op : Nat
  part : Nat
  core : Nat
  ea : DWord
  res : DWord
  bvh : Option Nat
  loaded : Bool
  origin : List Word
  dir : List Word
  tmin : Word
  tmax : Word
  flags : Word
  shader : Word
  payload : DWord
  user : DWord
  nodeBase : DWord
  nodeCount : Nat
  triBase : DWord
  triCount : Nat
  shTable : DWord
  shCount : Nat
  stack : List StackEntry
  todo : Option LeafTodo
  best : Candidate
  bestStatus : Nat
  cand : Option Candidate
  ended : Option Nat
  waits : Option PageWait
  deriving DecidableEq, Repr

/-- Candidates that wait for a group (17 R286). -/
structure CandGather where
  packet : Packet
  table : DWord
  part : Nat
  shader : Word
  first : Nat
  rays : List Nat
  deriving DecidableEq, Repr

/-- A raster batch in progress (17 R277 to R281): its operation, its record's address, the record once it is read, the
next triangle to classify, and the triangles still to append to the software queue. -/
structure Batch where
  op : Nat
  part : Nat
  core : Nat
  ea : DWord
  record : List Byte
  next : Nat
  soft : List Nat
  waits : Option PageWait
  deriving DecidableEq, Repr

/-! ### Cores, quads and dies -/

/-- The debug CSRs of a core (21 R345). -/
structure Debug where
  pc : List Word
  lo : List (BitVec 57)
  hi : List (BitVec 57)
  lm : List DWord
  ctl : BitVec 16
  deriving DecidableEq, Repr

/-- One core (01 R14, R16, R22; 15 R225, R235; 21 R342, R345). `owed` is the model's own: the lines that left the core
outside a device-scope release, and those it has acquired, which its next releases publish (log entry 100). -/
structure Core where
  l1 : List L1Line
  sig : BitVec 1024
  owed : BitVec 1024
  tlb : List TlbEntry
  icache : List ILine
  wbuf : List (Nat × Nat)
  dbg : Debug
  counters : List DWord
  deriving DecidableEq, Repr

/-- One quad (01 R15). -/
structure Quad where
  slice : List SliceLine
  table : List Entry
  busy : Option Nat
  ctlNext : Nat
  rays : List Ray
  gens : List (Nat × Nat)
  cands : List CandGather
  batches : List Batch
  rasterNext : Nat
  rayNext : Nat
  deriving DecidableEq, Repr

/-- A patch slot (23 R350). -/
structure PatchSlot where
  kind : Nat
  prio : Nat
  action : Nat
  major : Nat
  wsel : Nat
  flags : BitVec 8
  arg : Nat
  mask : Word
  value : Word
  pcLo : Word
  pcHi : Word
  target : Word
  deriving DecidableEq, Repr

/-- A die's Bezel (23 R350, R360 to R363). -/
structure Bezel where
  slots : List PatchSlot
  micro : List (SlotBits × Word)
  digest : DWord
  version : DWord
  /-- Where the code of the image stands in the firmware code window (23 R357, R360). -/
  codeOfs : Nat
  codeLen : Nat
  deriving DecidableEq, Repr

/-- An event record (25 R387). -/
structure EvRec where
  die : Nat
  unit : Nat
  code : Nat
  seq : Word
  part : Option Nat
  double : Bool
  payload : List DWord
  deriving DecidableEq, Repr

/-- Losses of one source (25 R389). -/
structure Lost where
  unit : Nat
  fn : Nat
  count : Nat
  first : Word
  deriving DecidableEq, Repr

/-- Continuation records that wait for a group (03 R67). -/
structure RecGather where
  packet : Packet
  part : Nat
  entry : Nat
  first : Nat
  records : List (List Byte)
  deriving DecidableEq, Repr

/-- A stream request (17 R276): partition and page tables, virtual 64 KiB page, locator, and whether a record has told of
an empty page pool. -/
structure StreamReq where
  part : Nat
  root : DWord
  page : Nat
  locator : DWord
  told : Bool
  deriving DecidableEq, Repr

/-- A queued walk (21 R342): the core that missed, partition and page tables, virtual 4 KiB page. -/
structure MissReq where
  core : Nat
  part : Nat
  root : DWord
  page : Nat
  deriving DecidableEq, Repr

/-- One die (01 R9, R25). -/
structure Die where
  dieid : BitVec 8
  clockOffset : Nat
  /-- Core clocks since power-on, in nineteenths (25 R391). -/
  coreTime : Nat
  stepping : BitVec 16
  keyHash : List Byte
  patchFloor : DWord
  fwFloor : DWord
  dvfs : Nat
  temps : List Nat
  power : List Nat
  counters : List DWord
  spill : List (Nat × EvRec)
  kept : List (Nat × EvRec)
  seqs : List (Nat × Word)
  lost : List Lost
  areas : List Nat
  pagePool : List Nat
  streamQ : List StreamReq
  missQ : List MissReq
  l2tlb : List TlbEntry
  bezel : Bezel
  linkA : Bool
  linkB : Bool
  /-- Row repairs in force: column, bank and row; and those blown in the fuses (01 R17). -/
  repairs : List (Nat × Nat × Nat)
  fusedRepairs : List (Nat × Nat × Nat)
  gather : List RecGather
  deriving DecidableEq, Repr

/-! ### Partitions -/

/-- A host queue (19 R292, R295). -/
structure HQueue where
  base : DWord
  ctl : DWord
  tail : Word
  head : Word
  lost : Nat
  deriving DecidableEq, Repr

/-- Tile states (19 R305). -/
inductive TileState where
  | pending | released | launched | retired
  deriving DecidableEq, Repr

/-- A tile of an active graph: its state, its count, and when it was released (19 R305, R307). -/
structure Tile where
  state : TileState
  count : Nat
  order : Nat
  deriving DecidableEq, Repr

/-- A pass (19 R299). -/
structure Pass where
  packet : Packet
  map : List MapEntry
  tw : Nat
  th : Nat
  pcode : Nat
  pkind : Nat
  inputs : Nat
  edge0 : Nat
  csDies : Nat
  csX : Nat
  csY : Nat
  csW : Nat
  csH : Nat
  tiles : List Tile
  deriving DecidableEq, Repr

/-- An edge (19 R300). -/
structure Edge where
  producer : Nat
  scale : Nat
  dx0 : Int
  dx1 : Int
  dy0 : Int
  dy1 : Int
  tr : Option Nat
  deriving DecidableEq, Repr

/-- An allocated block of a transient: the producer tile, its ring position or overflow index, its contents when in a
ring, its last-reader count and the EXTRA passes it counts (19 R311, R312). -/
structure Block where
  tile : Nat
  pos : Nat
  spilled : Bool
  mem : Memory
  count : Nat
  extra : List Nat
  /-- Its producer tile has retired. -/
  written : Bool
  deriving DecidableEq, Repr

/-- A transient declaration with its ring (19 R301, R312). -/
structure Transient where
  blockBytes : Nat
  producer : Nat
  ringDies : Nat
  ringBlocks : Nat
  extra : Nat
  overBase : DWord
  overBlocks : Nat
  head : Nat
  tail : Nat
  /-- Ring positions freed out of order. -/
  marks : List Nat
  blocks : List Block
  deriving DecidableEq, Repr

/-- The active graph of a partition (19 R297). -/
structure Graph where
  passes : List Pass
  edges : List Edge
  transients : List Transient
  done : DWord
  doneVal : DWord
  job : Nat
  releases : Nat
  deriving DecidableEq, Repr

/-- PSTATE (25 R374). -/
inductive PState where
  | running | preempting | halted
  deriving DecidableEq, Repr

/-- A region-table entry (25 R385). -/
structure Region where
  base : DWord
  size : DWord
  dies : BitVec 8
  chans : BitVec 8
  lstride : BitVec 8
  flags : BitVec 8
  rest : List Byte
  deriving DecidableEq, Repr

/-- The Partition CSRs (19 R320, 21 R336). -/
structure PartCsrs where
  swapThr : Word
  regTo : BitVec 16
  rasThr : Word
  tLimit : BitVec 16
  prngSeed : Word
  prngState : Word
  predl1 : Word
  predl2 : Word
  recTo : BitVec 16
  recQw : BitVec 16
  recMw : BitVec 16
  entTab : DWord
  entCount : BitVec 16
  tCouple : DWord
  deriving DecidableEq, Repr

/-- A packet the launch unit has taken and not yet validated (19 R294). -/
structure Taken where
  queue : Nat
  addr : DWord
  since : Nat
  deriving DecidableEq, Repr

/-- What a read of the launch unit serves (19 R396): the packet it has taken, the next child packet of a team, the next
record of an EMIT, or a candidate of a ray. -/
inductive LaunchUse where
  | packet
  | child (team : Nat)
  | record (op : Nat)
  | candidate (quad ray : Nat)
  deriving DecidableEq, Repr

/-- A shootdown that waits for the accesses in flight that hold a translation of its range (21 R343): the function whose
command it is, the range, and the operations it waits for. -/
structure Shoot where
  fn : Nat
  base : Nat
  len : Nat
  ops : List Nat
  deriving DecidableEq, Repr

/-- A partition (01 R31, 25 R374). -/
structure Partition where
  idx : Nat
  shape : DWord
  split : BitVec 12
  cores : List Nat
  state : PState
  ptroot : DWord
  trapVec : Word
  evbase : DWord
  even : Bool
  evlog2n : BitVec 5
  evtail : Word
  evhead : Word
  evselc : DWord
  evseld0 : DWord
  evseld1 : DWord
  privPool : DWord
  privSize : DWord
  csrs : PartCsrs
  queues : List HQueue
  taken : Option Taken
  /-- A page that the launch unit waits for. -/
  launchWait : Option (PageWait × LaunchUse)
  graph : Option Graph
  regions : List Region
  privAllocs : List (Nat × Nat)
  /-- Virtual pages whose PAGE_NOT_PRESENT record is unanswered (21 R331). -/
  faults : List Nat
  shoots : List Shoot
  /-- The clock of a pre-emption request (21 R333), and the function whose command waits for it. -/
  preempt : Option Nat
  preemptFn : Option Nat
  /-- PREDL1 has passed: no group of it issues any more (21 R334). -/
  halting : Bool
  /-- Evicted to GDDR at this address (25 R375). -/
  evicted : Option Nat
  deriving DecidableEq, Repr

/-- A PCIe function (25 R372, R375, R388): 0 is PF0, k is VFk. -/
structure Func where
  marg : List DWord
  mcmd : BitVec 8
  status : DWord
  data : List Byte
  queue : List EvRec
  msix0 : Nat
  msix1 : Nat
  deriving DecidableEq, Repr

/-! ### Steps -/

/-- Who issues: a pc-set of a group, or a control thread. -/
inductive Issuer where
  | group (id : Nat)
  | thread (team : Nat)
  deriving DecidableEq, Repr

/-- The issue in progress: the issuer, its active set, its pc, the SW bit of its slot, the slot's bits, and whether it
is a substitute of a Bezel rewrite with the matched pc (23 R353). -/
structure Cur where
  who : Issuer
  active : DWord
  pc : Word
  sw : Bool
  raw : SlotBits
  subst : Bool
  deriving DecidableEq, Repr

/-- A write posted to a PCIe peer (15 R249): the group, the peer's address, the bytes. -/
structure PeerWrite where
  group : Nat
  pa : Nat
  data : List Byte
  deriving DecidableEq, Repr

/-- An aligned 64-bit word of cached or stacked memory that an uncorrectable error has destroyed (01 R34): where it stands,
and its bytes that nothing has written since. -/
structure BadWord where
  loc : Loc
  mask : BitVec 8
  deriving DecidableEq, Repr

/-- A soft error (01 R34): one that the code corrects, on a die, or one that destroys a word: of cached or stacked memory,
of a group's or a control thread's registers, of an accumulator tile. -/
inductive SoftError where
  | corrected (die : Nat)
  | memory (l : Loc)
  | register (group : Nat) (r : BadReg)
  | control (team reg : Nat)
  | tile (team tile : Nat)
  deriving DecidableEq, Repr

/-- One step to take: an issue by a quarter or a quad control core, a step of the device, or the loss of a clean or
dirty copy that a cache is free to make at any time. -/
inductive Move where
  | issue (core quarter : Nat)
  | control (quad : Nat)
  | event (i : Instr)
  | evictL1 (core line : Nat)
  | evictSlice (quad line : Nat)
  | evictFetch (core va : Nat)
  /-- The oldest posted write of a group reaches its peer (15 R249). -/
  | peerArrives (group : Nat)
  /-- The cores of a partition acknowledge a shootdown that waited (21 R343). -/
  | acknowledge (part : Nat)
  | softError (e : SoftError)
  deriving DecidableEq, Repr

/-- The whole package. -/
structure State where
  powered : Bool
  booted : Bool
  bootstat : DWord
  linkUp : Bool
  /-- The fuse data of this package has been read once; it stays (01 R17, R25). -/
  fused : Bool
  /-- SHA-256 and VERSION of the firmware image that booted (25 R384, R375). -/
  fwHash : List Byte
  fwVersion : DWord
  now : Nat
  dies : List Die
  cores : List Core
  quads : List Quad
  parts : List Partition
  grids : List Grid
  jobs : List Job
  teams : List Team
  groups : List Group
  threads : List Thread
  ops : List Op
  homes : List HomeOwner
  /-- Writes on their way to PCIe peers, the oldest first (15 R249). -/
  posted : List PeerWrite
  /-- Words of memory with an uncorrectable error (01 R34). -/
  bad : List BadWord
  funcs : List Func
  gddr : Memory
  hostMem : Memory
  peerMem : Memory
  nvme : Memory
  nvmePresent : Bool
  flash : Memory
  /-- Inputs to come: the model's own field (log entry 2). -/
  agenda : List Move
  /-- The issue in progress: the model's own field. -/
  cur : Option Cur
  /-- Where the next free value is taken: the model's own field (log entry 7). -/
  fresh : Nat
  /-- Numbers records, operations and teams: the model's own field. -/
  nextId : Nat
  /-- Which group the empty agenda tries first: the model's own field. -/
  turn : Nat
  deriving DecidableEq, Repr

/-- Reasons to stop with a fault. -/
inductive Fault where
  /-- Raised by the meaning of an instruction that is executed while no pc-set or control thread issues. No step does
  so; it is safe, since nothing of the machine is described by it. -/
  | noIssuer
  deriving DecidableEq, Repr

/-- Reasons to refuse. -/
inductive Refusal where
  /-- Answered by an arm of `exec` whose instruction has no meaning yet. Safe. -/
  | notModelled (mnemonic : String)
  deriving DecidableEq, Repr

/-! ### Reset -/

def Memory.empty : Memory := ⟨[], []⟩

/-- Memory of which nothing has been written since its contents became undefined (25 R380). -/
def Memory.fresh (size seed : Nat) : Memory := ⟨[], [⟨0, size, seed⟩]⟩

def Debug.reset : Debug :=
  ⟨List.replicate 4 0, List.replicate 2 0, List.replicate 2 0, List.replicate 2 0, 0⟩

def Core.reset : Core := ⟨[], 0, 0, [], [], [], Debug.reset, List.replicate 8 0⟩

def Quad.reset : Quad := ⟨[], [], none, 0, [], [], [], [], 0, 0⟩

def PatchSlot.empty : PatchSlot := ⟨0, 0, 0, 0, 0, 0, 0, 0, 0, 0, 0, 0⟩

def Bezel.reset : Bezel := ⟨List.replicate 32 PatchSlot.empty, [], 0, 0, 0, 0⟩

/-- A die after a boot without a patch section. Fuse data is not the spec's: DESIGN CHOICE: identifier by position, floors,
stepping and key hash 0, links trained (log entry 5), no row repairs fused (log entry 117). -/
def Die.reset (pos : Nat) : Die where
  dieid := BitVec.ofNat 8 pos
  clockOffset := 0
  coreTime := 0
  stepping := 0
  keyHash := List.replicate 32 0
  patchFloor := 0
  fwFloor := 0
  dvfs := 0
  temps := List.replicate 64 0
  power := List.replicate 64 0
  counters := List.replicate 16 0
  spill := []
  kept := []
  seqs := []
  lost := []
  areas := []
  pagePool := []
  streamQ := []
  missQ := []
  l2tlb := []
  bezel := Bezel.reset
  linkA := true
  linkB := true
  repairs := []
  fusedRepairs := []
  gather := []

def Func.reset : Func := ⟨List.replicate 4 0, 0, 0, [], [], 0, 0⟩

/-- The package right after a good power-on boot (25 R380): no partition exists, so nothing runs until the host creates
one. GDDR, host memory, the namespace and the flash hold undefined contents (log entry 3). -/
def State.reset : State where
  powered := true
  booted := true
  bootstat := 0
  linkUp := true
  fused := false
  fwHash := List.replicate 32 0
  fwVersion := 0
  now := 0
  dies := (List.range 4).map Die.reset
  cores := List.replicate 256 Core.reset
  quads := List.replicate 64 Quad.reset
  parts := []
  grids := []
  jobs := []
  teams := []
  groups := []
  threads := []
  ops := []
  homes := []
  posted := []
  bad := []
  funcs := List.replicate 17 Func.reset
  gddr := Memory.fresh (2 ^ 53) 0
  hostMem := Memory.fresh (2 ^ 53) 1
  peerMem := Memory.fresh (2 ^ 53) 2
  nvme := Memory.fresh (2 ^ 64) 3
  nvmePresent := false
  flash := Memory.fresh (2 ^ 32) 4
  agenda := []
  cur := none
  fresh := 0
  nextId := 0
  turn := 0

end Sys2Proof.Machine
end

