-- ==== Sys2Proof/Machine/Ops.lean ====
section
/-! DEFINITION. The named operations every meaning is written with: memory bytes, records by number, registers, pcs and
runs, event records, taking a trap (21 R328, R329) and returning from one (21 R330). -/

namespace Sys2Proof.Machine

/-! ### Bytes and memory -/

/-- A number from bytes, the first the least significant (00 R4). -/
def bytesNat : List Byte → Nat
  | [] => 0
  | b :: l => b.toNat + 256 * bytesNat l

/-- `n` bytes of a number, the least significant first. -/
def natBytes : Nat → Nat → List Byte
  | 0, _ => []
  | n + 1, x => BitVec.ofNat 8 x :: natBytes n (x / 256)

def bytesWord (l : List Byte) : Word := BitVec.ofNat 32 (bytesNat l)
def bytesDWord (l : List Byte) : DWord := BitVec.ofNat 64 (bytesNat l)

/-- The number in bytes `off` to `off + n - 1` of a record. -/
def fieldNat (l : List Byte) (off n : Nat) : Nat := bytesNat ((l.drop off).take n)

/-- A two's-complement number of `n` bits. -/
def signedNat (n x : Nat) : Int := if 2 * x < 2 ^ n then x else (x : Int) - 2 ^ n

/-- The listed byte at an address. -/
def cellAt : List Host.Cell → Nat → Option Byte
  | [], _ => none
  | (a, b) :: l, x => if a = x then some b else if x < a then none else cellAt l x

/-- The undefined range an address stands in, the latest first. -/
def undefAt : List UndefRange → Nat → Option Nat
  | [], _ => none
  | r :: l, x => if r.lo ≤ x ∧ x < r.hi then some r.seed else undefAt l x

/-- What an unlisted address reads as (log entry 3). -/
def unlistedByte (m : Memory) (x : Nat) : Byte :=
  match undefAt m.undef x with
  | some seed => Config.undefByte seed x
  | none => 0

/-- One byte of memory. -/
def readByte (m : Memory) (x : Nat) : Byte :=
  match cellAt m.cells x with
  | some b => b
  | none => unlistedByte m x

/-- `n` bytes from an address. -/
def readBytes (m : Memory) (x n : Nat) : List Byte := (List.range n).map fun i => readByte m (x + i)

/-- The cells with the address removed. -/
def eraseCell : List Host.Cell → Nat → List Host.Cell
  | [], _ => []
  | (a, b) :: l, x => if a = x then l else if x < a then (a, b) :: l else (a, b) :: eraseCell l x

/-- The cells with a byte listed at the address, in their order. -/
def insertCell : List Host.Cell → Nat → Byte → List Host.Cell
  | [], x, v => [(x, v)]
  | (a, b) :: l, x, v => if a = x then (x, v) :: l else if x < a then (x, v) :: (a, b) :: l else (a, b) :: insertCell l x v

/-- A byte written. A zero is listed only where an unlisted byte is undefined, so that memories that read the same
outside undefined ranges are the same data. -/
def writeByte (m : Memory) (x : Nat) (v : Byte) : Memory :=
  if (undefAt m.undef x).isNone && v == 0 then { m with cells := eraseCell m.cells x }
  else { m with cells := insertCell m.cells x v }

/-- Bytes written from an address up. -/
def writeBytes (m : Memory) (x : Nat) : List Byte → Memory
  | [] => m
  | b :: l => writeBytes (writeByte m x b) (x + 1) l

/-- A range whose contents become undefined. -/
def clearRange (m : Memory) (lo hi seed : Nat) : Memory :=
  ⟨m.cells.filter fun c => c.1 < lo || hi ≤ c.1, ⟨lo, hi, seed⟩ :: m.undef⟩

/-- Cells in strictly rising order of address, from a bound up. -/
def risingFrom : Nat → List Host.Cell → Bool
  | _, [] => true
  | lo, (a, _) :: l => lo ≤ a && risingFrom (a + 1) l

/-- The canonical form of memory. -/
def Memory.wf (m : Memory) : Bool :=
  risingFrom 0 m.cells && m.cells.all fun c => c.2 != 0 || (undefAt m.undef c.1).isSome

def readNat (m : Memory) (x n : Nat) : Nat := bytesNat (readBytes m x n)

/-! ### Order -/

/-- An element put before the first that it does not come after. -/
def insertBy {α : Type} (le : α → α → Bool) (x : α) : List α → List α
  | [] => [x]
  | y :: l => if le x y then x :: y :: l else y :: insertBy le x l

/-- A stable sort. -/
def sortBy {α : Type} (le : α → α → Bool) : List α → List α
  | [] => []
  | x :: l => insertBy le x (sortBy le l)

/-! ### Records by number -/

def findGroup (s : State) (id : Nat) : Option Group := s.groups.find? (·.id == id)
def findTeam (s : State) (id : Nat) : Option Team := s.teams.find? (·.id == id)
def findThread (s : State) (team : Nat) : Option Thread := s.threads.find? (·.team == team)
def findPart (s : State) (idx : Nat) : Option Partition := s.parts.find? (·.idx == idx)
/-- A team's partition as the team sees it: with the page tables of its launch (25 R374). -/
def teamPartition (s : State) (team : Nat) : Option Partition :=
  match findTeam s team with
  | some t => (findPart s t.part).map fun p => { p with ptroot := t.root }
  | none => none
def findGrid (s : State) (id : Nat) : Option Grid := s.grids.find? (·.id == id)
def findOp (s : State) (id : Nat) : Option Op := s.ops.find? (·.id == id)
def findJob (s : State) (id : Nat) : Option Job := s.jobs.find? (·.id == id)

def putGroup (s : State) (g : Group) : State :=
  { s with groups := s.groups.map fun h => if h.id == g.id then g else h }
def putTeam (s : State) (t : Team) : State :=
  { s with teams := s.teams.map fun u => if u.id == t.id then t else u }
def putThread (s : State) (t : Thread) : State :=
  { s with threads := s.threads.map fun u => if u.team == t.team then t else u }
def putPart (s : State) (p : Partition) : State :=
  { s with parts := s.parts.map fun q => if q.idx == p.idx then p else q }
def putGrid (s : State) (g : Grid) : State :=
  { s with grids := s.grids.map fun h => if h.id == g.id then g else h }
def putOp (s : State) (o : Op) : State := { s with ops := s.ops.map fun q => if q.id == o.id then o else q }
def dropOp (s : State) (id : Nat) : State := { s with ops := s.ops.filter (·.id != id) }
def modCore (s : State) (c : Nat) (f : Core → Core) : State := { s with cores := s.cores.modify c f }
def modQuad (s : State) (q : Nat) (f : Quad → Quad) : State := { s with quads := s.quads.modify q f }
def modDie (s : State) (d : Nat) (f : Die → Die) : State := { s with dies := s.dies.modify d f }
def modFunc (s : State) (n : Nat) (f : Func → Func) : State := { s with funcs := s.funcs.modify n f }
def modPart (s : State) (p : Nat) (f : Partition → Partition) : State :=
  { s with parts := s.parts.map fun q => if q.idx == p then f q else q }
def modGroup (s : State) (id : Nat) (f : Group → Group) : State :=
  { s with groups := s.groups.map fun h => if h.id == id then f h else h }
def modTeam (s : State) (id : Nat) (f : Team → Team) : State :=
  { s with teams := s.teams.map fun u => if u.id == id then f u else u }
def modThread (s : State) (team : Nat) (f : Thread → Thread) : State :=
  { s with threads := s.threads.map fun u => if u.team == team then f u else u }

def coreAt (s : State) (c : Nat) : Core := s.cores.getD c Core.reset
def quadAt (s : State) (q : Nat) : Quad := s.quads.getD q Quad.reset
def dieAt (s : State) (d : Nat) : Die := s.dies.getD d (Die.reset d)

/-- A number no record has had. -/
def newId (s : State) : Nat × State := (s.nextId, { s with nextId := s.nextId + 1 })
/-- A place for a free value. -/
def newFresh (s : State) : Nat × State := (s.fresh, { s with fresh := s.fresh + 1 })

/-! ### Positions (01 R15, R25, R27) -/

def dieOfCore (c : Nat) : Nat := c / 64
def localX (c : Nat) : Nat := c % 8
def localY (c : Nat) : Nat := c / 8 % 8
def coreIndex (die x y : Nat) : Nat := die * 64 + y * 8 + x
def quadOfCore (c : Nat) : Nat := dieOfCore c * 16 + localY c / 2 * 4 + localX c / 2
def dieOfQuad (q : Nat) : Nat := q / 16
/-- The cores of a quad, the lowest index first. -/
def quadCores (q : Nat) : List Nat :=
  let x := q % 4 * 2
  let y := q / 4 % 4 * 2
  [coreIndex (q / 16) x y, coreIndex (q / 16) (x + 1) y, coreIndex (q / 16) x (y + 1), coreIndex (q / 16) (x + 1) (y + 1)]

/-- The orientation of a position (01 R27). -/
def orientOf (pos : Nat) : Nat := match pos with | 0 => 0 | 1 => 1 | 2 => 3 | _ => 2

/-- Package coordinates of a core (01 R27). -/
def packageXY (c : Nat) : Nat × Nat :=
  let x := localX c
  let y := localY c
  match dieOfCore c with
  | 0 => (x, y)
  | 1 => (15 - y, x)
  | 2 => (y, 15 - x)
  | _ => (15 - x, 15 - y)

/-- CORELOC (01 R26). -/
def coreLoc (s : State) (c : Nat) : DWord :=
  let p := packageXY c
  BitVec.ofNat 64 (localX c + localY c * 2 ^ 3 + p.1 * 2 ^ 8 + p.2 * 2 ^ 12 + dieOfCore c * 2 ^ 16
    + orientOf (dieOfCore c) * 2 ^ 18 + (dieAt s (dieOfCore c)).dieid.toNat * 2 ^ 24)

/-- Hops between two dies (01 R29). -/
def hopsBetween (a b : Nat) : Nat := if a = b then 0 else if a + b = 3 then 2 else 1

/-! ### Lanes, registers and masks -/

/-- The lanes of a set, by rising index. -/
def laneList (w : Nat) (m : DWord) : List Nat := (List.range w).filter fun i => m.getLsbD i

def laneBit (i : Nat) : DWord := (1 : DWord) <<< i
/-- The set of a list of lanes. -/
def laneSet (l : List Nat) : DWord := l.foldl (fun m i => m ||| laneBit i) 0
/-- Every lane below the width. -/
def allLanes (w : Nat) : DWord := BitVec.ofNat 64 (2 ^ w - 1)
def lowLane (w : Nat) (m : DWord) : Option Nat := (laneList w m).head?
def subset (a b : DWord) : Bool := a &&& ~~~b == 0

def noLane : Lane := ⟨0, 0xFFFFFFFF, true, false, false, 0, 0, [], [], .none, 0⟩
def laneAt (g : Group) (i : Nat) : Lane := g.lanes.getD i noLane
def modLane (g : Group) (i : Nat) (f : Lane → Lane) : Group := { g with lanes := g.lanes.modify i f }
/-- A change to every lane of a set. -/
def modLanes (g : Group) (m : DWord) (f : Nat → Lane → Lane) : Group :=
  { g with lanes := g.lanes.mapIdx fun i l => if m.getLsbD i then f i l else l }

/-- The lanes that have not exited (03 R38). -/
def liveLanes (g : Group) : DWord := laneSet ((List.range g.w).filter fun i => !(laneAt g i).exited)

/-- A vector register of a lane (05 R96). -/
def vreg (g : Group) (lane r : Nat) : Word := (laneAt g lane).v.getD r 0
/-- A register that is written has lost nothing any longer (01 R34). -/
def healReg (g : Group) (file lane reg : Nat) : Group :=
  { g with bad := g.bad.filter fun b => !(b.file == file && b.lane == lane && b.reg == reg) }
def setVreg (g : Group) (lane r : Nat) (x : Word) : Group :=
  modLane (healReg g 0 lane r) lane fun l => { l with v := l.v.set r x }
def sreg (g : Group) (r : Nat) : DWord := g.s.getD r 0
def setSreg (g : Group) (r : Nat) (x : DWord) : Group := { healReg g 1 0 r with s := g.s.set r x }

/-- A mask register: k0 reads as ones below W (05 R83), and bits at or above W read 0 (05 R89). -/
def kreg (g : Group) (r : Nat) : DWord := if r = 0 then allLanes g.w else g.k.getD r 0 &&& allLanes g.w
/-- One bit of a mask register written; writes to k0 and at or above W are discarded (05 R89). -/
def setKbit (g : Group) (r lane : Nat) (b : Bool) : Group :=
  if r = 0 ∨ g.w ≤ lane then g
  else { healReg g 2 0 r with k := g.k.modify r fun m => if b then m ||| laneBit lane else m &&& ~~~laneBit lane }

/-- The guard set of an instruction (05 R83). -/
def guardSet (g : Group) (active : DWord) (gk : BitVec 4) (gn : Bool) : DWord :=
  active &&& (if gn then ~~~kreg g gk.toNat else kreg g gk.toNat)

/-- A register write of a result. -/
def applyWrite (g : Group) (w : RegWrite) : Group :=
  match w with
  | .vec lane reg x => setVreg g lane reg x
  | .scalar reg x => setSreg g reg x
  | .mask reg lane b => setKbit g reg lane b

def applyWrites (g : Group) (ws : List RegWrite) : Group := ws.foldl applyWrite g

/-! ### The program counter (05 R79) -/

/-- The next sequential pc. -/
def pcNext (pc : Word) : Word := if (pc.extractLsb' 0 3).toNat < 4 then pc + 1 else (pc &&& 0xFFFFFFC0) + 64
/-- The line offset of a pc. -/
def pcLine (pc : Word) : Word := pc &&& 0xFFFFFFC0
def pcSlot (pc : Word) : Nat := (pc.extractLsb' 0 3).toNat
/-- The pc form: bits [5:3] are 0 and the slot is below 5. -/
def pcFormOk (pc : Word) : Bool := pc.extractLsb' 3 3 == 0 && pcSlot pc < 5

/-- The target of DISP (05 R91). -/
def dispTarget (pc disp : Word) : Word :=
  pcLine (pcLine pc + ((disp.extractLsb' 3 29).signExtend 32 <<< 6)) ||| disp &&& 7

/-! ### Event counters (25 R390) -/

def bumpBy (n : Nat) (l : List DWord) (sel : DWord) (base code : Nat) : List DWord :=
  l.mapIdx fun i x =>
    if base ≤ i ∧ i < base + 8 ∧ (sel >>> (8 * (i - base))).toNat % 256 = code then x + BitVec.ofNat 64 n else x
def bumpAt (l : List DWord) (sel : DWord) (base code : Nat) : List DWord := bumpBy 1 l sel base code

/-- A shape takes dies as wholes: a mask of dies, or a rectangle of 8 by 8 cores (25 R375). -/
def wholeDies (shape : DWord) : Bool := !shape.getLsbD 63 || (shape.extractLsb' 16 4 == 8 && shape.extractLsb' 20 4 == 8)

/-- A core-level event counted by every counter that selects it, and by the die's counters while one partition holds
the whole die. -/
def countEvent (s : State) (core code : Nat) : State :=
  match s.parts.find? fun p => p.cores.contains core with
  | none => s
  | some p =>
    let s := modCore s core fun c => { c with counters := bumpAt c.counters p.evselc 0 code }
    if !wholeDies p.shape then s
    else modDie s (dieOfCore core) fun d =>
      { d with counters := bumpAt (bumpAt d.counters p.evseld0 0 code) p.evseld1 8 code }

/-- A die-level event that occurs `n` times. -/
def countDieBy (s : State) (die code n : Nat) : State :=
  match s.parts.find? fun p => p.cores.contains (die * 64) && wholeDies p.shape with
  | none => s
  | some p => modDie s die fun d =>
      { d with counters := bumpBy n (bumpBy n d.counters p.evseld0 0 code) p.evseld1 8 code }

def countDie (s : State) (die code : Nat) : State := countDieBy s die code 1

/-! ### Time (25 R390, R391) -/

/-- The event code a counter selects. -/
def selectCode (sel : DWord) (k : Nat) : Nat := (sel >>> (8 * k)).toNat % 256

/-- The dies of a partition, by rising position. -/
def partDies (p : Partition) : List Nat := (List.range 4).filter fun d => p.cores.any fun c => dieOfCore c == d

/-- Reference clocks counted by the counters that select them (25 R390). -/
def countClocks (s : State) (ticks : Nat) : State :=
  let code := 17
  let picks (sel : DWord) : Bool := (List.range 8).any fun k => selectCode sel k == code
  s.parts.foldl (fun s p =>
    let s := if picks p.evselc then
        p.cores.foldl (fun s c => modCore s c fun c => { c with counters := bumpBy ticks c.counters p.evselc 0 code }) s
      else s
    if picks p.evseld0 || picks p.evseld1 then (partDies p).foldl (fun s d => countDieBy s d code ticks) s else s) s

/-- Nineteenths of a core clock that pass on a die in a reference tick, at its DVFS step (25 R391). -/
def clockRate (step : Nat) : Nat := 19 - 3 * step

/-- Reference ticks pass: on every die the core clocks of its step. -/
def passTime (s : State) (ticks : Nat) : State :=
  let s := countClocks s ticks
  { s with now := s.now + ticks, dies := s.dies.map fun d => { d with coreTime := d.coreTime + ticks * clockRate d.dvfs } }

/-- The core time of a die, in nineteenths of a core clock. -/
def coreNow (s : State) (die : Nat) : Nat := (dieAt s die).coreTime

/-- Core clocks of a die since one of its times. -/
def coreSince (s : State) (die start : Nat) : Nat := (coreNow s die - start) / 19

/-! ### Runs (03 R43) -/

/-- The run ends: latches are discarded (06 R109), heavy activity ends (03 R49). -/
def endRun (g : Group) : Group := { g with run := none, latches := [] }

def parkLanes (g : Group) (m : DWord) (p : Park) : Group := modLanes g m fun _ l => { l with park := p }

/-- Lanes moved to a pc, no longer parked. -/
def setPcs (g : Group) (m : DWord) (pc : Word) : Group := modLanes g m fun _ l => { l with pc := pc, park := .none, set := 0 }

/-- Lanes split off as a parked lane set of their own (03 R41). -/
def splitSet (g : Group) (m : DWord) : Group :=
  { modLanes g m (fun _ l => { l with set := g.sets + 1 }) with sets := g.sets + 1 }

/-! ### Outstanding operations (11 R189) -/

def groupOps (s : State) (g : Nat) : List Op := s.ops.filter (·.group == g)

/-- The value of an outstanding-operation counter: completions are acknowledged in issue order, so the operations
from the oldest incomplete one on count. -/
def counterOf (s : State) (g : Nat) (c : OpClass) : Nat :=
  (((groupOps s g).filter (·.cls == some c)).dropWhile (·.done)).length

/-- Results that a run still owes (03 R46). -/
def owing (s : State) (g : Nat) : List Op := (groupOps s g).filter (·.owes)

/-- Operations that are complete and acknowledged leave. -/
def ackOps (s : State) (g : Nat) : State :=
  { s with ops := s.ops.filter fun o =>
      o.group != g || o.owes || !o.done
        || (s.ops.any fun q => q.group == g && q.cls == o.cls && q.id < o.id && !q.done) }

def opDone (s : State) (id : Nat) : State :=
  match findOp s id with
  | none => s
  | some o => ackOps (putOp s { o with done := true }) o.group

/-! ### Event records (25 R387 to R389, 26 R395) -/

def unitCore (core : Nat) : Nat := core % 64
def unitQuad (quad : Nat) : Nat := 64 + quad % 16
def unitLaunch : Nat := 80
def unitGraph : Nat := 81
def unitStream : Nat := 82
def unitBezel : Nat := 83
def unitMgmt : Nat := 84
def unitMemory : Nat := 85

/-- The function a record goes to: that of its partition, or PF0. -/
def fnOfPart (part : Option Nat) : Nat := match part with | some p => p + 1 | none => 0

def seqOf (d : Die) (unit : Nat) : Word := ((d.seqs.find? (·.1 == unit)).map (·.2)).getD 0
def setSeq (d : Die) (unit : Nat) (x : Word) : Die :=
  { d with seqs := (unit, x) :: d.seqs.filter (·.1 != unit) }

/-- A loss counted for a source (25 R389); its record will go to the function of the first lost one (log entry 116). -/
def noteLoss (d : Die) (unit fn : Nat) (seq : Word) : Die :=
  match d.lost.find? (·.unit == unit) with
  | some l => { d with lost := d.lost.map fun x => if x == l then { l with count := l.count + 1 } else x }
  | none => { d with lost := d.lost ++ [⟨unit, fn, 1, seq⟩] }

/-- A record enters the spill ring; where that is full it is lost, but for a PAGE_NOT_PRESENT record, which the die
keeps. -/
def spillRecord (s : State) (r : EvRec) : State :=
  let fn := fnOfPart r.part
  let d := dieAt s r.die
  if d.spill.length < 4096 && d.kept.isEmpty && d.lost.isEmpty then
    modDie s r.die fun d => { d with spill := d.spill ++ [(fn, r)] }
  else if r.code = 0x100 then modDie s r.die fun d => { d with kept := d.kept ++ [(fn, r)] }
  else modDie s r.die fun d => noteLoss d r.unit fn r.seq

/-- A record on its way: to its function's queue while that has room and its die holds back none for the function or of the
source, else to the spill ring. -/
def routeRecord (s : State) (r : EvRec) : State :=
  let fn := fnOfPart r.part
  let d := dieAt s r.die
  let q := (s.funcs.getD fn Func.reset).queue
  let held := d.spill.any (·.1 == fn) || d.kept.any (·.1 == fn) || d.lost.any (·.unit == r.unit)
  if q.length < 256 && !held then modFunc s fn fun f => { f with queue := f.queue ++ [r] }
  else spillRecord s r

/-- The next record of a unit, and its number used. -/
def numbered (s : State) (die unit code : Nat) (part : Option Nat) (dbl : Bool) (payload : List DWord) : EvRec × State :=
  let seq := seqOf (dieAt s die) unit
  (⟨die, unit, code, seq, part, dbl, payload⟩, modDie s die fun d => setSeq d unit (seq + 1))

/-- An event record written by a unit of a die. -/
def record (s : State) (die unit code : Nat) (part : Option Nat) (dbl : Bool) (payload : List DWord) : State :=
  let r := numbered s die unit code part dbl payload
  routeRecord r.2 r.1

def coreRecord (s : State) (core code : Nat) (part : Nat) (dbl : Bool) (payload : List DWord) : State :=
  record s (dieOfCore core) (unitCore core) code (some part) dbl payload

/-! ### Halting a partition (19 R317) -/

def pauseJobs (s : State) (part : Nat) : State :=
  { s with jobs := s.jobs.map fun j =>
      if j.part == part && j.paused.isNone then { j with paused := some (s.now - j.start) } else j }

/-- PSTATE (25 R374): a pre-emption stays pending until its command completes, though the partition has halted. -/
def pstateCode (p : Partition) : Nat :=
  match p.state with
  | .running => 1
  | .preempting => 2
  | .halted => if p.preemptFn.isSome then 2 else 3

/-- Nothing of a partition issues or moves on: it has halted, or PREDL1 has passed (19 R317, 21 R334). -/
def isStopped (p : Partition) : Bool := p.state == .halted || p.halting

/-- A partition halts at once: nothing of it is launched or issues; its teams are saved by PREEMPT_HALT, which is
enabled as soon as it is halted. -/
def haltPart (s : State) (part : Nat) : State :=
  match findPart s part with
  | none => s
  | some p => if p.state = .halted then s else pauseJobs (putPart s { p with state := .halted }) part

/-! ### Control flow of a group's lanes -/

/-- Lanes held at a JOIN are released once every lane they await is held there or has exited (03 R39, R40). -/
def joinReady (g : Group) (pc : Word) (b : BitVec 8) : Bool :=
  (laneList g.w (kreg g b.toNat)).all fun i =>
    (laneAt g i).exited || ((laneAt g i).pc == pc && match (laneAt g i).park with | .join _ _ => true | _ => false)

/-- The lanes held at a JOIN. -/
def heldAt (g : Group) (pc : Word) : DWord :=
  laneSet ((List.range g.w).filter fun i =>
    !(laneAt g i).exited && (laneAt g i).pc == pc && match (laneAt g i).park with | .join _ _ => true | _ => false)

/-- A single-stepped pc-set has completed its instruction: the trap is taken at the run end (21 R347); one that is in a
routine of the firmware completes with the routine. -/
def stepDone (g : Group) (lanes : DWord) (pc : Word) : Group :=
  match g.stepping with
  | some m =>
    if m &&& lanes = 0 || (g.emu && m &&& g.trap.tmask != 0) then g
    else
      { g with
        after := g.after ++ [.step (m &&& lanes) pc]
        stepping := if m &&& ~~~lanes = 0 then none else some (m &&& ~~~lanes) }
  | none => g

/-- The held lanes of one JOIN proceed to the next slot, each taking its `mr` from vC. -/
def releaseJoin (g : Group) (pc : Word) : Group :=
  let m := heldAt g pc
  stepDone (modLanes g m fun _ l =>
    match l.park with
    | .join _ c => { l with pc := pcNext pc, park := .none, set := 0, mr := if c == 0xFF then 0xFFFFFFFF else l.v.getD c.toNat 0 }
    | _ => l) m pc

/-- Every JOIN of the group whose held lanes can proceed. -/
def releaseJoins (g : Group) : Group :=
  (List.range g.w).foldl (fun g i =>
    match (laneAt g i).park with
    | .join b _ => if !(laneAt g i).exited && joinReady g (laneAt g i).pc b then releaseJoin g (laneAt g i).pc else g
    | _ => g) g

/-- The trap registers, the EMU bit and the record after a return from an emulation routine (23 R355). -/
def leaveEmu (g : Group) : Group :=
  match g.emuRec with
  | some e =>
    { g with
      trap := { g.trap with
        cause := e.cause, ctl := e.ctl, tpc := e.tpc, tval := e.tval, tmask := e.tmask, ppriv := e.ppriv, inh := e.inh
        ss := e.ss, bpskip := e.bpskip, pend := !g.traps.isEmpty }
      emu := false
      emuRec := none }
  | none => { g with emu := false }

def allExited (g : Group) (m : DWord) : Bool := (laneList g.w m).all fun i => (laneAt g i).exited

/-- INH clears once every lane of TMASK has exited, as though a TRET had executed (21 R330); a routine whose lanes have
all exited is left in the same way. -/
def clearInh (g : Group) : Group :=
  let g := if g.emu && allExited g g.trap.tmask then leaveEmu g else g
  if g.trap.inh && allExited g g.trap.tmask then { g with trap := { g.trap with inh := false } } else g

/-- Lanes exit (11 R164): they keep their registers and release the JOINs that awaited them. -/
def exitLanes (g : Group) (m : DWord) : Group :=
  clearInh (releaseJoins (modLanes g m fun _ l => { l with exited := true, park := .none, set := 0 }))

/-! ### Taking a trap -/

/-- How a cause is delivered (21 R324). -/
inductive Delivery where
  | handler | waits | record
  deriving DecidableEq, Repr

def deliveryOf (c : Cause) : Delivery :=
  if c = 0x100 then .waits
  else if c = 0x184 ∨ c = 0x185 ∨ c = 0x187 ∨ (0x300 ≤ c.toNat ∧ c.toNat ≤ 0x302) then .record
  else .handler

/-- The causes of the table of 21 R324 that enter a handler. -/
def isHandlerCode (n : Nat) : Bool :=
  (1 ≤ n && n ≤ 0x00A) || (0x080 ≤ n && n ≤ 0x085) || (0x101 ≤ n && n ≤ 0x108) || (0x180 ≤ n && n ≤ 0x183)
  || n == 0x186 || (0x200 ≤ n && n ≤ 0x202) || (0x280 ≤ n && n ≤ 0x283) || (0x340 ≤ n && n ≤ 0x3FF)

def tcauseWord (t : TrapRegs) : DWord := BitVec.ofNat 64 (t.cause.toNat + if t.ctl then 2 ^ 10 else 0)
def tstateWord (t : TrapRegs) : DWord :=
  BitVec.ofNat 64 ((if t.ppriv then 1 else 0) + (if t.inh then 2 else 0) + (if t.ss then 4 else 0)
    + (if t.bpskip then 8 else 0) + (if t.pend then 16 else 0))

/-- The trap registers after an entry (21 R328). -/
def enterRegs (t : TrapRegs) (ctl : Bool) (r : TrapReq) (mask : DWord) (priv : Bool) : TrapRegs :=
  { t with cause := r.cause, ctl := ctl, tpc := r.tpc, tval := r.tval, tmask := mask, ppriv := priv, inh := true }

/-- No lane: the round robin of a group that has issued nothing starts after it at lane 0, and no entry is left whose
target bit its first issue would check (03 R50, 05 R80). -/
def noLead : Nat := 64

/-- Trap entry of a lane set of a group (21 R328): the trap registers, privilege and pc; everything else is
unchanged. -/
def enterTrap (g : Group) (r : TrapReq) : Group :=
  let priv := match lowLane g.w r.lanes with | some i => (laneAt g i).priv | none => false
  let g := { g with trap := enterRegs g.trap false r r.lanes priv, latches := [], lastLow := some (g.lastLow.getD noLead) }
  modLanes g r.lanes fun _ l => { l with pc := g.trap.tvec, priv := true, park := .none }

/-- The winning Bezel slot of a path (23 R351). -/
def bezelWinner (l : List (Nat × PatchSlot)) : Option PatchSlot :=
  (l.foldl (fun best x =>
    match best with
    | none => some x
    | some b => if x.2.prio < b.2.prio then some x else best) none).map (·.2)

/-- The fault-path slot that matches a cause (23 R351). -/
def faultSlot (d : Die) (c : Cause) : Option PatchSlot :=
  bezelWinner ((List.range 32).filterMap fun i =>
    match d.bezel.slots[i]? with
    | some p => if p.kind = 2 ∧ (BitVec.zeroExtend 32 c) &&& p.mask = p.value then some (i, p) else none
    | none => none)

/-- EMULATE delivers a lane set to a routine of the firmware (23 R355). -/
def enterEmulate (g : Group) (lanes : DWord) (target : Word) (cause : Cause) (tpc : Word) (tval : DWord) : Group :=
  let low := laneAt g ((lowLane g.w lanes).getD 0)
  let t := g.trap
  let g := { g with
    emuRec := some ⟨t.cause, t.ctl, t.tpc, t.tval, t.tmask, t.ppriv, t.inh, t.ss, t.bpskip, t.pend, low.priv, low.pc⟩
    trap := { t with cause := cause, ctl := false, tpc := tpc, tval := tval, tmask := lanes }
    emu := true
    latches := []
    lastLow := some (g.lastLow.getD noLead) }
  modLanes g lanes fun _ l => { l with pc := target, priv := true, park := .none }

/-- The 4 KiB page of a virtual address. -/
def pageOf (va : Nat) : Nat := va / 4096

/-- An address from its low 57 bits, in canonical form (11 R173). -/
def canonicalVa (va : Nat) : DWord := (BitVec.ofNat 57 va).signExtend 64

/-- The canonical address at which a page of a size begins. -/
def pageVa (page size : Nat) : DWord := canonicalVa (page * size)

/-- A PAGE_NOT_PRESENT parks its lane set, and a record from a unit tells the host once for each page (21 R331). -/
def awaitHost (s : State) (part die unit : Nat) (pages : List Nat) : State :=
  pages.foldl (fun s page =>
    match findPart s part with
    | none => s
    | some p =>
      if p.faults.contains page then s
      else record (putPart s { p with faults := p.faults ++ [page] }) die unit 0x100 (some part) false
        [pageVa page 4096]) s

/-- A double trap halts the partition (21 R329). -/
def doubleTrap (s : State) (part core : Nat) (payload : List DWord) (cause : Cause) : State :=
  haltPart (coreRecord s core cause.toNat part true payload) part

/-- The specialisation block's address, which trap records carry (23 R367). -/
def specBaseOf (s : State) (team : Nat) : DWord := ((findTeam s team).map fun t => t.packet.specBase).getD 0

/-- Whether a lane set of a group is in its handler or in an emulation routine, so that another one waits to enter
(21 R329; for the routine, log entry 20). -/
def handlerBusy (g : Group) : Bool := g.trap.inh || g.emu

/-- A lane set waits with its trap pending (21 R329). -/
def holdTrap (g : Group) (r : TrapReq) : Group :=
  { parkLanes g r.lanes .trap with traps := g.traps ++ [r], trap := { g.trap with pend := true } }

def anyPrivileged (g : Group) (m : DWord) : Bool := (laneList g.w m).any fun i => (laneAt g i).priv

end Sys2Proof.Machine
end

