-- ==== Sys2Proof/Machine/Operands.lean ====
section
/-! DEFINITION. Every operand form: registers, pairs, the three kinds of B and C (05 R85), the modifier of A (05 R86),
how a result is placed (07 R115), and the effective address of a lane (05 R90). -/

namespace Sys2Proof.Machine

/-- The low `w` bits of a value. -/
def lowBits (w : Nat) (x : DWord) : DWord := BitVec.ofNat 64 (x.toNat % 2 ^ w)
/-- The low `w` bits as a signed or an unsigned integer. -/
def asInt (signed : Bool) (w : Nat) (x : DWord) : Int :=
  if signed then signedNat w (x.toNat % 2 ^ w) else (x.toNat % 2 ^ w : Nat)
def typedInt (t : Ty) (x : DWord) : Int := asInt (isSigned t) (bitsOf t) x

/-- A register, or an even and odd pair with the low word in the even one (05 R96). -/
def readReg (g : Group) (lane r : Nat) (wide : Bool) : DWord :=
  if wide then (vreg g lane (r + 1)).zeroExtend 64 <<< 32 ||| (vreg g lane r).zeroExtend 64
  else (vreg g lane r).zeroExtend 64

/-- The modifier of A on a value of a type (05 R86). -/
def applyAm (t : Ty) (m : Am) (x : DWord) : DWord :=
  if isFloat t then
    let sign := BitVec.ofNat 64 (2 ^ (bitsOf t - 1))
    match m with
    | .none => x
    | .neg => x ^^^ sign
    | .abs => x &&& ~~~sign
    | .negAbs => x ||| sign
  else
    let n := bitsOf t
    let neg := lowBits n (0 - x)
    let isNeg := x.toNat % 2 ^ n ≥ 2 ^ (n - 1)
    match m with
    | .none => x
    | .neg => neg
    | .abs => if isNeg then neg else lowBits n x
    | .negAbs => if isNeg then lowBits n x else neg

/-- Operand A of type `t`, with AM applied. -/
def operandA (g : Group) (f : VF) (t : Ty) (lane : Nat) : DWord := applyAm t f.am (readReg g lane f.a.toNat (isWide t))

/-- A scalar operand of type `t` (05 R85). -/
def scalarOperand (t : Ty) (x : DWord) : DWord := if isWide t then x else lowBits (min 32 (bitsOf t)) x

/-- An immediate of type `t` (05 R85): sign-extended at i64, taken as f32 at f64. A signalling NaN there becomes the
canonical f64 NaN and raises no NV of its own: DESIGN CHOICE (log entry 101). -/
def immOperand (t : Ty) (imm : Word) : DWord :=
  match t with
  | .i64 => imm.signExtend 64
  | .f64 => (roundFV .f64 .rne false false (decodeFloat .f32 (imm.zeroExtend 64))).1
  | _ => imm.zeroExtend 64

/-- Operand B or C of type `t` (05 R85). -/
def operandOf (g : Group) (t : Ty) (k : Kind) (field : BitVec 8) (imm : Word) (lane : Nat) : DWord :=
  match k with
  | .vec => readReg g lane field.toNat (isWide t)
  | .scalar => scalarOperand t (sreg g field.toNat)
  | _ => immOperand t imm

def operandB (g : Group) (f : VF) (t : Ty) (lane : Nat) : DWord := operandOf g t f.bk f.b f.imm lane
def operandC (g : Group) (f : VF) (t : Ty) (lane : Nat) : DWord := operandOf g t f.ck f.c f.imm lane
/-- A 32-bit operand, whatever TY is (09 R137). -/
def wordB (g : Group) (f : VF) (lane : Nat) : DWord := operandOf g .b32 f.bk f.b f.imm lane
def wordC (g : Group) (f : VF) (lane : Nat) : DWord := operandOf g .b32 f.ck f.c f.imm lane

/-- The word a result of a type is written as (07 R115, 09 R137). -/
def placeWord (t : Ty) (x : DWord) : Word :=
  let n := bitsOf t
  if n < 32 ∧ isSigned t then BitVec.ofInt 32 (asInt true n x) else BitVec.ofNat 32 (x.toNat % 2 ^ min n 32)

/-- The writes of a result of a type from register `d`. -/
def writesOf (t : Ty) (d lane : Nat) (x : DWord) : List RegWrite :=
  if isWide t then [.vec lane d (x.extractLsb' 0 32), .vec lane (d + 1) (x.extractLsb' 32 32)]
  else [.vec lane d (placeWord t x)]

/-- Writes of a pair of elements: the first in the lower register or pair (05 R96, 13 R204). -/
def writesPair (t : Ty) (d lane : Nat) (hi lo : DWord) : List RegWrite :=
  writesOf t d lane hi ++ writesOf t (d + if isWide t then 2 else 1) lane lo

/-- What an instruction writes and the status bits its lanes raise. -/
structure Effect where
  writes : List RegWrite
  flags : List (Nat × FlagSet)
  deriving DecidableEq, Repr

def noEffect : Effect := ⟨[], []⟩

/-- The effect of a per-lane instruction on the lanes of its guard set (05 R83, R98: every source is read in the state
before any write). -/
def perLane (g : Group) (lanes : DWord) (f : Nat → List RegWrite × FlagSet) : Effect :=
  let rs := (laneList g.w lanes).map fun i => (i, f i)
  ⟨rs.flatMap fun r => r.2.1, rs.map fun r => (r.1, r.2.2)⟩

/-- A per-lane result of a type, written at D. -/
def perLaneTo (g : Group) (f : VF) (t : Ty) (lanes : DWord) (h : Nat → DWord × FlagSet) : Effect :=
  perLane g lanes fun i => let r := h i; (writesOf t f.d.toNat i r.1, r.2)

/-- The same flags raised by every lane of the guard set (13 R202). -/
def flagsAll (g : Group) (lanes : DWord) (fl : FlagSet) : List (Nat × FlagSet) :=
  (laneList g.w lanes).map fun i => (i, fl)

/-- A base register field: 0xFF contributes 0 (05 R90). -/
def baseReg (g : Group) (a : BitVec 8) : DWord := if a = 0xFF then 0 else sreg g a.toNat
/-- A per-lane offset field: 0xFF contributes 0, otherwise a signed 32-bit offset. -/
def offsetReg (g : Group) (b : BitVec 8) (lane : Nat) : DWord :=
  if b = 0xFF then 0 else (vreg g lane b.toNat).signExtend 64
/-- The effective address of a lane (05 R90, 11 R173). -/
def laneEa (g : Group) (f : MF) (lane : Nat) : DWord :=
  baseReg g f.a + offsetReg g f.b lane + f.ofs.signExtend 64
/-- The effective address of a member without per-lane offsets. -/
def uniformEa (g : Group) (f : MF) : DWord := baseReg g f.a + f.ofs.signExtend 64

/-- The bytes of a lane's data registers from `d`: the low bytes of a narrow element, whole registers else. -/
def storeData (g : Group) (ty : Ty) (cnt d lane : Nat) : List Byte :=
  if elemBytes ty < 4 then natBytes (elemBytes ty) (vreg g lane d).toNat
  else (List.range (cnt + 1)).flatMap fun i => natBytes 4 (vreg g lane (d + i)).toNat

/-- The register writes of loaded bytes (11 R175, R177). -/
def loadWrites (ty : Ty) (d lane : Nat) (bytes : List Byte) : List RegWrite :=
  if elemBytes ty < 4 then [.vec lane d (placeWord ty (bytesDWord bytes))]
  else (List.range (bytes.length / 4)).map fun i => .vec lane (d + i) (bytesWord ((bytes.drop (4 * i)).take 4))

/-- Bytes one lane's access covers (11 R175). -/
def accessSize (ty : Ty) (cnt : Nat) : Nat := if elemBytes ty < 4 then elemBytes ty else 4 * (cnt + 1)
/-- The alignment of an access (11 R175): 16 for more than one element. -/
def accessAlign (ty : Ty) (cnt : Nat) : Nat :=
  if accessSize ty cnt > elemBytes ty then 16 else elemBytes ty

/-! ### Fields of numbers -/

/-- Bit `k` of a number. -/
def bitOf (e k : Nat) : Bool := e / 2 ^ k % 2 == 1
/-- The `n` bits of a number from bit `lo`. -/
def bitsField (e lo n : Nat) : Nat := e / 2 ^ lo % 2 ^ n

end Sys2Proof.Machine
end

