-- ==== Sys2Proof/Machine/Crypto.lean ====
section
/-! DEFINITION. SHA-256 (FIPS 180-4), HMAC and the HKDF expansion over it (RFC 2104, RFC 5869), and ECDSA on P-256
(FIPS 186-5), which 23 R360, R361 and 25 R382, R384 name. Byte strings are written with their highest byte first
(PRESUMED, log entry 128). -/

namespace Sys2Proof.Machine

/-! ### SHA-256 -/

def shaK : List Word :=
  [0x428a2f98, 0x71374491, 0xb5c0fbcf, 0xe9b5dba5, 0x3956c25b, 0x59f111f1, 0x923f82a4, 0xab1c5ed5,
   0xd807aa98, 0x12835b01, 0x243185be, 0x550c7dc3, 0x72be5d74, 0x80deb1fe, 0x9bdc06a7, 0xc19bf174,
   0xe49b69c1, 0xefbe4786, 0x0fc19dc6, 0x240ca1cc, 0x2de92c6f, 0x4a7484aa, 0x5cb0a9dc, 0x76f988da]
  ++ [0x983e5152, 0xa831c66d, 0xb00327c8, 0xbf597fc7, 0xc6e00bf3, 0xd5a79147, 0x06ca6351, 0x14292967,
   0x27b70a85, 0x2e1b2138, 0x4d2c6dfc, 0x53380d13, 0x650a7354, 0x766a0abb, 0x81c2c92e, 0x92722c85,
   0xa2bfe8a1, 0xa81a664b, 0xc24b8b70, 0xc76c51a3, 0xd192e819, 0xd6990624, 0xf40e3585, 0x106aa070]
  ++ [0x19a4c116, 0x1e376c08, 0x2748774c, 0x34b0bcb5, 0x391c0cb3, 0x4ed8aa4a, 0x5b9cca4f, 0x682e6ff3,
   0x748f82ee, 0x78a5636f, 0x84c87814, 0x8cc70208, 0x90befffa, 0xa4506ceb, 0xbef9a3f7, 0xc67178f2]

def shaInit : List Word :=
  [0x6a09e667, 0xbb67ae85, 0x3c6ef372, 0xa54ff53a, 0x510e527f, 0x9b05688c, 0x1f83d9ab, 0x5be0cd19]

/-- A number of `n` bytes, the highest first. -/
def bigBytes (n x : Nat) : List Byte := (natBytes n x).reverse
/-- The number that bytes are, the highest first. -/
def bigNat (l : List Byte) : Nat := bytesNat l.reverse

/-- A message with its padding: a one bit, zeros, and its length in bits. -/
def shaPad (m : List Byte) : List Byte :=
  m ++ [0x80] ++ List.replicate ((119 - m.length % 64) % 64) 0 ++ bigBytes 8 (8 * m.length)

/-- The message schedule: the newest word first. -/
def shaWords : Nat → List Word → List Word
  | 0, l => l
  | n + 1, l =>
    let w (k : Nat) : Word := l.getD (k - 1) 0
    let s0 := (w 15).rotateRight 7 ^^^ (w 15).rotateRight 18 ^^^ (w 15 >>> 3)
    let s1 := (w 2).rotateRight 17 ^^^ (w 2).rotateRight 19 ^^^ (w 2 >>> 10)
    shaWords n ((w 16 + s0 + w 7 + s1) :: l)

/-- The eight working words. -/
structure ShaState where
  a : Word
  b : Word
  c : Word
  d : Word
  e : Word
  f : Word
  g : Word
  h : Word

def shaRound (x : ShaState) (kw : Word × Word) : ShaState :=
  let s1 := x.e.rotateRight 6 ^^^ x.e.rotateRight 11 ^^^ x.e.rotateRight 25
  let ch := (x.e &&& x.f) ^^^ (~~~x.e &&& x.g)
  let t1 := x.h + s1 + ch + kw.1 + kw.2
  let s0 := x.a.rotateRight 2 ^^^ x.a.rotateRight 13 ^^^ x.a.rotateRight 22
  let maj := (x.a &&& x.b) ^^^ (x.a &&& x.c) ^^^ (x.b &&& x.c)
  ⟨t1 + (s0 + maj), x.a, x.b, x.c, x.d + t1, x.e, x.f, x.g⟩

/-- One block of 64 bytes. -/
def shaBlock (h : List Word) (b : List Byte) : List Word :=
  let ws := (List.range 16).map fun i => BitVec.ofNat 32 (bigNat ((b.drop (4 * i)).take 4))
  let at' (i : Nat) : Word := h.getD i 0
  let x := (shaK.zip (shaWords 48 ws.reverse).reverse).foldl shaRound ⟨at' 0, at' 1, at' 2, at' 3, at' 4, at' 5, at' 6, at' 7⟩
  (h.zip [x.a, x.b, x.c, x.d, x.e, x.f, x.g, x.h]).map fun p => p.1 + p.2

/-- Blocks one after the other. -/
def shaBlocks : Nat → List Byte → List Word → List Word
  | 0, _, h => h
  | n + 1, m, h => shaBlocks n (m.drop 64) (shaBlock h (m.take 64))

/-- SHA-256 of a byte string. -/
def sha256 (m : List Byte) : List Byte :=
  let p := shaPad m
  (shaBlocks (p.length / 64) p shaInit).flatMap fun w => bigBytes 4 w.toNat

/-! ### HMAC and HKDF -/

/-- HMAC-SHA-256; a key above 64 bytes is hashed first. -/
def hmac256 (key m : List Byte) : List Byte :=
  let key := if 64 < key.length then sha256 key else key
  let k := key ++ List.replicate (64 - key.length) 0
  sha256 (k.map (· ^^^ 0x5C) ++ sha256 (k.map (· ^^^ 0x36) ++ m))

/-- `n` blocks of an HKDF expansion from block `i`, after the block before. -/
def hkdfBlocks (prk info : List Byte) : Nat → Nat → List Byte → List Byte
  | 0, _, _ => []
  | n + 1, i, prev =>
    let t := hmac256 prk (prev ++ info ++ [BitVec.ofNat 8 i])
    t ++ hkdfBlocks prk info n (i + 1) t

/-- HKDF-Expand to `n` bytes. -/
def hkdfExpand (prk info : List Byte) (n : Nat) : List Byte := (hkdfBlocks prk info ((n + 31) / 32) 1 []).take n

/-! ### P-256 -/

def p256P : Nat := 0xffffffff00000001000000000000000000000000ffffffffffffffffffffffff
def p256N : Nat := 0xffffffff00000000ffffffffffffffffbce6faada7179e84f3b9cac2fc632551
def p256B : Nat := 0x5ac635d8aa3a93e7b3ebbd55769886bc651d06b0cc53b0f63bce3c3e27d2604b

/-- A point in Jacobian coordinates; Z is 0 at infinity. -/
structure JPoint where
  x : Nat
  y : Nat
  z : Nat
  deriving DecidableEq, Repr

def p256G : JPoint :=
  ⟨0x6b17d1f2e12c4247f8bce6e563a440f277037d812deb33a0f4a13945d898c296,
   0x4fe342e2fe1a7f9b8ee7eb4a7c0f9e162bce33576b315ececbb6406837bf51f5, 1⟩

/-- The difference of two residues. -/
def subMod (m a b : Nat) : Nat := (a + (m - b % m)) % m

/-- The power of a residue, by the bits of the exponent from the lowest of `n`. -/
def powMod (m : Nat) : Nat → Nat → Nat → Nat
  | 0, _, _ => 1
  | n + 1, b, e => let r := powMod m n (b * b % m) (e / 2); if e % 2 = 1 then r * b % m else r

/-- The inverse modulo a prime of at most 256 bits. -/
def invMod (m a : Nat) : Nat := powMod m 256 (a % m) (m - 2)

def jDouble (p : JPoint) : JPoint :=
  let m := p256P
  let yy := p.y * p.y % m
  let s := 4 * p.x * yy % m
  let zz := p.z * p.z % m
  let t := 3 * (subMod m p.x zz) * (p.x + zz) % m
  let x := subMod m (t * t) (2 * s)
  ⟨x, subMod m (t * subMod m s x) (8 * yy * yy), 2 * p.y * p.z % m⟩

def jAdd (p q : JPoint) : JPoint :=
  let m := p256P
  if p.z = 0 then q
  else if q.z = 0 then p
  else
    let zp := p.z * p.z % m
    let zq := q.z * q.z % m
    let u1 := p.x * zq % m
    let u2 := q.x * zp % m
    let s1 := p.y * zq * q.z % m
    let s2 := q.y * zp * p.z % m
    if u1 = u2 then if s1 = s2 then jDouble p else ⟨1, 1, 0⟩
    else
      let h := subMod m u2 u1
      let r := subMod m s2 s1
      let hh := h * h % m
      let v := u1 * hh % m
      let x := subMod m (subMod m (r * r) (hh * h)) (2 * v)
      ⟨x, subMod m (r * subMod m v x) (s1 * hh * h), h * p.z * q.z % m⟩

/-- A multiple of a point, by the bits of the factor from the highest of `n`. -/
def jMul : Nat → Nat → JPoint → JPoint
  | 0, _, _ => ⟨1, 1, 0⟩
  | n + 1, k, p => let r := jDouble (jMul n (k / 2) p); if k % 2 = 1 then jAdd r p else r

/-- The x coordinate of a point that is not at infinity. -/
def affineX (p : JPoint) : Nat := let i := invMod p256P p.z; p.x * (i * i) % p256P
def affineY (p : JPoint) : Nat := let i := invMod p256P p.z; p.y * (i * i % p256P * i) % p256P

/-- A pair of coordinates names a point of the curve. -/
def onCurve (x y : Nat) : Bool :=
  x < p256P && y < p256P && y * y % p256P == (x * x % p256P * x + (p256P - 3) * x + p256B) % p256P

/-- ECDSA verification of a digest: KEY is X then Y, SIG is r then s (23 R360). -/
def ecdsaVerify (key digest sig : List Byte) : Bool :=
  let x := bigNat (key.take 32)
  let y := bigNat (key.drop 32)
  let r := bigNat (sig.take 32)
  let s := bigNat (sig.drop 32)
  if key.length ≠ 64 ∨ sig.length ≠ 64 ∨ onCurve x y = false ∨ r = 0 ∨ p256N ≤ r ∨ s = 0 ∨ p256N ≤ s then false
  else
    let w := invMod p256N s
    let p := jAdd (jMul 256 (bigNat digest * w % p256N) p256G) (jMul 256 (r * w % p256N) ⟨x, y, 1⟩)
    p.z != 0 && affineX p % p256N == r

/-- The private key that a secret gives: FIPS 186-5 A.2.1 over 320 bits of an HKDF expansion (25 R384). -/
def attestKey (secret : List Byte) : Nat :=
  bigNat (hkdfExpand secret ([0x4B, 0x4D, 0x59, 0x34, 0x31, 0x38, 0x30, 0x20, 0x61, 0x74, 0x74, 0x65, 0x73, 0x74] : List Byte) 40)
    % (p256N - 1) + 1

/-- The attestation key of the die at a position. -/
def dieKey (pos : Nat) : Nat := attestKey (Config.fuseSecret pos)

/-- The public key of a private one: X then Y. -/
def publicKey (d : Nat) : List Byte := let q := jMul 256 d p256G; bigBytes 32 (affineX q) ++ bigBytes 32 (affineY q)

/-- The ECDSA signature of a digest with a private key and a per-message number. -/
def ecdsaSign (d k : Nat) (digest : List Byte) : List Byte :=
  let r := affineX (jMul 256 k p256G) % p256N
  bigBytes 32 r ++ bigBytes 32 (invMod p256N k * ((bigNat digest + r * d) % p256N) % p256N)

/-- A die's signature over a byte string: ECDSA P-256 over its SHA-256, the per-message number free (25 R384). -/
def dieSign (pos : Nat) (body : List Byte) : List Byte :=
  ecdsaSign (dieKey pos) (Config.signNumber pos body % (p256N - 1) + 1) (sha256 body)

end Sys2Proof.Machine
end

