-- ==== Sys2Proof/Machine/Translate.lean ====
section
/-! DEFINITION. Translation (21 R339 to R342), the region table (25 R386), the transient window (15 R220) and the
firmware window (23 R357): from a virtual address to the place of a byte, or a fault. -/

namespace Sys2Proof.Machine

/-! ### The region table -/

/-- A valid entry that can match (25 R385). -/
def regionUsable (partDies : List Nat) (r : Region) : Bool :=
  r.flags == 1 && r.dies.extractLsb' 4 4 == 0 && r.chans.extractLsb' 4 4 == 0 && r.rest.all (· == 0)
  && r.dies != 0 && r.chans != 0 && r.base.toNat % 65536 == 0 && r.size.toNat % 65536 == 0 && r.size != 0
  && 8 ≤ r.lstride.toNat && r.lstride.toNat ≤ 16
  && ((List.range 4).all fun d => !r.dies.getLsbD d || partDies.contains d)

/-- The home die and the local channel of a device-physical address (25 R386). -/
def homeOf (p : Partition) (pa : Nat) : Option (Nat × Nat) :=
  match p.regions.find? fun r =>
    regionUsable (partDies p) r && r.base.toNat ≤ pa && pa < r.base.toNat + r.size.toNat with
  | none => none
  | some r =>
    let q := (pa - r.base.toNat) / 2 ^ r.lstride.toNat
    let ds := (List.range 4).filter fun d => r.dies.getLsbD d
    let cs := (List.range 4).filter fun c => r.chans.getLsbD c
    some (ds.getD (q % ds.length) 0, cs.getD (q / ds.length % cs.length) 0)

/-- The package's number of a die's local channel: 0 to 15 clockwise from the top left (01 R30). -/
def packageChannel (die c : Nat) : Nat := 4 * orientOf die + c

/-- The package channel that holds a device-physical address. -/
def channelOf (p : Partition) (pa : Nat) : Option Nat := (homeOf p pa).map fun h => packageChannel h.1 h.2

/-- Where the firmware windows stand: beyond every physical address an entry can name. DEDUCED from 23 R357, which
places them outside the region table's reach (log entry 18). -/
def fwBase : Nat := 2 ^ 52
def fwSize : Nat := 2 ^ 23

/-- The home die of a line of a page (15 R226): of DEV memory by the region table, of HOST memory position 0, of a
firmware window its own die. -/
def homeDie (p : Partition) (ty : MemType) (pa : Nat) : Option Nat :=
  match ty with
  | .host | .peer => some 0
  | .dev | .stream => if fwBase ≤ pa then some ((pa - fwBase) / fwSize % 4) else (homeOf p pa).map (·.1)

/-! ### The walk -/

/-- What a virtual address translates to. -/
inductive Walk where
  | page (ty : MemType) (pa : Nat) (w x : Bool)
  | notPresent
  | permission
  | stream (locator : Nat)
  deriving DecidableEq, Repr


def typeOfCode (n : Nat) : MemType := match n with | 0 => .dev | 1 => .host | 2 => .peer | _ => .stream

/-- A page of `2^k` bytes named by an entry. -/
def pageWalk (e va k : Nat) : Walk :=
  .page (typeOfCode (bitsField e 4 2)) (bitsField e 12 40 * 4096 / 2 ^ k * 2 ^ k + va % 2 ^ k) (bitOf e 1) (bitOf e 2)

/-- Reserved bits of a present entry (21 R340). -/
def entryReserved (e : Nat) : Bool := bitsField e 52 12 != 0 || bitsField e 9 3 != 0 || bitsField e 6 2 != 0

/-- One level-0 entry on its own (21 R339 to R341). -/
def walkLeaf (e va : Nat) : Walk :=
  if !bitOf e 0 then
    if bitsField e 4 2 != 3 then .notPresent else if bitOf e 8 then .stream e else .permission
  else if entryReserved e || !bitOf e 3 then .permission
  else pageWalk e va (if bitOf e 8 then 16 else 12)

/-- The sixteen entries of a 64 KiB-aligned index. -/
def leafEntries (s : State) (table va : Nat) : List Nat :=
  (List.range 16).map fun i => readNat s.gddr (table + 8 * (va / 65536 % 32 * 16 + i)) 8

def allAlike : List Nat → Bool
  | [] => true
  | a :: l => l.all (· == a)

/-- Level 0: the entry itself, or where one of the sixteen has PS64 and they differ, the one that the free choice at
`pick` names (21 R339). The second part tells whether the choice was made. -/
def walk0 (s : State) (table va pick : Nat) : Walk × Bool :=
  let es := leafEntries s table va
  let mixed := es.any (bitOf · 8) && !allAlike es
  let i := if mixed then Config.entryPick pick % 16 else va / 4096 % 16
  (walkLeaf (es.getD i 0) va, mixed)

/-- A level above 0: `k` is the log of the bytes an entry maps, `leaf` whether a page may stand there. -/
def walkTable (s : State) (table idx va k : Nat) (leaf : Bool) (next : Nat → Walk × Bool) : Walk × Bool :=
  let e := readNat s.gddr (table + 8 * idx) 8
  if !bitOf e 0 then (if bitsField e 4 2 != 3 then .notPresent else .permission, false)
  else if entryReserved e then (.permission, false)
  else if bitOf e 3 then (if leaf then pageWalk e va k else .permission, false)
  else next (bitsField e 12 40 * 4096)

/-- The four-level walk (21 R339). -/
def walk (s : State) (p : Partition) (va pick : Nat) : Walk × Bool :=
  walkTable s p.ptroot.toNat (va / 2 ^ 39 % 2 ^ 18) va 39 false fun t2 =>
  walkTable s t2 (va / 2 ^ 30 % 512) va 30 true fun t1 =>
  walkTable s t1 (va / 2 ^ 21 % 512) va 21 true fun t0 => walk0 s t0 va pick

/-! ### TLBs (21 R342) -/

def tlbFind (l : List TlbEntry) (p : Partition) (page : Nat) : Option TlbEntry :=
  l.find? fun e => e.part == p.idx && e.root == p.ptroot && e.page == page

def keepL1 (s : State) (core : Nat) (e : TlbEntry) : State :=
  modCore s core fun c => { c with tlb := (e :: c.tlb).take 64 }

/-- PAGE_WALK: the oldest queued walk reads the page tables and fills both TLBs. No failed translation is cached, nor one
of a 64 KiB page whose entries differ. -/
def pageWalkStep (s : State) (die : Nat) : State :=
  match (dieAt s die).missQ with
  | [] => s
  | m :: rest =>
    let s := modDie s die fun d => { d with missQ := rest }
    match findPart s m.part with
    | none => s
    | some p =>
      match walk s { p with ptroot := m.root } (m.page * 4096) s.fresh with
      | (.page ty pa w x, false) =>
        let e : TlbEntry := ⟨m.part, m.root, m.page, ty, pa / 4096, w, x⟩
        keepL1 (modDie s die fun d => { d with l2tlb := (e :: d.l2tlb).take 16384 }) m.core e
      | _ => s

/-- Walks a miss queue holds (21 R342). -/
def missQueueSize : Nat := 256

/-- A walk enters its die's miss queue, unless one for the page is queued; where the queue is full the request waits, while
the oldest walk is served (log entry 19). -/
def queueWalk (s : State) (core : Nat) (p : Partition) (page : Nat) : State :=
  let die := dieOfCore core
  if (dieAt s die).missQ.any fun m => m.part == p.idx && m.root == p.ptroot && m.page == page then s
  else
    modDie (if missQueueSize ≤ (dieAt s die).missQ.length then pageWalkStep s die else s) die fun d =>
      { d with missQ := d.missQ ++ [⟨core, p.idx, p.ptroot, page⟩] }

/-- A translation with the TLBs of a core and its die. What missed reads the page tables itself, and the queued walk
fills the TLBs (log entry 19). -/
def translate (s : State) (core : Nat) (p : Partition) (va : Nat) : Walk × State :=
  let page := pageOf va
  let hit (e : TlbEntry) : Walk := .page e.ty (e.frame * 4096 + va % 4096) e.w e.x
  match tlbFind (coreAt s core).tlb p page with
  | some e => (hit e, s)
  | none =>
    match tlbFind (dieAt s (dieOfCore core)).l2tlb p page with
    | some e => (hit e, keepL1 s core e)
    | none =>
      let r := walk s p va s.fresh
      let s := if r.2 then { s with fresh := s.fresh + 1 } else s
      (r.1, queueWalk s core p page)

/-! ### Uncorrectable errors (01 R34) -/

/-- The aligned word of eight bytes in which a place lies, with the byte's place in it. -/
def eccWord (l : Loc) : Loc × Nat :=
  match l with
  | .page ty pa va => (.page ty (pa / 8 * 8) (va / 8 * 8), pa % 8)
  | .scratch team off => (.scratch team (off / 8 * 8), off % 8)
  | .ring part tr tile off => (.ring part tr tile (off / 8 * 8), off % 8)
  | .stream va => (.stream (va / 8 * 8), va % 8)

/-- Whether two ranges of bytes overlap. -/
def overlaps (a : Loc) (n : Nat) (b : Loc) (m : Nat) : Bool :=
  match a, b with
  | .page t pa _, .page u qa _ => t == u && pa < qa + m && qa < pa + n
  | .scratch t x, .scratch u y => t == u && x < y + m && y < x + n
  | .ring p t i x, .ring q u j y => p == q && t == u && i == j && x < y + m && y < x + n
  | .stream x, .stream y => x < y + m && y < x + n
  | _, _ => false

/-- A read of some bytes meets a word with an uncorrectable error: the code covers whole words. -/
def badAt (s : State) (l : Loc) (n : Nat) : Bool := n != 0 && s.bad.any fun w => overlaps w.loc 8 l n

/-! ### Resolving one access -/

def causeNotPresent : Cause := 0x100
def causePermission : Cause := 0x101
def causeMisaligned : Cause := 0x102
def causeBounds : Cause := 0x103
def causeScratchRange : Cause := 0x104
def causeTransientRange : Cause := 0x105
def causeCopyFault : Cause := 0x106
def causeStreamFail : Cause := 0x107
def causeEcc : Cause := 0x108

/-- The outcome of the checks of 11 R174 on one access. -/
inductive Resolved where
  | at (loc : Loc)
  | fault (cause : Cause)
  deriving DecidableEq, Repr

/-- What an access does. -/
inductive Use where
  | read | write | atomic | fetch
  /-- Cache maintenance: neither W nor X is tested (11 R188). -/
  | maintain
  deriving DecidableEq, Repr

def usesWrite (u : Use) : Bool := u == .write || u == .atomic

/-- A canonical virtual address (11 R173). -/
def canonical (ea : DWord) : Bool := ea.extractLsb' 57 7 == if ea.getLsbD 56 then 0x7F else 0

/-- The request of a stream page to its die's streaming engine (17 R276); requests for a page join. -/
def requestStream (s : State) (die : Nat) (p : Partition) (page locator : Nat) : State :=
  modDie (countDie s die 13) die fun d =>
    if d.streamQ.any fun q => q.part == p.idx && q.root == p.ptroot && q.page == page then d
    else { d with streamQ := d.streamQ ++ [⟨p.idx, p.ptroot, page, BitVec.ofNat 64 locator, false⟩] }

/-- Translation and the page checks for one virtual address (11 R174 steps 3 and 4; 15 R219; 21 R340). -/
def resolvePage (s : State) (core : Nat) (p : Partition) (va : Nat) (u : Use) : Resolved × State :=
  let r := translate s core p va
  match r.1 with
  | .notPresent => (.fault causeNotPresent, r.2)
  | .permission => (.fault causePermission, r.2)
  | .stream loc =>
    if usesWrite u then (.fault causePermission, r.2)
    else if u = .maintain then (.at (.stream va), r.2)
    else (.at (.stream va), requestStream r.2 (dieOfCore core) p (va / 65536) loc)
  | .page ty pa w x =>
    if usesWrite u && (!w || ty == .stream) then (.fault causePermission, r.2)
    else if u == .atomic && ty == .peer then (.fault causePermission, r.2)
    else if u == .fetch && !x then (.fault causePermission, r.2)
    else if (homeDie p ty pa).isNone then (.fault causePermission, r.2)
    else (.at (.page ty pa va), r.2)

/-! ### The transient window (15 R220) -/

def isTransient (ea : DWord) : Bool := ea.extractLsb' 56 8 == 0xFE

/-- The block a transient-window address names: in a ring, or at a global address of the overflow region. -/
inductive Window where
  | ring (tr tile off : Nat)
  | overflow (va : DWord)
  | range
  deriving DecidableEq, Repr

/-- Where an address in the overflow region of a transient stands: it is checked as an ordinary address is (15 R220). -/
def overflowVa (t : Transient) (b : Block) (off : Nat) : DWord :=
  t.overBase + BitVec.ofNat 64 (b.pos * t.blockBytes + off)

/-- Decoding of a transient-window address for a team of a graph pass. -/
def windowOf (p : Partition) (origin : Origin) (ea : DWord) (size : Nat) : Window :=
  match origin, p.graph with
  | .tile _ _, some g =>
    let id := (ea.extractLsb' 44 12).toNat
    let tile := (ea.extractLsb' 28 16).toNat
    let off := (ea.extractLsb' 0 28).toNat
    match g.transients[id]? with
    | none => .range
    | some t =>
      let pass := g.passes[t.producer]?
      if !(match pass with | some q => tile < q.tw * q.th | none => false) then .range
      else
        match t.blocks.find? (·.tile == tile) with
        | none => .range
        | some b =>
          if t.blockBytes < off + size then .range
          else if b.spilled then .overflow (overflowVa t b off)
          else .ring id tile off
  | _, _ => .range

/-- A 25-bit address of the firmware windows, for a lane with EMSTAT.EMU (23 R357). -/
def isFirmware (emu : Bool) (ea : DWord) : Bool := emu && ea.extractLsb' 25 39 == 0x7FFFFFFFFF

/-- The range check of a global access (11 R173). -/
def rangeCheck (p : Partition) (origin : Origin) (emu : Bool) (ea : DWord) (size : Nat) (window : Bool) : Option Cause :=
  if isFirmware emu ea then none
  else if isTransient ea then
    if !window then some causePermission
    else
      match windowOf p origin ea size with
      | .range => some causeTransientRange
      | .ring _ _ _ => none
      | .overflow va => if canonical va then none else some causePermission
  else if canonical ea then none
  else some causePermission

/-- One global access without the data's error check: the range check, alignment, and translation, in that order. -/
def resolveAddress (s : State) (core : Nat) (p : Partition) (origin : Origin) (emu : Bool) (ea : DWord)
    (size align : Nat) (u : Use) (window : Bool) : Resolved × State :=
  match rangeCheck p origin emu ea size window with
  | some c => (.fault c, s)
  | none =>
    if ea.toNat % align != 0 then (.fault causeMisaligned, s)
    else if isFirmware emu ea then (.at (.page .dev (fwBase + (ea.extractLsb' 0 25).toNat) ea.toNat), s)
    else if isTransient ea then
      match windowOf p origin ea size with
      | .range => (.fault causeTransientRange, s)
      | .ring tr tile off => (.at (.ring p.idx tr tile off), s)
      | .overflow va => resolvePage s core p ((va.extractLsb' 0 57).toNat) u
    else resolvePage s core p ((ea.extractLsb' 0 57).toNat) u

/-- A read of a word with an uncorrectable error fails, after every other check (11 R174). -/
def checkRead (s : State) (u : Use) (size : Nat) (r : Resolved) : Resolved :=
  match r with
  | .at l => if (u == .read || u == .atomic) && badAt s l size then .fault causeEcc else .at l
  | r => r

/-- One global access (11 R173, R174). -/
def resolveGlobal (s : State) (core : Nat) (p : Partition) (origin : Origin) (emu : Bool) (ea : DWord)
    (size align : Nat) (u : Use) (window : Bool) : Resolved × State :=
  let r := resolveAddress s core p origin emu ea size align u window
  (checkRead r.2 u size r.1, r.2)

/-- The team of a cluster with an index (15 R221). -/
def teamAt (s : State) (grid cluster idx : Nat) : Option Team :=
  s.teams.find? fun t => t.grid == grid && t.cluster == cluster && t.idx == idx

/-- One scratchpad access (11 R173, 15 R221). -/
def resolveScratch (s : State) (t : Team) (ea : DWord) (size align : Nat) : Resolved :=
  let col := (ea.extractLsb' 22 4).toNat
  let off := (ea.extractLsb' 0 22).toNat
  if ea.extractLsb' 26 38 != 0 || t.packet.clw * t.packet.clh ≤ col || t.packet.scratch < off + size then
    .fault causeScratchRange
  else if ea.toNat % align != 0 then .fault causeMisaligned
  else
    match teamAt s t.grid t.cluster col with
    | some u => .at (.scratch u.id off)
    | none => .fault causeScratchRange

/-- The global address of private byte `o` of a lane (11 R180). -/
def privateVa (l : Lane) (w o : Nat) : Nat := l.privBase + o / 4 * (4 * w) + 4 * l.home + o % 4

end Sys2Proof.Machine
end

