-- ==== Sys2Proof/Machine/Mem.lean ====
section
/-! DEFINITION. Caches and scopes: what an access does to L1s, slices and homes (15 R225 to R227), releases and
acquires (15 R235 to R239), promotion (15 R241), stacked memory and presence (03 R55, 15 R224), the operations of
atomics (11 R183), and which accesses of one group conflict (11 R182). -/

namespace Sys2Proof.Machine

/-! ### Backing stores -/

/-- The store that stands behind a type. The home slices and GDDR are one store, which every home access sees
(log entry 12). -/
def backing (s : State) : MemType → Memory
  | .host => s.hostMem
  | .peer => s.peerMem
  | _ => s.gddr

def setBacking (s : State) (ty : MemType) (m : Memory) : State :=
  match ty with
  | .host => { s with hostMem := m }
  | .peer => { s with peerMem := m }
  | _ => { s with gddr := m }

def homeBytes (s : State) (ty : MemType) (pa n : Nat) : List Byte := readBytes (backing s ty) pa n
def homeWrite (s : State) (ty : MemType) (pa : Nat) (b : List Byte) : State :=
  setBacking s ty (writeBytes (backing s ty) pa b)

/-- The bytes of a masked write-back reach memory; the others stay (15 R225). -/
def writeMasked (m : Memory) (base : Nat) (bytes : List Byte) (mask : Nat → Bool) : Memory :=
  (List.range bytes.length).foldl (fun m i => if mask i then writeByte m (base + i) (bytes.getD i 0) else m) m

def homeMasked (s : State) (ty : MemType) (base : Nat) (bytes : List Byte) (mask : Nat → Bool) : State :=
  setBacking s ty (writeMasked (backing s ty) base bytes mask)

/-! ### Homes and slices (15 R226) -/

def partOfCore (s : State) (core : Nat) : Option Partition := s.parts.find? fun p => p.cores.contains core

/-- Whether an L1 miss of a core goes to the home slice itself. HOST lines are never held as non-home copies. -/
def homeDirect (s : State) (core : Nat) (ty : MemType) (pa : Nat) : Bool :=
  ty == .host || match partOfCore s core with
    | some p => homeDie p ty pa == some (dieOfCore core)
    | none => true

/-! ### Signatures (15 R235) -/

/-- The two hashes of a virtual address. -/
def sigHashes (va : Nat) : Nat × Nat :=
  let l : BitVec 49 := BitVec.ofNat 49 (va / 256)
  let h1 := l.extractLsb' 0 10 ^^^ l.extractLsb' 10 10 ^^^ l.extractLsb' 20 10 ^^^ l.extractLsb' 30 10
    ^^^ (l.extractLsb' 40 9).zeroExtend 10
  let h2 := l.extractLsb' 5 10 ^^^ l.extractLsb' 15 10 ^^^ l.extractLsb' 25 10 ^^^ l.extractLsb' 35 10
    ^^^ ((l.extractLsb' 45 4).zeroExtend 10 <<< 5 ||| (l.extractLsb' 0 5).zeroExtend 10)
  (h1.toNat, h2.toNat)

def sigOf (va : Nat) : BitVec 1024 :=
  let h := sigHashes va
  (1 : BitVec 1024) <<< h.1 ||| (1 : BitVec 1024) <<< h.2
def sigMatches (sig : BitVec 1024) (va : Nat) : Bool :=
  let h := sigHashes va
  sig.getLsbD h.1 && sig.getLsbD h.2

/-- Step 5 of R236. -/
def publish (s : State) (cores : List Nat) (sig : BitVec 1024) : State :=
  { s with cores := s.cores.mapIdx fun i c => if cores.contains i then { c with sig := c.sig ||| sig } else c }

/-- Lines that reached their home for some cores outside a device-scope release: their next releases publish them too, so
that an acquire still drops every stale copy (15 R233, R240; log entry 100). -/
def owe (s : State) (cores : List Nat) (sig : BitVec 1024) : State :=
  { s with cores := s.cores.mapIdx fun i c => if cores.contains i then { c with owed := c.owed ||| sig } else c }

/-! ### Lines of slices and L1s -/

/-- Lines a slice holds (01 R9, R33: 2 MiB). -/
def sliceLines : Nat := 8192

/-- The slice of a line's home: slice (a >> 8) mod 16 of its home die, as a quad (15 R226). -/
def homeQuad (p : Partition) (ty : MemType) (pa : Nat) : Option Nat := (homeDie p ty pa).map fun d => d * 16 + pa / 256 % 16

def isSliceLine (home : Bool) (ty : MemType) (line : Nat) (l : SliceLine) : Bool := l.home == home && l.ty == ty && l.line == line

/-- A non-home copy in a slice. -/
def sliceAt (q : Quad) (ty : MemType) (line : Nat) : Option SliceLine := q.slice.find? (isSliceLine false ty line)
/-- The entry of a line in the slice of its home. -/
def homeAt (q : Quad) (ty : MemType) (line : Nat) : Option SliceLine := q.slice.find? (isSliceLine true ty line)
def l1At (c : Core) (ty : MemType) (line : Nat) : Option L1Line := c.l1.find? fun l => l.ty == ty && l.line == line

def dropSlice (s : State) (q : Nat) (l : SliceLine) : State :=
  modQuad s q fun d => { d with slice := d.slice.filter fun x => !isSliceLine l.home l.ty l.line x }
def dropL1 (s : State) (core : Nat) (ty : MemType) (line : Nat) : State :=
  modCore s core fun c => { c with l1 := c.l1.filter fun l => !(l.ty == ty && l.line == line) }

/-- A dirty non-home line goes back to its home and is clean. -/
def cleanSlice (s : State) (q : Nat) (l : SliceLine) : State :=
  if l.dirty = 0 then s
  else
    modQuad (owe (homeMasked s l.ty (l.line * 256) l.bytes fun i => l.dirty.getLsbD i) (quadCores q) (sigOf l.va)) q fun d =>
      { d with slice := d.slice.map fun x => if isSliceLine l.home l.ty l.line x then { x with dirty := 0 } else x }

def setBytes (l : List Byte) (off : Nat) (b : List Byte) : List Byte := l.take off ++ b ++ l.drop (off + b.length)

/-- A non-home copy with the masked bytes of an L1 line in their place. -/
def mergeLine (l : L1Line) (x : SliceLine) : SliceLine :=
  let off := l.line % 4 * 64
  { x with
    va := l.va / 256 * 256
    bytes := x.bytes.mapIdx fun i b => if off ≤ i ∧ i < off + 64 ∧ l.dirty.getLsbD (i - off) then l.bytes.getD (i - off) 0 else b
    dirty := x.dirty ||| (l.dirty.zeroExtend 256) <<< off }

/-- Masked bytes of an L1 line reach L2: the copy in the quad's slice, which holds every line of its L1s that is homed on
another die, or else the home. -/
def writeBackLine (s : State) (core : Nat) (l : L1Line) : State :=
  if l.dirty = 0 then s
  else
    let q := quadOfCore core
    if homeDirect s core l.ty (l.line * 64) || (sliceAt (quadAt s q) l.ty (l.line / 4)).isNone then
      owe (homeMasked s l.ty (l.line * 64) l.bytes fun i => l.dirty.getLsbD i) [core] (sigOf l.va)
    else
      modQuad s q fun d =>
        { d with slice := d.slice.map fun x => if isSliceLine false l.ty (l.line / 4) x then mergeLine l x else x }

/-- An L1 line goes back to L2 and is clean. -/
def cleanLine (s : State) (core : Nat) (l : L1Line) : State :=
  modCore (writeBackLine s core l) core fun c =>
    { c with l1 := c.l1.map fun x => if x.ty == l.ty && x.line == l.line then { x with dirty := 0 } else x }

/-- An L1 line is evicted. -/
def evictLine (s : State) (core : Nat) (l : L1Line) : State := dropL1 (writeBackLine s core l) core l.ty l.line

/-! ### Releases and promotion (15 R236, R241; 16 R250) -/

/-- Steps 2 to 4 of R236: the write-backs and their signature, with what the core owes; after a release at device scope
it owes nothing. -/
def writeBackAll (s : State) (core : Nat) (wide : Bool) : BitVec 1024 × State :=
  let dirty := (coreAt s core).l1.filter (·.dirty != 0)
  let sig := dirty.foldl (fun g l => g ||| sigOf l.va) 0
  let s := dirty.foldl (fun s l => cleanLine s core l) s
  let q := quadOfCore core
  let slices := (quadAt s q).slice.filter (·.dirty != 0)
  let sig := slices.foldl (fun g l => g ||| sigOf l.va) sig
  let s := slices.foldl (fun s l => cleanSlice s q l) s
  (sig ||| (coreAt s core).owed, if wide then modCore s core fun c => { c with owed := 0 } else s)

/-- The cores of a partition hear at once of a line that a unit wrote at the home. -/
def tellPart (s : State) (core : Nat) (sig : BitVec 1024) : State :=
  publish s (match partOfCore s core with | some p => p.cores | none => [core]) sig

/-- Cores that a remote acquire of a line must hear from: the recorded owner and every core with a dirty sector. -/
def promoters (s : State) (core : Nat) (ty : MemType) (pa : Nat) : List Nat :=
  ((s.homes.filter fun h => h.ty == ty && h.line == pa / 256).map (·.core)
    ++ (List.range s.cores.length).filter fun c => (coreAt s c).l1.any fun l => l.ty == ty && l.line / 4 == pa / 256 && l.dirty != 0).filter
    (· != core)

/-- A core raises its team-scope releases to device scope: steps 2 to 5 of R236. -/
def promote (s : State) (core : Nat) : State :=
  let r := writeBackAll s core true
  tellPart r.2 core r.1

/-- The owner record of a line (15 R241). -/
def setOwner (s : State) (ty : MemType) (line core : Nat) : State :=
  { s with homes := ⟨ty, line, core⟩ :: s.homes.filter fun h => !(h.ty == ty && h.line == line) }

/-- Before a home entry with an owner record goes, the cores it names are promoted; then the record goes (16 R250). -/
def dropOwner (s : State) (ty : MemType) (line : Nat) : State :=
  if s.homes.any fun h => h.ty == ty && h.line == line then
    let s := (promoters s s.cores.length ty (line * 256)).foldl promote s
    { s with homes := s.homes.filter fun h => !(h.ty == ty && h.line == line) }
  else s

/-! ### Lines that leave L2, and lines that come -/

/-- The L1 lines of some cores that were filled through an entry of a slice leave with it: L2 is inclusive (15 R226). -/
def evictAbove (s : State) (cores : List Nat) (l : SliceLine) : State :=
  cores.foldl (fun s c =>
    ((coreAt s c).l1.filter fun x =>
        x.ty == l.ty && x.line / 4 == l.line && homeDirect s c x.ty (x.line * 64) == l.home).foldl
      (fun s x => evictLine s c x) s) s

/-- An entry of a slice is evicted. -/
def evictSliceLine (s : State) (q : Nat) (l : SliceLine) : State :=
  if l.home then
    let s := dropOwner s l.ty l.line
    dropSlice (evictAbove s (List.range s.cores.length) l) q l
  else
    let s := evictAbove s (quadCores q) l
    dropSlice (match sliceAt (quadAt s q) l.ty l.line with | some x => cleanSlice s q x | none => s) q l

/-- Room in a slice for one line more: its oldest entry leaves when it is full: DESIGN CHOICE (log entry 124). -/
def makeRoom (s : State) (q : Nat) : State :=
  match (quadAt s q).slice.getLast? with
  | some l => if sliceLines ≤ (quadAt s q).slice.length then evictSliceLine s q l else s
  | none => s

/-- The home slice of a line holds it; a miss is counted on its die (25 R390). -/
def holdHome (s : State) (core : Nat) (ty : MemType) (pa va : Nat) : State :=
  match (partOfCore s core).bind fun p => homeQuad p ty pa with
  | none => s
  | some q =>
    match homeAt (quadAt s q) ty (pa / 256) with
    | some _ => s
    | none =>
      modQuad (countDie (makeRoom s q) (dieOfQuad q) 10) q fun d =>
        { d with slice := ⟨ty, pa / 256, true, va / 256 * 256, [], 0⟩ :: d.slice }

/-- A non-home copy of a line stands in a core's quad's slice, fetched from the home on a miss. -/
def holdSlice (s : State) (core : Nat) (ty : MemType) (line va : Nat) : State :=
  let q := quadOfCore core
  match sliceAt (quadAt s q) ty line with
  | some _ => s
  | none =>
    let s := countDie (makeRoom (holdHome s core ty (line * 256) va) q) (dieOfQuad q) 10
    let b := homeBytes s ty (line * 256) 256
    modQuad s q fun d => { d with slice := ⟨ty, line, false, va / 256 * 256, b, 0⟩ :: d.slice }

/-- Lines an L1 holds (01 R14: 256 KiB). -/
def l1Lines : Nat := 4096

/-- A copy that LDNC filled, which no acquire invalidates, serves no other access (log entry 100). -/
def dropHinted (s : State) (core : Nat) (ty : MemType) (line : Nat) (readOnly : Bool) : State :=
  match l1At (coreAt s core) ty line with
  | some l => if l.readOnly && !readOnly then dropL1 s core ty line else s
  | none => s

/-- The copies that LDNC filled leave a core that a team comes to: its loads return no value from before its launch
(11 R177). -/
def dropReadOnly (s : State) (core : Nat) : State := modCore s core fun c => { c with l1 := c.l1.filter fun l => !l.readOnly }

/-- Room in an L1 for one line more: its oldest line leaves when it is full: DESIGN CHOICE (log entry 13). -/
def makeRoomL1 (s : State) (core : Nat) : State :=
  match (coreAt s core).l1.getLast? with
  | some l => if l1Lines ≤ (coreAt s core).l1.length then evictLine s core l else s
  | none => s

/-- The line of an address stands in the core's L1, filled through R226 on a miss. -/
def holdLine (s : State) (core : Nat) (ty : MemType) (pa va : Nat) (readOnly : Bool) : State :=
  let s := dropHinted s core ty (pa / 64) readOnly
  match l1At (coreAt s core) ty (pa / 64) with
  | some _ => s
  | none =>
    let s := countEvent (makeRoomL1 s core) core 4
    let base := pa / 64 * 64
    let add (s : State) (b : List Byte) : State :=
      modCore s core fun c => { c with l1 := ⟨ty, pa / 64, va / 64 * 64, b, 0, readOnly⟩ :: c.l1 }
    if homeDirect s core ty pa then
      let s := holdHome s core ty pa va
      add s (homeBytes s ty base 64)
    else
      let s := holdSlice s core ty (pa / 256) va
      let b := match sliceAt (quadAt s (quadOfCore core)) ty (pa / 256) with | some l => l.bytes | none => []
      add s ((b.drop (base % 256)).take 64)

/-- The copy of a line in a core's L1 leaves. -/
def evictL1 (s : State) (core : Nat) (ty : MemType) (line : Nat) : State :=
  match l1At (coreAt s core) ty line with
  | some l => evictLine s core l
  | none => s

/-- The core's own copies of a line leave before an access that goes to the home (11 R182; log entry 14). -/
def dropOwn (s : State) (core : Nat) (ty : MemType) (pa : Nat) : State :=
  let s := evictL1 s core ty (pa / 64)
  match sliceAt (quadAt s (quadOfCore core)) ty (pa / 256) with
  | some l => evictSliceLine s (quadOfCore core) l
  | none => s

/-! ### Update-only copies (11 R183, R184; 15 R242) -/

/-- The new value of an element. -/
def atomNew (op : AtomOp) (t : Ty) (old x y : DWord) : DWord :=
  let lo := fun (z : DWord) => lowBits (bitsOf t) z
  match op with
  | .add => lo (old + x)
  | .fadd => addRne t old x
  | .min => if typedInt t x < typedInt t old then lo x else old
  | .max => if typedInt t old < typedInt t x then lo x else old
  | .and => old &&& lo x
  | .or => old ||| lo x
  | .xor => old ^^^ lo x
  | .exch => lo x
  | .cas => if old = lo x then lo y else old
  | .max64 => if old.toNat < x.toNat then x else old

/-- A RED whose operands stand as partials in update-only copies of its core's L1. -/
def heldRed (o : Op) : Bool :=
  match o.kind with
  | .atom _ _ _ _ _ _ _ near ret => near && ret.isNone && o.left == 1 && !o.done
  | _ => false

/-- One lane's partial is combined into the home. -/
def combineLane (s : State) (core : Nat) (op : AtomOp) (t : Ty) (a : AtomAcc) : State :=
  match a.loc with
  | .page ty pa va =>
    let s := dropOwn s core ty pa
    let old := bytesDWord (homeBytes s ty pa (elemBytes t))
    owe (homeWrite s ty pa (natBytes (elemBytes t) (atomNew op t old a.x a.y).toNat)) [core] (sigOf va)
  | _ => s

/-- The partials of a RED at some places are combined; the RED is performed with its last one. -/
def combineOp (pick : Loc → Bool) (s : State) (o : Op) : State :=
  match o.kind with
  | .atom op t accs scope acq rel rmt near ret =>
    let now := accs.filter fun a => pick a.loc
    let rest := accs.filter fun a => !pick a.loc
    if now.isEmpty then s
    else
      let s := now.foldl (fun s a => combineLane s o.core op t a) s
      if rest.isEmpty then opDone s o.id else putOp s { o with kind := .atom op t rest scope acq rel rmt near ret }
  | _ => s

/-- A core loads, stores to or atomically returns from a line: the partials that other cores hold of it are combined. -/
def combineLine (s : State) (core : Nat) (ty : MemType) (line : Nat) : State :=
  (s.ops.filter fun o => heldRed o && o.core != core).foldl
    (combineOp fun l => match l with | .page t pa _ => t == ty && pa / 64 == line | _ => false) s

/-- A core's update-only copies are combined, as before a release of it. -/
def combineCore (s : State) (core : Nat) : State :=
  (s.ops.filter fun o => heldRed o && o.core == core).foldl (combineOp fun _ => true) s

/-! ### Words that are written again (01 R34) -/

/-- The place `k` bytes on. -/
def shiftLoc (l : Loc) (k : Nat) : Loc :=
  match l with
  | .page ty pa va => .page ty (pa + k) (va + k)
  | .scratch team off => .scratch team (off + k)
  | .ring part tr tile off => .ring part tr tile (off + k)
  | .stream va => .stream (va + k)

/-- Bytes that are written are lost no longer: a word is good again once all that it lost is written. DESIGN CHOICE (log
entry 112). -/
def healAt (s : State) (l : Loc) (n : Nat) : State :=
  if s.bad.isEmpty then s
  else
    let left (w : BadWord) : BadWord :=
      { w with mask := w.mask &&& ~~~BitVec.ofNat 8 (((List.range 8).map fun i =>
          if overlaps (shiftLoc w.loc i) 1 l n then 2 ^ i else 0).foldl (· + ·) 0) }
    { s with bad := (s.bad.map left).filter (·.mask != 0) }

/-! ### Stacked memory (15 R224) -/

/-- The ring block of a transient that a tile owns. -/
def findBlock (s : State) (part tr tile : Nat) : Option Block :=
  match findPart s part with
  | some p =>
    match p.graph with
    | some g => match g.transients[tr]? with | some t => t.blocks.find? (·.tile == tile) | none => none
    | none => none
  | none => none

def modGraph (s : State) (part : Nat) (f : Graph → Graph) : State :=
  modPart s part fun p => { p with graph := p.graph.map f }
def modTransient (s : State) (part tr : Nat) (f : Transient → Transient) : State :=
  modGraph s part fun g => { g with transients := g.transients.modify tr f }
def modBlock (s : State) (part tr tile : Nat) (f : Block → Block) : State :=
  modTransient s part tr fun t => { t with blocks := t.blocks.map fun b => if b.tile == tile then f b else b }

/-- Entries of a bank write buffer (01 R16). -/
def bufferLines : Nat := 32

/-- A line's store enters the write buffer of a column, whose oldest entry leaves when it is full (01 R16). -/
def acceptStore (s : State) (column line : Nat) : State :=
  modCore s column fun c =>
    { c with wbuf := (if bufferLines ≤ c.wbuf.length then c.wbuf.drop 1 else c.wbuf) ++ [(line % 16, line)] }

/-- The lines that `n` bytes from an offset touch. -/
def linesOf (off n : Nat) : List Nat :=
  if n = 0 then [] else (List.range ((off + n - 1) / 64 - off / 64 + 1)).map fun k => off / 64 + k

/-- A store's lines enter the write buffers of their columns. -/
def acceptLines (s : State) (l : List (Nat × Nat)) : State := l.foldl (fun s x => acceptStore s x.1 x.2) s

/-- The dies of a transient's ring, in ascending order of position (19 R310). -/
def ringDiesOf (t : Transient) : List Nat := (List.range 4).filter fun d => t.ringDies / 2 ^ d % 2 == 1

/-- The column and the line there of a byte of a ring block: the block lies on the die of its slot, in units of 256 bytes
over the partition's columns there (19 R310). Where in a column's ring share is the model's choice (log entry 111). -/
def ringPlace (s : State) (part tr tile off : Nat) : Option (Nat × Nat) :=
  match findPart s part with
  | some p =>
    match p.graph.bind fun g => g.transients[tr]? with
    | some t =>
      match t.blocks.find? (·.tile == tile) with
      | some b =>
        let ds := ringDiesOf t
        let cols := p.cores.filter fun c => dieOfCore c == ds.getD (b.pos % ds.length) 0
        some (cols.getD (off / 256 % cols.length) 0, off / 256 / cols.length * 4 + off % 256 / 64)
      | none => none
    | none => none
  | none => none

/-- The columns and lines that an access to stacked memory touches. -/
def stackedLines (s : State) (l : Loc) (n : Nat) : List (Nat × Nat) :=
  match l with
  | .scratch team off => match findTeam s team with | some t => (linesOf off n).map fun k => (t.column, k) | none => []
  | .ring part tr tile off => (linesOf off n).filterMap fun k => ringPlace s part tr tile (k * 64)
  | _ => []

def readScratch (s : State) (team off n : Nat) : List Byte :=
  match findTeam s team with | some t => readBytes t.scratch off n | none => List.replicate n 0
def writeScratch (s : State) (team off : Nat) (b : List Byte) : State :=
  match findTeam s team with
  | some t =>
    acceptLines (putTeam (healAt s (.scratch team off) b.length) { t with scratch := writeBytes t.scratch off b })
      (stackedLines s (.scratch team off) b.length)
  | none => s

def linePresent (s : State) (team line : Nat) : Bool :=
  match findTeam s team with | some t => !t.absent.contains line | none => true
def clearPresence (s : State) (team line : Nat) : State :=
  modTeam s team fun t => { t with absent := if t.absent.contains line then t.absent else t.absent ++ [line] }
def setPresence (s : State) (team line : Nat) : State :=
  modTeam s team fun t => { t with absent := t.absent.filter (· != line) }

/-- A place in stacked memory. -/
def isStacked (l : Loc) : Bool := match l with | .scratch _ _ | .ring _ _ _ _ => true | _ => false

/-! ### Accesses at a scope (15 R227) -/

/-- The scope number of a unit that reads and writes at the home itself, past every L1. -/
def atHome : Nat := 5

/-- Bytes read by a core at a scope: 0 group, 1 team, 2 cluster, 3 device, 4 system. -/
def loadLoc (s : State) (core : Nat) (l : Loc) (n scope : Nat) (readOnly : Bool) : List Byte × State :=
  match l with
  | .page ty pa va =>
    let s := combineLine s core ty (pa / 64)
    if ty = .peer || scope = atHome then (homeBytes s ty pa n, s)
    else if scope < 2 then
      let s := holdLine s core ty pa va readOnly
      match l1At (coreAt s core) ty (pa / 64) with
      | some l => ((l.bytes.drop (pa % 64)).take n, s)
      | none => (homeBytes s ty pa n, s)
    else
      let s := holdHome (dropOwn s core ty pa) core ty pa va
      (homeBytes s ty pa n, s)
  | .scratch team off => (readScratch s team off n, s)
  | .ring part tr tile off =>
    match findBlock s part tr tile with
    | some b => (readBytes b.mem off n, s)
    | none => (List.replicate n 0, s)
  | .stream _ => (List.replicate n 0, s)

def sectorClean (l : L1Line) (off : Nat) : Bool := (l.dirty >>> (off / 32 * 32)).extractLsb' 0 32 == 0
def byteMask (off n : Nat) : BitVec 64 := BitVec.ofNat 64 (2 ^ n - 1) <<< off

/-- Bytes written into the L1 line that holds them; a clean sector that turns dirty names the core as owner. -/
def writeLine (s : State) (core : Nat) (ty : MemType) (pa : Nat) (b : List Byte) : State :=
  match l1At (coreAt s core) ty (pa / 64) with
  | none => homeWrite s ty pa b
  | some l =>
    let s := if sectorClean l (pa % 64) then setOwner s ty (pa / 256) core else s
    modCore s core fun c =>
      { c with l1 := c.l1.map fun x =>
          if x.ty == ty && x.line == pa / 64 then
            { x with bytes := setBytes x.bytes (pa % 64) b, dirty := x.dirty ||| byteMask (pa % 64) b.length }
          else x }

/-- Bytes stored by a core at a scope. -/
def storeLoc (s : State) (core : Nat) (l : Loc) (b : List Byte) (scope : Nat) (noAlloc : Bool) : State :=
  match l with
  | .page ty pa va =>
    let s := combineLine (healAt s l b.length) core ty (pa / 64)
    if ty = .peer then homeWrite s ty pa b
    else if scope = atHome then tellPart (homeWrite (dropOwn s core ty pa) ty pa b) core (sigOf va)
    else if scope < 2 && !noAlloc then writeLine (holdLine s core ty pa va false) core ty pa b
    else owe (homeWrite (holdHome (dropOwn s core ty pa) core ty pa va) ty pa b) [core] (sigOf va)
  | .scratch team off => writeScratch s team off b
  | .ring part tr tile off =>
    match findBlock s part tr tile with
    | some blk =>
      acceptLines (modBlock (healAt s l b.length) part tr tile fun _ => { blk with mem := writeBytes blk.mem off b }) (stackedLines s l b.length)
    | none => s
  | .stream _ => s

/-! ### Signatures, releases and acquires (15 R235 to R239) -/

/-- The cores of the scope instance that a team of a partition lies in. -/
def scopeCores (s : State) (part team scope : Nat) : List Nat :=
  if scope = 2 then
    match findTeam s team with
    | some t => (s.teams.filter fun u => u.grid == t.grid && u.cluster == t.cluster).flatMap fun u => [u.column, u.core]
    | none => []
  else match findPart s part with | some p => p.cores | none => []

/-- The write-backs and the publication of a release (R236 steps 2 to 5, R238, R239), after the core's update-only copies
have been combined (R242). -/
def releaseFrom (s : State) (core part team scope : Nat) : State :=
  let s := combineCore s core
  if scope < 2 then s
  else
    let r := writeBackAll s core (2 < scope)
    publish r.2 (scopeCores r.2 part team scope) r.1

/-- What an acquire invalidates (R237 to R239). What the core has heard of it owes on. -/
def acquireAt (s : State) (core scope : Nat) : State :=
  if scope < 2 then s
  else
    let sig := (coreAt s core).sig
    let hit (va : Nat) : Bool := scope == 4 || sigMatches sig va
    let s := modCore s core fun c => { c with sig := 0, owed := c.owed ||| c.sig }
    let s := ((coreAt s core).l1.filter fun l => !l.readOnly && hit l.va).foldl (fun s l =>
      evictLine (if scope == 4 then s else countEvent s core 5) core l) s
    let q := quadOfCore core
    ((quadAt s q).slice.filter fun l => !l.home && hit l.va).foldl (fun s l => evictSliceLine s q l) s

/-! ### Atomics (11 R183, R184) -/

/-- One lane's atomic at its place, near or far (11 R184, 15 R242): the old value. -/
def atomAt (s : State) (core : Nat) (op : AtomOp) (t : Ty) (a : AtomAcc) (near : Bool) : DWord × State :=
  let n := elemBytes t
  let far := !near || match a.loc with | .page .host _ _ => true | _ => false
  let scope := if far then 3 else 0
  let r := loadLoc s core a.loc n scope false
  let old := bytesDWord r.1
  (old, storeLoc r.2 core a.loc (natBytes n (atomNew op t old a.x a.y).toNat) scope false)

/-- One lane's arrival at a clasp line (03 R58): the count before it. -/
def claspAt (s : State) (l : Loc) : DWord × State :=
  match l with
  | .scratch team off =>
    let count := bytesNat (readScratch s team off 4)
    let target := bytesNat (readScratch s team (off + 4) 4)
    let phase := bytesNat (readScratch s team (off + 8) 4)
    let s := if linePresent s team (off / 64) && count == 0 then clearPresence s team (off / 64) else s
    let next := (count + 1) % 2 ^ 32
    let s :=
      if next = target then
        setPresence (writeScratch (writeScratch s team off (natBytes 4 0)) team (off + 8) (natBytes 4 (phase + 1)))
          team (off / 64)
      else writeScratch s team off (natBytes 4 next)
    (BitVec.ofNat 64 count, s)
  | _ => (0, s)

/-! ### Conflicts within one group (11 R182) -/

/-- The places an operation of a group reads or writes, whether it writes them. Copies are not the group's own accesses
(16 R251). -/
def touched (k : OpKind) : List (Loc × Nat) × Bool :=
  match k with
  | .load accs _ size _ _ _ _ _ _ => (accs.map fun a => (a.loc, size), false)
  | .store accs _ _ _ => (accs.map fun a => (a.loc, a.data.length), true)
  | .atom _ ty accs _ _ _ _ _ _ => (accs.map fun a => (a.loc, elemBytes ty), true)
  | .clasp accs _ _ _ _ => (accs.map fun a => (a.loc, 64), true)
  | _ => ([], false)

/-- A store to a PCIe peer, or a read of it. -/
def isPeer (l : Loc) : Bool := match l with | .page .peer _ _ => true | _ => false

/-! ### Writes posted to peers (15 R249) -/

/-- The oldest posted write of a group arrives. -/
def peerArrive (s : State) (group : Nat) : State :=
  match s.posted.find? (·.group == group) with
  | some w => homeWrite { s with posted := s.posted.erase w } .peer w.pa w.data
  | none => s

/-- Every posted write of a group arrives: a read of a peer by the group follows them (11 R182). -/
def flushPosted (s : State) (group : Nat) : State :=
  (s.posted.filter (·.group == group)).foldl (fun s _ => peerArrive s group) s

/-! ### Order within one group (11 R182; 15 R236) -/

def conflicts (a b : OpKind) : Bool :=
  let x := touched a
  let y := touched b
  (x.2 || y.2) && x.1.any fun p => y.1.any fun q => overlaps p.1 p.2 q.1 q.2

/-- Whether an operation has been performed: complete, or with its value in hand. -/
def performed (o : Op) : Bool := o.done || o.writes.isSome

/-- Earlier operations of the same group. -/
def earlier (s : State) (o : Op) : List Op := s.ops.filter fun q => q.group == o.group && q.id < o.id

/-- No earlier operation of the group conflicts with it and is still to be performed. -/
def inOrder (s : State) (o : Op) : Bool := (earlier s o).all fun q => performed q || !conflicts q.kind o.kind

/-- Step 1 of R236: every earlier memory operation of the group is performed, but for the REDs whose partials the release
itself combines (R242); vertical-queue entries are engine agents of their own (15 R228). -/
def allEarlier (s : State) (o : Op) : Bool := (earlier s o).all fun q => performed q || q.cls == some .vq || heldRed q

/-- Whether an operation is a release (15 R230). -/
def releases (k : OpKind) : Bool :=
  match k with
  | .store _ _ rel _ | .atom _ _ _ _ _ rel _ _ _ | .clasp _ _ _ rel _ | .copy _ _ rel _ => rel
  | _ => false

/-- A release waits for every earlier operation of the group (15 R236). -/
def releaseReady (s : State) (o : Op) : Bool := !releases o.kind || allEarlier s o

/-! ### The mesh (01 R18, 15 R224) -/

/-- The columns an operation of a group reaches in stacked memory. -/
def meshColumns (s : State) (k : OpKind) : List Nat :=
  ((touched k).1.flatMap fun x => (stackedLines s x.1 x.2).map (·.1)).eraseDups

/-- Accesses to stacked memory that left a core for a column of an operation before it did and are still on their way: their
own group's order and, for a release, step 1 of R236 have let them go. Accesses from one source column to one destination
column arrive in issue order (01 R18). -/
def meshBefore (s : State) (o : Op) : List Op :=
  let cols := meshColumns s o.kind
  if cols.isEmpty then []
  else s.ops.filter fun q =>
    q.id < o.id && q.core == o.core && !performed q && (meshColumns s q.kind).any cols.contains
      && inOrder s q && releaseReady s q

/-- Nothing stands before an operation on the mesh. -/
def meshClear (s : State) (o : Op) : Bool := (meshBefore s o).isEmpty

/-- Earlier stores of the group, which a vertical-queue submission follows (15 R243). -/
def storesEarlier (s : State) (o : Op) : Bool := (earlier s o).all fun q => performed q || q.cls != some .store

/-- A fence or an acquire of the group that later memory instructions wait for (11 R185, R186; 15 R237). -/
def holdsMemory (o : Op) : Bool :=
  match o.kind with
  | .fence .. => !o.done
  | .lfence => !o.done
  | .load _ _ _ _ _ acq _ _ _ => acq && !performed o
  | .atom _ _ _ _ acq _ _ _ _ => acq && !performed o
  | .clasp _ _ acq _ _ => acq && !performed o
  | _ => false

def memoryHeld (s : State) (g : Nat) : Bool := (groupOps s g).any holdsMemory

end Sys2Proof.Machine
end

