-- ==== Sys2Proof/Machine/Fetch.lean ====
section
/-! DEFINITION. Fetch lines (05 R75 to R80; 21 R344): where a line comes from, the checks of R77, and the check of a
transfer's target. -/

namespace Sys2Proof.Machine

def causeLineParity : Cause := 0x007
def causeLineWord : Cause := 0x008
def causeIllegalTarget : Cause := 0x009

/-- Slot `i` of a line (05 R75). -/
def slotOf (line : List Byte) (i : Nat) : SlotBits := BitVec.ofNat 96 (fieldNat line (12 * i) 12)
/-- The line word (05 R76). -/
def lineWord (line : List Byte) : Word := BitVec.ofNat 32 (fieldNat line 60 4)

def parityOf : Nat → Nat → Bool
  | 0, _ => false
  | n + 1, x => xor (x % 2 == 1) (parityOf n (x / 2))

/-- PAR of the slot bits (05 R77). -/
def lineParity (line : List Byte) : BitVec 8 :=
  let x := fieldNat line 0 60
  (List.range 8).foldl (fun p i => if parityOf 60 (x / 2 ^ (60 * i) % 2 ^ 60) then p ||| ((1 : BitVec 8) <<< i) else p) 0

/-- The line checks of R77, parity first. -/
def lineFault (line : List Byte) : Option Cause :=
  if (lineWord line).extractLsb' 24 8 != lineParity line then some causeLineParity
  else if (lineWord line).extractLsb' 14 10 != 0 then some causeLineWord
  else none

def tgtBit (line : List Byte) (slot : Nat) : Bool := (lineWord line).getLsbD slot
def swBit (line : List Byte) (slot : Nat) : Bool := (lineWord line).getLsbD (5 + slot)

/-- What fetching a line answers: its bytes, a cause with the page of a PAGE_NOT_PRESENT, or a wait for the streaming
engine on a 64 KiB page. -/
inductive Fetched where
  | line (bytes : List Byte)
  | fault (cause : Cause) (page : Nat)
  | stream (page : Nat)
  deriving DecidableEq, Repr

def findILine (c : Core) (part : Option Nat) (va : Nat) : Option ILine := c.icache.find? fun l => l.part == part && l.va == va
def putILine (s : State) (core : Nat) (l : ILine) : State :=
  modCore s core fun c => { c with icache := l :: c.icache.filter fun x => !(x.part == l.part && x.va == l.va) }

/-- The fetch of a line of the firmware code window of the core's die, which is never translated (23 R357). -/
def fetchFirmware (s : State) (core : Nat) (pc : Word) : Fetched × State :=
  let va := dieOfCore core * fwSize + (pcLine pc).toNat % fwSize
  match findILine (coreAt s core) none va with
  | some l => (.line l.bytes, s)
  | none =>
    let b := homeBytes s .dev (fwBase + va) 64
    (.line b, putILine s core ⟨none, va, b, false⟩)

/-- The virtual address of a line of the code window (05 R79). -/
def lineVa (codeBase : DWord) (pc : Word) : DWord := (codeBase &&& ~~~0x3F) + (pcLine pc).zeroExtend 64

/-- A line through the instruction cache, whose copies keep what they were filled with until ICINV or a loss; a copy
marked by a shootdown is translated again (21 R344). -/
def fetchLine (s : State) (core : Nat) (p : Partition) (codeBase : DWord) (emu : Bool) (pc : Word) : Fetched × State :=
  if emu then fetchFirmware s core pc
  else
    let ea := lineVa codeBase pc
    let held := findILine (coreAt s core) (some p.idx) ea.toNat
    match held with
    | some ⟨_, _, bytes, false⟩ => (.line bytes, s)
    | _ =>
      if !canonical ea then (.fault causePermission 0, s)
      else
        let va := (ea.extractLsb' 0 57).toNat
        match resolvePage s core p va .fetch with
        | (.fault c, s) => (.fault c (pageOf va), s)
        | (.at (.page ty pa _), s) =>
          let b := match held with
            | some l => l.bytes
            | none => homeBytes s ty pa 64
          (.line b, putILine s core ⟨some p.idx, ea.toNat, b, false⟩)
        | (.at _, s) => (.stream (va / 65536), s)

/-- What stops a pc from being entered: a cause and the page of a PAGE_NOT_PRESENT, or a wait. -/
inductive TargetCheck where
  | ok
  | fault (cause : Cause) (page : Nat)
  | stream (page : Nat)
  deriving DecidableEq, Repr

/-- The checks of a transfer's target in their order (05 R80). -/
def checkTarget (s : State) (core : Nat) (p : Partition) (codeBase : DWord) (emu : Bool) (pc : Word) : TargetCheck × State :=
  if !pcFormOk pc then (.fault causeLineWord 0, s)
  else
    match fetchLine s core p codeBase emu pc with
    | (.fault c page, s) => (.fault c page, s)
    | (.stream page, s) => (.stream page, s)
    | (.line b, s) =>
      match lineFault b with
      | some c => (.fault c 0, s)
      | none => if tgtBit b (pcSlot pc) then (.ok, s) else (.fault causeIllegalTarget 0, s)

end Sys2Proof.Machine
end

