-- ==== Sys2Proof/Machine/Leave.lean ====
section
/-! DEFINITION. Lanes that leave a group at a run end: regrouping at a segment start (03 R51 to R54, 04 R74) and
MIGRATE (03 R68, 11 R172). -/

namespace Sys2Proof.Machine

/-! ### Quarters (01 R12, R13; 03 R397) -/

/-- Bank bytes a group takes. -/
def bankBytes (g : Group) : Nat := g.w * g.vn * 4

/-- Groups that hold a place in a quarter: of resident teams, neither landed nor under way to a die. DESIGN CHOICE: a group
in a landing slot, or waiting for one, does not count against a quarter (log entries 109, 110). -/
def inQuarter (s : State) (core q : Nat) (g : Group) : Bool :=
  g.core == core && g.quarter == q && !g.landed && g.shipping.isNone && liveLanes g != 0
  && match findTeam s g.team with | some t => t.place == .resident && !t.ended && !t.packet.flags.getLsbD 0 | none => false

/-- Places that the teams of regroupable kernels keep for as long as they are resident (04 R74), in bank bytes. -/
def grantedIn (s : State) (core q : Nat) : List Nat :=
  s.teams.flatMap fun t =>
    if t.core == core && t.place == .resident && !t.ended && t.packet.flags.getLsbD 0 then
      (t.granted.filter (· == q)).map fun _ => 16 * 2 ^ t.packet.wcode * (8 * t.packet.vregs) * 4
    else []

def takenIn (s : State) (core q : Nat) : List Nat := (s.groups.filter (inQuarter s core q)).map bankBytes ++ grantedIn s core q
def quarterFree (s : State) (core q : Nat) : Nat := 131072 - (takenIn s core q).foldl (· + ·) 0
def quarterCount (s : State) (core q : Nat) : Nat := (takenIn s core q).length

/-- The quarter a group of a width and register count goes to: the most free bytes among those that can take it. -/
def pickQuarter (free : List Nat) (count : List Nat) (need : Nat) : Option Nat :=
  (List.range 4).foldl (fun best q =>
    if count.getD q 16 < 16 ∧ need ≤ free.getD q 0 then
      match best with
      | none => some q
      | some b => if free.getD b 0 < free.getD q 0 then some q else some b
    else best) none

/-! ### Registers left undefined -/

/-- `n` undefined scalar registers. -/
def freeScalars (fresh n : Nat) : List DWord := (List.range n).map fun i => Config.freeDWord (fresh + i)

/-- R53: s0 to s59 and k1 to k15 are undefined after SUCC or SUCC2; free values (log entry 7). -/
def forgetRegs (g : Group) (fresh : Nat) : Group :=
  { g with
    s := freeScalars fresh 60 ++ g.s.drop 60
    k := g.k.take 1 ++ freeScalars (fresh + 60) 15 }
def forgetCount : Nat := 75

/-! ### Regrouping -/

def isRegroupable (t : Team) : Bool := t.packet.flags.getLsbD 0
def isQuadBound (t : Team) : Bool := t.packet.flags.getLsbD 1
def isMigratory (t : Team) : Bool := t.packet.flags.getLsbD 2
def hasControl (t : Team) : Bool := t.packet.flags.getLsbD 3

/-- A group has ended once all its lanes have exited or left. -/
def groupEnded (g : Group) : Bool := liveLanes g == 0
def teamGroups (s : State) (team : Nat) : List Group := s.groups.filter (·.team == team)
def groupsHeld (s : State) (team : Nat) : Nat := ((teamGroups s team).filter fun g => !groupEnded g).length

/-- An arrival: the lane, or the quad it belongs to, leaves its group. -/
def arrivalOf (s : State) (g : Group) (i : Nat) (start : Word) : Arrival where
  clock := coreNow s (dieOfCore g.core)
  group := g.idx
  lane := i
  state := { laneAt g i with pc := start, mr := 0xFFFFFFFF, park := .none, set := 0 }
  fst := g.fst
  ften := g.ften
  fmode := g.fmode
  splim := g.splim
  privb := g.privb
  s := g.s
  area := g.area
  tvec := g.trap.tvec
  bad := (g.bad.filter fun b => b.file == 0 && b.lane == i).map (·.reg)

def joinGathering (l : List Gathering) (start : Word) (as : List Arrival) : List Gathering :=
  if l.any (·.start == start) then l.map fun h => if h.start == start then { h with arrivals := h.arrivals ++ as } else h
  else l ++ [⟨start, as⟩]

/-- Lanes leave the group for a segment start. -/
def leaveGroup (s : State) (g : Group) (lanes : List Nat) (start : Word) : State :=
  let as := lanes.map fun i => arrivalOf s g i start
  let s := modTeam s g.team fun t => { t with gatherings := joinGathering t.gatherings start as }
  putGroup s (clearInh (releaseJoins (modLanes g (laneSet lanes) fun _ l => { l with exited := true, park := .none, set := 0 })))

/-- The quads of a group whose every lane that has not exited waits at one segment start (03 R54). A quad whose lanes wait
at different starts goes on waiting: DESIGN CHOICE (log entry 107). -/
def arrivedQuad (g : Group) (q : Nat) : Option Word :=
  let live := (List.range 4).filterMap fun i => if (laneAt g (4 * q + i)).exited then none else some (laneAt g (4 * q + i))
  match live with
  | [] => none
  | l :: rest =>
    match l.park with
    | .arrive start => if rest.all fun m => m.park == .arrive start then some start else none
    | _ => none

/-- Whole quads that have arrived leave; their exited lanes go with them. -/
def leaveQuads (s : State) (gid : Nat) (w : Nat) : State :=
  (List.range (w / 4)).foldl (fun s q =>
    match findGroup s gid with
    | some g =>
      match arrivedQuad g q with
      | some start => leaveGroup s g ((List.range 4).map (4 * q + ·)) start
      | none => s
    | none => s) s

/-- Lanes ready to form: single lanes, or the quads that hold a live lane. -/
def liveArrivals (h : Gathering) : List Arrival := h.arrivals.filter fun a => !a.state.exited

def firstClock (h : Gathering) : Nat := (h.arrivals.map (·.clock)).foldl min (match h.arrivals with | a :: _ => a.clock | [] => 0)

/-- A gathering is ready: W lanes are present, or REGTO cycles have passed since its earliest arrival (04 R74). -/
def gatheringReady (s : State) (t : Team) (w : Nat) (h : Gathering) : Bool :=
  let regto := match findPart s t.part with | some p => p.csrs.regTo.toNat | none => 64
  !h.arrivals.isEmpty
  && (w ≤ h.arrivals.length || regto ≤ coreSince s (dieOfCore t.core) (firstClock h))

/-- The order of R52: arrival clock, old group index, old lane index. -/
def arrivalBefore (a b : Arrival) : Bool :=
  a.clock < b.clock || (a.clock == b.clock && (a.group < b.group || (a.group == b.group && a.lane ≤ b.lane)))
def sortArrivals (l : List Arrival) : List Arrival := sortBy arrivalBefore l

/-- The ready gathering that forms first: the oldest earliest arrival, then the lower start. -/
def nextGathering (s : State) (t : Team) (w : Nat) : Option Gathering :=
  (t.gatherings.filter (gatheringReady s t w)).foldl (fun best h =>
    match best with
    | none => some h
    | some b =>
      if firstClock h < firstClock b || (firstClock h == firstClock b && h.start.toNat < b.start.toNat) then some h
      else some b) none

def lowestFree (used : List Nat) (n : Nat) : Nat := ((List.range n).find? fun i => !used.contains i).getD 0

/-- A group formed of arrivals (03 R52 to R54, 04 R74, 07 R127). It takes the quarter in which the group of its index was
placed at admission: DESIGN CHOICE (log entry 108). -/
def formGroup (s : State) (t : Team) (w vn : Nat) (h : Gathering) : State :=
  let sorted := sortArrivals h.arrivals
  let take := sorted.take w
  let rest := sorted.drop w
  match take.find? fun a => !a.state.exited with
  | none => s
  | some low =>
    let id := s.nextId
    let lanes := (List.range w).map fun i =>
      match take[i]? with
      | some a => a.state
      | none => { noLane with v := List.replicate vn 0 }
    let idx := lowestFree (((teamGroups s t.id).filter fun g => !groupEnded g).map (·.idx)) 64
    let g : Group := {
      id := id, team := t.id, idx := idx, w := w, vn := vn, core := t.core
      quarter := t.granted.getD idx 0
      landed := false, shipping := none, age := id, lanes := lanes
      s := freeScalars s.fresh 60 ++ low.s.drop 60
      k := 0 :: freeScalars (s.fresh + 60) 15
      fst := take.foldl (fun x a => x ||| a.fst) 0
      ften := low.ften, fmode := low.fmode, splim := low.splim, privb := low.privb
      trap := ⟨low.tvec, 0, false, 0, 0, 0, false, false, false, false, false⟩
      emu := false, emuRec := none
      area := t.areas.getD idx low.area
      run := none, lastLow := some noLead, traps := [], after := [], yield := none, latches := [], copyFaults := []
      stepping := none, resumed := 0, skips := 0, sets := 0
      bad := (take.mapIdx fun i a => a.bad.map fun r => ⟨0, i, r⟩).flatten
      replays := [] }
    let s := { s with nextId := s.nextId + 1, fresh := s.fresh + forgetCount, groups := s.groups ++ [g] }
    modTeam s t.id fun t =>
      { t with
        gatherings := (t.gatherings.map fun x => if x.start == h.start then { x with arrivals := rest } else x).filter
          (fun x => !x.arrivals.isEmpty) }

/-- Ready gatherings form while the team holds fewer groups than it was launched with. -/
def formReady : Nat → State → Nat → State
  | 0, s, _ => s
  | n + 1, s, team =>
    match findTeam s team with
    | none => s
    | some t =>
      let w := 16 * 2 ^ t.packet.wcode
      if t.packet.teamLanes / w ≤ groupsHeld s team then s
      else
        match nextGathering s t w with
        | none => s
        | some h => formReady n (formGroup s t w (8 * t.packet.vregs) h) team

/-- Lanes that executed SUCC or SUCC2 arrive at a segment start: in a regroupable kernel they leave their group, else
they go on there. The group's registers of R53 are undefined. -/
def arriveLanes (s : State) (gid : Nat) (lanes : DWord) (start : Word) : State :=
  match findGroup s gid with
  | none => s
  | some g =>
    match findTeam s g.team with
    | none => s
    | some t =>
      let g := forgetRegs g s.fresh
      let s := { s with fresh := s.fresh + forgetCount }
      if !isRegroupable t then putGroup s (setPcs g lanes start)
      else if isQuadBound t then
        leaveQuads (putGroup s (parkLanes g lanes (.arrive start))) gid g.w
      else leaveGroup s g (laneList g.w lanes) start

/-! ### MIGRATE -/

def causeMigrateIllegal : Cause := 0x186

/-- A lane in a parked lane set that awaits a fault. -/
def awaitsFault (l : Lane) : Bool :=
  !l.exited && match l.park with | .host _ _ => true | .stream _ _ => true | .trap => true | _ => false

/-- What the tests of R68 come to. -/
inductive MigrateTest where
  | illegal (tval : DWord)
  | fault (cause : Cause)
  | stream
  | stay
  | go (die : Nat)
  deriving DecidableEq, Repr

/-- The tests of R68 in their order. -/
def migrateTest (s : State) (g : Group) (t : Team) (p : Partition) (addr : DWord) : MigrateTest × State :=
  if !isMigratory t then (.illegal 0, s)
  else if (groupOps s g.id).any fun o => o.cls.isSome && !o.done then (.illegal 1, s)
  else if (List.range g.w).any fun i => awaitsFault (laneAt g i) then (.illegal 3, s)
  else
    match resolveGlobal s g.core p t.origin false addr 0 1 .read false with
    | (.fault c, s) => (.fault c, s)
    | (.at (.page ty pa _), s) =>
      if ty == .host || ty == .peer then (.illegal 2, s)
      else
        match homeDie p ty pa with
        | none => (.illegal 2, s)
        | some d =>
          if !(partDies p).contains d then (.illegal 2, s)
          else if d = dieOfCore g.core then (.stay, s)
          else (.go d, s)
    | (.at _, s) => (.stream, s)

/-- A MIGRATE whose run has completed its park: the tests, then the departure, which releases at device scope
(22 R348). The traps it raises are answered to the caller. -/
def migrateGroup (s : State) (gid : Nat) (lanes : DWord) (addr : DWord) (pc : Word) : Option TrapReq × State :=
  match findGroup s gid with
  | none => (none, s)
  | some g =>
    match findTeam s g.team, teamPartition s g.team with
    | some t, some p =>
      let req (c : Cause) (tval : DWord) : TrapReq :=
        ⟨c, lanes, pc, tval, [pageOf ((addr.extractLsb' 0 57).toNat)], [], false⟩
      match migrateTest s g t p addr with
      | (.illegal tv, s) => (some (req causeMigrateIllegal tv), s)
      | (.fault c, s) => (some (req c addr), s)
      | (.stream, s) =>
        (none, putGroup s (parkLanes g lanes (.stream ((addr.extractLsb' 0 57).toNat / 65536) (req causeStreamFail addr))))
      | (.stay, s) => (none, putGroup s (setPcs g lanes (pcNext pc)))
      | (.go d, s) =>
        let s := releaseFrom s g.core p.idx t.id 3
        (none, putGroup s { setPcs g lanes (pcNext pc) with shipping := some d, landed := false })
    | _, _ => (none, s)

end Sys2Proof.Machine
end

