-- ==== Sys2Proof/Machine/Quads.lean ====
section
/-! DEFINITION. The status bits an instruction raises (07 R124 to R127), and the quad rendezvous of the derivative
instructions (03 R63 to R65, 13 R214, R215). -/

namespace Sys2Proof.Machine

/-! ### Raising status bits -/

/-- Lanes of a result that raised an enabled bit. -/
def enabledLanes (ften : DWord) (fl : List (Nat × FlagSet)) : DWord :=
  laneSet ((fl.filter fun x => enabledBits ften x.2 != 0).map (·.1))

/-- Status bits are ORed in as the results are written; enabled ones trap at the switch (07 R124, R125, R127). A
substitute's bits are kept lane by lane until the substitution ends (23 R353). -/
def raiseFlags (g : Group) (fl : List (Nat × FlagSet)) (pc : Word) (seq : Nat) (subst : Bool) : Group :=
  if subst then
    { g with after := g.after ++ (fl.filter fun x => x.2 != 0).map fun x => .arith (laneBit x.1) (x.2.extractLsb' 0 6) pc seq }
  else
    let all := flagUnion (fl.map (·.2))
    let lanes := enabledLanes g.ften fl
    let g := { g with fst := fstAfter g.fst all }
    if lanes = 0 then g else { g with after := g.after ++ [.arith lanes (enabledBits g.ften all) pc seq] }

/-! ### Derivatives -/

/-- The quad's values in the order p00, p10, p01, p11, AM applied. -/
def quadValues (g : Group) (f : VF) (q : Nat) : List DWord := (List.range 4).map fun k => operandA g f f.ty (4 * q + k)

/-- The two values whose difference lane `k` of a quad receives (13 R214). -/
def derivPair (i : Instr) (k : Nat) : Nat × Nat :=
  match i with
  | .ddx _ => (1, 0)
  | .ddy _ => (2, 0)
  | .ddxf _ => if k < 2 then (1, 0) else (3, 2)
  | _ => if k % 2 = 0 then (2, 0) else (3, 1)

/-- A difference as VFSUB gives it, with no flushing. -/
def derivative (f : VF) (x y : DWord) : DWord × FlagSet :=
  faddV f.ty f.rm false false (decodeFloat f.ty x) (negFV (decodeFloat f.ty y))

/-- What lane `k` of a quad receives from a derivative instruction. -/
def quadResult (g : Group) (i : Instr) (q k : Nat) : Option (VF × DWord × FlagSet) :=
  let diff (f : VF) : Option (VF × DWord × FlagSet) :=
    let vs := quadValues g f q
    let p := derivPair i k
    some (f, derivative f (vs.getD p.1 0) (vs.getD p.2 0))
  let swap (f : VF) (x : Nat) : Option (VF × DWord × FlagSet) := some (f, (quadValues g f q).getD (Nat.xor k x) 0, 0)
  match i with
  | .ddx f | .ddy f | .ddxf f | .ddyf f => diff f
  | .vqswx f => swap f 1
  | .vqswy f => swap f 2
  | .vqswd f => swap f 3
  | _ => none

/-- Some lanes of a quad that are held at one derivative instruction execute it. -/
def executeQuad (g : Group) (q : Nat) (lanes : List Nat) (pc : Word) (split : Bool) : Group :=
  let rs := lanes.filterMap fun i =>
    match (laneAt g i).park with
    | .quad ins true seq => (quadResult g ins q (i % 4)).map fun r => (i, seq, r)
    | _ => none
  let g' := applyWrites g (rs.flatMap fun r => writesOf r.2.2.1.ty r.2.2.1.d.toNat r.1 r.2.2.2.1)
  let g' := if split then { g' with fst := g'.fst ||| 0x40 } else g'
  let g' := ((rs.map (·.2.1)).eraseDups).foldl (fun g' seq =>
    raiseFlags g' ((rs.filter (·.2.1 == seq)).map fun r => (r.1, r.2.2.2.2)) pc seq false) g'
  stepDone (setPcs g' (laneSet lanes) (pcNext pc)) (laneSet lanes) pc

/-- One quad, if every lane of it that has not exited is held at a derivative instruction (03 R64, R65). -/
def resolveQuad (g : Group) (q : Nat) : Group :=
  let live := ((List.range 4).map (4 * q + ·)).filter fun i => !(laneAt g i).exited
  let held := live.all fun i => match (laneAt g i).park with | .quad _ _ _ => true | _ => false
  match live, held with
  | [], _ => g
  | _, false => g
  | i :: rest, true =>
    let low := rest.foldl (fun p j => if (laneAt g j).pc.toNat < p.toNat then (laneAt g j).pc else p) (laneAt g i).pc
    let go := live.filter fun j => (laneAt g j).pc == low
    executeQuad g q go low (go.length != live.length)

def resolveQuads (g : Group) : Group := (List.range (g.w / 4)).foldl resolveQuad g

end Sys2Proof.Machine
end

