-- ==== Sys2Proof/Machine/Deliver.lean ====
section
/-! DEFINITION. Lanes that exit, and the delivery of traps to groups: handlers, traps without one, pending and arithmetic
traps, and the fault path of the Bezel (07 R125; 21 R324 to R331; 23 R358). -/

namespace Sys2Proof.Machine

/-! ### Lanes that exit -/

/-- Lanes of a group exit: the JOINs, derivative instructions and segment starts at which only they were awaited go on
(11 R164; 03 R40, R54, R64). -/
def exitFrom (s : State) (g : Group) (lanes : DWord) : State :=
  let s := putGroup s (resolveQuads (exitLanes g lanes))
  match findTeam s g.team with
  | some t => if isRegroupable t && isQuadBound t then leaveQuads s g.id g.w else s
  | none => s

/-- What opens the gate of a gated team has come to pass; the first such moment counts (18 R291, 20 R322). -/
def markGate (s : State) (team : Nat) : State :=
  modTeam s team fun t => if t.gated then { t with gateMark := some (t.gateMark.getD s.nextId) } else t

/-- Ready gatherings of a team form once a group has ended (04 R74); the end of group 0 is noted for the team gate, though
its index is taken again at once (18 R291). -/
def formTeam (s : State) (team : Nat) : State :=
  let zeroEnded := (teamGroups s team).any fun g => g.idx == 0 && groupEnded g
  formReady 64 (if zeroEnded then markGate s team else s) team

/-! ### Delivery -/

/-- A trap that no handler takes, because TVEC names none: the lanes exit and a record tells of it (21 R326). -/
def trapWithoutHandler (s : State) (g : Group) (part : Nat) (r : TrapReq) : State :=
  let s := exitFrom s g r.lanes
  coreRecord s g.core r.cause.toNat part false
    [BitVec.ofNat 64 r.cause.toNat, r.tpc.zeroExtend 64, r.tval, r.lanes, specBaseOf s g.team]

/-- A trap of delivery H reaches a group (21 R326, R328, R329). -/
def deliverHandler (s : State) (g : Group) (part : Nat) (r : TrapReq) : State :=
  if anyPrivileged g r.lanes then
    doubleTrap (putGroup s g) part g.core [r.tpc.zeroExtend 64] r.cause
  else if g.trap.tvec = 0xFFFFFFFF then trapWithoutHandler s g part r
  else if handlerBusy g then putGroup s (holdTrap g r)
  else putGroup s (enterTrap g r)

/-- Delivery of a trap whose Bezel fault path is done (21 R324, R331). -/
def deliverTrap (s : State) (g : Group) (part : Nat) (r : TrapReq) : State :=
  match deliveryOf r.cause with
  | .waits => awaitHost (putGroup s (parkLanes g r.lanes (.host r.pages r))) part (dieOfCore g.core) (unitCore g.core) r.pages
  | _ => deliverHandler s g part r

/-- Where a lane of a suppressed cause continues (23 R358): TPC is already the next pc for an arithmetic cause, a
TRAP n and a STEP. -/
def suppressedPc (r : TrapReq) (lane : Nat) : Word :=
  match r.goes.find? (·.1 == lane) with
  | some x => x.2
  | none =>
    let c := r.cause.toNat
    if (0x080 ≤ c && c ≤ 0x085) || c == 0x282 || (0x340 ≤ c && c ≤ 0x37F) then r.tpc else pcNext r.tpc

def suppress (g : Group) (r : TrapReq) : Group :=
  modLanes { g with lastLow := some (g.lastLow.getD noLead) } r.lanes fun i l => { l with pc := suppressedPc r i, park := .none, set := 0 }

/-- The fault path of the Bezel, then delivery (23 R358). A double trap does not pass through it. -/
def throughBezel (s : State) (g : Group) (part : Nat) (r : TrapReq) : State :=
  let done := { r with bezelDone := true }
  if r.bezelDone || (deliveryOf r.cause == .handler && anyPrivileged g r.lanes) then deliverTrap s g part done
  else
    match faultSlot (dieAt s (dieOfCore g.core)) r.cause with
    | none => deliverTrap s g part done
    | some p =>
      match p.action with
      | 0 => deliverTrap s g part { done with cause := BitVec.ofNat 10 p.arg }
      | 2 =>
        if g.emu then putGroup s (holdTrap g r)
        else putGroup s (enterEmulate g r.lanes p.target r.cause r.tpc r.tval)
      | 3 =>
        if p.flags.getLsbD 1 then putGroup s (suppress g r)
        else deliverTrap s g part { done with cause := BitVec.ofNat 10 p.arg }
      | _ => deliverTrap s g part done

/-! ### Arithmetic traps (07 R125) -/

/-- An enabled bit raised: the lanes, the bits, and of the raising instruction the pc and the number of its issue. -/
structure Raised where
  lanes : DWord
  bits : BitVec 6
  pc : Word
  seq : Nat
  deriving DecidableEq, Repr

def raisedIn (l : List After) : List Raised :=
  l.filterMap fun a => match a with | .arith lanes bits pc seq => some ⟨lanes, bits, pc, seq⟩ | _ => none

/-- The one that decides the cause: the lowest bit, then the earliest issue. -/
def firstRaised (l : List Raised) : Option Raised :=
  l.foldl (fun best r =>
    match best with
    | none => some r
    | some b =>
      let x := (lowestBit r.bits).getD 6
      let y := (lowestBit b.bits).getD 6
      if x < y ∨ (x = y ∧ r.seq < b.seq) then some r else some b) none

/-- What the results that land at one switch raised: every lane that raised an enabled bit, and of the earliest-issued
instruction with the lowest cause all its enabled bits and its pc (07 R125). -/
def arithChoice (l : List After) : Option (DWord × (BitVec 6) × Word) :=
  let rs := raisedIn l
  (firstRaised rs).map fun c =>
    (rs.foldl (fun m r => m ||| r.lanes) 0,
      (rs.filter fun r => r.seq == c.seq && r.pc == c.pc).foldl (fun b r => b ||| r.bits) 0, c.pc)

/-- Lanes that have not exited, by the pc at which they stand. -/
def splitByPc (g : Group) (lanes : DWord) : List (DWord × Word) :=
  let live := (laneList g.w lanes).filter fun i => !(laneAt g i).exited
  ((live.map fun i => (laneAt g i).pc).eraseDups).map fun q => (laneSet (live.filter fun i => (laneAt g i).pc == q), q)

/-- The trap requests of an arithmetic cause, one for each pc at which its lanes stand: TPC is that next pc, TVAL the
raising pc and its enabled bits. -/
def arithReqs (g : Group) (lanes : DWord) (bits : BitVec 6) (pc : Word) : List TrapReq :=
  (splitByPc g lanes).map fun x =>
    { cause := (arithCause bits).getD 0x080
      lanes := x.1
      tpc := x.2
      tval := BitVec.ofNat 64 (pc.toNat + bits.toNat * 2 ^ 32)
      pages := []
      goes := []
      bezelDone := false }

/-! ### Pending traps (21 R329) -/

/-- The pending trap that enters next: the lowest cause, then the lowest lane. -/
def nextPending (g : Group) : Option TrapReq :=
  g.traps.foldl (fun best r =>
    match best with
    | none => some r
    | some b =>
      if r.cause.toNat < b.cause.toNat
        ∨ (r.cause = b.cause ∧ (lowLane g.w r.lanes).getD 64 < (lowLane g.w b.lanes).getD 64) then some r
      else best) none

/-- Once no lane set is in the handler, the next pending trap enters it. -/
def enterPending (s : State) (gid part : Nat) : State :=
  match findGroup s gid with
  | none => s
  | some g =>
    if handlerBusy g then s
    else
      match nextPending g with
      | none => s
      | some r =>
        let rest := g.traps.erase r
        let s := throughBezel s { g with traps := rest, trap := { g.trap with pend := false } } part r
        modGroup s gid fun g => { g with trap := { g.trap with pend := !g.traps.isEmpty } }

end Sys2Proof.Machine
end

