-- ==== Sys2Proof/Machine/Runs.lean ====
section
/-! DEFINITION. Runs (03 R43 to R50): what ends one, the landing of results, and what a group does once the park of R46
is over. -/

namespace Sys2Proof.Machine

/-! ### The end of a run -/

def partOfGroup (s : State) (g : Group) : Nat := match findTeam s g.team with | some t => t.part | none => 0

/-- Lanes that re-execute their instruction after an arithmetic trap take no other part in this run end. -/
def withoutLanes (m : DWord) (a : After) : After :=
  match a with
  | .exit l => .exit (l &&& ~~~m)
  | .trap t => .trap { t with lanes := t.lanes &&& ~~~m }
  | .arrive l st => .arrive (l &&& ~~~m) st
  | .step l pc => .step (l &&& ~~~m) pc
  | .emulate l t c p v => .emulate (l &&& ~~~m) t c p v
  | .migrate l addr pc => .migrate (l &&& ~~~m) addr pc
  | a => a

/-- The STEP traps of lanes that single-stepped past `pc`: one for each pc at which they now stand, which is its TPC (21
R347). -/
def stepReqs (g : Group) (lanes : DWord) (pc : Word) : List TrapReq :=
  (splitByPc g lanes).map fun x =>
    { cause := 0x282, lanes := x.1, tpc := x.2, tval := pc.zeroExtend 64, pages := [], goes := [], bezelDone := false }

/-- One deferred event of a group. -/
def settleOne (s : State) (gid : Nat) (a : After) : State :=
  match findGroup s gid with
  | none => s
  | some g =>
    match a with
    | .exit lanes => if lanes = 0 then s else exitFrom s g lanes
    | .trap t => if t.lanes = 0 then s else throughBezel s g (partOfGroup s g) t
    | .arith _ _ _ _ => s
    | .emulate lanes target cause tpc tval =>
      if lanes = 0 then s
      else if g.emu && lanes &&& g.trap.tmask = 0 then putGroup s (parkLanes g lanes .emulation)
      else putGroup s (enterEmulate g lanes target cause tpc tval)
    | .arrive lanes start => if lanes = 0 then s else arriveLanes s gid lanes start
    | .migrate lanes addr pc =>
      if lanes = 0 then s
      else
        match migrateGroup s gid lanes addr pc with
        | (some r, s) => match findGroup s gid with | some g => throughBezel s g (partOfGroup s g) r | none => s
        | (none, s) =>
          modGroup s gid fun g =>
            match lowLane g.w lanes with
            | some i => if (laneAt g i).park = .none then stepDone g lanes pc else g
            | none => g
    | .gate => markGate s g.team
    | .step lanes pc =>
      (stepReqs g lanes pc).foldl (fun s r =>
        match findGroup s gid with | some g => throughBezel s g (partOfGroup s g) r | none => s) s

/-- Exits come first, then the rest in the order of issue. -/
def exitsFirst (l : List After) : List After :=
  (l.filter fun a => match a with | .exit _ => true | _ => false) ++ l.filter fun a => match a with | .exit _ => false | _ => true

/-- The deferred events of a group once every result of the run has landed: the arithmetic trap of the results, then
the others. -/
def settleOnce (s : State) (gid : Nat) : State :=
  match findGroup s gid with
  | none => s
  | some g =>
    let s := putGroup s { g with after := [] }
    match arithChoice g.after with
    | none => (exitsFirst g.after).foldl (fun s a => settleOne s gid a) s
    | some c =>
      let s := (arithReqs g c.1 c.2.1 c.2.2).foldl (fun s r =>
        match findGroup s gid with | some g => throughBezel s g (partOfGroup s g) r | none => s) s
      ((exitsFirst g.after).map (withoutLanes c.1)).foldl (fun s a => settleOne s gid a) s

/-- The park of R46 is over once no result is owed: what was deferred happens, then the next pending trap enters, and
last the team's ready gatherings form, every lane of the switch having arrived (04 R74). -/
def settle (s : State) (gid : Nat) : State :=
  match findGroup s gid with
  | none => s
  | some g =>
    if g.run.isSome || !(owing s gid).isEmpty then s
    else
      let s := if g.after.isEmpty then s else settleOnce s gid
      let s := match findGroup s gid with
        | some g => if g.after.isEmpty then s else settleOnce s gid
        | none => s
      let s := enterPending (ackOps s gid) gid (partOfGroup s g)
      if g.after.isEmpty && !(findGroup s gid).any groupEnded then s else formTeam s g.team

/-! ### Finishing an instruction -/

/-- Lanes proceed to the next slot. -/
def advance (g : Group) (lanes : DWord) (cur : Cur) : Group :=
  if cur.subst then g else setPcs g lanes (pcNext cur.pc)

def countRun (g : Group) : Group :=
  match g.run with
  | some r => { g with run := some { r with count := r.count + 1 } }
  | none => g

/-- Lanes that the current instruction leaves trapped or parked. -/
def trappedLanes (g : Group) : DWord :=
  g.after.foldl (fun m a => match a with | .trap t => m ||| t.lanes | _ => m)
    (laneSet ((List.range g.w).filter fun i => (laneAt g i).park != .none))

/-- A switch: the run ends, and the group parks until its results have landed. -/
def switchRun (s : State) (g : Group) : State :=
  let s := countEvent s g.core 2
  let s := if (owing s g.id).isEmpty then s else countEvent s g.core 3
  settle (putGroup s (endRun g)) g.id

/-- Whether no comparator matches this issue: TRET resumed it with BPSKIP, or it was resumed from a debug halt
(21 R346). -/
def skipsBreaks (g : Group) (cur : Cur) : Bool :=
  cur.subst || (g.skips ||| g.resumed) &&& cur.active != 0

/-- What suppressed comparators is used up by an issue; hardware then clears BPSKIP (21 R346). -/
def useSkips (g : Group) (cur : Cur) : Group :=
  if skipsBreaks g cur && !cur.subst then
    { g with
      trap := { g.trap with bpskip := g.trap.bpskip && g.skips &&& cur.active == 0 }
      skips := g.skips &&& ~~~cur.active
      resumed := g.resumed &&& ~~~cur.active }
  else g

/-- A group has issued: those that yielded to it wait for one fewer (11 R164). -/
def noteIssued (s : State) (gid : Nat) : State :=
  { s with groups := s.groups.map fun g =>
      match g.yield with
      | some y =>
        let others := y.others.filter (· != gid)
        { g with yield := if others.isEmpty then none else some { y with others := others } }
      | none => g }

/-- The instruction has issued: it counts in its run, which ends here where `ends` says so, at a set SW bit (05 R81),
or where an enabled bit traps (07 R125). A switch marker of group 0 that ends a run without a trap is noted for the team
gate (18 R291); on an instruction that ends the run itself the marker has no effect (05 R81). -/
def closeIssue (s : State) (g : Group) (cur : Cur) (ends : Bool) : State :=
  if cur.subst then putGroup s g
  else
    let g := useSkips (countRun g) cur
    let g := stepDone g (cur.active &&& ~~~trappedLanes g) cur.pc
    let s := countEvent s g.core 1
    if ends || cur.sw || !g.after.isEmpty then
      let g := if cur.sw && !ends && g.idx == 0 && g.after.isEmpty then { g with after := g.after ++ [.gate] } else g
      noteIssued (switchRun s g) g.id
    else noteIssued (putGroup s g) g.id

/-- A pc-set parks on the instruction it was about to issue, which does not issue and does not count (03 R50). -/
def parkHere (s : State) (g : Group) (cur : Cur) (p : Park) : State :=
  let g := parkLanes g cur.active p
  if cur.subst then putGroup s g else switchRun s g

/-- A trap request at the current instruction. -/
def trapReq (cur : Cur) (lanes : DWord) (cause : Cause) (tval : DWord) : TrapReq :=
  { cause := cause, lanes := lanes, tpc := cur.pc, tval := tval, pages := [pageOf ((tval.extractLsb' 0 57).toNat)], goes := []
    bezelDone := false }

/-- A stepped instruction that traps delivers its own cause instead of STEP; one that waits for the host is stepped when
it replays (21 R347). -/
def unstep (g : Group) (r : TrapReq) : Group :=
  if deliveryOf r.cause = .waits then g
  else { g with stepping := g.stepping.bind fun m => if m &&& ~~~r.lanes = 0 then none else some (m &&& ~~~r.lanes) }

def deferTrap (g : Group) (r : TrapReq) : Group := unstep { splitSet g r.lanes with after := g.after ++ [.trap r] } r

/-- The whole active set traps before its instruction has any effect (21 R327 steps 1 to 4). -/
def trapHere (s : State) (g : Group) (cur : Cur) (r : TrapReq) : State :=
  let g := deferTrap (useSkips g cur) r
  if cur.subst then putGroup s g else switchRun s g

/-! ### Landing (03 R45, R46) -/

/-- A write to a mask register lets JOINs go on that await no other lane now (03 R39); in a substitution this waits for its
end. -/
def afterMasks (g : Group) (subst : Bool) (ws : List RegWrite) : Group :=
  if !subst && ws.any (fun w => match w with | .mask _ _ _ => true | _ => false) then releaseJoins g else g

/-- Register writes of a result reach the group, and its status bits are ORed in. -/
def landWrites (s : State) (o : Op) (ws : List RegWrite) (fl : List (Nat × FlagSet)) (subst : Bool) : State :=
  modGroup s o.group fun g => afterMasks (raiseFlags (applyWrites g ws) fl o.pc o.id subst) subst ws

/-- The bytes a load reads for each of its accesses. -/
def readAccesses (s : State) (core : Nat) (accs : List Access) (size scope : Nat) (readOnly : Bool) :
    List (Nat × List Byte) × State :=
  accs.foldl (fun r a =>
    let x := loadLoc r.2 core a.loc size scope readOnly
    (r.1 ++ [(a.lane, x.1)], x.2)) ([], s)

/-- The register writes of a load: each lane's pieces in order. -/
def loadResult (ty : Ty) (d : Nat) (r : List (Nat × List Byte)) : List RegWrite :=
  ((r.map (·.1)).eraseDups).flatMap fun i => loadWrites ty d i ((r.filter (·.1 == i)).flatMap (·.2))

/-- The cores a remote acquire still has to hear from (15 R241, 16 R250). -/
def awaitedPromotions (s : State) (o : Op) : List Nat :=
  let locs : List Loc := match o.kind with
    | .load accs _ _ _ _ _ true _ _ => accs.map (·.loc)
    | .atom _ _ accs _ _ _ true _ _ => accs.map (·.loc)
    | _ => []
  (locs.flatMap fun l => match l with | .page ty pa _ => promoters s o.core ty pa | _ => []).filter fun c => !o.acks.contains c

def isStream (l : Loc) : Bool := match l with | .stream _ => true | _ => false

/-- The places an operation waits for until the streaming engine has installed their pages. -/
def waitsForStream (o : Op) : Bool :=
  match o.kind with
  | .load accs _ _ _ _ _ _ _ _ => accs.any fun a => isStream a.loc
  | .sample _ _ _ _ _ _ _ lanes _ => lanes.any fun x => x.levels.any fun l => l.taps.any fun t => t.pieces.any fun p => isStream p.1
  | .test _ _ lanes _ => lanes.any fun x => x.pieces.any fun p => isStream p.1
  | _ => false

def isFar (l : Loc) : Bool := match l with | .page .host _ _ | .page .peer _ _ => true | _ => false

/-- An access to HOST or PEER memory waits while the host link is down (25 R376). -/
def linkWaits (s : State) (o : Op) : Bool :=
  !s.linkUp && match o.kind with
    | .load accs .. | .store accs .. => accs.any fun a => isFar a.loc
    | .atom _ _ accs .. => accs.any fun a => isFar a.loc
    | _ => false

/-- An operation without some of its lanes. -/
def dropLanes (m : DWord) (k : OpKind) : OpKind :=
  match k with
  | .load accs ty size d scope acq rmt ro byp => .load (accs.filter fun a => !m.getLsbD a.lane) ty size d scope acq rmt ro byp
  | .sample format bw bh border n d mask lanes scope =>
    .sample format bw bh border n d mask (lanes.filter fun x => !m.getLsbD x.lane) scope
  | .test tri d lanes scope => .test tri d (lanes.filter fun x => !m.getLsbD x.lane) scope
  | k => k

def noLanes (k : OpKind) : Bool :=
  match k with
  | .load accs .. => accs.isEmpty
  | .sample _ _ _ _ _ _ _ lanes _ => lanes.isEmpty
  | .test _ _ lanes _ => lanes.isEmpty
  | _ => false

/-- A load that can read memory now, once the loads before it on the mesh have. -/
def loadReady (s : State) (o : Op) : Bool :=
  inOrder s o && !waitsForStream o && !linkWaits s o
  && match o.kind with | .load .. => true | _ => false

/-- What a load reads: the registers it is to write. A group's read of a peer follows its posted writes (11 R182), and an
acquire acts once the load has read (11 R177, 15 R237). -/
def readLoad (s : State) (o : Op) : List RegWrite × State :=
  match o.kind with
  | .load accs ty size d scope acq _ ro _ =>
    let s := if accs.any fun a => isPeer a.loc then flushPosted s o.group else s
    let r := readAccesses s o.core accs size scope ro
    (loadResult ty d r.1, if acq then acquireAt r.2 o.core scope else r.2)
  | _ => ([], s)

/-- The loads that stand before an operation on the mesh read memory (01 R18). -/
def readBefore (s : State) (o : Op) : State :=
  (meshBefore s o).foldl (fun s q =>
    if loadReady s q && (awaitedPromotions s q).isEmpty then
      let r := readLoad s q
      putOp r.2 { q with writes := some r.1 }
    else s) s

/-- Whether the result of an operation can be written now. -/
def landable (s : State) (o : Op) : Bool :=
  o.owes && (o.writes.isSome || match o.kind with
    | .load .. => loadReady s o && (awaitedPromotions s o).isEmpty && meshClear (readBefore s o) o
    | .result .. => true
    | _ => false)

/-- One result is written back; a load reads memory now. -/
def landOp (s : State) (o : Op) (subst : Bool) : State :=
  let fin (s : State) : State := opDone (modOp s o.id) o.id
  match o.kind, o.writes with
  | .load .., none =>
    let r := readLoad (readBefore s o) o
    fin (landWrites r.2 o r.1 [] subst)
  | .result ws fl, none => fin (landWrites s o ws fl subst)
  | _, some ws => fin (landWrites s o ws o.flags subst)
  | _, none => s
where
  modOp (s : State) (id : Nat) : State :=
    { s with ops := s.ops.map fun q => if q.id == id then { q with owes := false } else q }

/-- The oldest result a group is owed. -/
def oldestOwed (s : State) (gid : Nat) : Option Op := (owing s gid).head?

/-- PENDING_RESULT_LANDS for a group whose run has ended: results land in issue order. -/
def landNext (s : State) (gid : Nat) : State :=
  match findGroup s gid, oldestOwed s gid with
  | some g, some o => if g.run.isNone && landable s o then settle (landOp s o false) gid else s
  | _, _ => s

end Sys2Proof.Machine
end

