-- ==== Sys2Proof/Machine/Threads.lean ====
section
/-! DEFINITION. Control threads of the quad control core (17 R253 to R256): guards, traps and the end of an
instruction. -/

namespace Sys2Proof.Machine

def threadReg (t : Thread) (r : Nat) : DWord := t.s.getD r 0
def setThreadReg (t : Thread) (r : Nat) (x : DWord) : Thread := { t with s := t.s.set r x, bad := t.bad.filter (· != r) }

/-- A condition register: c0 reads as true (05 R88). -/
def condReg (t : Thread) (c : Nat) : Bool := if c = 0 then true else t.c.getD c false
/-- A write of c0 is discarded. -/
def setCondReg (t : Thread) (c : Nat) (b : Bool) : Thread := if c = 0 then t else { t with c := t.c.set c b }

/-- The guard of an instruction on the control core: GK names a condition register (05 R88). -/
def threadGuard (t : Thread) (gk : BitVec 4) (gn : Bool) : Bool := xor (condReg t gk.toNat) gn

/-- The core a quad's shared units stand in for: its lowest core. -/
def leadCore (quad : Nat) : Nat := (quadCores quad).headD 0

/-! ### Traps of a control thread (17 R254; 21 R326, R328, R329) -/

def enterThreadTrap (t : Thread) (r : TrapReq) : Thread :=
  { t with
    trap := enterRegs t.trap true r 1 t.priv
    priv := true
    pc := t.trap.tvec
    started := true
    line := none
    park := .none }

def threadReq (_ : Thread) (cause : Cause) (tpc : Word) (tval : DWord) : TrapReq :=
  { cause := cause, lanes := 1, tpc := tpc, tval := tval, pages := [pageOf ((tval.extractLsb' 0 57).toNat)], goes := []
    bezelDone := false }

/-- A control thread that has exited; no MWAIT will raise its posted faults. -/
def exitThread (t : Thread) : Thread := { t with exited := true, park := .none, faults := [] }

def quadRecord (s : State) (quad code : Nat) (part : Nat) (dbl : Bool) (payload : List DWord) : State :=
  record s (dieOfQuad quad) (unitQuad quad) code (some part) dbl payload

/-- A fault of a posted engine operation told by an event record of code 0x403 (25 R387), with its cause and TVAL. -/
def postedRecord (s : State) (quad part : Nat) (c : Cause) (tval : DWord) : State :=
  quadRecord s quad 0x403 part false [c.zeroExtend 64, tval]

/-- A control thread exits; event records tell of the faults no MWAIT has raised (17 R255). -/
def endThread (s : State) (t : Thread) : State :=
  putThread (t.faults.foldl (fun s x => postedRecord s t.quad t.part x.cause x.tval) s) (exitThread t)

def deliverThreadHandler (s : State) (t : Thread) (r : TrapReq) : State :=
  if t.priv then
    haltPart (quadRecord (putThread s t) t.quad r.cause.toNat t.part true
      [r.tpc.zeroExtend 64]) t.part
  else if t.trap.tvec = 0xFFFFFFFF then
    quadRecord (endThread s t) t.quad r.cause.toNat t.part false
      [BitVec.ofNat 64 (r.cause.toNat + 2 ^ 10), r.tpc.zeroExtend 64, r.tval, 1, specBaseOf s t.team]
  else putThread s (enterThreadTrap t r)

/-- EMULATE on a control thread (23 R355, R358). -/
def emulateThread (t : Thread) (target : Word) (r : TrapReq) : Thread :=
  let p := t.trap
  { t with
    emuRec := some ⟨p.cause, p.ctl, p.tpc, p.tval, p.tmask, p.ppriv, p.inh, p.ss, p.bpskip, p.pend, t.priv, t.pc⟩
    trap := { p with cause := r.cause, ctl := true, tpc := r.tpc, tval := r.tval, tmask := 1 }
    emu := true
    stepping := false
    started := true
    priv := true
    pc := target
    line := none
    park := .none }

/-- A trap that names no page waits for none: the host has rejected it already (17 R270). A stepped instruction that traps
delivers its own cause instead of STEP (21 R347). -/
def deliverThread (s : State) (t : Thread) (r : TrapReq) : State :=
  match deliveryOf r.cause, r.pages with
  | .waits, _ :: _ => awaitHost (putThread s { t with park := .host r.pages r, line := none }) t.part (dieOfQuad t.quad) (unitQuad t.quad) r.pages
  | _, _ => deliverThreadHandler s { t with stepping := false } r

/-- A control thread traps: the Bezel fault path, then delivery (23 R358). -/
def trapThread (s : State) (t : Thread) (r : TrapReq) : State :=
  let done := { r with bezelDone := true }
  if r.bezelDone || (deliveryOf r.cause == .handler && t.priv) then deliverThread s t done
  else
    match faultSlot (dieAt s (dieOfQuad t.quad)) r.cause with
    | none => deliverThread s t done
    | some p =>
      match p.action with
      | 0 => deliverThread s t { done with cause := BitVec.ofNat 10 p.arg }
      | 2 => putThread s (emulateThread t p.target r)
      | 3 =>
        if p.flags.getLsbD 1 then putThread s { t with pc := suppressedPc r 0, started := true, park := .none, line := none }
        else deliverThread s t { done with cause := BitVec.ofNat 10 p.arg }
      | _ => deliverThread s t done

/-- A control thread's instruction is complete and goes on at a pc; a stepped one then traps (21 R347). -/
def doneThread (s : State) (t : Thread) (pc : Word) (next : Word) : State :=
  let t := { t with pc := next }
  if t.stepping then trapThread s { t with stepping := false } (threadReq t 0x282 next (pc.zeroExtend 64))
  else putThread s t

end Sys2Proof.Machine
end

