-- ==== Sys2Proof/Machine/Begin.lean ====
section
/-! DEFINITION. Issuing one instruction: the checks of 05 R101 and 21 R327 in their order, and the shapes in which the
meanings state their effects. -/

namespace Sys2Proof.Machine

abbrev Result := Host.Outcome State Fault Refusal

/-! ### Before an instruction has its effect -/

def teamOf (s : State) (g : Group) : Option Team := findTeam s g.team

/-- What the decode checks know of a pc-set. -/
def groupEnv (s : State) (g : Group) (active : DWord) : CheckEnv where
  ctl := false
  v := g.vn
  acct := ((teamOf s g).map (·.packet.acct)).getD 0
  quadBound := ((teamOf s g).map isQuadBound).getD false
  priv := anyPrivileged g active

def threadEnv (s : State) (t : Thread) : CheckEnv where
  ctl := true
  v := 32
  acct := ((findTeam s t.team).map (·.packet.acct)).getD 0
  quadBound := false
  priv := t.priv

/-- Other groups of the same launch on the core that are heavy-active (03 R49, 19 R315). -/
def heavyOthers (s : State) (g : Group) : Nat :=
  let grid := (teamOf s g).map (·.grid)
  (s.groups.filter fun h =>
    h.id != g.id && h.core == g.core && (teamOf s h).map (·.grid) == grid
      && match h.run with | some r => r.heavy | none => false).length

def heavyBlocked (s : State) (g : Group) (i : Instr) : Bool :=
  let cap := ((teamOf s g).map (·.packet.heavy)).getD 0
  isHeavy i && cap != 0 && cap ≤ heavyOthers s g

def markHeavy (g : Group) (i : Instr) : Group :=
  match g.run with
  | some r => if isHeavy i then { g with run := some { r with heavy := true } } else g
  | none => g

/-- A two-bit enable of DBCTL. -/
def enableAt (ctl : BitVec 16) (k : Nat) : Nat := ctl.toNat / 2 ^ k % 4

/-- The PC comparator that matches, with whether it halts (21 R345, R346). -/
def breakPc (s : State) (g : Group) (cur : Cur) : Option (Nat × Bool) :=
  if skipsBreaks g cur then none
  else
    let d := (coreAt s g.core).dbg
    ((List.range 4).find? fun c => (enableAt d.ctl (2 * c) == 1 || enableAt d.ctl (2 * c) == 2) && d.pc.getD c 0 == cur.pc).map
      fun c => (c, enableAt d.ctl (2 * c) == 2)

/-- A debug match halts the group until management resumes it (21 R346). -/
def debugHalt (s : State) (g : Group) (cur : Cur) (code : Nat) : State :=
  coreRecord (parkHere s g cur .debug) g.core code (partOfGroup s g) false
    [BitVec.ofNat 64 g.id, cur.pc.zeroExtend 64]

/-- Where each lane of the active set would stand had a control instruction completed (23 R358); elsewhere it is the next
slot. -/
def completedPcs (i : Instr) (g : Group) (cur : Cur) : List (Nat × Word) :=
  let goes (m : DWord) (target : Nat → Word) : List (Nat × Word) :=
    (laneList g.w cur.active).map fun l => (l, if m.getLsbD l then target l else pcNext cur.pc)
  let guard (f : BF) : DWord := guardSet g cur.active f.gk f.gn
  match i with
  | .bra f | .call f => goes (guard f) fun _ => dispTarget cur.pc f.disp
  | .brx f | .ret f => goes (guard f) fun l => vreg g l f.a.toNat
  | .callx f => goes (guard f) fun l => vreg g l f.c.toNat
  | .succ f => goes cur.active fun _ => dispTarget cur.pc f.disp
  | .succ2 f => goes (kreg g f.b.toNat) fun _ => dispTarget cur.pc f.disp
  | .tret _ => goes cur.active fun _ => g.trap.tpc
  | _ => []

/-- A trap request of the whole active set before an instruction has its effect. -/
def controlReq (i : Instr) (g : Group) (cur : Cur) (cause : Cause) (tval : DWord) : TrapReq :=
  { trapReq cur cur.active cause tval with goes := completedPcs i g cur }

/-! ### Registers with an uncorrectable error (01 R34) -/

/-- The registers that an operand names: its file and its number (21 R324). -/
def slotRegs (sl : Slot) (r : BitVec 8) : List (Nat × Nat) :=
  let some_ (file n : Nat) : List (Nat × Nat) := (List.range n).map fun k => (file, r.toNat + k)
  match sl with
  | .vec n _ => some_ 0 n
  | .vecOrFF n _ => if r = 0xFF then [] else some_ 0 n
  | .scalar | .scalarOrCond => some_ 1 1
  | .scalarOrFF => if r = 0xFF then [] else some_ 1 1
  | .mask => some_ 2 1
  | .masks n => some_ 2 n
  | .tile => some_ 3 1
  | _ => []

/-- Instructions whose field D is a source: they keep some of its bits, or store it. -/
def readsDest (i : Instr) : Bool :=
  match i with
  | .slih _ | .sbfi _ | .vbfi _ | .st _ | .stnc _ | .sts _ | .stp _ | .str _ | .atom _ _ | .red _ _ | .icinv _ | .cinv _ | .cwb _ => true
  | _ => false

/-- Instructions that read a resource table at s60. -/
def readsTable (i : Instr) : Bool :=
  match i with | .ldr _ | .str _ | .tex _ | .texl _ | .texg _ | .texq _ | .trace _ => true | _ => false

/-- Instructions of which each lane may read every lane's registers. -/
def crossesLanes (i : Instr) : Bool :=
  match i with
  | .vredx _ | .vreddw _ | .vdotx _ | .vshfi _ | .vshfu _ | .vshfd _ | .vshfx _ | .vbcast _ | .vredadd _ | .vredmin _ | .vredmax _
  | .vredand _ | .vredor _ | .vredxor _ | .vredfadd _ | .vredfmin _ | .vredfmax _ | .vscani _ | .vscane _ | .vballot _ | .vany _
  | .vall _ | .vmatch _ | .ddx _ | .ddy _ | .ddxf _ | .ddyf _ | .vqswx _ | .vqswy _ | .vqswd _ => true
  | _ => false

/-- The mask register that guards an instruction, its sense, and the registers that it reads. -/
def readsOf (i : Instr) : BitVec 4 × Bool × List (Nat × Nat) :=
  let dest (l : List (Nat × Nat)) : List (Nat × Nat) := if readsDest i then l else []
  let table : List (Nat × Nat) := if readsTable i then [(1, 60)] else []
  match shapeOf false i with
  | .v _ sh f => (f.gk, f.gn, slotRegs sh.a f.a ++ slotRegs (srcSlot sh.b f.bk) f.b ++ slotRegs (srcSlot sh.c f.ck) f.c ++ dest (slotRegs sh.d f.d))
  | .m sh f => (f.gk, f.gn, slotRegs sh.a f.a ++ slotRegs sh.b f.b ++ dest (slotRegs sh.d f.d) ++ table)
  | .c _ _ a f => (f.gk, f.gn, slotRegs a f.a)
  | .b sh f =>
    (f.gk, f.gn, match i with
      | .nop _ | .call _ | .meet _ => []
      | .callx _ => slotRegs sh.c f.c
      | .enter _ | .leave _ => [(1, 63)]
      | _ => slotRegs sh.a f.a ++ slotRegs sh.b f.b ++ slotRegs sh.c f.c)
  | _ => (0, false, [])

/-- Lanes of the active set that read a register or tile with an uncorrectable error, each with the first one it reads. The
guard is read for every lane, the operands by the lanes of the guard set (log entry 112). -/
def eccReads (s : State) (g : Group) (i : Instr) (active : DWord) : List (Nat × Nat × Nat) :=
  let tiles := ((teamOf s g).map (·.badTiles)).getD []
  if g.bad.isEmpty && tiles.isEmpty then []
  else
    let r := readsOf i
    let bad (l : Nat) (x : Nat × Nat) : Bool :=
      if x.1 = 3 then tiles.contains x.2
      else g.bad.any fun b => b.file == x.1 && b.reg == x.2 && (x.1 != 0 || crossesLanes i || b.lane == l)
    (laneList g.w active).filterMap fun l =>
      if bad l (2, r.1.toNat) then some (l, 2, r.1.toNat)
      else if (guardSet g active r.1 r.2.1).getLsbD l then (r.2.2.find? (bad l)).map fun x => (l, x)
      else none

/-- TVAL of an uncorrectable error in on-chip state (21 R324). -/
def eccTval (file idx : Nat) : DWord := BitVec.ofNat 64 (2 ^ 63 + file * 256 + idx % 256)

/-- An instruction has its effect; the lanes that read what an uncorrectable error has destroyed split off and trap (01
R34). -/
def withSound (i : Instr) (s : State) (g : Group) (cur : Cur) (eff : State → Group → Cur → State) : State :=
  match eccReads s g i cur.active with
  | [] => eff s g cur
  | x :: l =>
    let m := laneSet ((x :: l).map (·.1))
    let r := { controlReq i g cur causeEcc (eccTval x.2.1 x.2.2) with lanes := m }
    if m = cur.active then trapHere s g cur r
    else eff s (deferTrap g r) { cur with active := cur.active &&& ~~~m }

def beginGroup (i : Instr) (s : State) (g : Group) (cur : Cur) (eff : State → Group → Cur → State) : State :=
  match checkInstr (groupEnv s g cur.active) i with
  | some c => trapHere s g cur (controlReq i g cur c (cur.raw.extractLsb' 0 64))
  | none =>
    if !cur.subst && heavyBlocked s g i then parkHere (countEvent s g.core 7) g cur .heavy
    else
      match breakPc s g cur with
      | some (c, false) => trapHere s g cur (controlReq i g cur 0x280 (BitVec.ofNat 64 c))
      | some (_, true) => debugHalt s g cur 0x280
      | none => withSound i s (markHeavy g i) cur eff

/-- Where a control thread would stand had a TRET completed (23 R358). -/
def completedPc (i : Instr) (t : Thread) : List (Nat × Word) := match i with | .tret _ => [(0, t.trap.tpc)] | _ => []

/-- The scalar registers that an instruction of the control core reads. -/
def threadReads (i : Instr) : List Nat :=
  let of (l : List (Nat × Nat)) : List Nat := (l.filter (·.1 == 1)).map (·.2)
  match shapeOf true i with
  | .x _ _ _ f => [f.sa.toNat, f.sb.toNat, f.ss.toNat]
  | .b sh f =>
    match i with
    | .call _ => []
    | .callx _ => of (slotRegs sh.c f.c)
    | _ => of (slotRegs sh.a f.a)
  | _ => of (readsOf i).2.2

/-- A control thread's instruction that the checks let through has its effect, or traps on an uncorrectable error in a
register that it reads (01 R34). -/
def beginThread (i : Instr) (s : State) (t : Thread) (cur : Cur) (eff : State → Thread → Cur → State) : State :=
  let trap (c : Cause) (tval : DWord) : State := trapThread s t { threadReq t c cur.pc tval with goes := completedPc i t }
  match checkInstr (threadEnv s t) i with
  | some c => trap c (cur.raw.extractLsb' 0 64)
  | none =>
    match (threadReads i).find? t.bad.contains with
    | some r => trap causeEcc (eccTval 1 r)
    | none => eff s t cur

/-- An instruction of either stream. -/
def issueBoth (i : Instr) (s : State) (eff : State → Group → Cur → State) (ctl : State → Thread → Cur → State) : Result :=
  match s.cur with
  | none => .fault .noIssuer
  | some cur =>
    match cur.who with
    | .group id =>
      match findGroup s id with
      | none => .fault .noIssuer
      | some g => .next (beginGroup i s g cur eff)
    | .thread team =>
      match findThread s team with
      | none => .fault .noIssuer
      | some t => .next (beginThread i s t cur ctl)

/-- An instruction of vector streams: on the control core its context check fails (05 R102). -/
def issueGroup (i : Instr) (s : State) (eff : State → Group → Cur → State) : Result :=
  issueBoth i s eff fun s t _ => putThread s t

/-- An X-format instruction: in a vector stream its context check fails (05 R100). -/
def issueThread (i : Instr) (s : State) (eff : State → Thread → Cur → State) : Result :=
  issueBoth i s (fun s g _ => putGroup s g) eff

/-! ### Effects -/

/-- A write to a register that a latch holds invalidates it (06 R109). -/
def dropLatches (g : Group) (ws : List RegWrite) : Group :=
  { g with latches := g.latches.filter fun l =>
      !(ws.any fun w => match w with | .vec _ r _ => l.reg ≤ r && r < l.reg + l.n | _ => false) }

/-- The vector operands whose reuse bit is set: position, first register and registers. -/
def reusedRegs (i : Instr) : List (Nat × Nat × Nat) :=
  let regs (pos : Nat) (reuse : Bool) (sl : Slot) (r : BitVec 8) : List (Nat × Nat × Nat) :=
    match reuse, sl with | true, .vec n _ => [(pos, r.toNat, n)] | _, _ => []
  match shapeOf false i with
  | .v _ sh f => regs 0 f.ra sh.a f.a ++ regs 1 f.rb (srcSlot sh.b f.bk) f.b ++ regs 2 f.rc (srcSlot sh.c f.ck) f.c
  | _ => []

/-- The operand latches a V-format instruction leaves, each with the value it read; its own writes invalidate them like
any others (06 R109). -/
def latchAfter (g : Group) (i : Instr) (ws : List RegWrite) : Group :=
  let put (l : List Latch) (x : Nat × Nat × Nat) : List Latch :=
    ⟨x.1, x.2.1, x.2.2, g.lanes.map fun l => (List.range x.2.2).map fun k => l.v.getD (x.2.1 + k) 0⟩ :: l.filter (·.pos != x.1)
  dropLatches { g with latches := (reusedRegs i).foldl put g.latches } ws

/-- A fixed-latency instruction: its writes are visible to the next instruction (03 R44). -/
def finishFixed (s : State) (g : Group) (cur : Cur) (e : Effect) : State :=
  let g := raiseFlags (applyWrites g e.writes) e.flags cur.pc s.nextId cur.subst
  closeIssue s (afterMasks (advance g cur.active cur) cur.subst e.writes) cur false

def issueFixed (i : Instr) (f : VF) (s : State) (eff : Group → DWord → Effect) : Result :=
  issueGroup i s fun s g cur =>
    let e := eff g (guardSet g cur.active f.gk f.gn)
    finishFixed s (latchAfter g i e.writes) cur e

/-- A new operation in flight. -/
def newOp (s : State) (g : Group) (cur : Cur) (cls : Option OpClass) (kind : OpKind) (owes : Bool) : Op where
  id := s.nextId
  group := g.id
  team := g.team
  part := partOfGroup s g
  core := g.core
  pc := cur.pc
  cls := cls
  kind := kind
  owes := owes
  writes := none
  flags := []
  done := false
  queue := none
  acks := []
  left := 0

def addOp (s : State) (o : Op) : State := { s with ops := s.ops ++ [o], nextId := s.nextId + 1 }

/-- A variable-latency result computed from sources read at issue (03 R45). -/
def finishVar (s : State) (g : Group) (cur : Cur) (cls : Option OpClass) (e : Effect) : State :=
  let s := addOp s (newOp s g cur cls (.result e.writes e.flags) true)
  closeIssue s (advance g cur.active cur) cur false

def issueVar (i : Instr) (f : VF) (s : State) (eff : Group → DWord → Effect) : Result :=
  issueGroup i s fun s g cur =>
    let lanes := guardSet g cur.active f.gk f.gn
    if lanes = 0 then closeIssue s (advance g cur.active cur) cur false
    else finishVar s (latchAfter g i []) cur none (eff g lanes)

end Sys2Proof.Machine
end

