-- ==== Sys2Proof/Machine/Scalar.lean ====
section
/-! DEFINITION. Scalar instructions, majors 0x01 to 0x04 (05 R88; 09 R140 to R144), of vector streams and of the quad
control core. -/

namespace Sys2Proof.Machine

/-- Operand B or C of a scalar instruction (05 R88). -/
def scalarSrc (rd : Nat → DWord) (k : Kind) (field : BitVec 8) (imm : Word) (zext : Bool) : DWord :=
  match k with
  | .imm => if zext then imm.zeroExtend 64 else imm.signExtend 64
  | _ => rd field.toNat

/-- What a scalar instruction computes from its register file; `none` writes nothing. -/
abbrev ScalarFn := (Nat → DWord) → DWord

/-- A scalar result of a group, written only if the guard set is non-empty (05 R83). -/
def scalarEffect (g : Group) (f : VF) (lanes : DWord) (h : ScalarFn) : Effect :=
  if lanes = 0 then noEffect else ⟨[.scalar f.d.toNat (h (sreg g))], []⟩

/-- A scalar instruction with a result in a scalar register. -/
def issueScalar (i : Instr) (f : VF) (s : State) (slow : Bool) (h : ScalarFn) : Result :=
  issueBoth i s
    (fun s g cur =>
      let e := scalarEffect g f (guardSet g cur.active f.gk f.gn) h
      if slow && !e.writes.isEmpty then finishVar s g cur none e else finishFixed s g cur e)
    (fun s t cur =>
      let t' := if threadGuard t f.gk f.gn then setThreadReg t f.d.toNat (h (threadReg t)) else t
      doneThread s t' cur.pc (pcNext cur.pc))

/-- A two-source scalar instruction. -/
def scalarBin (f : VF) (zext : Bool) (op : DWord → DWord → DWord) : ScalarFn := fun rd =>
  op (rd f.a.toNat) (scalarSrc rd f.bk f.b f.imm zext)

def highProduct (signed : Bool) (w : Nat) (a b : DWord) : DWord :=
  BitVec.ofInt 64 (asInt signed w a * asInt signed w b / 2 ^ w)

def execSadd (f : VF) (s : State) : Result := issueScalar (.sadd f) f s false (scalarBin f false (· + ·))
def execSsub (f : VF) (s : State) : Result := issueScalar (.ssub f) f s false (scalarBin f false (· - ·))
def execSmul (f : VF) (s : State) : Result := issueScalar (.smul f) f s false (scalarBin f false (· * ·))
def execSmulh (f : VF) (s : State) : Result := issueScalar (.smulh f) f s false (scalarBin f false (highProduct true 64))
def execSmulhn (f : VF) (s : State) : Result := issueScalar (.smulhn f) f s false (scalarBin f true (highProduct false 64))
def execSand (f : VF) (s : State) : Result := issueScalar (.sand f) f s false (scalarBin f true (· &&& ·))
def execSor (f : VF) (s : State) : Result := issueScalar (.sor f) f s false (scalarBin f true (· ||| ·))
def execSxor (f : VF) (s : State) : Result := issueScalar (.sxor f) f s false (scalarBin f true (· ^^^ ·))
def execSandn (f : VF) (s : State) : Result := issueScalar (.sandn f) f s false (scalarBin f true fun a b => a &&& ~~~b)
def execSshl (f : VF) (s : State) : Result :=
  issueScalar (.sshl f) f s false (scalarBin f false fun a b => a <<< (b.toNat % 64))
def execSshr (f : VF) (s : State) : Result :=
  issueScalar (.sshr f) f s false (scalarBin f false fun a b => a >>> (b.toNat % 64))
def execSsra (f : VF) (s : State) : Result :=
  issueScalar (.ssra f) f s false (scalarBin f false fun a b => a.sshiftRight (b.toNat % 64))
def execSmin (f : VF) (s : State) : Result :=
  issueScalar (.smin f) f s false (scalarBin f false fun a b => if b.toInt < a.toInt then b else a)
def execSmax (f : VF) (s : State) : Result :=
  issueScalar (.smax f) f s false (scalarBin f false fun a b => if a.toInt < b.toInt then b else a)
def execSminn (f : VF) (s : State) : Result :=
  issueScalar (.sminn f) f s false (scalarBin f true fun a b => if b.toNat < a.toNat then b else a)
def execSmaxn (f : VF) (s : State) : Result :=
  issueScalar (.smaxn f) f s false (scalarBin f true fun a b => if a.toNat < b.toNat then b else a)

/-! ### Major 0x02 -/

/-- Position, length and mask of a field of `w` bits (09 R142, R146). -/
def fieldMask (w : Nat) (b c : DWord) : Nat × Nat × DWord :=
  let pos := b.toNat % w
  let len := min (c.toNat % (2 * w)) (w - pos)
  (pos, len, BitVec.ofNat 64 ((2 ^ len - 1) * 2 ^ pos))

def fieldExtract (w : Nat) (a b c : DWord) : DWord := let m := fieldMask w b c; (a &&& m.2.2) >>> m.1
def fieldInsert (w : Nat) (d a b c : DWord) : DWord := let m := fieldMask w b c; d &&& ~~~m.2.2 ||| (a <<< m.1) &&& m.2.2

def popCount (w : Nat) (x : DWord) : Nat := ((List.range w).filter fun i => x.getLsbD i).length
def leadingZeros (w : Nat) (x : DWord) : Nat := w - bitLen (x.toNat % 2 ^ w)
def bitReverse (w : Nat) (x : DWord) : DWord :=
  (List.range w).foldl (fun r i => if x.getLsbD i then r ||| laneBit (w - 1 - i) else r) 0

/-- A three-source scalar instruction. -/
def scalarTern (f : VF) (op : DWord → DWord → DWord → DWord) : ScalarFn := fun rd =>
  op (rd f.a.toNat) (scalarSrc rd f.bk f.b f.imm false) (scalarSrc rd f.ck f.c f.imm false)

def execSmov (f : VF) (s : State) : Result := issueScalar (.smov f) f s false fun rd => rd f.a.toNat
def execSli (f : VF) (s : State) : Result := issueScalar (.sli f) f s false fun _ => f.imm.signExtend 64
def execSlih (f : VF) (s : State) : Result :=
  issueScalar (.slih f) f s false fun rd => f.imm.zeroExtend 64 <<< 32 ||| rd f.d.toNat &&& 0xFFFFFFFF
def execSsel (f : VF) (s : State) : Result :=
  issueScalar (.ssel f) f s false (scalarTern f fun a b c => if a ≠ 0 then b else c)
def execSbfe (f : VF) (s : State) : Result := issueScalar (.sbfe f) f s false (scalarTern f (fieldExtract 64))
def execSbfi (f : VF) (s : State) : Result :=
  issueScalar (.sbfi f) f s false fun rd => scalarTern f (fieldInsert 64 (rd f.d.toNat)) rd
def execSpopc (f : VF) (s : State) : Result :=
  issueScalar (.spopc f) f s false fun rd => BitVec.ofNat 64 (popCount 64 (rd f.a.toNat))
def execSclz (f : VF) (s : State) : Result :=
  issueScalar (.sclz f) f s false fun rd => BitVec.ofNat 64 (leadingZeros 64 (rd f.a.toNat))
def execSbrev (f : VF) (s : State) : Result := issueScalar (.sbrev f) f s false fun rd => bitReverse 64 (rd f.a.toNat)

/-! ### Major 0x03 -/

/-- A comparison of `w`-bit values (09 R143, R147). -/
def condHolds (c : Cond) (w : Nat) (a b : DWord) : Bool :=
  let sa := asInt true w a
  let sb := asInt true w b
  let ua := asInt false w a
  let ub := asInt false w b
  match c with
  | .eq => ua == ub
  | .ne => ua != ub
  | .lt => sa < sb
  | .le => sa ≤ sb
  | .gt => sb < sa
  | .ge => sb ≤ sa
  | .ltn => ua < ub
  | .len => ua ≤ ub
  | .gtn => ub < ua
  | .gen => ub ≤ ua

def condUnsigned (c : Cond) : Bool := match c with | .ltn | .len | .gtn | .gen => true | _ => false

/-- Whether SCMP's condition holds. -/
def scmpHolds (cond : Cond) (f : VF) (rd : Nat → DWord) : Bool :=
  condHolds cond 64 (rd f.a.toNat) (scalarSrc rd f.bk f.b f.imm (condUnsigned cond))

def boolWord (b : Bool) : DWord := if b then 1 else 0

/-- SCMP: on the control core a D field with bit 5 set names a condition register. -/
def execScmp (cond : Cond) (f : VF) (s : State) : Result :=
  issueBoth (.scmp cond f) s
    (fun s g cur =>
      finishFixed s g cur (scalarEffect g f (guardSet g cur.active f.gk f.gn) fun rd => boolWord (scmpHolds cond f rd)))
    (fun s t cur =>
      let h := scmpHolds cond f (threadReg t)
      let t' :=
        if !threadGuard t f.gk f.gn then t
        else if f.d.getLsbD 5 then setCondReg t (f.d.toNat % 8) h
        else setThreadReg t f.d.toNat (boolWord h)
      doneThread s t' cur.pc (pcNext cur.pc))

/-! ### Major 0x04 -/

/-- Quotient and remainder at width `w` (09 R144, R148): a zero divisor gives all ones and `a`. -/
def quotient (signed : Bool) (w : Nat) (a b : DWord) : DWord :=
  let x := asInt signed w a
  let y := asInt signed w b
  if y = 0 then lowBits w (BitVec.allOnes 64) else lowBits w (BitVec.ofInt 64 (Int.tdiv x y))
def remainder (signed : Bool) (w : Nat) (a b : DWord) : DWord :=
  let x := asInt signed w a
  let y := asInt signed w b
  if y = 0 then lowBits w a else lowBits w (BitVec.ofInt 64 (Int.tmod x y))

def execSdiv (f : VF) (s : State) : Result := issueScalar (.sdiv f) f s true (scalarBin f false (quotient true 64))
def execSdivn (f : VF) (s : State) : Result := issueScalar (.sdivn f) f s true (scalarBin f true (quotient false 64))
def execSrem (f : VF) (s : State) : Result := issueScalar (.srem f) f s true (scalarBin f false (remainder true 64))
def execSremn (f : VF) (s : State) : Result := issueScalar (.sremn f) f s true (scalarBin f true (remainder false 64))

end Sys2Proof.Machine
end

