-- ==== Sys2Proof/Machine/VInt.lean ====
section
/-! DEFINITION. Vector integer instructions, majors 0x10 to 0x13 (09 R145 to R148). -/

namespace Sys2Proof.Machine

/-- An exact integer written in a type: wrapped, or clamped with SAT (09 R145, 07 R123). -/
def writeInt (t : Ty) (sat : Bool) (x : Int) : DWord × FlagSet :=
  if sat then let r := clampInt t x; (lowBits (bitsOf t) (BitVec.ofInt 64 r.1), flagIf r.2 flagSAT)
  else (lowBits (bitsOf t) (BitVec.ofInt 64 x), 0)

/-- A per-lane integer instruction of two sources with an exact result. -/
def intBin (g : Group) (f : VF) (lanes : DWord) (op : Int → Int → Int) : Effect :=
  perLaneTo g f f.ty lanes fun i => writeInt f.ty f.sat (op (typedInt f.ty (operandA g f f.ty i)) (typedInt f.ty (operandB g f f.ty i)))

/-- A per-lane instruction on bit patterns. -/
def bitBin (g : Group) (f : VF) (lanes : DWord) (op : DWord → DWord → DWord) : Effect :=
  perLaneTo g f f.ty lanes fun i =>
    (lowBits (bitsOf f.ty) (op (lowBits (bitsOf f.ty) (operandA g f f.ty i)) (lowBits (bitsOf f.ty) (operandB g f f.ty i))), 0)

/-- A per-lane shift: the amount is a 32-bit operand modulo the width. -/
def shiftBin (g : Group) (f : VF) (lanes : DWord) (op : DWord → Nat → DWord) : Effect :=
  perLaneTo g f f.ty lanes fun i =>
    (lowBits (bitsOf f.ty) (op (operandA g f f.ty i) ((wordB g f i).toNat % bitsOf f.ty)), 0)

def execVadd (f : VF) (s : State) : Result := issueFixed (.vadd f) f s fun g m => intBin g f m (· + ·)
def execVsub (f : VF) (s : State) : Result := issueFixed (.vsub f) f s fun g m => intBin g f m (· - ·)
def execVrsub (f : VF) (s : State) : Result := issueFixed (.vrsub f) f s fun g m => intBin g f m fun a b => b - a
def execVmul (f : VF) (s : State) : Result := issueFixed (.vmul f) f s fun g m => intBin g f m (· * ·)
def execVmulh (f : VF) (s : State) : Result :=
  issueFixed (.vmulh f) f s fun g m => bitBin g f m (highProduct true (bitsOf f.ty))
def execVmulhn (f : VF) (s : State) : Result :=
  issueFixed (.vmulhn f) f s fun g m => bitBin g f m (highProduct false (bitsOf f.ty))
def execVand (f : VF) (s : State) : Result := issueFixed (.vand f) f s fun g m => bitBin g f m (· &&& ·)
def execVor (f : VF) (s : State) : Result := issueFixed (.vor f) f s fun g m => bitBin g f m (· ||| ·)
def execVxor (f : VF) (s : State) : Result := issueFixed (.vxor f) f s fun g m => bitBin g f m (· ^^^ ·)
def execVandn (f : VF) (s : State) : Result := issueFixed (.vandn f) f s fun g m => bitBin g f m fun a b => a &&& ~~~b
def execVshl (f : VF) (s : State) : Result := issueFixed (.vshl f) f s fun g m => shiftBin g f m (· <<< ·)
def execVshr (f : VF) (s : State) : Result :=
  issueFixed (.vshr f) f s fun g m => shiftBin g f m fun a n => lowBits (bitsOf f.ty) a >>> n
def execVsra (f : VF) (s : State) : Result :=
  issueFixed (.vsra f) f s fun g m => shiftBin g f m fun a n => BitVec.ofInt 64 (asInt true (bitsOf f.ty) a / 2 ^ n)
def execVmin (f : VF) (s : State) : Result := issueFixed (.vmin f) f s fun g m => intBin g f m min
def execVmax (f : VF) (s : State) : Result := issueFixed (.vmax f) f s fun g m => intBin g f m max

/-- An unsigned result of a type, never sign-extended (09 R145). -/
def writesUnsigned (t : Ty) (d lane : Nat) (x : DWord) : List RegWrite :=
  if isWide t then writesOf t d lane x else [.vec lane d (BitVec.ofNat 32 (x.toNat % 2 ^ bitsOf t))]

def execVabsd (f : VF) (s : State) : Result :=
  issueFixed (.vabsd f) f s fun g m => perLane g m fun i =>
    let x := (typedInt f.ty (operandA g f f.ty i) - typedInt f.ty (operandB g f f.ty i)).natAbs
    (writesUnsigned f.ty f.d.toNat i (BitVec.ofNat 64 x), 0)

/-! ### Major 0x11 -/

def execVmad (f : VF) (s : State) : Result :=
  issueFixed (.vmad f) f s fun g m => perLaneTo g f f.ty m fun i =>
    writeInt f.ty f.sat (typedInt f.ty (operandA g f f.ty i) * typedInt f.ty (operandB g f f.ty i) + typedInt f.ty (operandC g f f.ty i))

def execVmov (f : VF) (s : State) : Result :=
  issueFixed (.vmov f) f s fun g m => perLaneTo g f f.ty m fun i => (operandB g f f.ty i, 0)

/-- VSEL copies bits unchanged; C names a mask register. -/
def execVsel (f : VF) (s : State) : Result :=
  issueFixed (.vsel f) f s fun g m => perLaneTo g f f.ty m fun i =>
    (if (kreg g f.c.toNat).getLsbD i then operandA g f f.ty i else operandB g f f.ty i, 0)

/-- VBFE sign-extends at i32 from the field's top bit. -/
def bitFieldExtract (t : Ty) (a b c : DWord) : DWord :=
  let x := fieldExtract 32 (lowBits 32 a) b c
  let len := (fieldMask 32 b c).2.1
  if t = .i32 then BitVec.ofInt 64 (if len = 0 then 0 else asInt true len x) else x

def execVbfe (f : VF) (s : State) : Result :=
  issueFixed (.vbfe f) f s fun g m => perLaneTo g f f.ty m fun i =>
    (bitFieldExtract f.ty (operandA g f f.ty i) (wordB g f i) (wordC g f i), 0)
def execVbfi (f : VF) (s : State) : Result :=
  issueFixed (.vbfi f) f s fun g m => perLaneTo g f f.ty m fun i =>
    (fieldInsert 32 ((vreg g i f.d.toNat).zeroExtend 64) (operandA g f f.ty i) (wordB g f i) (wordC g f i), 0)

/-- A count of a 32-bit or paired operand, written to one register. -/
def countBits (g : Group) (f : VF) (lanes : DWord) (h : Nat → DWord → Nat) : Effect :=
  perLane g lanes fun i => ([.vec i f.d.toNat (BitVec.ofNat 32 (h (bitsOf f.ty) (operandA g f f.ty i)))], 0)

def execVpopc (f : VF) (s : State) : Result := issueFixed (.vpopc f) f s fun g m => countBits g f m popCount
def execVclz (f : VF) (s : State) : Result := issueFixed (.vclz f) f s fun g m => countBits g f m leadingZeros
def execVbrev (f : VF) (s : State) : Result :=
  issueFixed (.vbrev f) f s fun g m => perLaneTo g f f.ty m fun i => (bitReverse (bitsOf f.ty) (operandA g f f.ty i), 0)

/-- The accumulator type of VDOT4, VDOT2 and VMADW. -/
def wordTy (t : Ty) : Ty := if isSigned t then .i32 else .n32
def dwordTy (t : Ty) : Ty := if isSigned t then .i64 else .n64

/-- Element `k` of a packed word, with AM applied at the width of the type. -/
def packedInt (t : Ty) (am : Am) (x : DWord) (k : Nat) : Int := typedInt t (applyAm t am (lowBits (bitsOf t) (x >>> (k * bitsOf t))))

def dotProduct (g : Group) (f : VF) (lanes : DWord) (n : Nat) : Effect :=
  perLaneTo g f (wordTy f.ty) lanes fun i =>
    let a := readReg g i f.a.toNat false
    let b := wordB g f i
    let sum := (List.range n).foldl (fun (x : Int) k => x + packedInt f.ty f.am a k * packedInt f.ty .none b k) 0
    writeInt (wordTy f.ty) f.sat (sum + typedInt (wordTy f.ty) (wordC g f i))

def execVdot4 (f : VF) (s : State) : Result := issueFixed (.vdot4 f) f s fun g m => dotProduct g f m 4
def execVdot2 (f : VF) (s : State) : Result := issueFixed (.vdot2 f) f s fun g m => dotProduct g f m 2

/-- The 64-bit addend of VMADW: a pair, a whole scalar, or an immediate extended by the type's signedness. -/
def wideC (g : Group) (f : VF) (lane : Nat) : DWord :=
  match f.ck with
  | .vec => readReg g lane f.c.toNat true
  | .scalar => sreg g f.c.toNat
  | _ => if isSigned f.ty then f.imm.signExtend 64 else f.imm.zeroExtend 64

def execVmadw (f : VF) (s : State) : Result :=
  issueFixed (.vmadw f) f s fun g m => perLaneTo g f (dwordTy f.ty) m fun i =>
    writeInt (dwordTy f.ty) f.sat
      (typedInt f.ty (operandA g f f.ty i) * typedInt f.ty (wordB g f i) + typedInt (dwordTy f.ty) (wideC g f i))

/-! ### Majors 0x12 and 0x13 -/

/-- The mask bits of a comparison. -/
def maskEffect (g : Group) (f : VF) (lanes : DWord) (h : Nat → Bool × FlagSet) : Effect :=
  perLane g lanes fun i => let r := h i; ([.mask f.d.toNat i r.1], r.2)

def execVicmp (cond : Cond) (f : VF) (s : State) : Result :=
  issueFixed (.vicmp cond f) f s fun g m => maskEffect g f m fun i =>
    (condHolds cond (bitsOf f.ty) (operandA g f f.ty i) (operandB g f f.ty i), 0)

def execVdiv (f : VF) (s : State) : Result := issueVar (.vdiv f) f s fun g m => bitBin g f m (quotient true (bitsOf f.ty))
def execVdivn (f : VF) (s : State) : Result := issueVar (.vdivn f) f s fun g m => bitBin g f m (quotient false (bitsOf f.ty))
def execVrem (f : VF) (s : State) : Result := issueVar (.vrem f) f s fun g m => bitBin g f m (remainder true (bitsOf f.ty))
def execVremn (f : VF) (s : State) : Result := issueVar (.vremn f) f s fun g m => bitBin g f m (remainder false (bitsOf f.ty))

end Sys2Proof.Machine
end

