-- ==== Sys2Proof/Machine/VFloat.lean ====
section
/-! DEFINITION. Floating-point instructions, majors 0x20, 0x21, 0x23 and 0x24 (09 R149 to R151, R153 to R155). -/

namespace Sys2Proof.Machine

/-! ### Operands (07 R126) -/

def flushOf (g : Group) (t : Ty) : Bool := flushes g.fmode t
def floatA (g : Group) (f : VF) (lane : Nat) : FV := readFloat f.ty (flushOf g f.ty) (operandA g f f.ty lane)
def floatB (g : Group) (f : VF) (lane : Nat) : FV := readFloat f.ty (flushOf g f.ty) (operandB g f f.ty lane)
def floatC (g : Group) (f : VF) (lane : Nat) : FV := readFloat f.ty (flushOf g f.ty) (operandC g f f.ty lane)

/-- A per-lane floating-point result of the operand values. -/
def floatEffect (g : Group) (f : VF) (lanes : DWord) (h : Nat → Bool → DWord × FlagSet) : Effect :=
  perLaneTo g f f.ty lanes fun i => h i (flushOf g f.ty)

/-- The fused members: `negP` negates the product, `negC` the addend. -/
def fusedEffect (g : Group) (f : VF) (lanes : DWord) (negP negC : Bool) : Effect :=
  floatEffect g f lanes fun i fl =>
    let c := floatC g f i
    fmaV f.ty f.rm f.sat fl negP (floatA g f i) (floatB g f i) (if negC then negFV c else c)

/-- The members that choose an operand's bits, after AM and flushing (09 R150). -/
def chooseEffect (g : Group) (f : VF) (lanes : DWord) (h : DWord → DWord → DWord × FlagSet) : Effect :=
  floatEffect g f lanes fun i fl =>
    h (flushBits f.ty fl (operandA g f f.ty i)) (flushBits f.ty fl (operandB g f f.ty i))

def execVfadd (f : VF) (s : State) : Result :=
  issueFixed (.vfadd f) f s fun g m => floatEffect g f m fun i fl => faddV f.ty f.rm f.sat fl (floatA g f i) (floatB g f i)
def execVfsub (f : VF) (s : State) : Result :=
  issueFixed (.vfsub f) f s fun g m => floatEffect g f m fun i fl => faddV f.ty f.rm f.sat fl (floatA g f i) (negFV (floatB g f i))
def execVfmul (f : VF) (s : State) : Result :=
  issueFixed (.vfmul f) f s fun g m => floatEffect g f m fun i fl => fmulV f.ty f.rm f.sat fl (floatA g f i) (floatB g f i)
def execVfma (f : VF) (s : State) : Result := issueFixed (.vfma f) f s fun g m => fusedEffect g f m false false
def execVfms (f : VF) (s : State) : Result := issueFixed (.vfms f) f s fun g m => fusedEffect g f m false true
def execVfnma (f : VF) (s : State) : Result := issueFixed (.vfnma f) f s fun g m => fusedEffect g f m true false
def execVfnms (f : VF) (s : State) : Result := issueFixed (.vfnms f) f s fun g m => fusedEffect g f m true true
def execVfmin (f : VF) (s : State) : Result := issueFixed (.vfmin f) f s fun g m => chooseEffect g f m (minMaxBits f.ty false)
def execVfmax (f : VF) (s : State) : Result := issueFixed (.vfmax f) f s fun g m => chooseEffect g f m (minMaxBits f.ty true)
def execVfminn (f : VF) (s : State) : Result :=
  issueFixed (.vfminn f) f s fun g m => chooseEffect g f m (minMaxNumBits f.ty false)
def execVfmaxn (f : VF) (s : State) : Result :=
  issueFixed (.vfmaxn f) f s fun g m => chooseEffect g f m (minMaxNumBits f.ty true)

/-- `a` with the sign bit of `b`; a NaN in `a` keeps its payload (09 R150). -/
def copySign (t : Ty) (a b : DWord) : DWord × FlagSet :=
  let sign := BitVec.ofNat 64 (2 ^ (bitsOf t - 1))
  (a &&& ~~~sign ||| b &&& sign, flagIf (anySNaN [decodeFloat t a, decodeFloat t b]) flagNV)

def execVfcpys (f : VF) (s : State) : Result := issueFixed (.vfcpys f) f s fun g m => chooseEffect g f m (copySign f.ty)

/-! ### Major 0x21 -/

/-- A comparison and its NV bit (09 R151). -/
def fcondHolds (c : FCond) (x y : FV) : Bool × FlagSet :=
  let o := cmpFV x y
  let quietNV := match c with | .lt | .le | .gt | .ge => true | _ => false
  let b := match c with
    | .eq => o == some .eq
    | .ne => o != some .eq
    | .lt => o == some .lt
    | .le => o == some .lt || o == some .eq
    | .gt => o == some .gt
    | .ge => o == some .gt || o == some .eq
    | .uno => o.isNone
    | .ord => o.isSome
  (b, flagIf (anySNaN [x, y] || (quietNV && o.isNone)) flagNV)

def execVfcmp (cond : FCond) (f : VF) (s : State) : Result :=
  issueFixed (.vfcmp cond f) f s fun g m => maskEffect g f m fun i => fcondHolds cond (floatA g f i) (floatB g f i)

/-! ### Major 0x23 -/

def execVfdiv (f : VF) (s : State) : Result :=
  issueVar (.vfdiv f) f s fun g m => floatEffect g f m fun i fl => fdivV f.ty f.rm f.sat fl (floatA g f i) (floatB g f i)
def execVfsqrtc (f : VF) (s : State) : Result :=
  issueVar (.vfsqrtc f) f s fun g m => floatEffect g f m fun i fl => fsqrtV f.ty f.rm fl (floatA g f i)

/-! ### Major 0x24 -/

/-- The source of a conversion, in its own type's layout, AM applied (09 R154). -/
def cvtOperand (g : Group) (f : VF) (lane : Nat) : DWord := operandA g f (cvtSrc f) lane
def cvtFloat (g : Group) (f : VF) (lane : Nat) : FV :=
  readFloat (cvtSrc f) (flushOf g (cvtSrc f)) (cvtOperand g f lane)

/-- The conversion of a NaN (07 R129). -/
def cvtNaN (dst : Ty) (signalling : Bool) : DWord × FlagSet :=
  (canonicalNaN dst, match dst with
    | .e2m1 => flagNV
    | .e4m3 | .e5m2 => 0
    | _ => flagIf signalling flagNV)

/-- A float converted to a float type (07 R129). -/
def cvtFV (dst : Ty) (rm : Rm) (sat flush : Bool) (v : FV) : DWord × FlagSet :=
  match v with
  | .nan sg => cvtNaN dst sg
  | v => roundFV dst rm sat flush v

def execVfcvt (f : VF) (s : State) : Result :=
  issueFixed (.vfcvt f) f s fun g m => perLaneTo g f f.ty m fun i => cvtFV f.ty f.rm f.sat (flushOf g f.ty) (cvtFloat g f i)
def execVftoi (f : VF) (s : State) : Result :=
  issueFixed (.vftoi f) f s fun g m => perLaneTo g f f.ty m fun i =>
    let r := ftoi f.ty f.rm (cvtFloat g f i)
    (lowBits (bitsOf f.ty) (BitVec.ofInt 64 r.1), r.2)
def execVitof (f : VF) (s : State) : Result :=
  issueFixed (.vitof f) f s fun g m => perLaneTo g f f.ty m fun i =>
    roundFV f.ty f.rm f.sat (flushOf g f.ty) (intFV (typedInt (cvtSrc f) (cvtOperand g f i)))

/-- VFRINT: an integral value of the type; a zero keeps the sign of `a`. -/
def roundIntegral (t : Ty) (rm : Rm) (v : FV) : DWord × FlagSet :=
  match v with
  | .nan sg => (canonicalNaN t, flagIf sg flagNV)
  | .inf neg => (infinityOf t neg, 0)
  | .fin neg m e =>
    let n := roundAt rm neg m e 0
    ((roundFinite t .rne false false neg n 0).1, 0)

def execVfrint (f : VF) (s : State) : Result :=
  issueFixed (.vfrint f) f s fun g m => floatEffect g f m fun i _ => roundIntegral f.ty f.rm (floatA g f i)

/-- The class bit of a value (09 R155). -/
def classMask (t : Ty) (x : DWord) : Nat :=
  match decodeFloat t x with
  | .nan true => 2 ^ 8
  | .nan false => 2 ^ 9
  | .inf neg => if neg then 2 ^ 0 else 2 ^ 7
  | .fin neg m _ =>
    if m = 0 then if neg then 2 ^ 3 else 2 ^ 4
    else if isSubnormal t x then if neg then 2 ^ 2 else 2 ^ 5
    else if neg then 2 ^ 1 else 2 ^ 6

/-- A per-lane result in one register, of an operand that is not flushed. -/
def inspectEffect (g : Group) (f : VF) (lanes : DWord) (h : DWord → Word) : Effect :=
  perLane g lanes fun i =>
    let a := operandA g f f.ty i
    ([.vec i f.d.toNat (h a)], flagIf (isSNaN (decodeFloat f.ty a)) flagNV)

def execVfclass (f : VF) (s : State) : Result :=
  issueFixed (.vfclass f) f s fun g m => inspectEffect g f m fun a => BitVec.ofNat 32 (classMask f.ty a)

/-- floor(log2 |a|) (09 R155). -/
def exponentOf (t : Ty) (x : DWord) : Word :=
  match decodeFloat t x with
  | .fin _ m e => if m = 0 then 0x80000000 else BitVec.ofInt 32 ((bitLen m : Int) - 1 + e)
  | _ => 0x7FFFFFFF

def execVfgetx (f : VF) (s : State) : Result := issueFixed (.vfgetx f) f s fun g m => inspectEffect g f m (exponentOf f.ty)

/-- a · 2^b; beyond ±4096 the power no longer changes the rounded result. SAT limits an infinity as well (07 R123 over 09
R155): DEDUCED (log entry 120). -/
def scaleByPower (t : Ty) (rm : Rm) (sat flush : Bool) (v : FV) (b : Int) : DWord × FlagSet :=
  match v with
  | .nan sg => (canonicalNaN t, flagIf sg flagNV)
  | .inf neg => roundFV t rm sat flush (.inf neg)
  | .fin neg m e => roundFinite t rm sat flush neg m (e + max (-4096) (min 4096 b))

def execVfldx (f : VF) (s : State) : Result :=
  issueFixed (.vfldx f) f s fun g m => floatEffect g f m fun i fl =>
    scaleByPower f.ty f.rm f.sat fl (floatA g f i) (asInt true 32 (wordB g f i))

end Sys2Proof.Machine
end

