-- ==== Sys2Proof/Machine/Sfu.lean ====
section
/-! DEFINITION. The special-function members of major 0x22 (09 R152). Each result is exact where the spec makes it so;
elsewhere it is one of the codes within the architected bound of the exact function, which of them being a fixed
function of member, type and input that nothing constrains (log entry 9). The exact function is enclosed by integer
arithmetic. -/

namespace Sys2Proof.Machine

/-- |y| lies in [lo, hi] · 2^q. -/
structure Enclosure where
  neg : Bool
  lo : Nat
  hi : Nat
  q : Int
  deriving DecidableEq, Repr

/-! ### Codes in order -/

/-- The code of a magnitude, rounded down or up, no larger than `cap`. -/
def magCode (t : Ty) (up : Bool) (cap m : Nat) (e : Int) : Nat :=
  if m = 0 then 0
  else
    let F := fmtOf t
    let q := max (e + (bitLen m : Int) - (F.mb + 1 : Nat)) F.qmin
    min cap (packCode F (roundAt (if up then .rup else .rtz) false m e q) q)

/-- The least code, as a signed magnitude, not below `x * 2^e`. -/
def ceilKey (t : Ty) (cap : Nat) (x e : Int) : Int :=
  if 0 ≤ x then magCode t true cap x.natAbs e else -(magCode t false cap x.natAbs e : Int)
/-- The greatest code not above `x * 2^e`. -/
def floorKey (t : Ty) (cap : Nat) (x e : Int) : Int :=
  if 0 ≤ x then magCode t false cap x.natAbs e else -(magCode t true cap x.natAbs e : Int)

def codeOfKey (t : Ty) (k : Int) : DWord := BitVec.ofNat 64 (k.natAbs + signBitOf t (decide (k < 0)))

/-- The bound of a result: a number of ulps of the exact result's binade, or an absolute power of two. -/
inductive Bound where
  | ulps (n : Nat)
  | absolute (e : Int)
  deriving DecidableEq, Repr

/-- The codes within the bound of an enclosed value, least and greatest. -/
def keysWithin (t : Ty) (b : Bound) (cap : Nat) (y : Enclosure) : Int × Int :=
  let F := fmtOf t
  let u : Int := match b with
    | .absolute e => e
    | .ulps _ => max ((bitLen y.lo : Int) - 1 + y.q - F.mb) F.qmin
  let n : Nat := match b with | .absolute _ => 1 | .ulps n => n
  let s := min y.q u
  let tol : Int := (n <<< (u - s).toNat : Nat)
  let lo : Int := (y.lo <<< (y.q - s).toNat : Nat) - tol
  let hi : Int := (y.hi <<< (y.q - s).toNat : Nat) + tol
  if y.neg then (ceilKey t cap (-hi) s, floorKey t cap (-lo) s) else (ceilKey t cap lo s, floorKey t cap hi s)

/-- One of the codes from `lo` to `hi`. -/
def pickKey (t : Ty) (fn : Nat) (x : DWord) (lo hi : Int) : DWord :=
  codeOfKey t (lo + ((Config.sfuPick fn t x % ((hi - lo).toNat + 1) : Nat) : Int))

/-! ### Constants and series in fixed point -/

/-- Fraction bits of the fixed-point numbers below. -/
def fixBits : Nat := 160
def fixOne : Nat := 2 ^ fixBits
/-- More than the rounding of any series below adds up to, in units of the last place. -/
def fixErr : Nat := 2 ^ 12

/-- atanh(n/d) from the term z^(2k+1). -/
def atanhSeries (n d : Nat) : Nat → Nat → Nat → Nat
  | 0, _, _ => 0
  | fuel + 1, k, term => term / (2 * k + 1) + atanhSeries n d fuel (k + 1) (term * n * n / (d * d))
def atanhFix (n d : Nat) : Nat := atanhSeries n d 100 0 (fixOne * n / d)

def ln2Fix : Nat := 2 * atanhFix 1 3

/-- atan(1/d), alternating. -/
def atanSeries (d : Nat) : Nat → Nat → Nat → Int
  | 0, _, _ => 0
  | fuel + 1, k, term => ((term / (2 * k + 1) : Nat) : Int) - atanSeries d fuel (k + 1) (term / (d * d))
/-- π by Machin's formula. -/
def piFix : Nat := (16 * atanSeries 5 60 0 (fixOne / 5) - 4 * atanSeries 239 60 0 (fixOne / 239)).toNat

def expSeries (x : Nat) : Nat → Nat → Nat → Nat
  | 0, _, _ => 0
  | fuel + 1, k, term => term + expSeries x fuel (k + 1) (term * x / fixOne / (k + 1))
/-- 2^r for r in [0, 1). -/
def exp2Fix (r : Nat) : Nat := expSeries (r * ln2Fix / fixOne) 45 0 fixOne

/-- sin x for x in [0, π/2]. -/
def sinSeries (x : Nat) : Nat → Nat → Nat → Int
  | 0, _, _ => 0
  | fuel + 1, k, term => (term : Int) - sinSeries x fuel (k + 2) (term * x / fixOne * x / fixOne / ((k + 1) * (k + 2)))
def sinFix (x : Nat) : Nat := (sinSeries x 30 1 x).toNat

/-- A fixed-point value with its error. -/
def around (neg : Bool) (x : Nat) (q : Int) : Enclosure := ⟨neg, x - fixErr, x + fixErr, q⟩

/-- m · 2^e in fixed point, rounded down. -/
def toFix (m : Nat) (e : Int) : Nat :=
  let k := e + fixBits
  if 0 ≤ k then m <<< k.toNat else m >>> (-k).toNat

/-! ### The functions -/

def isPow2 (m : Nat) : Bool := m != 0 && 2 ^ (bitLen m - 1) == m

def rcpEncl (neg : Bool) (m : Nat) (e : Int) : Enclosure :=
  let k := 128 + bitLen m
  let n := 2 ^ k / m
  ⟨neg, n, n + 1, -e - k⟩

def rsqEncl (m : Nat) (e : Int) : Enclosure :=
  let m' := if e % 2 = 0 then m else 2 * m
  let e' := if e % 2 = 0 then e else e - 1
  let k := 128 + bitLen m'
  let n := isqrt (2 ^ (2 * k) / m')
  ⟨false, n - 1, n + 2, -(e' / 2) - k⟩

def sqrtEncl (m : Nat) (e : Int) : Enclosure := let r := sqrtMag m e; ⟨false, r.1, r.1 + 1, r.2⟩

def exp2Encl (neg : Bool) (m : Nat) (e : Int) : Enclosure :=
  let a : Int := if neg then -(toFix m e : Int) else toFix m e
  let k := a / fixOne
  around false (exp2Fix (a - k * fixOne).toNat) (k - fixBits)

def log2Encl (m : Nat) (e : Int) : Enclosure :=
  let b := bitLen m - 1
  let x := 2 * atanhFix (m - 2 ^ b) (m + 2 ^ b) * fixOne / ln2Fix
  let y : Int := ((b : Int) + e) * fixOne + x
  around (decide (y < 0)) y.natAbs (-(fixBits : Int))

/-- sin(π·a) for a in turns of 2, in fixed point. -/
def sinpEncl (neg : Bool) (a : Nat) : Enclosure :=
  let t := a % (2 * fixOne)
  let half := fixOne ≤ t
  let t := if half then t - fixOne else t
  let t := if fixOne / 2 < t then fixOne - t else t
  around (neg != half) (sinFix (t * piFix / fixOne)) (-(fixBits : Int))

/-- tanh a: of a small argument by its first two terms, of a large one by its limit. -/
def tanhEncl (neg : Bool) (m : Nat) (e : Int) : Enclosure :=
  let mag := (bitLen m : Int) + e
  if mag < -30 then ⟨neg, m <<< 64 - m <<< 6, m <<< 64, e - 64⟩
  else if 6 < mag then ⟨neg, fixOne - 2, fixOne, -(fixBits : Int)⟩
  else
    let x : Int := -(2 * (toFix m e * fixOne / ln2Fix) : Nat)
    let k := x / fixOne
    let u := exp2Fix (x - k * fixOne).toNat >>> (-k).toNat
    around neg ((fixOne - u) * fixOne / (fixOne + u)) (-(fixBits : Int))

/-! ### Results -/

/-- An exact result: its code, with no flag of rounding. -/
def sfuExact (t : Ty) (neg : Bool) (m : Nat) (e : Int) : DWord := (roundFinite t .rne false false neg m e).1

/-- Whether a finite value is representable in a format. -/
def exactIn (t : Ty) (m : Nat) (e : Int) : Bool :=
  match decodeFloat t (sfuExact t false m e) with
  | .fin _ n f => cmpMag m e n f == .eq
  | _ => false

def ulpBound (t : Ty) (n : Nat) : Bound := if t = .f16 then .ulps 1 else .ulps n
def absBound (t : Ty) : Bound := if t = .f16 then .absolute (-11) else .absolute (-22)

/-- A result within its bound; a value beyond the largest finite one, for which no member but VFEXP2 states a result,
is the largest or the infinity. -/
def sfuWithin (t : Ty) (fn : Nat) (x : DWord) (b : Bound) (y : Enclosure) : DWord :=
  let mx := maxSig t
  if cmpMag y.lo y.q mx.1 mx.2 == .gt then
    let hi : Int := infCode t
    if y.neg then pickKey t fn x (-hi) (1 - hi) else pickKey t fn x (hi - 1) hi
  else
    let k := keysWithin t b (maxCode t) y
    pickKey t fn x k.1 k.2

def nanResult (t : Ty) (nv : Bool) : DWord × FlagSet := (canonicalNaN t, flagIf nv flagNV)

def sfuRcp (t : Ty) (x : DWord) (v : FV) : DWord :=
  match v with
  | .nan _ => canonicalNaN t
  | .inf neg => zeroOf t neg
  | .fin neg m e =>
    if m = 0 then infinityOf t neg
    else if isPow2 m && exactIn t 1 (-(e + (bitLen m - 1 : Nat))) then sfuExact t neg 1 (-(e + (bitLen m - 1 : Nat)))
    else sfuWithin t 0 x (ulpBound t 1) (rcpEncl neg m e)

def sfuRsq (t : Ty) (x : DWord) (v : FV) : DWord × FlagSet :=
  match v with
  | .nan _ => nanResult t false
  | .inf neg => if neg then nanResult t true else (0, 0)
  | .fin neg m e =>
    if m = 0 then (infinityOf t neg, 0)
    else if neg then nanResult t true
    else
      let p := e + (bitLen m - 1 : Nat)
      if isPow2 m && p % 2 == 0 then (sfuExact t false 1 (-(p / 2)), 0)
      else (sfuWithin t 1 x (ulpBound t 1) (rsqEncl m e), 0)

def sfuSqrt (t : Ty) (x : DWord) (v : FV) : DWord × FlagSet :=
  match v with
  | .nan _ => nanResult t false
  | .inf neg => if neg then nanResult t true else (infinityOf t false, 0)
  | .fin neg m e =>
    if m = 0 then (zeroOf t neg, 0)
    else if neg then nanResult t true
    else
      let m' := if e % 2 = 0 then m else 2 * m
      let r := isqrt m'
      if r * r = m' then (sfuExact t false r ((if e % 2 = 0 then e else e - 1) / 2), 0)
      else (sfuWithin t 2 x (ulpBound t 2) (sqrtEncl m e), 0)

/-- Whether m · 2^e is an integer. -/
def isIntegral (m : Nat) (e : Int) : Bool := 0 ≤ e || m % 2 ^ (-e).toNat == 0

/-- VFEXP2 of a finite value; beyond ±2^10 the power lies outside every format. -/
def exp2Finite (t : Ty) (x : DWord) (neg : Bool) (m : Nat) (e : Int) : DWord × FlagSet :=
  if m = 0 then (sfuExact t false 1 0, 0)
  else if 10 < (bitLen m : Int) + e then
    if neg then (sfuWithin t 3 x (ulpBound t 2) ⟨false, 0, 1, -512⟩, 0) else (infinityOf t false, flagOF)
  else
    let n : Int := if neg then -(m <<< e.toNat >>> (-e).toNat : Nat) else (m <<< e.toNat >>> (-e).toNat : Nat)
    let mx := maxSig t
    if isIntegral m e then
      if cmpMag 1 n mx.1 mx.2 == .gt then (infinityOf t false, flagOF)
      else if exactIn t 1 n then (sfuExact t false 1 n, 0)
      else (sfuWithin t 3 x (ulpBound t 2) ⟨false, 1, 1, n⟩, 0)
    else
      let y := exp2Encl neg m e
      if cmpMag y.lo y.q mx.1 mx.2 == .gt then (infinityOf t false, flagOF)
      else (sfuWithin t 3 x (ulpBound t 2) y, 0)

def sfuExp2 (t : Ty) (x : DWord) (v : FV) : DWord × FlagSet :=
  match v with
  | .nan _ => nanResult t false
  | .inf neg => (if neg then 0 else infinityOf t false, 0)
  | .fin neg m e => exp2Finite t x neg m e

def sfuLog2 (t : Ty) (x : DWord) (v : FV) : DWord × FlagSet :=
  match v with
  | .nan _ => nanResult t false
  | .inf neg => if neg then nanResult t true else (infinityOf t false, 0)
  | .fin neg m e =>
    if m = 0 then (infinityOf t true, 0)
    else if neg then nanResult t true
    else
      let p := e + (bitLen m - 1 : Nat)
      if isPow2 m then (sfuExact t (decide (p < 0)) p.natAbs 0, 0)
      else
        let near := cmpMag m e 1 (-1) != .lt && cmpMag m e 1 1 != .gt
        (sfuWithin t 4 x (if near then absBound t else ulpBound t 2) (log2Encl m e), 0)

def sfuSinp (t : Ty) (x : DWord) (v : FV) : DWord × FlagSet :=
  match v with
  | .nan _ => nanResult t false
  | .inf _ => nanResult t true
  | .fin neg m e =>
    if isIntegral m e then (zeroOf t neg, 0)
    else
      let a := toFix m e % (2 * fixOne)
      let turn := if neg then 2 * fixOne - a else a
      if isIntegral (2 * m) e && turn == fixOne / 2 then (sfuExact t false 1 0, 0)
      else (sfuWithin t 5 x (absBound t) (sinpEncl neg (toFix m e)), 0)

def sfuCosp (t : Ty) (x : DWord) (v : FV) : DWord × FlagSet :=
  match v with
  | .nan _ => nanResult t false
  | .inf _ => nanResult t true
  | .fin _ m e =>
    if isIntegral m e then
      if isIntegral m (e - 1) then (sfuExact t false 1 0, 0)
      else (sfuWithin t 6 x (absBound t) ⟨true, fixOne, fixOne, -(fixBits : Int)⟩, 0)
    else if isIntegral (2 * m) e then (0, 0)
    else (sfuWithin t 6 x (absBound t) (sinpEncl false (toFix m e + fixOne / 2)), 0)

def sfuTanh (t : Ty) (x : DWord) (v : FV) : DWord :=
  match v with
  | .nan _ => canonicalNaN t
  | .inf neg => sfuExact t neg 1 0
  | .fin neg m e =>
    if m = 0 then zeroOf t neg
    else
      let k := keysWithin t (ulpBound t 2) (sfuExact t false 1 0).toNat (tanhEncl neg m e)
      pickKey t 7 x k.1 k.2

/-- Flushing of a tiny result (07 R126), and UF where the member sets it: when the result is nonzero and below the
smallest normal. DESIGN CHOICE (log entry 102): the result is the picked code, so a pick of zero raises no UF and a
flushed pick keeps its own sign. DEDUCED (log entry 103): under a flush bit every member sets UF (07 R126 over 09
R152). -/
def sfuFinish (t : Ty) (flush uf : Bool) (r : DWord × FlagSet) : DWord × FlagSet :=
  if isSubnormal t r.1 then (flushBits t flush r.1, r.2 ||| flagIf (uf || flush) flagUF) else r

/-- A member on one lane: NaN inputs as R152 states, operands flushed. -/
def sfuEffect (g : Group) (f : VF) (lanes : DWord) (uf : Bool) (h : Ty → DWord → FV → DWord × FlagSet) : Effect :=
  floatEffect g f lanes fun i fl =>
    let x := flushBits f.ty fl (lowBits (bitsOf f.ty) (operandA g f f.ty i))
    let v := decodeFloat f.ty x
    let r := sfuFinish f.ty fl uf (h f.ty x v)
    (r.1, r.2 ||| flagIf (isSNaN v) flagNV)

def execVfrcp (f : VF) (s : State) : Result :=
  issueVar (.vfrcp f) f s fun g m => sfuEffect g f m true fun t x v => (sfuRcp t x v, 0)
def execVfrsq (f : VF) (s : State) : Result := issueVar (.vfrsq f) f s fun g m => sfuEffect g f m false sfuRsq
def execVfsqrt (f : VF) (s : State) : Result := issueVar (.vfsqrt f) f s fun g m => sfuEffect g f m false sfuSqrt
def execVfexp2 (f : VF) (s : State) : Result := issueVar (.vfexp2 f) f s fun g m => sfuEffect g f m true sfuExp2
def execVflog2 (f : VF) (s : State) : Result := issueVar (.vflog2 f) f s fun g m => sfuEffect g f m false sfuLog2
def execVfsinp (f : VF) (s : State) : Result := issueVar (.vfsinp f) f s fun g m => sfuEffect g f m false sfuSinp
def execVfcosp (f : VF) (s : State) : Result := issueVar (.vfcosp f) f s fun g m => sfuEffect g f m false sfuCosp
def execVftanh (f : VF) (s : State) : Result :=
  issueVar (.vftanh f) f s fun g m => sfuEffect g f m false fun t x v => (sfuTanh t x v, 0)

end Sys2Proof.Machine
end

