-- ==== Sys2Proof/Machine/Packed.lean ====
section
/-! DEFINITION. Packed narrow instructions, majors 0x30 to 0x32 (07 R128; 09 R156 to R158). -/

namespace Sys2Proof.Machine

/-! ### Sub-elements (07 R128) -/

def subCount (t : Ty) : Nat := 32 / bitsOf t
def subElem (t : Ty) (x : DWord) (k : Nat) : DWord := lowBits (bitsOf t) (x >>> (k * bitsOf t))

/-- Sub-element results put together, with the union of their flags. -/
def joinSubs (t : Ty) (l : List (DWord × FlagSet)) : DWord × FlagSet :=
  (l.foldr (fun r acc => (acc <<< bitsOf t) ||| lowBits (bitsOf t) r.1) 0, flagUnion (l.map (·.2)))

/-- NaN inputs of the packed majors are treated as quiet. -/
def quiet (v : FV) : FV := match v with | .nan _ => .nan false | v => v
def packedFV (t : Ty) (flush : Bool) (x : DWord) : FV := quiet (readFloat t flush x)

/-- The packed lane that B or C supplies: 32 bits of a vector register; R85's bits of a scalar or an immediate, which
are the low 16 at f16 and bf16 (09 R156, 05 R85; log entry 17). -/
def packedOperand (g : Group) (f : VF) (k : Kind) (field : BitVec 8) (lane : Nat) : DWord :=
  let x := operandOf g .b32 k field f.imm lane
  if k = .vec ∨ bitsOf f.ty < 16 then x else lowBits 16 x

/-- A packed instruction: sub-element by sub-element. -/
def packedEffect (g : Group) (f : VF) (lanes : DWord) (h : Bool → DWord → DWord → DWord → DWord × FlagSet) : Effect :=
  perLane g lanes fun i =>
    let a := readReg g i f.a.toNat false
    let b := packedOperand g f f.bk f.b i
    let c := packedOperand g f f.ck f.c i
    let r := joinSubs f.ty ((List.range (subCount f.ty)).map fun k =>
      h (flushOf g f.ty) (applyAm f.ty f.am (subElem f.ty a k)) (subElem f.ty b k) (subElem f.ty c k))
    ([.vec i f.d.toNat (r.1.extractLsb' 0 32)], r.2)

/-- A packed instruction with a rounded result of the operand values. -/
def packedFloat (g : Group) (f : VF) (lanes : DWord) (h : Bool → FV → FV → FV → DWord × FlagSet) : Effect :=
  packedEffect g f lanes fun fl a b c => h fl (packedFV f.ty fl a) (packedFV f.ty fl b) (packedFV f.ty fl c)

def execVpadd (f : VF) (s : State) : Result :=
  issueFixed (.vpadd f) f s fun g m => packedFloat g f m fun fl a b _ => faddV f.ty f.rm f.sat fl a b
def execVpsub (f : VF) (s : State) : Result :=
  issueFixed (.vpsub f) f s fun g m => packedFloat g f m fun fl a b _ => faddV f.ty f.rm f.sat fl a (negFV b)
def execVpmul (f : VF) (s : State) : Result :=
  issueFixed (.vpmul f) f s fun g m => packedFloat g f m fun fl a b _ => fmulV f.ty f.rm f.sat fl a b
/-- 0 · ∞ sets NV beside a NaN c too (DEDUCED, log entry 105). -/
def execVpfma (f : VF) (s : State) : Result :=
  issueFixed (.vpfma f) f s fun g m => packedFloat g f m fun fl a b c => fmaV f.ty f.rm f.sat fl false a b c

/-- Minimum or maximum of two sub-elements; a NaN gives the canonical NaN and no NV. -/
def packedMinMax (t : Ty) (max fl : Bool) (a b : DWord) : DWord × FlagSet :=
  ((minMaxBits t max (flushBits t fl a) (flushBits t fl b)).1, 0)

def execVpmin (f : VF) (s : State) : Result :=
  issueFixed (.vpmin f) f s fun g m => packedEffect g f m fun fl a b _ => packedMinMax f.ty false fl a b
def execVpmax (f : VF) (s : State) : Result :=
  issueFixed (.vpmax f) f s fun g m => packedEffect g f m fun fl a b _ => packedMinMax f.ty true fl a b

/-! ### Packing (09 R157) -/

/-- cvt of one 32-bit source: from f32 for a float type, from i32 or n32 for an integer type. -/
def packCvt (g : Group) (f : VF) (x : DWord) : DWord × FlagSet :=
  if isFloat f.ty then
    match readFloat .f32 (flushOf g .f32) x with
    | .nan _ => (canonicalNaN f.ty, 0)
    | v => roundFV f.ty f.rm f.sat (flushOf g f.ty) v
  else writeInt f.ty f.sat (typedInt (wordTy f.ty) x)

/-- widen of one sub-element: exact to f32, or extended to 32 bits. -/
def widen (g : Group) (t : Ty) (x : DWord) : Word :=
  if isFloat t then ((roundFV .f32 .rne false (flushOf g .f32) (packedFV t (flushOf g t) x)).1).extractLsb' 0 32
  else placeWord t x

def execVpack2 (f : VF) (s : State) : Result :=
  issueFixed (.vpack2 f) f s fun g m => perLane g m fun i =>
    let r := joinSubs f.ty [packCvt g f (readReg g i f.a.toNat false), packCvt g f (wordB g f i)]
    ([.vec i f.d.toNat (r.1.extractLsb' 0 32)], r.2)

def execVunpk2 (f : VF) (s : State) : Result :=
  issueFixed (.vunpk2 f) f s fun g m => perLane g m fun i =>
    let a := readReg g i f.a.toNat false
    ((List.range 2).map fun k => .vec i (f.d.toNat + k) (widen g f.ty (subElem f.ty a k)), 0)

/-- The half of a lane that an e2m1 member names. -/
def halfShift (f : VF) : Nat := if f.ty = .e2m1 then 16 * (f.imm.toNat % 2) else 0

def execVpack4 (f : VF) (s : State) : Result :=
  issueFixed (.vpack4 f) f s fun g m => perLane g m fun i =>
    let r := joinSubs f.ty ((List.range 4).map fun k => packCvt g f (readReg g i (f.a.toNat + k) false))
    let x := r.1.extractLsb' 0 32
    let d := vreg g i f.d.toNat
    let w := if f.ty = .e2m1 then d &&& ~~~((0xFFFF : Word) <<< halfShift f) ||| (x &&& 0xFFFF) <<< halfShift f else x
    ([.vec i f.d.toNat w], r.2)

def execVunpk4 (f : VF) (s : State) : Result :=
  issueFixed (.vunpk4 f) f s fun g m => perLane g m fun i =>
    let a := readReg g i f.a.toNat false >>> halfShift f
    ((List.range 4).map fun k => .vec i (f.d.toNat + k) (widen g f.ty (subElem f.ty a k)), 0)

/-! ### Scaling (09 R158) -/

/-- One value scaled by an e8m0 code. -/
def scaleE8m0 (t : Ty) (rm : Rm) (sat fl : Bool) (a : FV) (sc : Nat) : DWord × FlagSet :=
  match a with
  | .nan _ => (canonicalNaN t, 0)
  | .inf neg => if sc = 0xFF then (canonicalNaN t, 0) else roundFV t rm sat fl (.inf neg)
  | .fin neg m e => if sc = 0xFF then (canonicalNaN t, 0) else roundFV t rm sat fl (.fin neg m (e + sc - 127))

/-- Every sub-element is scaled by the same byte of b. -/
def execVscl (f : VF) (s : State) : Result :=
  issueFixed (.vscl f) f s fun g m => perLane g m fun i =>
    let a := readReg g i f.a.toNat false
    let sc := (wordB g f i).toNat % 256
    let fl := flushOf g f.ty
    let r := joinSubs f.ty ((List.range (subCount f.ty)).map fun k =>
      scaleE8m0 f.ty f.rm f.sat fl (packedFV f.ty fl (applyAm f.ty f.am (subElem f.ty a k))) sc)
    ([.vec i f.d.toNat (r.1.extractLsb' 0 32)], r.2)

end Sys2Proof.Machine
end

