-- ==== Sys2Proof/Machine/Mask.lean ====
section
/-! DEFINITION. Mask instructions, majors 0x48 and 0x49 (05 R89; 09 R159 to R161). -/

namespace Sys2Proof.Machine

/-- A per-lane operation on mask bits. -/
def maskBits (g : Group) (f : VF) (lanes : DWord) (op : Bool → Bool → Bool) : Effect :=
  perLane g lanes fun i =>
    ([.mask f.d.toNat i (op ((kreg g f.a.toNat).getLsbD i) ((kreg g f.b.toNat).getLsbD i))], 0)

def execKand (f : VF) (s : State) : Result := issueFixed (.kand f) f s fun g m => maskBits g f m (· && ·)
def execKor (f : VF) (s : State) : Result := issueFixed (.kor f) f s fun g m => maskBits g f m (· || ·)
def execKxor (f : VF) (s : State) : Result := issueFixed (.kxor f) f s fun g m => maskBits g f m xor
def execKandn (f : VF) (s : State) : Result := issueFixed (.kandn f) f s fun g m => maskBits g f m fun a b => a && !b
def execKnot (f : VF) (s : State) : Result := issueFixed (.knot f) f s fun g m => maskBits g f m fun a _ => !a
def execKmov (f : VF) (s : State) : Result := issueFixed (.kmov f) f s fun g m => maskBits g f m fun a _ => a

/-- A scalar computed from a whole mask, written only if the guard set is non-empty. -/
def maskScalar (g : Group) (f : VF) (lanes : DWord) (h : DWord → DWord) : Effect :=
  if lanes = 0 then noEffect else ⟨[.scalar f.d.toNat (h (kreg g f.a.toNat))], []⟩

def execKpopc (f : VF) (s : State) : Result :=
  issueFixed (.kpopc f) f s fun g m => maskScalar g f m fun k => BitVec.ofNat 64 (popCount g.w k)
def execKffs (f : VF) (s : State) : Result :=
  issueFixed (.kffs f) f s fun g m => maskScalar g f m fun k =>
    match lowLane g.w k with | some i => BitVec.ofNat 64 i | none => BitVec.allOnes 64
def execKset (f : VF) (s : State) : Result :=
  issueFixed (.kset f) f s fun g m => perLane g m fun i =>
    let b := match f.bk with | .imm => f.imm.zeroExtend 64 | _ => sreg g f.b.toNat
    ([.mask f.d.toNat i (b.getLsbD i)], 0)
def execKget (f : VF) (s : State) : Result := issueFixed (.kget f) f s fun g m => maskScalar g f m id

/-- `n` predicates gathered into a vector register. -/
def execKtov (f : VF) (s : State) : Result :=
  issueFixed (.ktov f) f s fun g m => perLane g m fun i =>
    let w := (List.range f.imm.toNat).foldl (fun (w : Word) j =>
      if (kreg g (f.a.toNat + j)).getLsbD i then w ||| (1 : Word) <<< j else w) 0
    ([.vec i f.d.toNat w], 0)

def execVtok (f : VF) (s : State) : Result :=
  issueFixed (.vtok f) f s fun g m => perLane g m fun i =>
    ((List.range f.imm.toNat).map fun j => .mask (f.d.toNat + j) i ((vreg g i f.a.toNat).getLsbD j), 0)

end Sys2Proof.Machine
end

