-- ==== Sys2Proof/Machine/Exact.lean ====
section
/-! DEFINITION. Exact pairs, double-word arithmetic and compensated reductions, majors 0x38 to 0x3A (13 R204 to
R208). -/

namespace Sys2Proof.Machine

/-- A pair result per lane. -/
def pairEffect (g : Group) (f : VF) (lanes : DWord) (h : Nat → PairR) : Effect :=
  perLane g lanes fun i => let r := h i; (writesPair f.ty f.d.toNat i r.hi r.lo, r.flags)

def execVfaddx (f : VF) (s : State) : Result :=
  issueFixed (.vfaddx f) f s fun g m => pairEffect g f m fun i => twoSum f.ty false (operandA g f f.ty i) (operandB g f f.ty i)
def execVfsubx (f : VF) (s : State) : Result :=
  issueFixed (.vfsubx f) f s fun g m => pairEffect g f m fun i =>
    twoSum f.ty false (operandA g f f.ty i) (negBits f.ty (operandB g f f.ty i))
def execVfmulx (f : VF) (s : State) : Result :=
  issueFixed (.vfmulx f) f s fun g m => pairEffect g f m fun i => twoProd f.ty (operandA g f f.ty i) (operandB g f f.ty i)
def execVfnorm (f : VF) (s : State) : Result :=
  issueFixed (.vfnorm f) f s fun g m => pairEffect g f m fun i => twoSum f.ty true (operandA g f f.ty i) (operandB g f f.ty i)

/-- A double word of a lane (13 R206). -/
def readDW (g : Group) (t : Ty) (lane r : Nat) : DW :=
  ⟨readReg g lane r (isWide t), readReg g lane (r + if isWide t then 2 else 1) (isWide t)⟩

def dwEffect (g : Group) (f : VF) (lanes : DWord) (op : DW → DW → PairR) : Effect :=
  pairEffect g f lanes fun i => op (readDW g f.ty i f.a.toNat) (readDW g f.ty i f.b.toNat)
def dwEffect1 (g : Group) (f : VF) (lanes : DWord) (op : DW → DWord → PairR) : Effect :=
  pairEffect g f lanes fun i => op (readDW g f.ty i f.a.toNat) (operandB g f f.ty i)

def execDwadd (f : VF) (s : State) : Result := issueFixed (.dwadd f) f s fun g m => dwEffect g f m (dwAdd f.ty)
def execDwsub (f : VF) (s : State) : Result := issueFixed (.dwsub f) f s fun g m => dwEffect g f m (dwSub f.ty)
def execDwmul (f : VF) (s : State) : Result := issueFixed (.dwmul f) f s fun g m => dwEffect g f m (dwMul f.ty)
def execDwadds (f : VF) (s : State) : Result := issueFixed (.dwadds f) f s fun g m => dwEffect1 g f m (dwAdds f.ty)
def execDwmuls (f : VF) (s : State) : Result := issueFixed (.dwmuls f) f s fun g m => dwEffect1 g f m (dwMuls f.ty)

/-- A compensated reduction: leaves of the guard set, (+0, +0) elsewhere, combined by DWADD in the fixed lane tree; its
flags belong to every lane of the guard set (13 R202, R208). -/
def compensated (g : Group) (f : VF) (lanes : DWord) (leaf : Nat → PairR) : Effect :=
  let leaves := (List.range g.w).map fun i => if lanes.getLsbD i then leaf i else ⟨0, 0, 0⟩
  let node (x y : PairR) : PairR :=
    let r := dwAdd .f32 ⟨x.hi, x.lo⟩ ⟨y.hi, y.lo⟩
    ⟨r.hi, r.lo, r.flags ||| x.flags ||| y.flags⟩
  match laneTree node leaves with
  | some r =>
    ⟨(laneList g.w lanes).flatMap fun i => writesPair .f32 f.d.toNat i r.hi r.lo, flagsAll g lanes r.flags⟩
  | none => noEffect

def execVredx (f : VF) (s : State) : Result :=
  issueVar (.vredx f) f s fun g m => compensated g f m fun i => ⟨readReg g i f.a.toNat false, 0, 0⟩
def execVreddw (f : VF) (s : State) : Result :=
  issueVar (.vreddw f) f s fun g m => compensated g f m fun i => let x := readDW g .f32 i f.a.toNat; ⟨x.hi, x.lo, 0⟩
def execVdotx (f : VF) (s : State) : Result :=
  issueVar (.vdotx f) f s fun g m => compensated g f m fun i => twoProd .f32 (operandA g f .f32 i) (operandB g f .f32 i)

end Sys2Proof.Machine
end

