-- ==== Sys2Proof/Machine/Cross.lean ====
section
/-! DEFINITION. Cross-lane instructions, majors 0x40 to 0x46 (13 R209 to R216). -/

namespace Sys2Proof.Machine

/-! ### Shuffles (13 R210) -/

/-- A shuffle: lane `i` takes the A operand of the lane `src` names, or its own. -/
def shuffle (g : Group) (f : VF) (lanes : DWord) (src : Nat → Nat → Option Nat) : Effect :=
  perLaneTo g f f.ty lanes fun i =>
    let j := (src i (wordB g f i).toNat).getD i
    (readReg g (if j < g.w then j else i) f.a.toNat (isWide f.ty), 0)

def execVshfi (f : VF) (s : State) : Result := issueFixed (.vshfi f) f s fun g m => shuffle g f m fun _ b => some (b % g.w)
def execVshfu (f : VF) (s : State) : Result :=
  issueFixed (.vshfu f) f s fun g m => shuffle g f m fun i b => if b ≤ i then some (i - b) else none
def execVshfd (f : VF) (s : State) : Result := issueFixed (.vshfd f) f s fun g m => shuffle g f m fun i b => some (i + b)
def execVshfx (f : VF) (s : State) : Result :=
  issueFixed (.vshfx f) f s fun g m => shuffle g f m fun i b => some (Nat.xor i (b % g.w))
def execVbcast (f : VF) (s : State) : Result := issueFixed (.vbcast f) f s fun g m => shuffle g f m fun _ b => some (b % g.w)

/-! ### Reductions (13 R211) -/

/-- The A operands of the guard set, none elsewhere. -/
def contributions (g : Group) (f : VF) (lanes : DWord) : List (Option DWord) :=
  (List.range g.w).map fun i => if lanes.getLsbD i then some (readReg g i f.a.toNat (isWide f.ty)) else none

/-- A node whose absent operand gives way to the other. -/
def optNode {α : Type} (op : α → α → α) (x y : Option α) : Option α :=
  match x, y with
  | some a, some b => some (op a b)
  | some a, none => some a
  | none, y => y

/-- One result written to every lane of the guard set. -/
def writeAll (g : Group) (f : VF) (lanes : DWord) (r : Option (DWord × FlagSet)) : Effect :=
  match r with
  | some r => ⟨(laneList g.w lanes).flatMap fun i => writesOf f.ty f.d.toNat i r.1, flagsAll g lanes r.2⟩
  | none => noEffect

def reduceBits (g : Group) (f : VF) (lanes : DWord) (op : DWord → DWord → DWord) : Effect :=
  writeAll g f lanes (((laneTree (optNode op) (contributions g f lanes)).getD none).map fun x => (lowBits (bitsOf f.ty) x, 0))

/-- A leaf of a floating-point reduction: flushed; a NaN is canonical from there on, with NV where it signals (R211). -/
def floatLeaf (t : Ty) (fl : Bool) (a : DWord) : DWord × FlagSet :=
  let x := flushBits t fl (lowBits (bitsOf t) a)
  let v := decodeFloat t x
  (if isNaN v then canonicalNaN t else x, flagIf (isSNaN v) flagNV)

/-- A floating-point reduction with its flags; `zero` is what other lanes contribute, if anything. -/
def reduceFloat (g : Group) (f : VF) (lanes : DWord) (zero : Option DWord) (op : Bool → DWord → DWord → DWord × FlagSet) :
    Effect :=
  let fl := flushOf g f.ty
  let leaves := (contributions g f lanes).map fun x =>
    match x with
    | some a => some (floatLeaf f.ty fl a)
    | none => zero.map fun z => (z, 0)
  let node (x y : DWord × FlagSet) : DWord × FlagSet := let r := op fl x.1 y.1; (r.1, r.2 ||| x.2 ||| y.2)
  writeAll g f lanes ((laneTree (optNode node) leaves).getD none)

def minInt (t : Ty) (a b : DWord) : DWord := if typedInt t b < typedInt t a then b else a
def maxInt (t : Ty) (a b : DWord) : DWord := if typedInt t a < typedInt t b then b else a

def execVredadd (f : VF) (s : State) : Result := issueVar (.vredadd f) f s fun g m => reduceBits g f m (· + ·)
def execVredmin (f : VF) (s : State) : Result := issueVar (.vredmin f) f s fun g m => reduceBits g f m (minInt f.ty)
def execVredmax (f : VF) (s : State) : Result := issueVar (.vredmax f) f s fun g m => reduceBits g f m (maxInt f.ty)
def execVredand (f : VF) (s : State) : Result := issueVar (.vredand f) f s fun g m => reduceBits g f m (· &&& ·)
def execVredor (f : VF) (s : State) : Result := issueVar (.vredor f) f s fun g m => reduceBits g f m (· ||| ·)
def execVredxor (f : VF) (s : State) : Result := issueVar (.vredxor f) f s fun g m => reduceBits g f m (· ^^^ ·)

/-- An RNE addition that flushes its result, the operands being flushed already. -/
def addNode (t : Ty) (fl : Bool) (a b : DWord) : DWord × FlagSet :=
  faddV t .rne false fl (decodeFloat t a) (decodeFloat t b)

def execVredfadd (f : VF) (s : State) : Result :=
  issueVar (.vredfadd f) f s fun g m => reduceFloat g f m (some 0) (addNode f.ty)
def execVredfmin (f : VF) (s : State) : Result :=
  issueVar (.vredfmin f) f s fun g m => reduceFloat g f m none fun _ => minMaxBits f.ty false
def execVredfmax (f : VF) (s : State) : Result :=
  issueVar (.vredfmax f) f s fun g m => reduceFloat g f m none fun _ => minMaxBits f.ty true

/-! ### Scans (13 R212) -/

/-- The identity of a scan operation. -/
def scanIdentity (op : Nat) (t : Ty) : DWord :=
  match op with
  | 1 => lowBits (bitsOf t) (BitVec.ofInt 64 (intMax t))
  | 2 => lowBits (bitsOf t) (BitVec.ofInt 64 (intMin t))
  | 3 => lowBits (bitsOf t) (BitVec.allOnes 64)
  | _ => 0

def scanOp (op : Nat) (t : Ty) (a b : DWord) : DWord × FlagSet :=
  match op with
  | 0 => (lowBits (bitsOf t) (a + b), 0)
  | 1 => (minInt t a b, 0)
  | 2 => (maxInt t a b, 0)
  | 3 => (a &&& b, 0)
  | 4 => (a ||| b, 0)
  | 5 => (a ^^^ b, 0)
  | _ => faddV t .rne false false (decodeFloat t a) (decodeFloat t b)

/-- A scan's result on one lane: a NaN that fadd only carries on is canonical too (07 R116). -/
def scanOut (op : Nat) (t : Ty) (x : DWord) : DWord :=
  if op = 6 ∧ isNaN (decodeFloat t x) then canonicalNaN t else x

/-- One doubling step over all lanes at once, with the flags it raised. -/
def scanStep (op : Nat) (t : Ty) (d : Nat) (xs : List DWord) : List DWord × FlagSet :=
  let rs := xs.mapIdx fun i x => if d ≤ i then scanOp op t (xs.getD (i - d) 0) x else (x, 0)
  (rs.map (·.1), flagUnion (rs.map (·.2)))

/-- The steps while d < W. -/
def scanSteps (op : Nat) (t : Ty) (w : Nat) : Nat → Nat → List DWord → List DWord × FlagSet
  | 0, _, xs => (xs, 0)
  | n + 1, d, xs =>
    if w ≤ d then (xs, 0)
    else
      let r := scanStep op t d xs
      let q := scanSteps op t w n (2 * d) r.1
      (q.1, r.2 ||| q.2)

def scanEffect (g : Group) (f : VF) (lanes : DWord) (exclusive : Bool) : Effect :=
  let op := f.imm.toNat
  let e := scanIdentity op f.ty
  let r := scanSteps op f.ty g.w 7 1 ((contributions g f lanes).map fun x => x.getD e)
  ⟨(laneList g.w lanes).flatMap fun i =>
      writesOf f.ty f.d.toNat i (scanOut op f.ty (if exclusive then if i = 0 then e else r.1.getD (i - 1) 0 else r.1.getD i 0)),
    flagsAll g lanes r.2⟩

def execVscani (f : VF) (s : State) : Result := issueFixed (.vscani f) f s fun g m => scanEffect g f m false
def execVscane (f : VF) (s : State) : Result := issueFixed (.vscane f) f s fun g m => scanEffect g f m true

/-! ### Votes (13 R213) -/

/-- The lanes that vote true. -/
def votes (g : Group) (f : VF) (lanes : DWord) : DWord :=
  laneSet ((laneList g.w lanes).filter fun i => vreg g i f.a.toNat != 0)

def execVballot (f : VF) (s : State) : Result :=
  issueFixed (.vballot f) f s fun g m =>
    if m = 0 then noEffect else ⟨[.scalar f.d.toNat (votes g f m)], []⟩
def execVany (f : VF) (s : State) : Result :=
  issueFixed (.vany f) f s fun g m => perLane g m fun i => ([.vec i f.d.toNat (if votes g f m = 0 then 0 else 1)], 0)
def execVall (f : VF) (s : State) : Result :=
  issueFixed (.vall f) f s fun g m => perLane g m fun i =>
    ([.vec i f.d.toNat (if laneSet (laneList g.w m) = votes g f m then 1 else 0)], 0)
def execVmatch (f : VF) (s : State) : Result :=
  issueFixed (.vmatch f) f s fun g m => perLane g m fun i =>
    let a (j : Nat) : DWord := readReg g j f.a.toNat (isWide f.ty)
    let same := laneSet ((laneList g.w m).filter fun j => a j == a i)
    ([.vec i f.d.toNat (same.extractLsb' 0 32), .vec i (f.d.toNat + 1) (same.extractLsb' 32 32)], 0)

/-! ### Derivatives and quad swaps (13 R214, R215) -/

/-- An instruction that holds its lanes has issued; holding is a park (03 R43). -/
def closeHeld (s : State) (g : Group) (cur : Cur) : State :=
  if cur.subst then putGroup s g else noteIssued (switchRun (countEvent s g.core 1) (useSkips (countRun g) cur)) g.id

/-- Lanes reach a derivative instruction: each is held with its guard bit, and quads that are complete execute. -/
def holdQuads (i : Instr) (f : VF) (s : State) (g : Group) (cur : Cur) : State :=
  let m := guardSet g cur.active f.gk f.gn
  let n := newId s
  closeHeld n.2 (resolveQuads (modLanes g cur.active fun l x => { x with park := .quad i (m.getLsbD l) n.1 })) cur

def execDdx (f : VF) (s : State) : Result := issueGroup (.ddx f) s (holdQuads (.ddx f) f)
def execDdy (f : VF) (s : State) : Result := issueGroup (.ddy f) s (holdQuads (.ddy f) f)
def execDdxf (f : VF) (s : State) : Result := issueGroup (.ddxf f) s (holdQuads (.ddxf f) f)
def execDdyf (f : VF) (s : State) : Result := issueGroup (.ddyf f) s (holdQuads (.ddyf f) f)

/-- A quad swap: a rendezvous in a quad-bound kernel, a shuffle elsewhere. -/
def quadSwap (i : Instr) (f : VF) (x : Nat) (s : State) : Result :=
  issueGroup i s fun s g cur =>
    if ((teamOf s g).map isQuadBound).getD false then holdQuads i f s g cur
    else
      let e := shuffle g f (guardSet g cur.active f.gk f.gn) fun l _ => some (Nat.xor l x)
      finishFixed s (latchAfter g i e.writes) cur e

def execVqswx (f : VF) (s : State) : Result := quadSwap (.vqswx f) f 1 s
def execVqswy (f : VF) (s : State) : Result := quadSwap (.vqswy f) f 2 s
def execVqswd (f : VF) (s : State) : Result := quadSwap (.vqswd f) f 3 s

/-! ### Row statistics (13 R216) -/

/-- Element (i, j) of an accumulator tile, as an f32 code. -/
def tileElem (m : Memory) (i j : Nat) : DWord := BitVec.ofNat 64 (readNat m (4 * (128 * i + j)) 4)

/-- The three statistics of a row and the flags they raise. -/
def rowStats (m : Memory) (row : Nat) : List DWord × FlagSet :=
  let xs := (List.range 128).map fun j => (tileElem m row j, (0 : FlagSet))
  let node (op : DWord → DWord → DWord × FlagSet) (x y : DWord × FlagSet) : DWord × FlagSet :=
    let r := op x.1 y.1
    (r.1, r.2 ||| x.2 ||| y.2)
  let run (op : DWord → DWord → DWord × FlagSet) (l : List (DWord × FlagSet)) : DWord × FlagSet :=
    (laneTree (node op) l).getD (0, 0)
  let squares := xs.map fun x => fmulV .f32 .rne false false (decodeFloat .f32 x.1) (decodeFloat .f32 x.1)
  let rs := [run (minMaxBits .f32 true) xs, run (addNode .f32 false) xs, run (addNode .f32 false) squares]
  (rs.map (·.1), flagUnion (rs.map (·.2)))

def causeTileState : Cause := 0x201

/-- A lane's fault: the lane, the cause, TVAL and the page a PAGE_NOT_PRESENT names. -/
structure LaneFault where
  lane : Nat
  cause : Cause
  tval : DWord
  page : Nat
  deriving DecidableEq, Repr

/-- Lanes with a fault split off; the rest of the active set goes on (03 R41, 11 R174). One lane set for each cause, with
TVAL of its lowest lane. -/
def splitFaults (g : Group) (cur : Cur) (faults : List LaneFault) : Group :=
  ((faults.map (·.cause)).eraseDups).foldl (fun g c =>
    let of := faults.filter (·.cause == c)
    let tval := match of with | x :: _ => x.tval | [] => 0
    deferTrap g { trapReq cur (laneSet (of.map (·.lane))) c tval with pages := (of.map (·.page)).eraseDups }) g

/-- The operand that names the first row. -/
def rowOperand (g : Group) (f : VF) : Nat :=
  match f.bk with | .imm => f.imm.toNat | _ => (sreg g f.b.toNat).toNat % 2 ^ 32

def execMstat (f : VF) (s : State) : Result :=
  issueGroup (.mstat f) s fun s g cur =>
    let m := guardSet g cur.active f.gk f.gn
    if m = 0 then closeIssue s (advance g cur.active cur) cur false
    else
      let tile := match teamOf s g with | some t => t.tiles.getD f.a.toNat Memory.empty | none => Memory.empty
      let row0 := rowOperand g f
      let bad := (laneList g.w m).filter fun i => 127 < row0 + i
      let good := (laneList g.w m).filter fun i => row0 + i ≤ 127
      let e := perLane g (laneSet good) fun i =>
        let r := rowStats tile (row0 + i)
        ((List.range 3).map fun k => .vec i (f.d.toNat + k) ((r.1.getD k 0).extractLsb' 0 32), r.2)
      let s := addOp s (newOp s g cur (some .matrix) (.result e.writes e.flags) true)
      let g := splitFaults g cur (bad.map fun i => ⟨i, causeTileState, BitVec.ofNat 64 (row0 + i), 0⟩)
      closeIssue s (advance g (cur.active &&& ~~~laneSet bad) cur) cur false

end Sys2Proof.Machine
end

