-- ==== Sys2Proof/Machine/Control.lean ====
section
/-! DEFINITION. Control instructions, majors 0x00 and 0x50 to 0x56 (03 R39, R40, R51 to R53, R68; 05 R80, R91;
11 R162 to R172; 21 R330, 23 R355). -/

namespace Sys2Proof.Machine

/-! ### Readiness (03 R48) -/

/-- The group may issue: not held in the park of R46, landed, of a resident team whose gate lets it run, and not
yielding (11 R164, 18 R291). -/
def groupFree (s : State) (g : Group) : Bool :=
  (g.run.isSome || (owing s g.id).isEmpty) && g.yield.isNone && g.shipping.isNone
  && match findTeam s g.team with
    | some t => t.place == .resident && !t.ended && (g.idx == 0 || !t.gated || t.gateOpen)
    | none => false

/-- A ready group: free to issue, with a lane that is neither exited nor parked. -/
def groupReady (s : State) (g : Group) : Bool :=
  groupFree s g && (List.range g.w).any fun i => !(laneAt g i).exited && (laneAt g i).park == .none

def priOf (s : State) (g : Group) : Nat := ((teamOf s g).map (·.packet.pri)).getD 0

/-- Groups that a YIELD waits for: ready ones of its quarter with PRI equal or higher. -/
def yieldOthers (s : State) (g : Group) : List Nat :=
  (s.groups.filter fun h =>
    h.id != g.id && h.core == g.core && h.quarter == g.quarter && priOf s g ≤ priOf s h && groupReady s h).map (·.id)

/-! ### Major 0x00 -/

/-- The guard is ignored (11 R163). -/
def execNop (f : BF) (s : State) : Result :=
  issueBoth (.nop f) s
    (fun s g cur => closeIssue s (advance g cur.active cur) cur false)
    (fun s t cur => doneThread s t cur.pc (pcNext cur.pc))

/-- EXIT ends the run, and its lanes exit once the switch has completed. -/
def execExit (f : BF) (s : State) : Result :=
  issueBoth (.exit f) s
    (fun s g cur =>
      let m := guardSet g cur.active f.gk f.gn
      let g := setPcs g (cur.active &&& ~~~m) (pcNext cur.pc)
      closeIssue s (if m = 0 then g else { g with after := g.after ++ [.exit m] }) cur true)
    (fun s t cur => if threadGuard t f.gk f.gn then endThread s t else doneThread s t cur.pc (pcNext cur.pc))

/-- YIELD: on the control core it has no effect, since runs and quarters do not apply there (17 R254). -/
def execYield (f : BF) (s : State) : Result :=
  issueBoth (.yield f) s
    (fun s g cur =>
      if guardSet g cur.active f.gk f.gn = 0 then closeIssue s (advance g cur.active cur) cur false
      else
        let g' := { g with yield := some ⟨yieldOthers s g, coreNow s (dieOfCore g.core)⟩ }
        closeIssue s (advance g' cur.active cur) cur true)
    (fun s t cur => doneThread s t cur.pc (pcNext cur.pc))

/-- A slot value that is no instruction traps with its decode cause (05 R100, R101). -/
def execIllegalOpcode (w : SlotBits) (s : State) : Result :=
  match s.cur with
  | none => .fault .noIssuer
  | some cur =>
    match cur.who with
    | .group id =>
      match findGroup s id with
      | none => .fault .noIssuer
      | some g =>
        .next (trapHere s g cur
          (trapReq cur cur.active (rejectCause (groupEnv s g cur.active) w) (w.extractLsb' 0 64)))
    | .thread team =>
      match findThread s team with
      | none => .fault .noIssuer
      | some t => .next (trapThread s t (threadReq t (rejectCause (threadEnv s t) w) cur.pc (w.extractLsb' 0 64)))

/-! ### Transfers (05 R80, 11 R165 to R167) -/

/-- The lanes of a set run a routine of the firmware (23 R357). -/
def inRoutine (g : Group) (m : DWord) : Bool := g.emu && m &&& g.trap.tmask != 0 && anyPrivileged g m

def codeBaseOf (s : State) (team : Nat) : DWord := ((findTeam s team).map (·.packet.codeBase)).getD 0

/-- The check of one target for a set of lanes. -/
def checkFor (s : State) (g : Group) (lanes : DWord) (target : Word) : TargetCheck × State :=
  match teamPartition s g.team with
  | some p => checkTarget s g.core p (codeBaseOf s g.team) (inRoutine g lanes) target
  | none => (.ok, s)

/-- Each distinct target with its lanes and its check. -/
def checkTargets (s : State) (g : Group) (lanes : DWord) (target : Nat → Word) : List (DWord × Word × TargetCheck) × State :=
  (((laneList g.w lanes).map target).eraseDups).foldl (fun r t =>
    let m := laneSet ((laneList g.w lanes).filter fun i => target i == t)
    let c := checkFor r.2 g m t
    (r.1 ++ [(m, t, c.1)], c.2)) ([], s)

/-- A trap at a transferring instruction: TVAL is the target, and a suppressed one goes there (23 R358). -/
def transferReq (g : Group) (cur : Cur) (lanes : DWord) (cause : Cause) (pages : List Nat) (tval : Word)
    (target : Nat → Word) : TrapReq :=
  { trapReq cur lanes cause (tval.zeroExtend 64) with pages := pages, goes := (laneList g.w lanes).map fun i => (i, target i) }

/-- Failing targets: one lane set for each failing check, with the lowest failing target (11 R166). The pc form and
LINE_WORD are two checks with one cause (05 R79, R80). -/
def failTargets (g : Group) (cur : Cur) (l : List (DWord × Word × TargetCheck)) (target : Nat → Word) : Group :=
  let faults := l.filterMap fun x =>
    match x.2.2 with | .fault c page => some (x.1, x.2.1, (c, pcFormOk x.2.1), page) | _ => none
  ((faults.map (·.2.2.1)).eraseDups).foldl (fun g check =>
    let of := faults.filter (·.2.2.1 == check)
    let low := (of.map (·.2.1)).foldl (fun b t => if t.toNat < b.toNat then t else b) (0xFFFFFFFF : Word)
    deferTrap g (transferReq g cur (of.foldl (fun m x => m ||| x.1) 0) check.1 ((of.map (·.2.2.2)).eraseDups) low target)) g

/-- Lanes whose target stands on a stream page that is not installed wait for it. -/
def waitTargets (g : Group) (cur : Cur) (l : List (DWord × Word × TargetCheck)) (target : Nat → Word) : Group :=
  l.foldl (fun g x =>
    match x.2.2 with
    | .stream page => parkLanes (splitSet g x.1) x.1 (.stream page (transferReq g cur x.1 causeStreamFail [page] x.2.1 target))
    | _ => g) g

/-- The pcs at which the lanes of a set stand. -/
def pcsOf (g : Group) (m : DWord) : List Word := ((laneList g.w m).map fun i => (laneAt g i).pc).eraseDups

/-- A transfer of a set of lanes, each to its own target; the rest of the active set goes on at the next slot. The link
register of the lanes whose target passes takes the next slot's pc. The run ends if the pc-set is split (03 R43). -/
def transfer (s : State) (g : Group) (cur : Cur) (m : DWord) (target : Nat → Word) (link : Option Nat) : State :=
  let g := setPcs g (cur.active &&& ~~~m) (pcNext cur.pc)
  let r := checkTargets s g m target
  let g := r.1.foldl (fun g x =>
    match x.2.2 with
    | .ok =>
      let g := setPcs g x.1 x.2.1
      match link with
      | some a =>
        let ws := (laneList g.w x.1).map fun i => .vec i a (pcNext cur.pc)
        dropLatches (applyWrites g ws) ws
      | none => g
    | _ => g) g
  let g := waitTargets (failTargets g cur r.1 target) cur r.1 target
  let waits := r.1.any fun x => match x.2.2 with | .stream _ => true | _ => false
  closeIssue r.2 g cur (waits || 1 < (pcsOf g cur.active).length)

def causeUniformity : Cause := 0x180
def causeJoinMismatch : Cause := 0x181
def causeStackLimit : Cause := 0x182
def causeStackNonuniform : Cause := 0x183

/-- BRA and CALL: one target for the transfer set; UNI asserts that all lanes of the active set go or none. -/
def directTransfer (f : BF) (link : Option Nat) (s : State) (g : Group) (cur : Cur) : State :=
  let m := guardSet g cur.active f.gk f.gn
  if f.uni && m != 0 && m != cur.active then trapHere s g cur (controlReq (.bra f) g cur causeUniformity m)
  else transfer s g cur m (fun _ => dispTarget cur.pc f.disp) link

/-- BRX, CALLX and RET: each lane's own target; UNI asserts that they are equal. -/
def laneTransfer (i : Instr) (f : BF) (r : Nat) (link : Option Nat) (s : State) (g : Group) (cur : Cur) : State :=
  let m := guardSet g cur.active f.gk f.gn
  let target (i : Nat) : Word := vreg g i r
  if f.uni && 1 < (((laneList g.w m).map target).eraseDups).length then
    trapHere s g cur (controlReq i g cur causeUniformity
      (match lowLane g.w cur.active with | some i => (target i).zeroExtend 64 | none => 0))
  else transfer s g cur m target link

/-- A transfer of a control thread, which links in a scalar register (05 R102, 11 R162). -/
def threadTransfer (f : BF) (target : Word) (link : Option Nat) (s : State) (t : Thread) (cur : Cur) : State :=
  if !threadGuard t f.gk f.gn then doneThread s t cur.pc (pcNext cur.pc)
  else
    match teamPartition s t.team with
    | none => s
    | some p =>
      match checkTarget s (leadCore t.quad) p (codeBaseOf s t.team) t.emu target with
      | (.ok, s) =>
        let t := match link with | some a => setThreadReg t a ((pcNext cur.pc).zeroExtend 64) | none => t
        doneThread s { t with line := none } cur.pc target
      | (.fault c page, s) =>
        trapThread s t { threadReq t c cur.pc (target.zeroExtend 64) with pages := [page], goes := [(0, target)] }
      | (.stream page, s) =>
        putThread s { t with park := .stream page (threadReq t causeStreamFail cur.pc (target.zeroExtend 64)), line := none }

def threadWord (t : Thread) (r : BitVec 8) : Word := (threadReg t r.toNat).extractLsb' 0 32

def execBra (f : BF) (s : State) : Result :=
  issueBoth (.bra f) s (directTransfer f none) fun s t cur => threadTransfer f (dispTarget cur.pc f.disp) none s t cur
def execBrx (f : BF) (s : State) : Result :=
  issueBoth (.brx f) s (laneTransfer (.brx f) f f.a.toNat none) fun s t cur => threadTransfer f (threadWord t f.a) none s t cur
def execCall (f : BF) (s : State) : Result :=
  issueBoth (.call f) s (directTransfer f (some f.a.toNat)) fun s t cur =>
    threadTransfer f (dispTarget cur.pc f.disp) (some f.a.toNat) s t cur
def execCallx (f : BF) (s : State) : Result :=
  issueBoth (.callx f) s (laneTransfer (.callx f) f f.c.toNat (some f.a.toNat)) fun s t cur =>
    threadTransfer f (threadWord t f.c) (some f.a.toNat) s t cur
def execRet (f : BF) (s : State) : Result :=
  issueBoth (.ret f) s (laneTransfer (.ret f) f f.a.toNat none) fun s t cur => threadTransfer f (threadWord t f.a) none s t cur

/-! ### Major 0x52 (03 R39, R40) -/

/-- A whole mask register written, bits at or above W and k0 apart (05 R89). -/
def setMask (g : Group) (r : Nat) (m : DWord) : Group := (List.range g.w).foldl (fun g i => setKbit g r i (m.getLsbD i)) g

/-- MEET: a JOIN that awaits lanes by the mask it writes is judged anew. -/
def execMeet (f : BF) (s : State) : Result :=
  issueGroup (.meet f) s fun s g cur =>
    let saves := if f.a = 0xFF then [] else (laneList g.w cur.active).map fun i => .vec i f.a.toNat (laneAt g i).mr
    let g := modLanes (dropLatches (applyWrites g saves) saves) cur.active fun _ l => { l with mr := dispTarget cur.pc f.disp }
    closeIssue s (releaseJoins (advance (setMask g f.b.toNat cur.active) cur.active cur)) cur false

/-- Lanes of the active set whose `mr` is not what an instruction needs, with the trap they raise (03 R40, R51). -/
def mismatch (g : Group) (cur : Cur) (want : Word) : DWord :=
  laneSet ((laneList g.w cur.active).filter fun i => (laneAt g i).mr != want)
def mismatchTrap (i : Instr) (g : Group) (cur : Cur) (bad : DWord) : Group :=
  match lowLane g.w bad with
  | some l => deferTrap g { controlReq i g cur causeJoinMismatch ((laneAt g l).mr.zeroExtend 64) with lanes := bad }
  | none => g

def execJoin (f : BF) (s : State) : Result :=
  issueGroup (.join f) s fun s g cur =>
    let bad := mismatch g cur cur.pc
    let g := parkLanes (mismatchTrap (.join f) g cur bad) (cur.active &&& ~~~bad) (.join f.b f.c)
    closeHeld s (releaseJoins g) cur

/-! ### Major 0x53 (03 R51 to R54, 11 R169) -/

/-- Lanes that go to one segment start: its check, then their arrival once the run has ended. -/
def succTo (s : State) (g : Group) (cur : Cur) (m : DWord) (target : Word) : State × Group :=
  if m = 0 then (s, g)
  else
    match checkFor s g m target with
    | (.ok, s) => (s, { g with after := g.after ++ [.arrive m target] })
    | (.fault c page, s) => (s, deferTrap g (transferReq g cur m c [page] target fun _ => target))
    | (.stream page, s) =>
      (s, parkLanes (splitSet g m) m (.stream page (transferReq g cur m causeStreamFail [page] target fun _ => target)))

def succeed (i : Instr) (s : State) (g : Group) (cur : Cur) (target : Word) (taken : DWord) : State :=
  let bad := mismatch g cur 0xFFFFFFFF
  let ok := cur.active &&& ~~~bad
  let r := succTo s (mismatchTrap i g cur bad) cur (ok &&& taken) target
  let r := succTo r.1 r.2 cur (ok &&& ~~~taken) (pcNext cur.pc)
  closeIssue r.1 r.2 cur true

def execSucc (f : BF) (s : State) : Result :=
  issueGroup (.succ f) s fun s g cur => succeed (.succ f) s g cur (dispTarget cur.pc f.disp) cur.active
def execSucc2 (f : BF) (s : State) : Result :=
  issueGroup (.succ2 f) s fun s g cur => succeed (.succ2 f) s g cur (dispTarget cur.pc f.disp) (kreg g f.b.toNat)

/-! ### Major 0x54 (11 R170) -/

/-- The stack pointer moved to `x`, unless it is out of bounds or the active set is not the whole group. -/
def moveStack (s : State) (g : Group) (cur : Cur) (x : DWord) (bad : Bool) : State :=
  if cur.active ≠ liveLanes g then trapHere s g cur (trapReq cur cur.active causeStackNonuniform 0)
  else if bad then trapHere s g cur (trapReq cur cur.active causeStackLimit x)
  else closeIssue s (advance (setSreg g 63 x) cur.active cur) cur false

def execEnter (f : BF) (s : State) : Result :=
  issueGroup (.enter f) s fun s g cur =>
    let x := sreg g 63 - f.disp.zeroExtend 64
    moveStack s g cur x (x.toInt < g.splim.toInt)
/-- The comparison with PRIVB is signed too (DEDUCED, log entry 106). -/
def execLeave (f : BF) (s : State) : Result :=
  issueGroup (.leave f) s fun s g cur =>
    let x := sreg g 63 + f.disp.zeroExtend 64
    moveStack s g cur x (g.privb.toInt < x.toInt)

/-! ### Major 0x55 (11 R171; 21 R330; 23 R355) -/

/-- The guard set traps, the rest of the active set goes on. -/
def trapMember (f : BF) (cause : Cause) (tpc : Word) (tval : DWord) (s : State) (g : Group) (cur : Cur) : State :=
  let m := guardSet g cur.active f.gk f.gn
  let g := setPcs g (cur.active &&& ~~~m) (pcNext cur.pc)
  closeIssue s (if m = 0 then g else deferTrap g { trapReq cur m cause tval with tpc := tpc }) cur false

def threadTrapMember (f : BF) (cause : Cause) (tpc : Word) (tval : DWord) (s : State) (t : Thread) (cur : Cur) : State :=
  if threadGuard t f.gk f.gn then trapThread s t (threadReq t cause tpc tval) else doneThread s t cur.pc (pcNext cur.pc)

def softCause (f : BF) : Cause := BitVec.ofNat 10 (0x340 + f.disp.toNat % 64)

def execTrap (f : BF) (s : State) : Result :=
  issueBoth (.trap f) s
    (fun s g cur => trapMember f (softCause f) (pcNext cur.pc) (cur.pc.zeroExtend 64) s g cur)
    (fun s t cur => threadTrapMember f (softCause f) (pcNext cur.pc) (cur.pc.zeroExtend 64) s t cur)
def execBkpt (f : BF) (s : State) : Result :=
  issueBoth (.bkpt f) s
    (fun s g cur => trapMember f 0x283 cur.pc 0 s g cur)
    (fun s t cur => threadTrapMember f 0x283 cur.pc 0 s t cur)

/-- The lanes of TMASK that have not exited. -/
def tretLanes (g : Group) : DWord := g.trap.tmask &&& liveLanes g

/-- Return from a trap, or from an emulation routine, whose mask matches: the lanes take TPC and their earlier
privilege. A routine that stood for a single-stepped instruction completes it. -/
def returnLanes (g : Group) : Group :=
  let m := tretLanes g
  let priv := if g.emu then match g.emuRec with | some e => e.priv | none => false else g.trap.ppriv
  let g' := modLanes (setPcs g m g.trap.tpc) m fun _ l => { l with priv := priv }
  match g.emu, g.emuRec with
  | true, some e => stepDone (leaveEmu g') m e.pc
  | true, none => leaveEmu g'
  | false, _ => { g' with trap := { g'.trap with inh := false } }

/-- What a return arms for its lanes: with SS set a single step (21 R347), with BPSKIP set an issue that no comparator
matches (21 R346). -/
def armReturn (s : State) (g : Group) : State :=
  if g.emu then s
  else modGroup s g.id fun x =>
    { x with
      stepping := if g.trap.ss then some (x.stepping.getD 0 ||| tretLanes g) else x.stepping
      skips := if g.trap.bpskip then x.skips ||| tretLanes g else x.skips }

def threadReturn (t : Thread) : Thread :=
  let t := { t with pc := t.trap.tpc, line := none }
  match t.emu, t.emuRec with
  | true, some e =>
    { t with
      priv := e.priv
      trap := { t.trap with
        cause := e.cause, ctl := e.ctl, tpc := e.tpc, tval := e.tval, tmask := e.tmask, ppriv := e.ppriv, inh := e.inh
        ss := e.ss, bpskip := e.bpskip, pend := e.pend }
      emu := false
      emuRec := none }
  | _, _ => { t with priv := t.trap.ppriv, trap := { t.trap with inh := false }, stepping := t.trap.ss, emu := false }

def execTret (f : BF) (s : State) : Result :=
  issueBoth (.tret f) s
    (fun s g cur =>
      if cur.active ≠ tretLanes g then
        doubleTrap (putGroup s (endRun g)) (partOfGroup s g) g.core
          [cur.pc.zeroExtend 64, cur.active, tretLanes g] 0x187
      else armReturn (closeIssue s (returnLanes g) cur true) g)
    (fun s t _ => putThread s (threadReturn t))

/-! ### Major 0x56 (03 R68, 11 R172) -/

/-- MIGRATE ends the run; its tests are made once the results of the run have landed. -/
def execMigrate (f : BF) (s : State) : Result :=
  issueGroup (.migrate f) s fun s g cur =>
    let g := useSkips (countRun g) cur
    noteIssued (switchRun (countEvent s g.core 1) { g with after := g.after ++ [.migrate cur.active (sreg g f.a.toNat) cur.pc] }) g.id

end Sys2Proof.Machine
end

