-- ==== Sys2Proof/Machine/Perform.lean ====
section
/-! DEFINITION. Performing the memory operations of a group (15 R227, R236 to R242), the reads an instruction makes at
its issue, and cache maintenance over a range (11 R188). -/

namespace Sys2Proof.Machine

/-! ### Reads and writes of a range -/

/-- What reading a range of addresses answers. -/
inductive RangeRead where
  | bytes (l : List Byte)
  | fault (cause : Cause) (ea : DWord)
  | stream (va : Nat)
  deriving DecidableEq, Repr

/-- Who reads: a core for a team, at a scope. -/
structure Reader where
  core : Nat
  part : Partition
  origin : Origin
  emu : Bool
  scope : Nat
  window : Bool

/-- A range of global addresses, read line by line (15 R246). -/
def readLines (rd : Reader) : Nat → State → DWord → Nat → List Byte → RangeRead × State
  | 0, s, _, _, acc => (.bytes acc, s)
  | k + 1, s, ea, n, acc =>
    if n = 0 then (.bytes acc, s)
    else
      let len := min n (64 - ea.toNat % 64)
      match resolveGlobal s rd.core rd.part rd.origin rd.emu ea len 1 .read rd.window with
      | (.fault c, s) => (.fault c ea, s)
      | (.at (.stream va), s) => (.stream va, s)
      | (.at l, s) =>
        let r := loadLoc s rd.core l len rd.scope false
        readLines rd k r.2 (ea + BitVec.ofNat 64 len) (n - len) (acc ++ r.1)

def readRange (s : State) (rd : Reader) (ea : DWord) (n : Nat) : RangeRead × State := readLines rd (n / 64 + 2) s ea n []

/-- Bytes written over a range of global addresses line by line, up to the first that faults. -/
def writeLines (rd : Reader) (noAlloc : Bool) : Nat → State → DWord → List Byte → RangeRead × State
  | 0, s, _, _ => (.bytes [], s)
  | k + 1, s, ea, b =>
    if b.isEmpty then (.bytes [], s)
    else
      let len := min b.length (64 - ea.toNat % 64)
      match resolveGlobal s rd.core rd.part rd.origin rd.emu ea len 1 .write rd.window with
      | (.fault c, s) => (.fault c ea, s)
      | (.at (.stream va), s) => (.stream va, s)
      | (.at l, s) =>
        writeLines rd noAlloc k (storeLoc s rd.core l (b.take len) rd.scope noAlloc) (ea + BitVec.ofNat 64 len) (b.drop len)

def writeRange (s : State) (rd : Reader) (ea : DWord) (b : List Byte) : RangeRead × State :=
  writeLines rd false (b.length / 64 + 2) s ea b

/-- A unit that reads for a team past every L1 (15 R243). -/
def engineReader (core : Nat) (p : Partition) (origin : Origin) : Reader where
  core := core
  part := p
  origin := origin
  emu := false
  scope := atHome
  window := true

/-! ### Copies (11 R190, R191) -/

/-- A piece of a copy: its global address, its scratchpad address and its length. -/
structure CopySeg where
  ga : DWord
  sa : Nat
  len : Nat
  deriving DecidableEq, Repr

/-- A row split at 4 KiB boundaries. -/
def rowSegs : Nat → DWord → Nat → Nat → List CopySeg
  | 0, _, _, _ => []
  | k + 1, ga, sa, n =>
    if n = 0 then []
    else
      let len := min n (4096 - ga.toNat % 4096)
      ⟨ga, sa, len⟩ :: rowSegs k (ga + BitVec.ofNat 64 len) (sa + len) (n - len)

def copySegs (c : CopyRec) : List CopySeg :=
  (List.range c.rows).flatMap fun (i : Nat) =>
    rowSegs (c.rowBytes / 4096 + 2) (BitVec.ofInt 64 ((c.gaddr : Int) + (i : Int) * c.gstride)) (c.saddr + i * c.sstride) c.rowBytes

/-- The scratchpad lines that the rows of a copy touch. -/
def copyLines (s : State) (t : Team) (c : CopyRec) : List (Nat × Nat) :=
  ((List.range c.rows).flatMap fun i =>
    match resolveScratch s t (BitVec.ofNat 64 (c.saddr + i * c.sstride)) c.rowBytes 1 with
    | .at (.scratch team off) => (List.range (c.rowBytes / 64 + 2)).filterMap fun k =>
        let line := off / 64 + k
        if line * 64 < off + c.rowBytes then some (team, line) else none
    | _ => []).eraseDups

def scratchPlace (s : State) (t : Team) (sa len : Nat) : Option (Nat × Nat) :=
  match resolveScratch s t (BitVec.ofNat 64 sa) len 1 with
  | .at (.scratch team off) => some (team, off)
  | _ => none

/-- What checking one piece answers: it can go on, it faults, or its stream page is not installed. -/
inductive SegCheck where
  | ok | fault | waits
  deriving DecidableEq, Repr

/-- The checks of one piece: of its global side, and of the words a copy out of the scratchpad reads (01 R34). -/
def checkSeg (s : State) (rd : Reader) (t : Team) (o : Op) (c : CopyRec) (g : CopySeg) : SegCheck × State :=
  let bad := !c.toScratch && match scratchPlace s t g.sa g.len with | some x => badAt s (.scratch x.1 x.2) g.len | none => false
  match resolveGlobal s rd.core rd.part rd.origin rd.emu g.ga g.len 1 (if c.toScratch then .read else .write) true with
  | (.fault _, s) => (.fault, s)
  | (.at (.stream va), s) => (if o.acks.contains (va / 65536) then .fault else .waits, s)
  | (.at _, s) => (if bad then .fault else .ok, s)

/-- One piece is moved; a faulting one fills its destination with zeros, or writes nothing. -/
def moveSeg (s : State) (rd : Reader) (t : Team) (c : CopyRec) (g : CopySeg) (check : SegCheck) : State :=
  match scratchPlace s t g.sa g.len with
  | none => s
  | some (team, off) =>
    match c.toScratch, check with
    | true, .ok =>
      match readRange s rd g.ga g.len with
      | (.bytes b, s) => writeScratch s team off b
      | (_, s) => writeScratch s team off (List.replicate g.len 0)
    | true, _ => writeScratch s team off (List.replicate g.len 0)
    | false, .ok => (writeRange s rd g.ga (readScratch s team off g.len)).2
    | false, _ => s

/-- The pieces of a copy that have not moved are checked and moved in their order, but for those that wait; the list of the
moved ones with whether each faulted, and whether one waits. -/
def moveSegs (s : State) (rd : Reader) (t : Team) (o : Op) (c : CopyRec) (moved : List (Nat × Bool)) :
    (List (Nat × Bool) × Bool) × State :=
  ((copySegs c).mapIdx fun i g => (i, g)).foldl (fun r x =>
    if r.1.1.any (·.1 == x.1) then r
    else
      match checkSeg r.2 rd t o c x.2 with
      | (.waits, s) => ((r.1.1, true), s)
      | (k, s) => ((r.1.1 ++ [(x.1, k == .fault)], r.1.2), moveSeg s rd t c x.2 k)) ((moved, false), s)

/-- The scratchpad lines in which a copy still has bytes to write. -/
def unwritten (s : State) (t : Team) (c : CopyRec) (moved : List (Nat × Bool)) : List (Nat × Nat) :=
  (((copySegs c).mapIdx fun i g => (i, g)).filter fun x => !moved.any (·.1 == x.1)).flatMap fun x =>
    match scratchPlace s t x.2.sa x.2.len with
    | some p => (linesOf p.2 x.2.len).map fun k => (p.1, k)
    | none => []

/-- The first piece that met a fault, by the order of the copy. -/
def firstFault (c : CopyRec) (moved : List (Nat × Bool)) : Option CopySeg :=
  (((copySegs c).mapIdx fun i g => (i, g)).find? fun x => moved.contains (x.1, true)).map (·.2)

/-- A copy goes on: it moves every piece whose stream page is installed, and a line becomes present once all of the copy's
bytes in it are written (03 R56, 11 R190). It is complete with its last piece, and its first fault is kept for a WAITC. -/
def executeCopy (s : State) (o : Op) (c : CopyRec) (release : Bool) (scope : Nat) (moved : List (Nat × Bool)) : State :=
  match findTeam s o.team, teamPartition s o.team with
  | some t, some p =>
    let s := if release && moved.isEmpty then releaseFrom s o.core o.part o.team scope else s
    let r := moveSegs s (engineReader o.core p t.origin) t o c moved
    let away := unwritten r.2 t c r.1.1
    let full := (copyLines r.2 t c).filter fun l => !away.contains l
    let s := if c.toScratch then full.foldl (fun s l => setPresence s l.1 l.2) r.2 else r.2
    if r.1.2 then putOp s { o with kind := .copy c scope release r.1.1, left := 1 }
    else
      let s := match firstFault c r.1.1 with
        | some x => modGroup s o.group fun g => { g with copyFaults := g.copyFaults ++ [(o.id, x.ga)] }
        | none => s
      opDone s o.id
  | _, _ => s

/-! ### Performing one operation -/

/-- Lanes' atomics in ascending lane order, each with the value it returns (11 R184). -/
def atomLanes (s : State) (core : Nat) (op : AtomOp) (ty : Ty) (accs : List AtomAcc) (near : Bool) :
    List (Nat × DWord) × State :=
  accs.foldl (fun r a =>
    let x := atomAt r.2 core op ty a near
    (r.1 ++ [(a.lane, x.1)], x.2)) ([], s)

def claspLanes (s : State) (accs : List AtomAcc) : List (Nat × DWord) × State :=
  accs.foldl (fun r a =>
    let x := claspAt r.2 a.loc
    (r.1 ++ [(a.lane, x.1)], x.2)) ([], s)

def returnWrites (ty : Ty) (ret : Option Nat) (olds : List (Nat × DWord)) : List RegWrite :=
  match ret with
  | some d => olds.flatMap fun x => writesOf ty d x.1 x.2
  | none => []

/-- A copy of a line leaves an L1 or a slice, or is written back and stays. -/
def maintainL1 (s : State) (core : Nat) (ty : MemType) (line : Nat) (drop : Bool) : State :=
  match l1At (coreAt s core) ty line with
  | some l => if drop then evictLine s core l else cleanLine s core l
  | none => s
def maintainSlice (s : State) (q : Nat) (ty : MemType) (line : Nat) (drop : Bool) : State :=
  match sliceAt (quadAt s q) ty line with
  | some l => if drop then evictSliceLine s q l else cleanSlice s q l
  | none => s

/-- CINV and CWB on one line: the core's L1, and at device scope or wider the non-home copies of the partition's
quads. -/
def maintainLine (s : State) (core scope : Nat) (drop : Bool) (l : Loc) : State :=
  match l with
  | .page ty pa _ =>
    let s := maintainL1 s core ty (pa / 64) drop
    if scope < 3 then s
    else
      let quads := match partOfCore s core with
        | some p => (List.range 64).filter fun q => (partDies p).contains (dieOfQuad q)
        | none => []
      quads.foldl (fun s q => maintainSlice s q ty (pa / 256) drop) s
  | _ => s

/-- The result of an operation that returns registers is in hand, or the operation is complete. -/
def haveResult (s : State) (o : Op) (ws : List RegWrite) : State :=
  if o.owes then putOp s { o with writes := some ws } else opDone s o.id

/-- One access of a store: a write to a peer is performed when it is posted (15 R227, R249). -/
def storeAccess (o : Op) (scope : Nat) (noAlloc : Bool) (s : State) (a : Access) : State :=
  match a.loc with
  | .page .peer pa _ => { s with posted := s.posted ++ [⟨o.group, pa, a.data⟩] }
  | l => storeLoc s o.core l a.data scope noAlloc

/-- A RED that accumulates in update-only copies: its operands stand there as partials until the home combines them; those
of HOST lines and of stacked memory, which no cache holds, are far (15 R219, R224, R242). -/
def holdRed (s : State) (o : Op) : State :=
  match o.kind with
  | .atom op ty accs scope acq rel rmt near ret =>
    let s := (atomLanes s o.core op ty (accs.filter fun a => isStacked a.loc) false).2
    let rest := accs.filter fun a => !isStacked a.loc
    if rest.isEmpty then opDone s o.id
    else
      let q := { o with kind := .atom op ty rest scope acq rel rmt near ret }
      let s := combineOp (fun l => match l with | .page .host _ _ => true | _ => false) (putOp s q) q
      match findOp s o.id with
      | some q => if q.done then s else putOp s { q with left := 1 }
      | none => s
  | _ => s

/-- An operation of a group is performed; the cores that a remote acquire asks have answered (15 R241). A release of an
arrival is one at cluster scope at least (03 R59). The conditions of its scope are the caller's. -/
def performOp (s : State) (o : Op) : State :=
  let rel (s : State) (r : Bool) (scope : Nat) : State := if r then releaseFrom s o.core o.part o.team scope else s
  let acq (s : State) (a : Bool) (scope : Nat) : State := if a then acquireAt s o.core scope else s
  let s := (awaitedPromotions s o).foldl promote s
  match o.kind with
  | .store accs scope release noAlloc =>
    opDone (accs.foldl (storeAccess o scope noAlloc) (rel s release scope)) o.id
  | .atom op ty accs scope acquire release _ near ret =>
    if near && ret.isNone then
      if heldRed o then combineOp (fun _ => true) s o else holdRed (rel s release scope) o
    else
      let r := atomLanes (rel s release scope) o.core op ty accs near
      haveResult (acq r.2 acquire scope) o (returnWrites ty ret r.1)
  | .clasp accs scope acquire release ret =>
    let r := claspLanes (rel s release (max 2 scope)) accs
    haveResult (acq r.2 acquire scope) o (returnWrites .b32 ret r.1)
  | .load .. =>
    let r := readLoad s o
    haveResult r.2 o r.1
  | .invalidate locs scope => opDone (locs.foldl (fun s l => maintainLine s o.core scope true l) s) o.id
  | .writeBack locs scope => opDone (locs.foldl (fun s l => maintainLine s o.core scope false l) s) o.id
  | .copy c scope release moved => executeCopy s o c release scope moved
  | _ => s

/-- Whether `performOp` performs an operation of this kind. -/
def performable (s : State) (o : Op) : Bool :=
  !performed o && !waitsForStream o && !linkWaits s o && match o.kind with
    | .store .. | .atom .. | .clasp .. | .load .. | .invalidate .. | .writeBack .. | .copy .. => true
    | _ => false

/-- Stores of a group to PEER memory are posted in issue order (15 R249). -/
def peerOrdered (s : State) (o : Op) : Bool :=
  let posts (k : OpKind) : Bool := match k with | .store accs .. => accs.any fun a => isPeer a.loc | _ => false
  !posts o.kind || (earlier s o).all fun q => performed q || !posts q.kind

/-- Whether an operation can be performed now, once the loads before it on the mesh have read. -/
def opReady (s : State) (o : Op) : Bool :=
  performable s o && inOrder s o && peerOrdered s o && releaseReady s o && meshClear (readBefore s o) o
  && match o.kind with | .invalidate .. | .writeBack .. => storesEarlier s o | _ => true

/-- An operation that can be performed now is. -/
def performReady (s : State) (id : Nat) : State :=
  match findOp s id with
  | some o => if opReady s o then performOp (readBefore s o) o else s
  | none => s

/-- Every operation of a group's core that can be performed is performed now, in issue order: a schedule that is always
allowed: DESIGN CHOICE (log entry 122). A RED takes two steps. -/
def performAll (s : State) (gid : Nat) : State :=
  match findGroup s gid with
  | none => s
  | some g =>
    let ids := (s.ops.filter (·.core == g.core)).map (·.id)
    (ids.flatMap fun id => [id, id]).foldl performReady s

/-! ### Reads at issue -/

/-- A group as reader of its own instruction's data. -/
def groupReader (s : State) (g : Group) (p : Partition) (lanes : DWord) : Reader where
  core := g.core
  part := p
  origin := ((teamOf s g).map (·.origin)).getD (.host 0)
  emu := inRoutine g lanes
  scope := 0
  window := true

/-- The first write of a group to a range that is still to be performed. -/
def ownWrite (s : State) (gid : Nat) (l : Loc) (n : Nat) : Option Nat :=
  ((groupOps s gid).find? fun o =>
    !performed o && (let t := touched o.kind; t.2 && t.1.any fun x => overlaps x.1 x.2 l n)).map (·.id)

/-- A read of the group itself follows its own earlier writes to the same place (11 R182). -/
def catchUp (s : State) (gid : Nat) (l : Loc) (n : Nat) : State :=
  let s := if isPeer l then flushPosted s gid else s
  if (ownWrite s gid l n).isSome then performAll s gid else s

/-- A group in hand with the copy faults that performing its operations found. -/
def refresh (s : State) (g : Group) : Group :=
  { g with copyFaults := ((findGroup s g.id).map (·.copyFaults)).getD g.copyFaults }

/-- Places that a group's instruction is to read at its issue, its own writes to them performed as far as they can be; and
the first of these writes that still waits. -/
def ownLocs (s : State) (gid size : Nat) (locs : List Loc) : Option Nat × State :=
  locs.foldl (fun r l =>
    if r.1.isSome then r else let s := catchUp r.2 gid l size; (ownWrite s gid l size, s)) (none, s)

/-- The same for the places of a range. -/
def ownPlaces (s : State) (g : Group) (rd : Reader) (ea : DWord) (n : Nat) : Option Nat × State :=
  let chunks := (List.range (n / 64 + 2)).map fun i => (ea.toNat / 64 + i) * 64
  chunks.foldl (fun r a =>
    let lo := max a ea.toNat
    let hi := min (a + 64) (ea.toNat + n)
    if hi ≤ lo || r.1.isSome then r
    else
      match resolveGlobal r.2 rd.core rd.part rd.origin rd.emu (BitVec.ofNat 64 lo) (hi - lo) 1 .read rd.window with
      | (.at l, s) => ownLocs s g.id (hi - lo) [l]
      | (_, s) => (none, s)) (none, s)

/-- A range read by a group's instruction at its issue, after its own writes. -/
def readOwn (s : State) (g : Group) (rd : Reader) (ea : DWord) (n : Nat) : RangeRead × State :=
  readRange (ownPlaces s g rd ea n).2 rd ea n

/-- An instruction reads a range at its issue and goes on; where an earlier write of its group to the range still waits, it
waits too (11 R182; log entry 121). -/
def withOwnRange (s : State) (g : Group) (cur : Cur) (rd : Reader) (ea : DWord) (n : Nat)
    (act : RangeRead → State → Group → State) : State :=
  match ownPlaces s g rd ea n with
  | (some id, s) => parkHere s (refresh s g) cur (.op id)
  | (none, _) => let r := readOwn s g rd ea n; act r.1 r.2 (refresh r.2 g)

end Sys2Proof.Machine
end

