-- ==== Sys2Proof/Machine/MemInstr.lean ====
section
/-! DEFINITION. Memory instructions, majors 0x58 to 0x5F (03 R57 to R60; 11 R173 to R192; 15 R218 to R222). -/

namespace Sys2Proof.Machine

/-! ### Before a memory instruction acts -/

/-- Operations of a class that may be outstanding (11 R189). -/
def counterMax : Nat := 63

/-- A memory instruction waits for a fence or an acquire of its group, has no effect without a guard set, and waits for
room in its counter (11 R185, R189; 15 R237). -/
def memoryReady (s : State) (g : Group) (cur : Cur) (m : DWord) (cls : Option OpClass) (act : State) : State :=
  if memoryHeld s g.id then parkHere s g cur .fence
  else if m = 0 then closeIssue s (advance g cur.active cur) cur false
  else
    match cls with
    | some c => if counterMax ≤ counterOf s g.id c then parkHere s g cur (.counter c (counterMax - 1)) else act
    | none => act

/-- A lane's access as a range comparator sees it: the lane, its address, its bytes. -/
abbrev DataRange := Nat × DWord × Nat

/-- Whether no comparator matches this issue; the issues of a substitution are watched too (23 R353). -/
def skipsData (g : Group) (cur : Cur) : Bool := (g.skips ||| g.resumed) &&& cur.active != 0

/-- The range comparator that matches: the lowest matching lane's address, and whether it halts (21 R345, R346). -/
def breakData (s : State) (g : Group) (cur : Cur) (reads writes : Bool) (l : List DataRange) : Option (DWord × Bool) :=
  if skipsData g cur then none
  else
    let d := (coreAt s g.core).dbg
    (List.range 2).findSome? fun c =>
      let en := enableAt d.ctl (12 + 2 * c)
      let kind := enableAt d.ctl (8 + 2 * c)
      let lo := (d.lo.getD c 0).toNat
      let hi := (d.hi.getD c 0).toNat
      let lm := d.lm.getD c 0
      if (en == 1 || en == 2) && ((reads && kind % 2 == 1) || (writes && 2 ≤ kind)) then
        (l.find? fun x =>
          let a := (x.2.1.extractLsb' 0 57).toNat
          lm.getLsbD x.1 && a ≤ hi && lo < a + x.2.2).map fun x => (x.2.1, en == 2)
      else none

/-- An instruction goes on where no range comparator matches. -/
def afterBreak (s : State) (g : Group) (cur : Cur) (reads writes : Bool) (l : List DataRange) (act : State) : State :=
  match breakData s g cur reads writes l with
  | some (a, false) => trapHere s g cur (trapReq cur cur.active 0x281 a)
  | some (_, true) => debugHalt s g cur 0x281
  | none => act

/-! ### Lanes' places (11 R173, R174) -/

/-- Where one lane's access goes, in order of its bytes, or the fault it meets. -/
inductive LanePlace where
  | ok (locs : List Loc)
  | fault (f : LaneFault)
  deriving DecidableEq, Repr

/-- The page a fault on an address names: for a block in an overflow region, that of its global address. -/
def faultPage (rd : Reader) (ea : DWord) (size : Nat) : Nat :=
  if isTransient ea then match windowOf rd.part rd.origin ea size with | .overflow va => pageOf ((va.extractLsb' 0 57).toNat) | _ => 0
  else pageOf ((ea.extractLsb' 0 57).toNat)

def placeGlobal (s : State) (rd : Reader) (lane : Nat) (ea : DWord) (size align : Nat) (u : Use) : LanePlace × State :=
  match resolveGlobal s rd.core rd.part rd.origin rd.emu ea size align u rd.window with
  | (.at l, s) => (.ok [l], s)
  | (.fault c, s) => (.fault ⟨lane, c, ea, faultPage rd ea size⟩, s)

/-- A scratchpad access; the words of an absent line are not read before it is present (03 R57). -/
def placeScratch (s : State) (t : Team) (lane : Nat) (ea : DWord) (size align : Nat) (u : Use) : LanePlace × State :=
  let r := resolveScratch s t ea size align
  let absent := match r with | .at (.scratch team off) => !linePresent s team (off / 64) | _ => false
  match if absent then r else checkRead s u size r with
  | .at l => (.ok [l], s)
  | .fault c => (.fault ⟨lane, c, ea, 0⟩, s)

/-- The pieces of a private access: one for each 4-byte word it covers (11 R180). -/
def privatePieces (o size : Nat) : List (Nat × Nat) :=
  if size ≤ 4 then [(o, size)] else (List.range (size / 4)).map fun k => (o + 4 * k, 4)

/-- A private access: BOUNDS, alignment, then each word as a global access. TVAL is the global address of the lane's
private offset (11 R181). -/
def placePrivate (s : State) (g : Group) (rd : Reader) (lane : Nat) (ea : DWord) (size align : Nat) (u : Use) :
    LanePlace × State :=
  let l := laneAt g lane
  let o := ea.toNat
  let tval := BitVec.ofNat 64 (privateVa l g.w o)
  if ea.toInt < 0 || g.privb.toInt < ea.toInt + size then (.fault ⟨lane, causeBounds, tval, 0⟩, s)
  else if o % align != 0 then (.fault ⟨lane, causeMisaligned, tval, 0⟩, s)
  else
    (privatePieces o size).foldl (fun r x =>
      match r.1 with
      | .fault _ => r
      | .ok locs =>
        let va := privateVa l g.w x.1
        match resolveGlobal r.2 rd.core rd.part rd.origin false (BitVec.ofNat 64 va) x.2 x.2 u false with
        | (.at p, s) => (.ok (locs ++ [p]), s)
        | (.fault c, s) => (.fault ⟨lane, c, tval, pageOf va⟩, s)) (.ok [], s)

/-- Every lane's place, in ascending lane order. -/
def placeLanes (s : State) (lanes : List Nat) (f : State → Nat → LanePlace × State) : List (Nat × LanePlace) × State :=
  lanes.foldl (fun r i =>
    let x := f r.2 i
    (r.1 ++ [(i, x.1)], x.2)) ([], s)

def placed (l : List (Nat × LanePlace)) : List (Nat × Loc) :=
  l.flatMap fun x => match x.2 with | .ok locs => locs.map fun p => (x.1, p) | .fault _ => []
def placeFaults (l : List (Nat × LanePlace)) : List LaneFault :=
  l.filterMap fun x => match x.2 with | .fault f => some f | .ok _ => none
def faultSet (l : List LaneFault) : DWord := laneSet (l.map (·.lane))

/-- Scratchpad lines that are absent among some places (03 R57). -/
def absentLines (s : State) (l : List (Nat × Loc)) : List (Nat × Nat) :=
  (l.filterMap fun x =>
    match x.2 with
    | .scratch team off => if linePresent s team (off / 64) then none else some (team, off / 64)
    | _ => none).eraseDups

/-- The first arrival of a group at a line of some places that is still to be performed. -/
def arrivalAt (s : State) (gid : Nat) (l : List (Nat × Loc)) : Option Nat :=
  let sameLine (a b : Loc) : Bool :=
    match a, b with
    | .scratch t x, .scratch u y => t == u && x / 64 == y / 64
    | _, _ => false
  ((groupOps s gid).find? fun o =>
    match o.kind with
    | .clasp accs .. => !performed o && accs.any fun a => l.any fun x => sameLine a.loc x.2
    | _ => false).map (·.id)

/-- The arrivals that a group has issued at the lines of some places come before its next access to them (11 R182); the
first of them that still waits. -/
def arriveFirst (s : State) (gid : Nat) (l : List (Nat × Loc)) : Option Nat × State :=
  let s := if (arrivalAt s gid l).isSome then performAll s gid else s
  (arrivalAt s gid l, s)

/-- An instruction goes on once the group's arrivals at some lines are performed and the lines are present. -/
def withLines (s : State) (g : Group) (cur : Cur) (l : List (Nat × Loc)) (act : State → Group → State) : State :=
  match arriveFirst s g.id l with
  | (some id, s) => parkHere s (refresh s g) cur (.op id)
  | (none, s) =>
    match absentLines s l with
    | [] => act s (refresh s g)
    | lines => parkHere s (refresh s g) cur (.lines lines)

/-- An instruction that reads some places at its issue goes on once the group's own writes to them are performed (11
R182). -/
def withOwn (s : State) (g : Group) (cur : Cur) (size : Nat) (locs : List Loc) (act : State → Group → State) : State :=
  match ownLocs s g.id size locs with
  | (some id, s) => parkHere s (refresh s g) cur (.op id)
  | (none, s) => act s (refresh s g)

/-! ### The common course of a memory instruction -/

/-- An operation is submitted for the lanes without a fault, the others split off, and the active set goes on. An
operation without an access is complete at once (11 R189). -/
def submit (s : State) (g : Group) (cur : Cur) (cls : OpClass) (kind : OpKind) (owes empty : Bool) (faults : List LaneFault) :
    State :=
  let o := newOp s g cur (some cls) kind (owes && !empty)
  let s := addOp s { o with done := empty }
  let g := splitFaults g cur faults
  closeIssue s (advance g (cur.active &&& ~~~faultSet faults) cur) cur false

/-- What a per-lane memory instruction is: its counter, its kind of access, whether it parks on absent lines, the
lanes it acts for, their ranges and places, and the operation its places make. -/
structure MemPlan where
  cls : OpClass
  reads : Bool
  writes : Bool
  parks : Bool
  lanes : List Nat
  ranges : List DataRange
  place : State → Nat → LanePlace × State
  kind : List (Nat × Loc) → OpKind
  owes : Bool

def runPlan (s : State) (g : Group) (cur : Cur) (p : MemPlan) : State :=
  afterBreak s g cur p.reads p.writes p.ranges <|
    let r := placeLanes s p.lanes p.place
    let locs := placed r.1
    let act (s : State) (g : Group) : State := submit s g cur p.cls (p.kind locs) p.owes locs.isEmpty (placeFaults r.1)
    if p.parks then withLines r.2 g cur locs act else act r.2 (refresh r.2 g)

/-- Lanes whose stores, atomics and EMITs are not suppressed (03 R63). -/
def actingLanes (g : Group) (m : DWord) : List Nat := (laneList g.w m).filter fun i => !(laneAt g i).helper

/-- A memory instruction of a group whose team and partition stand. -/
def issueMem (i : Instr) (f : MF) (cls : OpClass) (s : State)
    (act : State → Group → Cur → Team → Partition → DWord → State) : Result :=
  issueGroup i s fun s g cur =>
    let m := guardSet g cur.active f.gk f.gn
    memoryReady s g cur m (some cls) <|
      match teamOf s g, teamPartition s g.team with
      | some t, some p => act s g cur t p m
      | _, _ => s

def isAcq (o : Ord4) : Bool := o == .acquire || o == .acqRel
def isRel (o : Ord4) : Bool := o == .release || o == .acqRel

/-- The accesses of a store: each piece takes its bytes of the lane's data in order. -/
def storeAccs (locs : List (Nat × Loc)) (pieceSize : Nat) (data : Nat → List Byte) : List Access :=
  ((locs.map (·.1)).eraseDups).flatMap fun i =>
    (locs.filter (·.1 == i)).mapIdx fun k x => ⟨i, x.2, ((data i).drop (pieceSize * k)).take pieceSize⟩

def loadAccs (locs : List (Nat × Loc)) : List Access := locs.map fun x => ⟨x.1, x.2, []⟩

/-- A load of a group from places of a size each. -/
def loadKind (f : MF) (readOnly : Bool) (pieceSize : Nat) (locs : List (Nat × Loc)) : OpKind :=
  .load (loadAccs locs) f.ty pieceSize f.d.toNat f.sc.toNat (isAcq f.ord) f.rmt readOnly (f.ch == 3)

def storeKind (g : Group) (f : MF) (noAlloc : Bool) (pieceSize : Nat) (locs : List (Nat × Loc)) : OpKind :=
  .store (storeAccs locs pieceSize (storeData g f.ty f.cnt.toNat f.d.toNat)) f.sc.toNat (isRel f.ord) noAlloc

/-! ### Loads and stores -/

/-- LD and LDNC. -/
def loadGlobal (i : Instr) (f : MF) (readOnly : Bool) (s : State) : Result :=
  issueMem i f .load s fun s g cur _ p m =>
    let size := accessSize f.ty f.cnt.toNat
    let rd := groupReader s g p m
    let lanes := laneList g.w m
    runPlan s g cur ⟨.load, true, false, false, lanes, lanes.map fun l => (l, laneEa g f l, size),
      fun s l => placeGlobal s rd l (laneEa g f l) size (accessAlign f.ty f.cnt.toNat) .read, loadKind f readOnly size, true⟩

def execLd (f : MF) (s : State) : Result := loadGlobal (.ld f) f false s
def execLdnc (f : MF) (s : State) : Result := loadGlobal (.ldnc f) f true s

/-- ST and STNC. -/
def storeGlobal (i : Instr) (f : MF) (noAlloc : Bool) (s : State) : Result :=
  issueMem i f .store s fun s g cur _ p m =>
    let size := accessSize f.ty f.cnt.toNat
    let rd := groupReader s g p m
    let lanes := actingLanes g m
    runPlan s g cur ⟨.store, false, true, false, lanes, lanes.map fun l => (l, laneEa g f l, size),
      fun s l => placeGlobal s rd l (laneEa g f l) size (accessAlign f.ty f.cnt.toNat) .write,
      storeKind g f noAlloc size, false⟩

def execSt (f : MF) (s : State) : Result := storeGlobal (.st f) f false s
def execStnc (f : MF) (s : State) : Result := storeGlobal (.stnc f) f true s

def execLds (f : MF) (s : State) : Result :=
  issueMem (.lds f) f .load s fun s g cur t _ m =>
    let size := accessSize f.ty f.cnt.toNat
    let lanes := laneList g.w m
    runPlan s g cur ⟨.load, true, false, true, lanes, lanes.map fun l => (l, laneEa g f l, size),
      fun s l => placeScratch s t l (laneEa g f l) size (accessAlign f.ty f.cnt.toNat) .read, loadKind f false size, true⟩

def execSts (f : MF) (s : State) : Result :=
  issueMem (.sts f) f .store s fun s g cur t _ m =>
    let size := accessSize f.ty f.cnt.toNat
    let lanes := actingLanes g m
    runPlan s g cur ⟨.store, false, true, true, lanes, lanes.map fun l => (l, laneEa g f l, size),
      fun s l => placeScratch s t l (laneEa g f l) size (accessAlign f.ty f.cnt.toNat) .write, storeKind g f false size, false⟩

def execLdp (f : MF) (s : State) : Result :=
  issueMem (.ldp f) f .load s fun s g cur _ p m =>
    let size := accessSize f.ty f.cnt.toNat
    let rd := groupReader s g p m
    let lanes := laneList g.w m
    runPlan s g cur ⟨.load, true, false, false, lanes, lanes.map fun l => (l, laneEa g f l, size),
      fun s l => placePrivate s g rd l (laneEa g f l) size (accessAlign f.ty f.cnt.toNat) .read,
      loadKind f false (min 4 size), true⟩

def execStp (f : MF) (s : State) : Result :=
  issueMem (.stp f) f .store s fun s g cur _ p m =>
    let size := accessSize f.ty f.cnt.toNat
    let rd := groupReader s g p m
    let lanes := actingLanes g m
    runPlan s g cur ⟨.store, false, true, false, lanes, lanes.map fun l => (l, laneEa g f l, size),
      fun s l => placePrivate s g rd l (laneEa g f l) size (accessAlign f.ty f.cnt.toNat) .write,
      storeKind g f false (min 4 size), false⟩

/-! ### Resource-relative accesses (11 R177, 15 R222) -/

/-- A resource entry that LDR and STR may use: base, size and whether it may be written. -/
def bufferEntry (b : List Byte) : Option (Nat × Nat × Bool) :=
  if fieldNat b 16 1 == 1 && fieldNat b 17 1 ≤ 1 && (b.drop 18).all (· == 0) then
    some (fieldNat b 0 8, fieldNat b 8 8, fieldNat b 17 1 == 1)
  else none

/-- The address of the entry that `s[A]` names, from s60. -/
def entryEa (g : Group) (a : BitVec 8) : DWord := sreg g 60 + 64 * ((baseReg g a) &&& 0xFFFFFFFF)

/-- A lane's signed offset within the resource. -/
def resourceOffset (g : Group) (f : MF) (lane : Nat) : Int :=
  (if f.b = 0xFF then 0 else (vreg g lane f.b.toNat).toInt) + f.ofs.toInt

def resourceEa (g : Group) (f : MF) (base lane : Nat) : DWord := BitVec.ofInt 64 ((base : Int) + resourceOffset g f lane)

/-- One lane's access within a buffer: the offset test, then the global checks. The entry's WR is tested with the pages'
permissions (11 R174, 15 R222). -/
def placeResource (s : State) (g : Group) (f : MF) (rd : Reader) (e : Nat × Nat × Bool) (lane size align : Nat) (u : Use) :
    LanePlace × State :=
  let o := resourceOffset g f lane
  let ea := resourceEa g f e.1 lane
  if o < 0 || (e.2.1 : Int) < o + size then (.fault ⟨lane, causeBounds, ea, 0⟩, s)
  else if usesWrite u && !e.2.2 then
    let c := (rangeCheck rd.part rd.origin rd.emu ea size rd.window).getD
      (if ea.toNat % align != 0 then causeMisaligned else causePermission)
    (.fault ⟨lane, c, ea, 0⟩, s)
  else placeGlobal s rd lane ea size align u

/-- The whole guard set faults on the resource entry itself; the rest of the active set goes on. -/
def entryFault (s : State) (g : Group) (cur : Cur) (cls : OpClass) (m : DWord) (c : Cause) (ea : DWord) : State :=
  submit s g cur cls (.result [] []) false true
    ((laneList g.w m).map fun i => ⟨i, c, ea, pageOf ((ea.extractLsb' 0 57).toNat)⟩)

/-- The pc-set waits for a stream page before its instruction issues. -/
def parkStream (s : State) (g : Group) (cur : Cur) (va : Nat) : State :=
  parkHere s (splitSet g cur.active) cur (.stream (va / 65536) (trapReq cur cur.active causeStreamFail (canonicalVa va)))

/-- LDR and STR: the entry is read at issue. -/
def resourceMem (i : Instr) (f : MF) (cls : OpClass) (u : Use) (s : State) : Result :=
  issueMem i f cls s fun s g cur _ p m =>
    let size := accessSize f.ty f.cnt.toNat
    let rd := groupReader s g p m
    let lanes := if u == .write then actingLanes g m else laneList g.w m
    let at_ := entryEa g f.a
    withOwnRange s g cur rd at_ 64 fun r s g =>
      match r with
      | .fault c ea => entryFault s g cur cls m c ea
      | .stream va => parkStream s g cur va
      | .bytes b =>
        match bufferEntry b with
        | none => entryFault s g cur cls m causeBounds at_
        | some e =>
          runPlan s g cur ⟨cls, u == .read, u == .write, false, lanes, lanes.map fun l => (l, resourceEa g f e.1 l, size),
            fun s l => placeResource s g f rd e l size (accessAlign f.ty f.cnt.toNat) u,
            if u == .write then storeKind g f false size else loadKind f false size, u == .read⟩

def execLdr (f : MF) (s : State) : Result := resourceMem (.ldr f) f .load .read s
def execStr (f : MF) (s : State) : Result := resourceMem (.str f) f .store .write s

/-! ### Atomics (11 R183, R184) -/

/-- The operands of a lane: x, or for CAS the compare and the new value. -/
def atomOperands (g : Group) (op : AtomOp) (f : MF) (lane : Nat) : DWord × DWord :=
  let wide := isWide f.ty
  match op with
  | .cas => (readReg g lane f.d.toNat wide, readReg g lane (f.d.toNat + if wide then 2 else 1) wide)
  | _ => (readReg g lane f.d.toNat wide, 0)

def atomAccs (g : Group) (op : AtomOp) (f : MF) (locs : List (Nat × Loc)) : List AtomAcc :=
  locs.map fun x => let v := atomOperands g op f x.1; ⟨x.1, x.2, v.1, v.2⟩

/-- ATOM and RED in either space. -/
def atomic (i : Instr) (op : AtomOp) (f : MF) (ret : Option Nat) (s : State) : Result :=
  let cls : OpClass := if ret.isSome then .load else .store
  issueMem i f cls s fun s g cur t p m =>
    let size := elemBytes f.ty
    let rd := groupReader s g p m
    let lanes := actingLanes g m
    let near := f.nf && (ret.isNone || f.sc.toNat < 2)
    runPlan s g cur ⟨cls, true, true, f.space, lanes, lanes.map fun l => (l, laneEa g f l, size),
      fun s l => if f.space then placeScratch s t l (laneEa g f l) size size .atomic
        else placeGlobal s rd l (laneEa g f l) size size .atomic,
      fun locs => .atom op f.ty (atomAccs g op f locs) f.sc.toNat (isAcq f.ord) (isRel f.ord) f.rmt near ret, ret.isSome⟩

def execAtom (op : AtomOp) (f : MF) (s : State) : Result := atomic (.atom op f) op f (some f.d.toNat) s
def execRed (op : RedOp) (f : MF) (s : State) : Result := atomic (.red op f) (redAsAtom op) f none s

/-- CLASP never parks on absence and is aligned to a line (03 R57, R58). -/
def execAtomClasp (f : MF) (s : State) : Result :=
  let ret := if f.d = 0xFF then none else some f.d.toNat
  let cls : OpClass := if ret.isSome then .load else .store
  issueMem (.atomClasp f) f cls s fun s g cur t _ m =>
    let lanes := actingLanes g m
    runPlan s g cur ⟨cls, true, true, false, lanes, lanes.map fun l => (l, laneEa g f l, 4),
      fun s l => placeScratch s t l (laneEa g f l) 4 64 .atomic,
      fun locs => .clasp (locs.map fun x => ⟨x.1, x.2, 0, 0⟩) f.sc.toNat (isAcq f.ord) (isRel f.ord) ret, ret.isSome⟩

/-! ### Fences and cache maintenance (11 R185 to R188) -/

/-- A group-wide member that acts once if its guard set is non-empty. -/
def issueWide (i : Instr) (f : MF) (cls : Option OpClass) (s : State)
    (act : State → Group → Cur → Team → Partition → DWord → State) : Result :=
  issueGroup i s fun s g cur =>
    let m := guardSet g cur.active f.gk f.gn
    memoryReady s g cur m cls <|
      match teamOf s g, teamPartition s g.team with
      | some t, some p => act s g cur t p m
      | _, _ => s

/-- An operation that counts in no counter. -/
def submitFree (s : State) (g : Group) (cur : Cur) (kind : OpKind) : State :=
  closeIssue (addOp s (newOp s g cur none kind false)) (advance g cur.active cur) cur false

def execFence (f : MF) (s : State) : Result :=
  issueWide (.fence f) f none s fun s g cur _ _ _ =>
    submitFree s g cur (.fence f.sc.toNat (isAcq f.ord) (isRel f.ord) (f.ofs == 1))
def execLfence (f : MF) (s : State) : Result :=
  issueWide (.lfence f) f none s fun s g cur _ _ _ => submitFree s g cur .lfence

/-- The range of a member that acts once, as a range comparator sees it: every lane of the guard set. -/
def wideRange (g : Group) (m : DWord) (ea : DWord) (n : Nat) : List DataRange := (laneList g.w m).map fun i => (i, ea, n)

/-- The whole guard set faults at one address as one lane set. -/
def wideFault (s : State) (g : Group) (cur : Cur) (m : DWord) (c : Cause) (tval : DWord) (page : Nat) : State :=
  let g := splitFaults g cur ((laneList g.w m).map fun i => ⟨i, c, tval, page⟩)
  closeIssue s (advance g (cur.active &&& ~~~m) cur) cur false

/-- The length of a range: s[D], or one line where D is 0xFF. -/
def rangeLength (g : Group) (f : MF) : Nat := if f.d = 0xFF then 1 else (sreg g f.d.toNat).toNat

/-- The lines a range overlaps, by address. -/
def rangeLines (ea len unit : Nat) : List Nat :=
  if len = 0 then [] else (List.range ((ea + len - 1) / unit - ea / unit + 1)).map fun k => (ea / unit + k) * unit

/-- ICINV: the pc-set parks until every core acted on has acknowledged. -/
def execIcinv (f : MF) (s : State) : Result :=
  issueWide (.icinv f) f none s fun s g cur _ _ m =>
    let ea := uniformEa g f
    if isTransient ea || !canonical ea then wideFault s g cur m causePermission ea (pageOf ((ea.extractLsb' 0 57).toNat))
    else
      let o := newOp s g cur none (.icinv ea.toNat (rangeLength g f) (f.sc == 4)) false
      let g := parkLanes (advance g cur.active cur) cur.active (.op o.id)
      closeIssue (addOp s o) g cur true

/-- The pages of a range of CINV or CWB, translated as for a load, with their cached lines; or the lowest fault. -/
def rangePlaces (s : State) (rd : Reader) (ea : DWord) (len : Nat) : (List Loc ⊕ LaneFault) × State :=
  let start := ea.toNat
  if len = 0 && !canonical ea then (.inr ⟨0, causePermission, ea, pageOf ((ea.extractLsb' 0 57).toNat)⟩, s)
  else
    (rangeLines start len 4096).foldl (fun r a =>
      match r.1 with
      | .inr _ => r
      | .inl locs =>
        let lo := max a start
        let addr := BitVec.ofNat 64 lo
        match resolveGlobal r.2 rd.core rd.part rd.origin rd.emu addr 1 1 .maintain false with
        | (.fault c, s) => (.inr ⟨0, c, addr, pageOf ((addr.extractLsb' 0 57).toNat)⟩, s)
        | (.at (.page ty pa va), s) =>
          if ty = .peer then (.inl locs, s)
          else
            (.inl (locs ++ (rangeLines pa (min (a + 4096) (start + len) - lo) 64).map fun x => .page ty x (va + x - pa)), s)
        | (.at _, s) => (.inl locs, s)) (.inl [], s)

/-- The range of CINV or CWB in the space its address names: a ring block holds no cached line. -/
def maintainPlaces (s : State) (rd : Reader) (ea : DWord) (len : Nat) : (List Loc ⊕ LaneFault) × State :=
  if isTransient ea then
    match windowOf rd.part rd.origin ea len with
    | .range => (.inr ⟨0, causeTransientRange, ea, 0⟩, s)
    | .ring _ _ _ => (.inl [], s)
    | .overflow va =>
      match rangePlaces s rd va len with
      | (.inr x, s) => (.inr { x with tval := ea + (x.tval - va) }, s)
      | r => r
  else rangePlaces s rd ea len

/-- CINV and CWB: a range comparator sees their range as read (log entry 72). -/
def maintain (i : Instr) (f : MF) (kind : List Loc → OpKind) (s : State) : Result :=
  issueWide i f (some .store) s fun s g cur _ p m =>
    afterBreak s g cur true false (wideRange g m (uniformEa g f) (rangeLength g f)) <|
    match maintainPlaces s (groupReader s g p m) (uniformEa g f) (rangeLength g f) with
    | (.inr x, s) => submit s g cur .store (kind []) false true ((laneList g.w m).map fun i => { x with lane := i })
    | (.inl locs, s) => submit s g cur .store (kind locs) false false []

def execCinv (f : MF) (s : State) : Result := maintain (.cinv f) f (fun l => .invalidate l f.sc.toNat) s
def execCwb (f : MF) (s : State) : Result := maintain (.cwb f) f (fun l => .writeBack l f.sc.toNat) s

/-- One lane's prefetch; a failed translation drops it. -/
def prefetchLane (s : State) (rd : Reader) (ea : DWord) (l2only : Bool) : State :=
  match resolveGlobal s rd.core rd.part rd.origin rd.emu ea 1 1 .maintain true with
  | (.at (.page ty pa va), s) =>
    if ty = .peer then s
    else if !l2only then holdLine s rd.core ty pa va false
    else if homeDirect s rd.core ty pa then holdHome s rd.core ty pa va
    else holdSlice s rd.core ty (pa / 256) va
  | (_, s) => s

/-- PREF never faults, waits or counts. -/
def execPref (f : MF) (s : State) : Result :=
  issueGroup (.pref f) s fun s g cur =>
    let m := guardSet g cur.active f.gk f.gn
    let s := match teamPartition s g.team with
      | some p =>
        let rd := groupReader s g p m
        (laneList g.w m).foldl (fun s i => prefetchLane s rd (laneEa g f i) (f.ch == 1)) s
      | none => s
    closeIssue s (advance g cur.active cur) cur false

/-! ### Copies and waits (11 R190 to R192) -/

/-- A tensor region record that meets every limit. -/
def copyRecord (b : List Byte) : Option CopyRec :=
  let c : CopyRec := ⟨fieldNat b 0 8, signedNat 64 (fieldNat b 8 8), fieldNat b 16 4, fieldNat b 20 4, fieldNat b 24 4,
    fieldNat b 28 2, fieldNat b 30 1 == 0⟩
  if c.gaddr % 4 == 0 && c.gstride % 4 == 0 && c.saddr % 4 == 0 && c.sstride % 4 == 0 && c.rowBytes ≤ c.sstride
      && c.rowBytes % 4 == 0 && 4 ≤ c.rowBytes && c.rowBytes ≤ 65536 && 1 ≤ c.rows && c.rows ≤ 4096
      && fieldNat b 30 1 ≤ 1 && fieldNat b 31 1 == 0 then some c
  else none

/-- The first row that is out of the scratchpad window's range. -/
def badRow (s : State) (t : Team) (c : CopyRec) : Option Nat :=
  (List.range c.rows).findSome? fun i =>
    let a := c.saddr + i * c.sstride
    match resolveScratch s t (BitVec.ofNat 64 a) c.rowBytes 1 with
    | .fault _ => some a
    | .at _ => none

/-- A copy whose record has been read: its checks, then the wait for its lines, then submission. -/
def submitCopy (f : MF) (s : State) (g : Group) (cur : Cur) (t : Team) (m : DWord) (b : List Byte) : State :=
  let fault (s : State) (c : Cause) (tval : DWord) : State :=
    submit s g cur .copy (.result [] []) false true ((laneList g.w m).map fun i => ⟨i, c, tval, 0⟩)
  match copyRecord b with
  | none => fault { s with fresh := s.fresh + 1 } 0x200 (Config.freeDWord s.fresh)
  | some c =>
    match badRow s t c with
    | some a => fault s causeScratchRange (BitVec.ofNat 64 a)
    | none =>
      let lines := copyLines s t c
      withLines s g cur (lines.map fun l => (0, .scratch l.1 (64 * l.2))) fun s g =>
        let s := if c.toScratch then lines.foldl (fun s l => clearPresence s l.1 l.2) s else s
        submit s g cur .copy (.copy c f.sc.toNat (isRel f.ord) []) false false []

def execCpy (f : MF) (s : State) : Result :=
  issueWide (.cpy f) f (some .copy) s fun s g cur t p m =>
    let ea := uniformEa g f
    let fault (s : State) (c : Cause) (a : DWord) : State :=
      submit s g cur .copy (.result [] []) false true
        ((laneList g.w m).map fun i => ⟨i, c, a, pageOf ((a.extractLsb' 0 57).toNat)⟩)
    afterBreak s g cur true false (wideRange g m ea 32) <|
    if f.space then
      match resolveScratch s t ea 32 32 with
      | .fault c => fault s c ea
      | .at l =>
        withLines s g cur [(0, l)] fun s g => withOwn s g cur 32 [l] fun s g =>
          if badAt s l 32 then fault s causeEcc ea else submitCopy f s g cur t m (loadLoc s g.core l 32 0 false).1
    else
      let rd := groupReader s g p m
      match resolveGlobal s g.core p t.origin rd.emu ea 32 32 .read true with
      | (.fault c, s) => fault s c ea
      | (.at (.stream va), s) => parkStream s g cur va
      | (.at l, s) => withOwn s g cur 32 [l] fun s g =>
        let r := loadLoc s g.core l 32 0 false
        submitCopy f r.2 (refresh r.2 g) cur t m r.1

def classOfCode (n : Nat) : OpClass := match n with | 0 => .load | 1 => .store | 2 => .copy | 3 => .matrix | _ => .vq

/-- A WAITC that is satisfied: on COPY the faults of the copies it covers are raised, the oldest by the trap and the
others by an event record each; on VQ with the bound 0 the results of TRACE count as acquired (11 R191, R192; 15 R244). -/
def passWait (s : State) (g : Group) (cur : Cur) (m : DWord) (c : OpClass) (n : Nat) : State :=
  let s := if c = .vq ∧ n = 0 then acquireAt s g.core 3 else s
  let covered := sortBy (fun x y => x.1 ≤ y.1) (g.copyFaults.filter fun x => (findOp s x.1).isNone)
  match c, covered with
  | .copy, x :: rest =>
    let s := rest.foldl (fun s y => coreRecord s g.core 0x106 (partOfGroup s g) false [y.2]) s
    let g := { g with copyFaults := g.copyFaults.filter fun y => !covered.contains y }
    wideFault s g cur m causeCopyFault x.2 0
  | _, _ => closeIssue s (advance g cur.active cur) cur true

def execWaitc (f : MF) (s : State) : Result :=
  issueGroup (.waitc f) s fun s g cur =>
    let m := guardSet g cur.active f.gk f.gn
    let c := classOfCode f.d.toNat
    if m = 0 then closeIssue s (advance g cur.active cur) cur true
    else if counterOf s g.id c ≤ f.ofs.toNat then passWait s g cur m c f.ofs.toNat
    else parkHere s g cur (.counter c f.ofs.toNat)

end Sys2Proof.Machine
end

