-- ==== Sys2Proof/Machine/Work.lean ====
section
/-! DEFINITION. Work creation, identifiers, clocks, CSRs and counters, majors 0x68 to 0x6A, 0x78 and 0x79 (01 R26;
03 R60, R66, R67; 05 R94; 07 R124 to R126; 11 R193 to R199; 19 R320; 20 R321; 21 R325, R336, R345; 23 R356; 25 R390). -/

namespace Sys2Proof.Machine

/-! ### EMIT and LAUNCH -/

/-- The bytes at a lane's places, in order. -/
def bytesAt (s : State) (core size : Nat) (locs : List Loc) : List Byte × State :=
  locs.foldl (fun r l => let x := loadLoc r.2 core l size 0 false; (r.1 ++ x.1, x.2)) ([], s)

/-- The records of the lanes whose places stand. -/
def recordsAt (s : State) (core : Nat) (l : List (Nat × LanePlace)) : List (List Byte) × State :=
  l.foldl (fun r y =>
    match y.2 with
    | .ok locs => let b := bytesAt r.2 core 4 locs; (r.1 ++ [b.1], b.2)
    | .fault _ => r) ([], s)

/-- EMIT: one record for each lane that is not a helper, read from its private memory at issue (11 R193). -/
def execEmit (f : MF) (s : State) : Result :=
  issueMem (.emit f) f .store s fun s g cur _ p m =>
    let rd := groupReader s g p m
    let lanes := actingLanes g m
    afterBreak s g cur true false (lanes.map fun l => (l, laneEa g f l, 64)) <|
      let r := placeLanes s lanes fun s l => placePrivate s g rd l (laneEa g f l) 64 4 .read
      withOwn r.2 g cur 4 ((placed r.1).map (·.2)) fun s g =>
        let rs := recordsAt s g.core r.1
        submit rs.2 (refresh rs.2 g) cur .store (.emit rs.1) false rs.1.isEmpty (placeFaults r.1)

/-- The team and offset of a legal join address of a team's cluster (03 R70). -/
def joinPlace (s : State) (t : Team) (addr : Nat) : Option (Nat × Nat) :=
  if addr % 64 != 0 then none
  else
    match resolveScratch s t (BitVec.ofNat 64 addr) 64 64 with
    | .at (.scratch team off) => some (team, off)
    | _ => none

/-- LAUNCH counts a child on its join line and clears the line's presence (03 R60). -/
def countChild (s : State) (team off : Nat) : State :=
  let n := bytesNat (readScratch s team off 4)
  clearPresence (writeScratch s team off (natBytes 4 (n + 1))) team (off / 64)

/-- Entries of a team's pending-launch queue (03 R66). -/
def pendingMax : Nat := 4

/-- The first operation of a group that a release of it waits for (15 R236). -/
def releaseWaits (s : State) (gid : Nat) : Option Nat :=
  ((groupOps s gid).find? fun q => !(performed q || q.cls == some .vq || heldRed q)).map (·.id)

/-- The packet enters the queue, as a release at device scope of the group's earlier stores. -/
def enqueueLaunch (s : State) (g : Group) (t : Team) (l : Loc) : State :=
  let s := releaseFrom s g.core t.part t.id 3
  let b := (loadLoc s g.core l 128 0 false).1
  let addr := fieldNat b 0x58 4
  let join := if fieldNat b 0 1 = 1 then none else joinPlace s t addr
  let s := match join with | some j => countChild s j.1 j.2 | none => s
  modTeam s t.id fun t =>
    { t with pendLaunch := t.pendLaunch ++ [⟨b, join.map fun _ => ⟨t.grid, t.cluster, addr⟩, g.core⟩] }

def execLaunch (f : MF) (s : State) : Result :=
  issueWide (.launch f) f none s fun s g cur t _ m =>
    let ea := uniformEa g f
    afterBreak s g cur true false (wideRange g m ea 128) <|
    match resolveScratch s t ea 128 128 with
    | .fault c => wideFault s g cur m c ea 0
    | .at l =>
      withLines s g cur [(0, l), (0, shiftLoc l 64)] fun s g =>
        if pendingMax ≤ t.pendLaunch.length then parkHere s g cur .pendingLaunch
        else
          let s := performAll s g.id
          let g := refresh s g
          match releaseWaits s g.id with
          | some id => parkHere s g cur (.op id)
          | none =>
            if badAt s l 128 then wideFault s g cur m causeEcc ea 0
            else
              let s := enqueueLaunch s g t l
              closeIssue s (advance (refresh s g) cur.active cur) cur false

/-! ### Identifiers and clocks -/

/-- The pixel of a team lane of a quad-bound tile instance (20 R321). -/
def pixelOf (t : Team) (lane : Nat) : Word :=
  match t.origin with
  | .tile _ _ =>
    if !isQuadBound t then 0xFFFFFFFF
    else
      let n := t.cluster * (t.packet.clw * t.packet.clh) + t.idx
      let q := n * (t.packet.teamLanes / 4) + lane / 4
      let xy := t.tileXY.toNat
      let side := 16 * 2 ^ (xy / 2 ^ 32 % 4)
      let h := side / 2
      if h * h ≤ q then 0xFFFFFFFF
      else
        let x := xy % 2 ^ 16 * side + 2 * (q % h) + lane % 2
        let y := xy / 2 ^ 16 % 2 ^ 16 * side + 2 * (q / h) + lane / 2 % 2
        BitVec.ofNat 32 (x % 2 ^ 16 + y * 2 ^ 16)
  | _ => 0xFFFFFFFF

def idValue (s : State) (g : Group) (sel lane : Nat) : Word :=
  let quad := ((teamOf s g).map isQuadBound).getD false
  match sel with
  | 0 => BitVec.ofNat 32 lane
  | 1 => BitVec.ofNat 32 (g.idx * g.w + lane)
  | 2 => if quad && (laneAt g lane).helper then 1 else 0
  | 3 => match teamOf s g with | some t => pixelOf t (g.idx * g.w + lane) | none => 0xFFFFFFFF
  | _ => BitVec.ofNat 32 (laneAt g lane).home

def execGetid (f : CF) (s : State) : Result :=
  issueGroup (.getid f) s fun s g cur =>
    let e := perLane g (guardSet g cur.active f.gk f.gn) fun i => ([.vec i f.d.toNat (idValue s g f.csr.toNat i)], 0)
    finishFixed s (dropLatches g e.writes) cur e

/-- The clock counter of a die (11 R196). -/
def clockOf (s : State) (die : Nat) : DWord := BitVec.ofNat 64 (s.now + (dieAt s die).clockOffset)

/-- A scalar of a group written when the guard set is non-empty. -/
def scalarIf (g : Group) (cur : Cur) (f : CF) (x : DWord) : Effect :=
  if guardSet g cur.active f.gk f.gn = 0 then noEffect else ⟨[.scalar f.d.toNat x], []⟩

def execClock (f : CF) (s : State) : Result :=
  issueGroup (.clock f) s fun s g cur => finishFixed s g cur (scalarIf g cur f (clockOf s (dieOfCore g.core)))

/-! ### Partition CSRs (19 R320, 21 R336) -/

def readPartCsr (p : Partition) (n : Nat) : DWord :=
  let c := p.csrs
  match n with
  | 0x200 => c.swapThr.zeroExtend 64
  | 0x201 => c.regTo.zeroExtend 64
  | 0x202 => c.rasThr.zeroExtend 64
  | 0x203 => c.tLimit.zeroExtend 64
  | 0x204 => c.prngSeed.zeroExtend 64
  | 0x205 => c.prngState.zeroExtend 64
  | 0x206 => c.predl1.zeroExtend 64
  | 0x207 => c.predl2.zeroExtend 64
  | 0x208 => c.recTo.zeroExtend 64
  | 0x209 => c.recQw.zeroExtend 64
  | 0x20A => c.recMw.zeroExtend 64
  | 0x20B => c.entTab
  | 0x20C => c.entCount.zeroExtend 64
  | 0x20D => c.tCouple
  | _ => 0

/-- A write of PRNGSEED sets the generator's state too, and neither stores a state of 0 (19 R295, R320). -/
def nonZero (x : Word) : Word := if x = 0 then 1 else x

def writePartCsr (p : Partition) (n : Nat) (x : DWord) : Partition :=
  let w : Word := x.extractLsb' 0 32
  let h : BitVec 16 := x.extractLsb' 0 16
  let c := p.csrs
  { p with csrs :=
    match n with
    | 0x200 => { c with swapThr := w }
    | 0x201 => { c with regTo := h }
    | 0x202 => { c with rasThr := w }
    | 0x203 => { c with tLimit := h }
    | 0x204 => { c with prngSeed := w, prngState := nonZero w }
    | 0x205 => { c with prngState := nonZero w }
    | 0x206 => { c with predl1 := w }
    | 0x207 => { c with predl2 := w }
    | 0x208 => { c with recTo := h }
    | 0x209 => { c with recQw := h }
    | 0x20A => { c with recMw := h }
    | 0x20B => { c with entTab := x &&& 0x01FFFFFFFFFFFF80 }
    | 0x20C => { c with entCount := h }
    | 0x20D => { c with tCouple := x }
    | _ => c }

/-! ### Trap and debug CSRs (21 R325, R345; 23 R356) -/

def readTrapCsr (t : TrapRegs) (n : Nat) : DWord :=
  match n with
  | 0x100 => t.tvec.zeroExtend 64
  | 0x101 => tcauseWord t
  | 0x102 => t.tpc.zeroExtend 64
  | 0x103 => t.tval
  | 0x104 => t.tmask
  | _ => tstateWord t

/-- TCAUSE and TMASK ignore writes, and so do PPRIV, INH and PEND of TSTATE. -/
def writeTrapCsr (t : TrapRegs) (n : Nat) (x : DWord) : TrapRegs :=
  match n with
  | 0x100 => { t with tvec := x.extractLsb' 0 32 }
  | 0x102 => { t with tpc := x.extractLsb' 0 32 }
  | 0x103 => { t with tval := x }
  | 0x105 => { t with ss := x.getLsbD 2, bpskip := x.getLsbD 3 }
  | _ => t

/-- EMSTAT: the firmware-window address of the group's save area, bits [56:10], and EMU. -/
def emstat (g : Group) : DWord :=
  BitVec.ofNat 64 ((2 ^ 57 - 2 ^ 25 + g.area.1 * 2 ^ 23 + 2 ^ 20 + 1024 * g.area.2) + if g.emu then 1 else 0)

def readDebug (d : Debug) (n : Nat) : DWord :=
  match n with
  | 0x110 | 0x111 | 0x112 | 0x113 => (d.pc.getD (n - 0x110) 0).zeroExtend 64
  | 0x114 => (d.lo.getD 0 0).zeroExtend 64
  | 0x115 => (d.hi.getD 0 0).zeroExtend 64
  | 0x116 => (d.lo.getD 1 0).zeroExtend 64
  | 0x117 => (d.hi.getD 1 0).zeroExtend 64
  | 0x118 => d.lm.getD 0 0
  | 0x119 => d.lm.getD 1 0
  | _ => d.ctl.zeroExtend 64

def writeDebug (d : Debug) (n : Nat) (x : DWord) : Debug :=
  match n with
  | 0x110 | 0x111 | 0x112 | 0x113 => { d with pc := d.pc.set (n - 0x110) (x.extractLsb' 0 32) }
  | 0x114 => { d with lo := d.lo.set 0 (x.extractLsb' 0 57) }
  | 0x115 => { d with hi := d.hi.set 0 (x.extractLsb' 0 57) }
  | 0x116 => { d with lo := d.lo.set 1 (x.extractLsb' 0 57) }
  | 0x117 => { d with hi := d.hi.set 1 (x.extractLsb' 0 57) }
  | 0x118 => { d with lm := d.lm.set 0 x }
  | 0x119 => { d with lm := d.lm.set 1 x }
  | _ => { d with ctl := x.extractLsb' 0 16 }

/-! ### The CSR members (11 R197, R198) -/

/-- A CSR as a group reads it. -/
def readCsr (s : State) (g : Group) (n : Nat) : DWord :=
  if 0x200 ≤ n then match findPart s (partOfGroup s g) with | some p => readPartCsr p n | none => 0
  else if 0x110 ≤ n then readDebug (coreAt s g.core).dbg n
  else if n = 0x106 then emstat g
  else if 0x100 ≤ n then readTrapCsr g.trap n
  else
    match n with
    | 0x000 => g.fst
    | 0x001 => g.ften
    | 0x002 => g.fmode
    | 0x010 => BitVec.ofNat 64 g.w
    | 0x011 => BitVec.ofNat 64 g.idx
    | 0x012 => BitVec.ofNat 64 (((teamOf s g).map (·.idx)).getD 0)
    | 0x013 => BitVec.ofNat 64 (((teamOf s g).map (·.cluster)).getD 0)
    | 0x014 => coreLoc s g.core
    | 0x015 => ((teamOf s g).map (·.tileXY)).getD 0
    | 0x020 => g.splim
    | _ => g.privb

/-- A CSR written by a group. -/
def writeCsr (s : State) (g : Group) (n : Nat) (x : DWord) : State × Group :=
  if 0x200 ≤ n then (modPart s (partOfGroup s g) fun p => writePartCsr p n x, g)
  else if 0x110 ≤ n then (modCore s g.core fun c => { c with dbg := writeDebug c.dbg n x }, g)
  else if n = 0x106 then (s, g)
  else if 0x100 ≤ n then (s, { g with trap := writeTrapCsr g.trap n x })
  else
    (s, match n with
      | 0x000 => { g with fst := x &&& 0x7F }
      | 0x001 => { g with ften := x &&& 0x3F }
      | 0x002 => { g with fmode := x &&& 0xF }
      | 0x020 => { g with splim := x }
      | 0x021 => { g with privb := x }
      | _ => g)

/-- A CSR as a control thread reads it (05 R94, R102). -/
def readThreadCsr (s : State) (t : Thread) (n : Nat) : DWord :=
  if 0x200 ≤ n then match findPart s t.part with | some p => readPartCsr p n | none => 0
  else if 0x100 ≤ n then readTrapCsr { t.trap with tmask := 1 } n
  else if n = 0x012 then BitVec.ofNat 64 (((findTeam s t.team).map (·.idx)).getD 0)
  else coreLoc s (leadCore t.quad)

def writeThreadCsr (s : State) (t : Thread) (n : Nat) (x : DWord) : State × Thread :=
  if 0x200 ≤ n then (modPart s t.part fun p => writePartCsr p n x, t)
  else (s, { t with trap := writeTrapCsr t.trap n x })

/-- CSRR counts in the LOAD counter (11 R189). -/
def execCsrr (f : CF) (s : State) : Result :=
  issueBoth (.csrr f) s
    (fun s g cur =>
      let e := scalarIf g cur f (readCsr s g f.csr.toNat)
      if e.writes.isEmpty then closeIssue s (advance g cur.active cur) cur false
      else if counterMax ≤ counterOf s g.id .load then parkHere s g cur (.counter .load (counterMax - 1))
      else finishVar s g cur (some .load) e)
    (fun s t cur =>
      let t' := if threadGuard t f.gk f.gn then setThreadReg t f.d.toNat (readThreadCsr s t f.csr.toNat) else t
      doneThread s t' cur.pc (pcNext cur.pc))

/-- A member that changes a CSR by the value of s[A]. -/
def changeCsr (i : Instr) (f : CF) (op : DWord → DWord → DWord) (s : State) : Result :=
  issueBoth i s
    (fun s g cur =>
      let r := if guardSet g cur.active f.gk f.gn = 0 then (s, g)
        else writeCsr s g f.csr.toNat (op (readCsr s g f.csr.toNat) (sreg g f.a.toNat))
      closeIssue r.1 (advance r.2 cur.active cur) cur false)
    (fun s t cur =>
      let r := if threadGuard t f.gk f.gn
        then writeThreadCsr s t f.csr.toNat (op (readThreadCsr s t f.csr.toNat) (threadReg t f.a.toNat))
        else (s, t)
      doneThread r.1 r.2 cur.pc (pcNext cur.pc))

def execCsrw (f : CF) (s : State) : Result := changeCsr (.csrw f) f (fun _ x => x) s
def execCsrs (f : CF) (s : State) : Result := changeCsr (.csrs f) f (· ||| ·) s
def execCsrc (f : CF) (s : State) : Result := changeCsr (.csrc f) f (fun c x => c &&& ~~~x) s

/-! ### EVRD (11 R199, 25 R390) -/

def coreCodeAssigned (c : Nat) : Bool := c ≤ 8 || c == 17
def dieCodeAssigned (c : Nat) : Bool := c ≤ 17 || (20 ≤ c && c ≤ 23)

def eventCounter (s : State) (g : Group) (p : Partition) (sel : Nat) : DWord :=
  if sel < 8 then
    if coreCodeAssigned (selectCode p.evselc sel) then (coreAt s g.core).counters.getD sel 0 else 0
  else if !wholeDies p.shape then 0
  else
    let k := sel - 8
    let code := if k < 8 then selectCode p.evseld0 k else selectCode p.evseld1 (k - 8)
    if dieCodeAssigned code then (dieAt s (dieOfCore g.core)).counters.getD k 0 else 0

def execEvrd (f : CF) (s : State) : Result :=
  issueGroup (.evrd f) s fun s g cur =>
    match findPart s (partOfGroup s g) with
    | some p => finishFixed s g cur (scalarIf g cur f (eventCounter s g p f.csr.toNat))
    | none => s

end Sys2Proof.Machine
end

