-- ==== Sys2Proof/Machine/Matrix.lean ====
section
/-! DEFINITION. The quad control core's X majors, the reservation table, the tile fetch unit and the matrix engine
(17 R253 to R270; 07 R117, R118, R131). -/

namespace Sys2Proof.Machine

/-! ### Posting (17 R257, R264) -/

/-- The guard of an X-format instruction (05 R92). -/
def xGuard (t : Thread) (f : XF) : Bool := xor (condReg t f.gc.toNat) f.gcn

def tableSize : Nat := 32

/-- The order in which a thread parked on a full table. -/
def tableOrder (t : Thread) : Option Nat := match t.park with | .table o => some o | _ => none

/-- Another thread of the quad parked earlier on the table. -/
def tableBehind (s : State) (t : Thread) : Bool :=
  s.threads.any fun u =>
    u.quad == t.quad && u.team != t.team && match tableOrder u, tableOrder t with
      | some o, some mine => o < mine
      | some _, none => true
      | none, _ => false

/-- An entry is posted, or the thread parks on the full table. -/
def post (i : Instr) (f : XF) (s : State) (t : Thread) (cur : Cur) : State :=
  if !xGuard t f then doneThread s { t with park := .none } cur.pc (pcNext cur.pc)
  else if tableSize ≤ (quadAt s t.quad).table.length || tableBehind s t then
    let n := newId s
    putThread n.2 { t with park := .table ((tableOrder t).getD n.1), line := none }
  else
    let n := newId s
    let e : Entry := {
      id := n.1, team := t.team, slot := t.slot, instr := i, prio := f.prio.toNat, tag := f.tag
      a := threadReg t f.sa.toNat, b := threadReg t f.sb.toNat, ss := threadReg t f.ss.toNat
      stage := .posted, descA := none, descB := none, opA := [], opB := [], waits := none }
    let s := modQuad n.2 t.quad fun q => { q with table := q.table ++ [e] }
    doneThread s { t with park := .none } cur.pc (pcNext cur.pc)

def execMma (f : XF) (s : State) : Result := issueThread (.mma f) s (post (.mma f) f)
def execMmas (f : XF) (s : State) : Result := issueThread (.mmas f) s (post (.mmas f) f)
def execMscl (f : XF) (s : State) : Result := issueThread (.mscl f) s (post (.mscl f) f)
def execMzero (f : XF) (s : State) : Result := issueThread (.mzero f) s (post (.mzero f) f)
def execMcpyo (f : XF) (s : State) : Result := issueThread (.mcpyo f) s (post (.mcpyo f) f)
def execMcpyi (f : XF) (s : State) : Result := issueThread (.mcpyi f) s (post (.mcpyi f) f)

/-! ### MWAIT and PPOINT (17 R268, R269) -/

/-- Entries a thread has posted that are not complete. -/
def postedBy (s : State) (t : Thread) : List Entry := (quadAt s t.quad).table.filter (·.team == t.team)

/-- Whether a wait on a tag covers an operation; 0xFFFF covers every one. -/
def tagCovers (w tag : BitVec 16) : Bool := w == 0xFFFF || w == tag

/-- A line address of MWAIT: a 64-byte-aligned scratchpad window address. -/
def waitLine (s : State) (team : Team) (ea : DWord) : Resolved := resolveScratch s team ea 64 64

/-- Steps 2 and 3 of MWAIT are over: the arrival. -/
def arriveLine (s : State) (l : Option Loc) : State := match l with | some l => (claspAt s l).2 | none => s

/-- The covered faults: that of the oldest operation is raised, and each of the others is told by an event record
(17 R270). -/
def raisePosted (s : State) (t : Thread) (cur : Cur) (x : PostedFault) (rest : List PostedFault) (keep : List PostedFault) :
    State :=
  let s := rest.foldl (fun s y => postedRecord s t.quad t.part y.cause y.tval) s
  trapThread s { t with faults := keep, waited := false, park := .none } { threadReq t x.cause cur.pc x.tval with pages := [] }

def waitTag (f : XF) (s : State) (t : Thread) (cur : Cur) (arrive : Option Loc) : State :=
  if (postedBy s t).any fun e => tagCovers f.tag e.tag then putThread s { t with park := .tag f.tag, line := none }
  else
    match sortBy (fun (x y : PostedFault) => x.op ≤ y.op) (t.faults.filter fun x => tagCovers f.tag x.tag) with
    | x :: rest => raisePosted s t cur x rest (t.faults.filter fun x => !tagCovers f.tag x.tag)
    | [] => doneThread (arriveLine s arrive) { t with waited := false, park := .none } cur.pc (pcNext cur.pc)

/-- The precise address checks of MWAIT, before any step. -/
def waitFault (s : State) (team : Team) (f : XF) (t : Thread) : Option (Cause × DWord) :=
  let check (use : Bool) (ea : DWord) : Option (Cause × DWord) :=
    if use then match waitLine s team ea with | .fault c => some (c, ea) | .at _ => none else none
  match check (f.kb == 1) (threadReg t f.sa.toNat) with
  | some x => some x
  | none => check f.ovw (threadReg t f.ss.toNat)

def locOf (r : Resolved) : Option Loc := match r with | .at l => some l | .fault _ => none

def waitEffect (f : XF) (s : State) (t : Thread) (cur : Cur) : State :=
  if !xGuard t f then doneThread s t cur.pc (pcNext cur.pc)
  else
    match findTeam s t.team with
    | none => s
    | some team =>
      match waitFault s team f t with
      | some x => trapThread s t (threadReq t x.1 cur.pc x.2)
      | none =>
        let arrive := if f.ovw then locOf (waitLine s team (threadReg t f.ss.toNat)) else none
        if f.kb == 1 && !t.waited then
          match waitLine s team (threadReg t f.sa.toNat) with
          | .at (.scratch owner off) =>
            if linePresent s owner (off / 64) then
              waitTag f (acquireAt s (leadCore t.quad) 2) { t with waited := true } cur arrive
            else putThread s { t with park := .line owner (off / 64), line := none }
          | _ => s
        else waitTag f s t cur arrive

def execMwait (f : XF) (s : State) : Result := issueThread (.mwait f) s (waitEffect f)

/-- A halt-and-swap is pending for the partition (17 R269), or its threads are saved in the same way after a halt
(19 R317). -/
def preempting (s : State) (part : Nat) : Bool := match findPart s part with | some p => p.state != .running | none => false

def execPpoint (f : XF) (s : State) : Result :=
  issueThread (.ppoint f) s fun s t cur =>
    if !xGuard t f || !preempting s t.part then doneThread s t cur.pc (pcNext cur.pc)
    else if !(postedBy s t).isEmpty then putThread s { t with park := .ppoint, line := none }
    else putThread s { t with pc := pcNext cur.pc, park := .none, line := none, saved := some (f.tag.extractLsb' 0 8) }

/-- The gate of its team keeps a thread waiting (18 R291). -/
def gateShut (s : State) (t : Thread) : Bool := match findTeam s t.team with | some m => m.gated && !m.gateOpen | none => false

/-- The thread waits in MWAIT and has nothing outstanding, has exited, or waits at the gate (17 R256, 18 R291). -/
def threadIdle (s : State) (t : Thread) : Bool :=
  t.exited || gateShut s t
    || ((postedBy s t).isEmpty && match t.park with | .line _ _ => true | .tag _ => true | _ => false)

/-- Idle threads of a partition under a pending halt-and-swap are saved with all their tiles. -/
def saveIdle (s : State) (part : Nat) : State :=
  if !preempting s part then s
  else
    { s with threads := s.threads.map fun t =>
        if t.part == part && t.saved.isNone && !t.exited && threadIdle s t then { t with saved := some 0xFF } else t }

/-! ### Engine addresses (17 R260) -/

inductive EngRead where
  | bytes (l : List Byte)
  | fault (cause : Cause) (ea : DWord)
  | stream (va : Nat)
  | absent (team line : Nat)
  deriving DecidableEq, Repr

def isEngineScratch (ea : DWord) : Bool := ea.extractLsb' 56 8 == 0xFD && ea.extractLsb' 32 24 == 0

/-- The scratchpad place of an engine address. -/
def engineScratch (s : State) (t : Team) (ea : DWord) (n : Nat) : Resolved :=
  resolveScratch s t ((ea.extractLsb' 0 32).zeroExtend 64) n 1

/-- Bytes read by the tile fetch unit: at device scope, or from a bank after presence is confirmed (17 R259). -/
def engineBytes (s : State) (core : Nat) (p : Partition) (t : Team) (ea : DWord) (n : Nat) : EngRead × State :=
  if n = 0 then (.bytes [], s)
  else if isEngineScratch ea then
    match engineScratch s t ea n with
    | .at (.scratch team off) =>
      match (List.range ((off + n - 1) / 64 - off / 64 + 1)).find? fun k => !linePresent s team (off / 64 + k) with
      | some k => (.absent team (off / 64 + k), s)
      | none => (.bytes (readScratch s team off n), s)
    | _ => (.fault causeScratchRange ea, s)
  else if !canonical ea then (.fault causeScratchRange ea, s)
  else
    match readRange s { engineReader core p t.origin with window := false } ea n with
    | (.bytes b, s) => (.bytes b, s)
    | (.fault c a, s) => (.fault c a, s)
    | (.stream va, s) => (.stream va, s)

/-! ### Tile descriptors (17 R261, R262) -/

def parseDesc (b : List Byte) : TileDesc where
  base := BitVec.ofNat 64 (fieldNat b 0 8)
  vstride := fieldNat b 8 4
  vecs := fieldNat b 12 2
  kblk := fieldNat b 14 2
  type := fieldNat b 16 1
  spn := fieldNat b 17 1
  scale := BitVec.ofNat 64 (fieldNat b 0x18 8)
  scstride := fieldNat b 0x20 4
  spstride := fieldNat b 0x24 4
  spare := BitVec.ofNat 64 (fieldNat b 0x28 8)
  metaBase := BitVec.ofNat 64 (fieldNat b 0x30 8)
  mstride := fieldNat b 0x38 4
  reserved := fieldNat b 0x12 6 != 0 || fieldNat b 0x3C 4 != 0

def descTy (d : TileDesc) : Ty := tyOfCode (BitVec.ofNat 4 d.type)
/-- Elements stored for each block, and the bytes of a block. -/
def storedPer (d : TileDesc) : Nat := if d.spn = 0 then 24 else d.spn
def blockBytes (d : TileDesc) : Nat := storedPer d * bitsOf (descTy d) / 8
def spcCount (c : BitVec 3) : Nat := match c.toNat with | 1 => 6 | 2 => 8 | 3 => 12 | 4 => 16 | _ => 0

def descAligned (d : TileDesc) : Bool :=
  d.base.toNat % 16 == 0 && d.vstride % 16 == 0 && d.metaBase.toNat % 4 == 0 && d.mstride % 4 == 0

/-- The checks every descriptor of MMA, MMAS and the copies passes. -/
def descCommon (d : TileDesc) (t : Ty) : Bool :=
  !d.reserved && 1 ≤ d.vecs && d.vecs ≤ 128 && descAligned d && d.type < 16 && descTy d == t
  && (d.spare == 0 || t == .e2m1)

/-- A descriptor of MMA or MMAS: `spn` is what SPN must be. -/
def descOperand (d : TileDesc) (t : Ty) (spn : Nat) : Bool :=
  descCommon d t && 1 ≤ d.kblk && d.kblk ≤ 64 && d.spn == spn && d.kblk * blockBytes d ≤ d.vstride
  && (spn == 0 || d.metaBase != 0)

def descCopy (d : TileDesc) (t : Ty) : Bool :=
  descCommon d t && d.kblk == 0 && d.spn == 0 && 128 * elemBytes t ≤ d.vstride

def descScale (d : TileDesc) : Bool :=
  !d.reserved && 1 ≤ d.vecs && d.vecs ≤ 128 && 1 ≤ d.kblk && d.kblk ≤ 64 && d.spn == 0 && d.scale != 0

/-! ### Fetching operands (17 R259, R263; 07 R117, R118) -/

/-- A step of a fetch: what stops it, or what it has read. -/
inductive Fetch (α : Type) where
  | ok (a : α)
  | fault (cause : Cause) (tval : DWord)
  | stream (va : Nat)
  | absent (team line : Nat)

/-- A fetch that has read what it asked for goes on. -/
def andThen {α β : Type} (r : Fetch α × State) (k : α → State → Fetch β × State) : Fetch β × State :=
  match r with
  | (.ok a, s) => k a s
  | (.fault c v, s) => (.fault c v, s)
  | (.stream va, s) => (.stream va, s)
  | (.absent t l, s) => (.absent t l, s)

/-- A fetch of every index below `n`, one after the other. -/
def fetchAll {α : Type} (n : Nat) (s : State) (f : State → Nat → Fetch α × State) : Fetch (List α) × State :=
  (List.range n).foldl (fun r i => andThen r fun l s => andThen (f s i) fun a s => (.ok (l ++ [a]), s)) (.ok [], s)

def fetchBytes (s : State) (core : Nat) (p : Partition) (t : Team) (ea : DWord) (n : Nat) : Fetch (List Byte) × State :=
  match engineBytes s core p t ea n with
  | (.bytes b, s) => (.ok b, s)
  | (.fault c a, s) => (.fault c a, s)
  | (.stream va, s) => (.stream va, s)
  | (.absent u l, s) => (.absent u l, s)

/-- A value of a narrow type or INT8, as an f32 code; every such value is exact. -/
def asF32 (t : Ty) (x : DWord) : DWord :=
  if isFloat t then (roundFV .f32 .rne false false (decodeFloat t x)).1
  else (roundFV .f32 .rne false false (intFV (typedInt t x))).1

/-- Element `k` of stored bytes. -/
def storedElem (t : Ty) (b : List Byte) (k : Nat) : DWord :=
  if t = .e2m1 then
    let x := (b.getD (k / 2) 0).toNat
    BitVec.ofNat 64 (if k % 2 = 0 then x % 16 else x / 16)
  else BitVec.ofNat 64 (fieldNat b (k * elemBytes t) (elemBytes t))

/-- The stored elements of a block as f32 codes; e2m1 code 0b1000 takes the value of the spare. -/
def blockElems (t : Ty) (n : Nat) (b : List Byte) (spare : Byte) : List DWord :=
  (List.range n).map fun k =>
    let x := storedElem t b k
    if t = .e2m1 && x == 8 then if spare == 0 then 0x80000000 else asF32 .e4m3 (spare.zeroExtend 64) else asF32 t x

/-- The indices of a block's metadata, or none if it is illegal (17 R263). -/
def metaIndices (n : Nat) (words : Nat) (x : Nat) : Option (List Nat) :=
  let l := (List.range n).map fun j => x / 2 ^ (5 * j) % 32
  let rising := (List.range (n - 1)).all fun j => l.getD j 0 < l.getD (j + 1) 0
  if rising && l.all (· < 24) && x / 2 ^ (5 * n) % 2 ^ (32 * words - 5 * n) == 0 then some l else none

def metaWords (n : Nat) : Nat := match n with | 6 => 1 | 8 => 2 | 12 => 2 | _ => 3

/-- Stored elements at their places, every other one +0. -/
def spread (idx : List Nat) (xs : List DWord) : List DWord :=
  (List.range 24).map fun k => match (idx.zip xs).find? (·.1 == k) with | some x => x.2 | none => 0

/-- The indices of a block's metadata; an illegal one faults at the descriptor (17 R263). -/
def fetchIndices (s : State) (core : Nat) (p : Partition) (t : Team) (d : TileDesc) (desc : DWord) (i b : Nat) :
    Fetch (List Nat) × State :=
  let w := metaWords d.spn
  andThen (fetchBytes s core p t (d.metaBase + BitVec.ofNat 64 (i * d.mstride + 4 * w * b)) (4 * w)) fun m s =>
    match metaIndices d.spn w (bytesNat m) with
    | some idx => (.ok idx, s)
    | none => (.fault 0x202 desc, s)

/-- The byte of the spare array for a block; with no array it is 0. -/
def fetchSpare (s : State) (core : Nat) (p : Partition) (t : Team) (d : TileDesc) (i b : Nat) : Fetch Byte × State :=
  if d.spare = 0 then (.ok 0, s)
  else andThen (fetchBytes s core p t (d.spare + BitVec.ofNat 64 (i * d.spstride + b)) 1) fun x s => (.ok (x.getD 0 0), s)

/-- One block of a vector as 24 f32 codes. -/
def fetchBlock (s : State) (core : Nat) (p : Partition) (t : Team) (d : TileDesc) (desc : DWord) (i b : Nat) :
    Fetch (List DWord) × State :=
  andThen (fetchBytes s core p t (d.base + BitVec.ofNat 64 (i * d.vstride + b * blockBytes d)) (blockBytes d)) fun bytes s =>
    andThen (fetchSpare s core p t d i b) fun spare s =>
      let xs := blockElems (descTy d) (storedPer d) bytes spare
      if d.spn = 0 then (.ok xs, s)
      else andThen (fetchIndices s core p t d desc i b) fun idx s => (.ok (spread idx xs), s)

/-- Blocks `b0` to `b0 + kb - 1` of every vector; vectors from VECS up are +0. -/
def fetchOperand (s : State) (core : Nat) (p : Partition) (t : Team) (d : TileDesc) (desc : DWord) (b0 kb : Nat) :
    Fetch (List (List DWord)) × State :=
  fetchAll 128 s fun s i =>
    if d.vecs ≤ i then (.ok (List.replicate (24 * kb) 0), s)
    else
      andThen (fetchAll kb s fun s k => fetchBlock s core p t d desc i (b0 + k)) fun bs s => (.ok bs.flatten, s)

/-- The scale bytes of a block; 127 from VECS up (17 R266). -/
def fetchScales (s : State) (core : Nat) (p : Partition) (t : Team) (d : TileDesc) (b : Nat) : Fetch (List (List DWord)) × State :=
  fetchAll 128 s fun s i =>
    if d.vecs ≤ i then (.ok [127], s)
    else
      andThen (fetchBytes s core p t (d.scale + BitVec.ofNat 64 (i * d.scstride + b)) 1) fun x s =>
        (.ok [BitVec.ofNat 64 (bytesNat x)], s)

/-- The rows an MCPYI reads, as f32 codes; rows from VECS up are +0. -/
def fetchRows (s : State) (core : Nat) (p : Partition) (t : Team) (d : TileDesc) : Fetch (List (List DWord)) × State :=
  let ty := descTy d
  fetchAll 128 s fun s i =>
    if d.vecs ≤ i then (.ok (List.replicate 128 0), s)
    else
      andThen (fetchBytes s core p t (d.base + BitVec.ofNat 64 (i * d.vstride)) (128 * elemBytes ty)) fun b s =>
        (.ok ((List.range 128).map fun j => asF32 ty (storedElem ty b j)), s)

/-- A descriptor at a 64-byte-aligned engine address. -/
def fetchDesc (s : State) (core : Nat) (p : Partition) (t : Team) (ea : DWord) : Fetch TileDesc × State :=
  if (isEngineScratch ea || canonical ea) && ea.toNat % 64 != 0 then (.fault causeMisaligned ea, s)
  else andThen (fetchBytes s core p t ea 64) fun b s => (.ok (parseDesc b), s)

/-- The rows an MCPYO writes, by engine address, or the first that is out of range (17 R260). -/
def copyOutRows (s : State) (t : Team) (d : TileDesc) : Except DWord (List (Nat × Nat)) :=
  (List.range d.vecs).foldl (fun r i =>
    match r with
    | .error a => .error a
    | .ok l =>
      let ea := d.base + BitVec.ofNat 64 (i * d.vstride)
      match engineScratch s t ea (128 * elemBytes (descTy d)) with
      | .at (.scratch team off) => if isEngineScratch ea then .ok (l ++ [(team, off)]) else .error ea
      | _ => .error ea) (.ok [])

def copyOutLines (rows : List (Nat × Nat)) (n : Nat) : List (Nat × Nat) :=
  (rows.flatMap fun r => (List.range ((r.2 + n - 1) / 64 - r.2 / 64 + 1)).map fun k => (r.1, r.2 / 64 + k)).eraseDups

/-- Two descriptors that pass their checks, then what is fetched by them. -/
def fetchTwo (s : State) (core : Nat) (p : Partition) (t : Team) (e : Entry) (okA okB : TileDesc → Bool)
    (k : State → TileDesc → TileDesc → Fetch Entry × State) : Fetch Entry × State :=
  andThen (fetchDesc s core p t e.a) fun da s =>
    if !okA da then (.fault 0x200 e.a, s)
    else
      andThen (fetchDesc s core p t e.b) fun db s => if !okB db then (.fault 0x200 e.b, s) else k s da db

/-- An entry with the two operands it has fetched. -/
def withOperands (e : Entry) (da db : TileDesc) (xa xb : List (List DWord)) : Entry :=
  { e with stage := .fetched, descA := some da, descB := some db, opA := xa, opB := xb }

/-- The operands of an MMA or MMAS. -/
def fetchMma (f : XF) (s : State) (core : Nat) (p : Partition) (t : Team) (e : Entry) : Fetch Entry × State :=
  let kb := f.kb.toNat + 1
  let b0 := e.ss.toNat
  let fits (d : TileDesc) : Bool := b0 + kb ≤ d.kblk
  fetchTwo s core p t e (fun d => descOperand d f.ta (spcCount f.spc) && fits d) (fun d => descOperand d f.tb 0 && fits d)
    fun s da db =>
      andThen (fetchOperand s core p t da e.a b0 kb) fun xa s =>
        andThen (fetchOperand s core p t db e.b b0 kb) fun xb s => (.ok (withOperands e da db xa xb), s)

def fetchMscl (s : State) (core : Nat) (p : Partition) (t : Team) (e : Entry) : Fetch Entry × State :=
  let b := e.ss.toNat
  let ok (d : TileDesc) : Bool := descScale d && b < d.kblk
  fetchTwo s core p t e ok ok fun s da db =>
    andThen (fetchScales s core p t da b) fun xa s =>
      andThen (fetchScales s core p t db b) fun xb s => (.ok (withOperands e da db xa xb), s)

/-- A copy's descriptor, and the rows that an MCPYI reads. The BASE of an MCPYO is a scratchpad engine address (17 R262). -/
def fetchCopy (f : XF) (out : Bool) (s : State) (core : Nat) (p : Partition) (t : Team) (e : Entry) : Fetch Entry × State :=
  andThen (fetchDesc s core p t e.a) fun d s =>
    if !descCopy d f.ta || (out && !isEngineScratch d.base) then (.fault 0x200 e.a, s)
    else if out then
      match copyOutRows s t d with
      | .error a => (.fault causeScratchRange a, s)
      | .ok _ => (.ok { e with stage := .fetched, descA := some d }, s)
    else
      andThen (fetchRows s core p t d) fun rows s => (.ok { e with stage := .fetched, descA := some d, opA := rows }, s)

def fetchEntry (s : State) (core : Nat) (p : Partition) (t : Team) (e : Entry) : Fetch Entry × State :=
  match e.instr with
  | .mma f | .mmas f => fetchMma f s core p t e
  | .mscl _ => fetchMscl s core p t e
  | .mcpyo f => fetchCopy f true s core p t e
  | .mcpyi f => fetchCopy f false s core p t e
  | _ => (.ok { e with stage := .fetched }, s)

/-! ### The table -/

def putEntry (s : State) (quad : Nat) (e : Entry) : State :=
  modQuad s quad fun q => { q with table := q.table.map fun x => if x.id == e.id then e else x }
def findEntry (s : State) (quad id : Nat) : Option Entry := (quadAt s quad).table.find? (·.id == id)
def dropEntry (s : State) (quad id : Nat) : State :=
  modQuad s quad fun q => { q with table := q.table.filter (·.id != id) }

/-- Tiles an entry reads and tiles it writes. -/
def tilesRead (e : Entry) : List Nat :=
  match e.instr with
  | .mma f | .mmas f => if f.ovw then [] else [f.mp.toNat]
  | .mscl f => f.mp.toNat :: if f.ovw then [] else [f.md.toNat]
  | .mcpyo f => [f.md.toNat]
  | _ => []
def tilesWritten (e : Entry) : List Nat :=
  match e.instr with
  | .mma f | .mmas f => [f.mp.toNat]
  | .mscl f | .mzero f | .mcpyi f => [f.md.toNat]
  | _ => []

/-- The tile-order condition of 17 R258. -/
def tileOrdered (q : Quad) (e : Entry) : Bool :=
  q.table.all fun x =>
    x.team != e.team || e.id ≤ x.id
      || ((tilesWritten x).all fun n => !(tilesRead e).contains n && !(tilesWritten e).contains n)
        && (tilesRead x).all fun n => !(tilesWritten e).contains n

/-- Entries without a fetch are ready as posted; an MCPYO is ready once armed. -/
def entryReady (q : Quad) (e : Entry) : Bool :=
  tileOrdered q e && match e.instr, e.stage with
    | .mzero _, .posted => true
    | .mcpyo _, .armed => true
    | .mcpyo _, _ => false
    | _, .fetched => true
    | _, _ => false

/-- The arbiter's order (17 R258). -/
def arbiterBefore (a b : Entry) : Bool := b.prio < a.prio || (a.prio == b.prio && (a.id < b.id || (a.id == b.id && a.slot ≤ b.slot)))

def teamPart (s : State) (team : Nat) : Option (Team × Partition) :=
  match findTeam s team, teamPartition s team with
  | some t, some p => some (t, p)
  | _, _ => none

/-- The lines that an armed MCPYO holds absent. -/
def armedLines (s : State) (e : Entry) : List (Nat × Nat) :=
  match e.instr, e.descA, findTeam s e.team with
  | .mcpyo f, some d, some t =>
    if e.stage = .armed ∨ e.stage = .granted then
      match copyOutRows s t d with
      | .ok rows => copyOutLines rows (128 * elemBytes f.ta)
      | .error _ => []
    else []
  | _, _, _ => []

/-- A posted operation ends with a fault: the covering MWAIT raises it, or a record tells of it once the thread has
exited (17 R255, R270). The armed lines of an MCPYO become present as they are. -/
def faultEntry (s : State) (quad : Nat) (e : Entry) (c : Cause) (tval : DWord) : State :=
  let s := (armedLines s e).foldl (fun s l => setPresence s l.1 l.2) s
  let s := dropEntry s quad e.id
  match findThread s e.team with
  | none => s
  | some t =>
    let s := if t.exited then postedRecord s quad t.part c tval
      else putThread s { t with faults := t.faults ++ [⟨e.id, e.tag, c, tval⟩] }
    saveIdle s t.part

/-- An MCPYO has a descriptor to read but no operand: its tile is read by the engine. -/
def isCopyOut (i : Instr) : Bool := match i with | .mcpyo _ => true | _ => false
def needsFetch (i : Instr) : Bool := match i with | .mzero _ => false | _ => true

/-- What an entry waited for has come. -/
def waitOver (s : State) (w : Option PageWait) : Bool :=
  match w with
  | none => true
  | some (.line team line) => linePresent s team line
  | some _ => false

/-- An entry whose operands can be fetched now (17 R258, R259). -/
def canFetch (s : State) (q : Quad) (e : Entry) : Bool :=
  e.stage == .posted && needsFetch e.instr && !isCopyOut e.instr && waitOver s e.waits && tileOrdered q e

def fetchPlaces : Nat := 4

/-- The unit fetches for an entry: one of the first four, in the arbiter's order, that it can fetch for (17 R259; log entry
113). The descriptor of an MCPYO is read from its posting on (17 R267). -/
def fetchTurn (s : State) (quad : Nat) (e : Entry) : Bool :=
  let q := quadAt s quad
  if isCopyOut e.instr then e.stage == .posted && waitOver s e.waits
  else ((sortBy arbiterBefore (q.table.filter (canFetch s q))).take fetchPlaces).any (·.id == e.id)

/-- An entry waits: it starts again when the wait is over. -/
def waitEntry (s : State) (quad : Nat) (e : Entry) (w : PageWait) : State := putEntry s quad { e with waits := some w }

/-- TILE_FETCH: the descriptors and operands of an entry. -/
def tileFetch (s : State) (quad id : Nat) : State :=
  match findEntry s quad id with
  | none => s
  | some e =>
    match teamPart s e.team with
    | none => s
    | some (t, p) =>
      if !fetchTurn s quad e then s
      else
        match fetchEntry s (leadCore quad) p t { e with waits := none } with
        | (.ok e, s) => putEntry s quad e
        | (.absent team line, s) => waitEntry s quad e (.line team line)
        | (.stream va, s) => waitEntry s quad e (.stream va)
        | (.fault c tval, s) =>
          if c = causeNotPresent then
            let va := (tval.extractLsb' 0 57).toNat
            waitEntry (awaitHost s p.idx (dieOfQuad quad) (unitQuad quad) [pageOf va]) quad e (.host va)
          else faultEntry s quad e c tval

def execTileFetch (quad entry : Nat) (s : State) : Result := .next (tileFetch s quad entry)

/-- MCPYO_ARM: the destination lines, all present, become absent at once, whatever older entries still wait for
(17 R267). -/
def mcpyoArm (s : State) (quad id : Nat) : State :=
  match findEntry s quad id with
  | none => s
  | some e =>
    match e.instr, e.stage, e.descA, findTeam s e.team with
    | .mcpyo f, .fetched, some d, some t =>
      match copyOutRows s t d with
      | .error _ => s
      | .ok rows =>
        let lines := copyOutLines rows (128 * elemBytes f.ta)
        if lines.all fun l => linePresent s l.1 l.2 then
          putEntry (lines.foldl (fun s l => clearPresence s l.1 l.2) s) quad { e with stage := .armed }
        else s
    | _, _, _, _ => s

def execMcpyoArm (quad entry : Nat) (s : State) : Result := .next (mcpyoArm s quad entry)

/-- ENGINE_GRANT: the free engine takes the first ready entry. -/
def engineGrant (s : State) (quad : Nat) : State :=
  let q := quadAt s quad
  if q.busy.isSome then s
  else
    match sortBy arbiterBefore (q.table.filter (entryReady q)) with
    | [] => s
    | e :: _ => modQuad (putEntry s quad { e with stage := .granted }) quad fun q => { q with busy := some e.id }

def execEngineGrant (quad : Nat) (s : State) : Result := .next (engineGrant s quad)

/-! ### The engine (17 R258, R265 to R267; 07 R131) -/

def tileOf (t : Team) (n : Nat) : Memory := t.tiles.getD n Memory.empty

/-- A tile from its elements, as memory in canonical form. -/
def tileFrom (f : Nat → Nat → DWord) : Memory :=
  ⟨(List.range 16384).flatMap fun k =>
    ((natBytes 4 (f (k / 128) (k % 128)).toNat).mapIdx fun i b => (4 * k + i, b)).filter fun c => c.2 != 0, []⟩

/-- The block product: exact products and their exact sum, rounded once. -/
def blockProduct (xs ys : List DWord) : DWord :=
  let sum := (xs.zip ys).foldl (fun a p =>
    let m := mulFV (decodeFloat .f32 p.1) (decodeFloat .f32 p.2)
    (addFV .rne a m.1).1) (.fin false 0 0)
  match sum with
  | .fin _ 0 _ => 0
  | v => (roundFV .f32 .rne false false v).1

/-- One element of an MMA: block products in block order. -/
def mmaElem (kb : Nat) (ovw : Bool) (acc : DWord) (xs ys : List DWord) : DWord :=
  (List.range kb).foldl (fun acc k =>
    let p := blockProduct ((xs.drop (24 * k)).take 24) ((ys.drop (24 * k)).take 24)
    if ovw && k == 0 then p else addRne .f32 acc p) acc

/-- One element of an MSCL, scaled exactly and rounded once. -/
def msclElem (ovw : Bool) (d x : DWord) (ea eb : Nat) : DWord :=
  let v : FV := if ea = 255 || eb = 255 then .nan false
    else match decodeFloat .f32 x with
      | .fin n m e => .fin n m (e + ea + eb - 254)
      | v => v
  if ovw then (roundFV .f32 .rne false false v).1
  else (roundFV .f32 .rne false false (addFV .rne (decodeFloat .f32 d) v).1).1

/-- The engine cycles of an operation (17 R258). -/
def engineCycles (i : Instr) : Nat :=
  let k (t : Ty) : Nat := match t with | .e2m1 => 4 | .f16 | .bf16 => 1 | _ => 2
  match i with
  | .mma f => (24 * (f.kb.toNat + 1) + k f.ta - 1) / k f.ta
  | .mmas f => (spcCount f.spc * (f.kb.toNat + 1) + k f.ta - 1) / k f.ta
  | .mscl _ => 32
  | .mzero _ => 8
  | .mcpyo f | .mcpyi f => 256 * elemBytes f.ta
  | _ => 0

/-- A tile that is written has lost nothing any longer (01 R34). -/
def setTile (s : State) (team n : Nat) (m : Memory) : State :=
  modTeam s team fun t => { t with tiles := t.tiles.set n m, badTiles := t.badTiles.filter (· != n) }

/-- Elements computed from two operand lists by row and column. -/
def tileBy (xa xb : List (List DWord)) (f : Nat → Nat → List DWord → List DWord → DWord) : Memory :=
  tileFrom fun i j => f i j (xa.getD i []) (xb.getD j [])

/-- MCPYO's rows reach scratchpad and their lines become present. -/
def copyOut (s : State) (t : Team) (f : XF) (d : TileDesc) (tile : Memory) : State :=
  match copyOutRows s t d with
  | .error _ => s
  | .ok rows =>
    let n := 128 * elemBytes f.ta
    let s := (rows.mapIdx fun i r => (i, r)).foldl (fun s x =>
      let row := (List.range 128).flatMap fun j =>
        natBytes (elemBytes f.ta) (roundFV f.ta .rne f.ovw false (decodeFloat .f32 (tileElem tile x.1 j))).1.toNat
      writeScratch s x.2.1 x.2.2 row) s
    (copyOutLines rows n).foldl (fun s l => setPresence s l.1 l.2) s

/-- The effect of a granted operation. -/
def engineEffect (s : State) (t : Team) (e : Entry) : State :=
  match e.instr with
  | .mma f | .mmas f =>
    let tile := tileOf t f.mp.toNat
    setTile s t.id f.mp.toNat (tileBy e.opA e.opB fun i j xs ys => mmaElem (f.kb.toNat + 1) f.ovw (tileElem tile i j) xs ys)
  | .mscl f =>
    let src := tileOf t f.mp.toNat
    let dst := tileOf t f.md.toNat
    setTile s t.id f.md.toNat (tileBy e.opA e.opB fun i j xs ys =>
      msclElem f.ovw (tileElem dst i j) (tileElem src i j) (xs.getD 0 127).toNat (ys.getD 0 127).toNat)
  | .mzero f => setTile s t.id f.md.toNat Memory.empty
  | .mcpyo f => match e.descA with | some d => copyOut s t f d (tileOf t f.md.toNat) | none => s
  | .mcpyi f => setTile s t.id f.md.toNat (tileFrom fun i j => (e.opA.getD i []).getD j 0)
  | _ => s

/-- ENGINE_OP_COMPLETE: the operation in the engine takes effect and its entry is freed; it faults on a tile that an
uncorrectable error has destroyed (01 R34). -/
def engineComplete (s : State) (quad : Nat) : State :=
  match (quadAt s quad).busy with
  | none => s
  | some id =>
    let s' := modQuad s quad fun q => { q with busy := none }
    match findEntry s quad id with
    | none => s'
    | some e =>
      match findTeam s e.team with
      | none => dropEntry s' quad id
      | some t =>
        match (tilesRead e).find? t.badTiles.contains with
        | some n => faultEntry s' quad e causeEcc (eccTval 3 n)
        | none =>
        let s := countDieBy (dropEntry (engineEffect s' t e) quad id) (dieOfQuad quad) 16 (engineCycles e.instr)
        saveIdle s t.part

def execEngineOpComplete (quad : Nat) (s : State) : Result := .next (engineComplete s quad)

end Sys2Proof.Machine
end

