-- ==== Sys2Proof/Machine/Queue.lean ====
section
/-! DEFINITION. The vertical queues of a core (01 R22, R23; 15 R243; 17 R290) and the reads of the units that serve
them. -/

namespace Sys2Proof.Machine

/-- Entries of a vertical queue. -/
def queueSize : Nat := 16

/-- The entries a core's queue of a class holds, the oldest first: one frees when its operation is complete, or earlier
where its unit has consumed it. -/
def queueEntries (s : State) (core : Nat) (c : VqClass) : List Op :=
  s.ops.filter fun o => o.core == core && o.queue == some c && !o.done

/-- The entry that the unit serves next. -/
def queueHead (s : State) (core : Nat) (c : VqClass) : Option Op := (queueEntries s core c).find? fun o => !performed o

/-- The order in which a pc-set parked on a queue. -/
def queueOrder (g : Group) (m : DWord) (c : VqClass) : Option Nat :=
  match lowLane g.w m with
  | some i => match (laneAt g i).park with | .queue d o => if d = c then some o else none | _ => none
  | none => none

/-- A pc-set of the core parked earlier on the queue. -/
def queueBehind (s : State) (core : Nat) (c : VqClass) (mine : Option Nat) : Bool :=
  s.groups.any fun h =>
    h.core == core && (teamOf s h).map (·.place) == some .resident && (List.range h.w).any fun i =>
      !(laneAt h i).exited && match (laneAt h i).park with
        | .queue d o => d == c && match mine with | some m => o < m | none => true
        | _ => false

/-- A submission is accepted only if a free entry exists and no pc-set parked earlier waits for it. -/
def queueBlocked (s : State) (g : Group) (m : DWord) (c : VqClass) : Bool :=
  queueSize ≤ (queueEntries s g.core c).length || queueBehind s g.core c (queueOrder g m c)

/-- An instruction that takes an entry of a vertical queue. -/
def issueQueue (i : Instr) (f : MF) (c : VqClass) (s : State)
    (act : State → Group → Cur → Team → Partition → DWord → State) : Result :=
  issueMem i f .vq s fun s g cur t p m =>
    if queueBlocked s g cur.active c then
      let n := newId s
      parkHere (countEvent n.2 g.core 6) g cur (.queue c ((queueOrder g cur.active c).getD n.1))
    else act s (parkLanes g cur.active .none) cur t p m

/-- The entry enters the queue for the lanes without a fault, the others split off. -/
def submitEntry (s : State) (g : Group) (cur : Cur) (c : VqClass) (kind : OpKind) (owes empty : Bool)
    (faults : List LaneFault) : State :=
  let o := newOp s g cur (some .vq) kind (owes && !empty)
  let s := addOp s { o with done := empty, queue := if empty then none else some c }
  let g := splitFaults g cur faults
  closeIssue s (advance g (cur.active &&& ~~~faultSet faults) cur) cur false

/-- The scope at which a submission follows the group's earlier stores. The default is cluster scope for stacked memory,
which needs nothing more, and device scope for global memory. -/
def entryScope (sc : BitVec 3) : Nat := if sc = 0 then 3 else sc.toNat

/-- The ordering of a submission before its unit's first read. -/
def orderEntry (s : State) (o : Op) (scope : Nat) : State := releaseFrom s o.core o.part o.team scope

/-! ### Reads of records and texels -/

/-- The pieces of a range, or the fault it meets. -/
inductive Pieces where
  | ok (l : List (Loc × Nat))
  | fault (cause : Cause)
  deriving DecidableEq, Repr

def piecesFrom (rd : Reader) : Nat → State → DWord → Nat → List (Loc × Nat) → Pieces × State
  | 0, s, _, _, acc => (.ok acc, s)
  | k + 1, s, ea, n, acc =>
    if n = 0 then (.ok acc, s)
    else
      let len := min n (64 - ea.toNat % 64)
      match resolveGlobal s rd.core rd.part rd.origin rd.emu ea len 1 .read rd.window with
      | (.fault c, s) => (.fault c, s)
      | (.at l, s) => piecesFrom rd k s (ea + BitVec.ofNat 64 len) (n - len) (acc ++ [(l, len)])

def piecesOf (s : State) (rd : Reader) (ea : DWord) (n : Nat) : Pieces × State := piecesFrom rd (n / 64 + 2) s ea n []

/-- The bytes of pieces read through a core's L1. -/
def readPieces (s : State) (core : Nat) (l : List (Loc × Nat)) : List Byte × State :=
  l.foldl (fun r x =>
    let b := loadLoc r.2 core x.1 x.2 0 false
    (r.1 ++ b.1, b.2)) ([], s)

/-- The writes of an entry's result are in hand. -/
def entryResult (s : State) (o : Op) (ws : List RegWrite) : State := putOp s { o with writes := some ws }

end Sys2Proof.Machine
end

