-- ==== Sys2Proof/Machine/Texels.lean ====
section
/-! DEFINITION. Texel formats that 17 R272 takes from other standards: BC1 to BC7 as the Khronos Data Format
Specification defines them, ASTC in its LDR profile with 8-bit unorm output, and the sRGB curve of IEC 61966-2-1 (PRESUMED, log
entry 126). -/

namespace Sys2Proof.Machine

/-! ### Values -/

def f32Value (w : Word) : FV := decodeFloat .f32 (w.zeroExtend 64)
def rneValue (v : FV) : FV := decodeFloat .f32 (roundFV .f32 .rne false false v).1
def bitsOfValue (v : FV) : Word := (roundFV .f32 .rne false false v).1.extractLsb' 0 32
/-- The f32 code nearest to a quotient of two numbers. -/
def fraction32 (n d : Nat) : Word := bitsOfValue (divFV (intFV n) (intFV d)).1
def unormNat (n : Nat) : Word := fraction32 n 255
def unorm (b : Byte) : Word := unormNat b.toNat

/-! ### sRGB -/

/-- The fifth root of `n`, rounded down, by its bits from bit `k - 1`. -/
def fifthRoot (n : Nat) : Nat → Nat → Nat
  | 0, r => r
  | k + 1, r => fifthRoot n k (if (r + 2 ^ k) ^ 5 ≤ n then r + 2 ^ k else r)

/-- The linear f32 value nearest to that of an sRGB byte: c/12.92 up to 0.04045, above it ((c + 0.055)/1.055)^2.4, whose
fifth power is a twelfth power. -/
def srgbToLinear (b : Byte) : Word :=
  let c := b.toNat
  if c ≤ 10 then fraction32 (25 * c) (255 * 323)
  else
    let n := (200 * c + 2805) ^ 12 * 2 ^ 300
    let d := 53805 ^ 12
    let r := fifthRoot (n / d) 61 0
    bitsOfValue (.fin false (2 * r + if r ^ 5 * d = n then 0 else 1) (-61))

/-! ### BC1 to BC5 -/

/-- The four colours of a BC1 block; three and transparent black where the first code is not above the second, unless
four are asked for. -/
def bc1Palette (four : Bool) (c0 c1 : Nat) : List (List Word) :=
  let part (c k : Nat) : Nat := match k with | 0 => c / 2048 | 1 => c / 32 % 64 | _ => c % 32
  let mix (a b d : Nat) : List Word :=
    (List.range 3).map (fun k => fraction32 (a * part c0 k + b * part c1 k) (d * (if k = 1 then 63 else 31))) ++ [0x3F800000]
  if four || c1 < c0 then [mix 1 0 1, mix 0 1 1, mix 2 1 3, mix 1 2 3]
  else [mix 1 0 1, mix 0 1 1, mix 1 1 2, [0, 0, 0, 0]]

def bc1Texel (four : Bool) (b t : Nat) : List Word :=
  (bc1Palette four (bitsField b 0 16) (bitsField b 16 16)).getD (bitsField b (32 + 2 * t) 2) []

/-- A channel of a BC4 block. -/
def bc4Value (b t : Nat) : Word :=
  let a0 := bitsField b 0 8
  let a1 := bitsField b 8 8
  match bitsField b (16 + 3 * t) 3 with
  | 0 => unormNat a0
  | 1 => unormNat a1
  | k =>
    if a1 < a0 then fraction32 ((8 - k) * a0 + (k - 1) * a1) (7 * 255)
    else if k = 6 then 0 else if k = 7 then 0x3F800000
    else fraction32 ((6 - k) * a0 + (k - 1) * a1) (5 * 255)

/-! ### BC6H and BC7 -/

/-- Where texels of a block lie in two subsets: bits 2t and 2t + 1 for texel t, by partition number. -/
def subsets2 : List Nat :=
  [0x50505050, 0x40404040, 0x54545454, 0x54505040, 0x50404000, 0x55545450, 0x55545040, 0x54504000,
   0x50400000, 0x55555450, 0x55544000, 0x54400000, 0x55555440, 0x55550000, 0x55555500, 0x55000000,
   0x55150100, 0x00004054, 0x15010000, 0x00405054, 0x00004050, 0x15050100, 0x05010000, 0x40505054]
  ++ [0x00404050, 0x05010100, 0x14141414, 0x05141450, 0x01155440, 0x00555500, 0x15014054, 0x05414150,
   0x44444444, 0x55005500, 0x11441144, 0x05055050, 0x05500550, 0x11114444, 0x41144114, 0x44111144,
   0x15055054, 0x01055040, 0x05041050, 0x05455150, 0x14414114, 0x50050550, 0x41411414, 0x00141400]
  ++ [0x00041504, 0x00105410, 0x10541000, 0x04150400, 0x50410514, 0x41051450, 0x05415014, 0x14054150,
   0x41050514, 0x41505014, 0x40011554, 0x54150140, 0x50505500, 0x00555050, 0x15151010, 0x54540404]

/-- The same in three subsets. -/
def subsets3 : List Nat :=
  [0xAA685050, 0x6A5A5040, 0x5A5A4200, 0x5450A0A8, 0xA5A50000, 0xA0A05050, 0x5555A0A0, 0x5A5A5050,
   0xAA550000, 0xAA555500, 0xAAAA5500, 0x90909090, 0x94949494, 0xA4A4A4A4, 0xA9A59450, 0x2A0A4250,
   0xA5945040, 0x0A425054, 0xA5A5A500, 0x55A0A0A0, 0xA8A85454, 0x6A6A4040, 0xA4A45000, 0x1A1A0500]
  ++ [0x0050A4A4, 0xAAA59090, 0x14696914, 0x69691400, 0xA08585A0, 0xAA821414, 0x50A4A450, 0x6A5A0200,
   0xA9A58000, 0x5090A0A8, 0xA8A09050, 0x24242424, 0x00AA5500, 0x24924924, 0x24499224, 0x50A50A50,
   0x500AA550, 0xAAAA4444, 0x66660000, 0xA5A0A5A0, 0x50A050A0, 0x69286928, 0x44AAAA44, 0x66666600]
  ++ [0xAA444444, 0x54A854A8, 0x95809580, 0x96969600, 0xA85454A8, 0x80959580, 0xAA141414, 0x96960000,
   0xAAAA1414, 0xA05050A0, 0xA0A5A5A0, 0x96000000, 0x40804080, 0xA9A8A9A8, 0xAAAAAA44, 0x2A4A5254]

/-- The anchor of the second of two subsets. -/
def anchors2 : List Nat :=
  [15, 15, 15, 15, 15, 15, 15, 15, 15, 15, 15, 15, 15, 15, 15, 15,
   15, 2, 8, 2, 2, 8, 8, 15, 2, 8, 2, 2, 8, 8, 2, 2]
  ++ [15, 15, 6, 8, 2, 8, 15, 15, 2, 8, 2, 2, 2, 15, 15, 6,
   6, 2, 6, 8, 15, 15, 2, 2, 15, 15, 15, 15, 15, 2, 2, 15]

/-- The anchors of the second and the third of three subsets. -/
def anchors3a : List Nat :=
  [3, 3, 15, 15, 8, 3, 15, 15, 8, 8, 6, 6, 6, 5, 3, 3,
   3, 3, 8, 15, 3, 3, 6, 10, 5, 8, 8, 6, 8, 5, 15, 15]
  ++ [8, 15, 3, 5, 6, 10, 8, 15, 15, 3, 15, 5, 15, 15, 15, 15,
   3, 15, 5, 5, 5, 8, 5, 10, 5, 10, 8, 13, 15, 12, 3, 3]
def anchors3b : List Nat :=
  [15, 8, 8, 3, 15, 15, 3, 8, 15, 15, 15, 15, 15, 15, 15, 8,
   15, 8, 15, 3, 15, 8, 15, 8, 3, 15, 6, 10, 15, 15, 10, 8]
  ++ [15, 3, 15, 10, 10, 8, 9, 10, 6, 15, 8, 15, 3, 6, 6, 8,
   15, 3, 15, 15, 15, 15, 15, 15, 15, 15, 15, 15, 3, 15, 15, 8]

def subsetOf (subsets part t : Nat) : Nat :=
  match subsets with | 2 => bitsField (subsets2.getD part 0) (2 * t) 2 | 3 => bitsField (subsets3.getD part 0) (2 * t) 2 | _ => 0

/-- The texels whose index lacks its highest bit. -/
def anchorsOf (subsets part : Nat) : List Nat :=
  match subsets with
  | 2 => [0, anchors2.getD part 0]
  | 3 => [0, anchors3a.getD part 0, anchors3b.getD part 0]
  | _ => [0]

/-- The index of texel `t` among indices of `n` bits that start at bit `lo`. -/
def indexAt (b lo n : Nat) (anchors : List Nat) (t : Nat) : Nat :=
  bitsField b (lo + n * t - (anchors.filter (· < t)).length) (if anchors.contains t then n - 1 else n)

/-- The weight of an index of 2, 3 or 4 bits, in 64ths. -/
def bcWeight (n i : Nat) : Nat :=
  (match n with
    | 2 => [0, 21, 43, 64]
    | 3 => [0, 9, 18, 27, 37, 46, 55, 64]
    | _ => [0, 4, 9, 13, 17, 21, 26, 30, 34, 38, 43, 47, 51, 55, 60, 64]).getD i 0

def bcMix (w a b : Nat) : Nat := ((64 - w) * a + w * b + 32) / 64

/-- A BC7 mode: subsets, partition bits, rotation bits, index-selection bits, colour and alpha bits, parity bits for each
endpoint or for each subset, index bits and second index bits. -/
structure Bc7Mode where
  ns : Nat
  pb : Nat
  rb : Nat
  isb : Nat
  cb : Nat
  ab : Nat
  epb : Nat
  spb : Nat
  ib : Nat
  ib2 : Nat
  deriving DecidableEq, Repr

def bc7Modes : List Bc7Mode :=
  [⟨3, 4, 0, 0, 4, 0, 1, 0, 3, 0⟩, ⟨2, 6, 0, 0, 6, 0, 0, 1, 3, 0⟩, ⟨3, 6, 0, 0, 5, 0, 0, 0, 2, 0⟩,
   ⟨2, 6, 0, 0, 7, 0, 1, 0, 2, 0⟩, ⟨1, 0, 2, 1, 5, 6, 0, 0, 2, 3⟩, ⟨1, 0, 2, 0, 7, 8, 0, 0, 2, 2⟩,
   ⟨1, 0, 0, 0, 7, 7, 1, 0, 4, 0⟩, ⟨2, 6, 0, 0, 5, 5, 1, 0, 2, 0⟩]

/-- The first mode bit that is set. -/
def firstOne (b : Nat) : Nat → Nat → Nat
  | 0, k => k
  | n + 1, k => if bitOf b k then k else firstOne b n (k + 1)

/-- A value of `n` bits widened to eight by its highest bits. -/
def widen8 (v n : Nat) : Nat := v * 2 ^ (8 - n) + v * 2 ^ (8 - n) / 2 ^ n

def bc7Of (b mode t : Nat) (m : Bc7Mode) : List Nat :=
  let lo := mode + 1
  let part := bitsField b lo m.pb
  let rot := bitsField b (lo + m.pb) m.rb
  let sel := bitsField b (lo + m.pb + m.rb) m.isb
  let ends := lo + m.pb + m.rb + m.isb
  let alphas := ends + 6 * m.ns * m.cb
  let pbits := alphas + 2 * m.ns * m.ab
  let idx := pbits + 2 * m.ns * m.epb + m.ns * m.spb
  let idx2 := idx + 16 * m.ib - m.ns
  let p := m.epb + m.spb
  let parity (e : Nat) : Nat := if m.epb = 1 then bitsField b (pbits + e) 1 else bitsField b (pbits + e / 2) m.spb
  let value (raw n e : Nat) : Nat := widen8 (raw * 2 ^ p + parity e) (n + p)
  let chan (k e : Nat) : Nat :=
    if k < 3 then value (bitsField b (ends + (2 * m.ns * k + e) * m.cb) m.cb) m.cb e
    else if m.ab = 0 then 255 else value (bitsField b (alphas + e * m.ab) m.ab) m.ab e
  let s := subsetOf m.ns part t
  let w1 := bcWeight m.ib (indexAt b idx m.ib (anchorsOf m.ns part) t)
  let w2 := if m.ib2 = 0 then w1 else bcWeight m.ib2 (indexAt b idx2 m.ib2 [0] t)
  let wc := if sel = 1 then w2 else w1
  let wa := if sel = 1 then w1 else w2
  let mix (k : Nat) : Nat := bcMix (if k < 3 then wc else wa) (chan k (2 * s)) (chan k (2 * s + 1))
  match rot with
  | 1 => [mix 3, mix 1, mix 2, mix 0]
  | 2 => [mix 0, mix 3, mix 2, mix 1]
  | 3 => [mix 0, mix 1, mix 3, mix 2]
  | _ => [mix 0, mix 1, mix 2, mix 3]

/-- A BC7 texel; a block with no mode bit is zero in all channels. -/
def bc7Texel (b t : Nat) : List Word :=
  let mode := firstOne b 8 0
  match bc7Modes[mode]? with
  | some m => (bc7Of b mode t m).map unormNat
  | none => [0, 0, 0, 0]

/-- The fields of a BC6H mode in the order they stand: channel, endpoint, and the bits from the last to the first named. -/
def bc6Layout (mode : Nat) : List (Nat × Nat × Nat × Nat) :=
  match mode with
  | 0 => [(1, 2, 4, 4), (2, 2, 4, 4), (2, 3, 4, 4), (0, 0, 9, 0), (1, 0, 9, 0), (2, 0, 9, 0), (0, 1, 4, 0),
    (1, 3, 4, 4), (1, 2, 3, 0), (1, 1, 4, 0), (2, 3, 0, 0), (1, 3, 3, 0), (2, 1, 4, 0), (2, 3, 1, 1),
    (2, 2, 3, 0), (0, 2, 4, 0), (2, 3, 2, 2), (0, 3, 4, 0), (2, 3, 3, 3)]
  | 1 => [(1, 2, 5, 5), (1, 3, 4, 4), (1, 3, 5, 5), (0, 0, 6, 0), (2, 3, 0, 0), (2, 3, 1, 1), (2, 2, 4, 4),
    (1, 0, 6, 0), (2, 2, 5, 5), (2, 3, 2, 2), (1, 2, 4, 4), (2, 0, 6, 0), (2, 3, 3, 3), (2, 3, 5, 5),
    (2, 3, 4, 4), (0, 1, 5, 0), (1, 2, 3, 0), (1, 1, 5, 0), (1, 3, 3, 0), (2, 1, 5, 0), (2, 2, 3, 0),
    (0, 2, 5, 0), (0, 3, 5, 0)]
  | 2 => [(0, 0, 9, 0), (1, 0, 9, 0), (2, 0, 9, 0), (0, 1, 4, 0), (0, 0, 10, 10), (1, 2, 3, 0), (1, 1, 3, 0),
    (1, 0, 10, 10), (2, 3, 0, 0), (1, 3, 3, 0), (2, 1, 3, 0), (2, 0, 10, 10), (2, 3, 1, 1), (2, 2, 3, 0),
    (0, 2, 4, 0), (2, 3, 2, 2), (0, 3, 4, 0), (2, 3, 3, 3)]
  | 3 => [(0, 0, 9, 0), (1, 0, 9, 0), (2, 0, 9, 0), (0, 1, 3, 0), (0, 0, 10, 10), (1, 3, 4, 4), (1, 2, 3, 0),
    (1, 1, 4, 0), (1, 0, 10, 10), (1, 3, 3, 0), (2, 1, 3, 0), (2, 0, 10, 10), (2, 3, 1, 1), (2, 2, 3, 0),
    (0, 2, 3, 0), (2, 3, 0, 0), (2, 3, 2, 2), (0, 3, 3, 0), (1, 2, 4, 4), (2, 3, 3, 3)]
  | 4 => [(0, 0, 9, 0), (1, 0, 9, 0), (2, 0, 9, 0), (0, 1, 3, 0), (0, 0, 10, 10), (2, 2, 4, 4), (1, 2, 3, 0),
    (1, 1, 3, 0), (1, 0, 10, 10), (2, 3, 0, 0), (1, 3, 3, 0), (2, 1, 4, 0), (2, 0, 10, 10), (2, 2, 3, 0),
    (0, 2, 3, 0), (2, 3, 1, 1), (2, 3, 2, 2), (0, 3, 3, 0), (2, 3, 4, 4), (2, 3, 3, 3)]
  | 5 => [(0, 0, 8, 0), (2, 2, 4, 4), (1, 0, 8, 0), (1, 2, 4, 4), (2, 0, 8, 0), (2, 3, 4, 4), (0, 1, 4, 0),
    (1, 3, 4, 4), (1, 2, 3, 0), (1, 1, 4, 0), (2, 3, 0, 0), (1, 3, 3, 0), (2, 1, 4, 0), (2, 3, 1, 1),
    (2, 2, 3, 0), (0, 2, 4, 0), (2, 3, 2, 2), (0, 3, 4, 0), (2, 3, 3, 3)]
  | 6 => [(0, 0, 7, 0), (1, 3, 4, 4), (2, 2, 4, 4), (1, 0, 7, 0), (2, 3, 2, 2), (1, 2, 4, 4), (2, 0, 7, 0),
    (2, 3, 3, 3), (2, 3, 4, 4), (0, 1, 5, 0), (1, 2, 3, 0), (1, 1, 4, 0), (2, 3, 0, 0), (1, 3, 3, 0),
    (2, 1, 4, 0), (2, 3, 1, 1), (2, 2, 3, 0), (0, 2, 5, 0), (0, 3, 5, 0)]
  | 7 => [(0, 0, 7, 0), (2, 3, 0, 0), (2, 2, 4, 4), (1, 0, 7, 0), (1, 2, 5, 5), (1, 2, 4, 4), (2, 0, 7, 0),
    (1, 3, 5, 5), (2, 3, 4, 4), (0, 1, 4, 0), (1, 3, 4, 4), (1, 2, 3, 0), (1, 1, 5, 0), (1, 3, 3, 0),
    (2, 1, 4, 0), (2, 3, 1, 1), (2, 2, 3, 0), (0, 2, 4, 0), (2, 3, 2, 2), (0, 3, 4, 0), (2, 3, 3, 3)]
  | 8 => [(0, 0, 7, 0), (2, 3, 1, 1), (2, 2, 4, 4), (1, 0, 7, 0), (2, 2, 5, 5), (1, 2, 4, 4), (2, 0, 7, 0),
    (2, 3, 5, 5), (2, 3, 4, 4), (0, 1, 4, 0), (1, 3, 4, 4), (1, 2, 3, 0), (1, 1, 4, 0), (2, 3, 0, 0),
    (1, 3, 3, 0), (2, 1, 5, 0), (2, 2, 3, 0), (0, 2, 4, 0), (2, 3, 2, 2), (0, 3, 4, 0), (2, 3, 3, 3)]
  | 9 => [(0, 0, 5, 0), (1, 3, 4, 4), (2, 3, 0, 0), (2, 3, 1, 1), (2, 2, 4, 4), (1, 0, 5, 0), (1, 2, 5, 5),
    (2, 2, 5, 5), (2, 3, 2, 2), (1, 2, 4, 4), (2, 0, 5, 0), (1, 3, 5, 5), (2, 3, 3, 3), (2, 3, 5, 5),
    (2, 3, 4, 4), (0, 1, 5, 0), (1, 2, 3, 0), (1, 1, 5, 0), (1, 3, 3, 0), (2, 1, 5, 0), (2, 2, 3, 0),
    (0, 2, 5, 0), (0, 3, 5, 0)]
  | 10 => [(0, 0, 9, 0), (1, 0, 9, 0), (2, 0, 9, 0), (0, 1, 9, 0), (1, 1, 9, 0), (2, 1, 9, 0)]
  | 11 => [(0, 0, 9, 0), (1, 0, 9, 0), (2, 0, 9, 0), (0, 1, 8, 0), (0, 0, 10, 10), (1, 1, 8, 0), (1, 0, 10, 10),
    (2, 1, 8, 0), (2, 0, 10, 10)]
  | 12 => [(0, 0, 9, 0), (1, 0, 9, 0), (2, 0, 9, 0), (0, 1, 7, 0), (0, 0, 10, 11), (1, 1, 7, 0), (1, 0, 10, 11),
    (2, 1, 7, 0), (2, 0, 10, 11)]
  | 13 => [(0, 0, 9, 0), (1, 0, 9, 0), (2, 0, 9, 0), (0, 1, 3, 0), (0, 0, 10, 15), (1, 1, 3, 0), (1, 0, 10, 15),
    (2, 1, 3, 0), (2, 0, 10, 15)]
  | _ => []

/-- The base and the three channels' difference precisions, and whether endpoints are differences. -/
def bc6Precision (mode : Nat) : Nat × List Nat × Bool :=
  match mode with
  | 0 => (10, [5, 5, 5], true)
  | 1 => (7, [6, 6, 6], true)
  | 2 => (11, [5, 4, 4], true)
  | 3 => (11, [4, 5, 4], true)
  | 4 => (11, [4, 4, 5], true)
  | 5 => (9, [5, 5, 5], true)
  | 6 => (8, [6, 5, 5], true)
  | 7 => (8, [5, 6, 5], true)
  | 8 => (8, [5, 5, 6], true)
  | 9 => (6, [6, 6, 6], false)
  | 10 => (10, [10, 10, 10], false)
  | 11 => (11, [9, 9, 9], true)
  | 12 => (12, [8, 8, 8], true)
  | _ => (16, [4, 4, 4], true)

/-- The mode number and the mode bits; none where reserved. -/
def bc6Mode (b : Nat) : Option (Nat × Nat) :=
  if b % 4 < 2 then some (b % 4, 2)
  else if b % 4 = 2 then some (2 + b % 32 / 4, 5)
  else if b % 32 < 16 then some (10 + b % 32 / 4, 5)
  else none

/-- The bits of a field, first the first that stands. -/
def bc6Bits (f : Nat × Nat × Nat × Nat) : List (Nat × Nat × Nat) :=
  let (c, e, a, z) := f
  if z ≤ a then (List.range (a - z + 1)).map fun k => (c, e, z + k) else (List.range (z - a + 1)).map fun k => (c, e, z - k)

/-- A value of `n` bits as a signed one, modulo 2^`w`. -/
def signTo (v n w : Nat) : Nat := if v < 2 ^ (n - 1) then v else v + 2 ^ w - 2 ^ n

def bc6Widen (v prec : Nat) : Nat :=
  if 15 ≤ prec then v else if v = 0 then 0 else if v = 2 ^ prec - 1 then 0xFFFF else (v * 65536 + 0x8000) / 2 ^ prec

/-- A BC6H texel of unsigned data; a reserved mode is zero in r, g and b. -/
def bc6Texel (b t : Nat) : List Word :=
  match bc6Mode b with
  | none => [0, 0, 0, 0x3F800000]
  | some (mode, lo) =>
    let bits := (bc6Layout mode).flatMap bc6Bits
    let raw (c e : Nat) : Nat :=
      ((bits.zip (List.range bits.length)).map fun x =>
        if x.1.1 = c && x.1.2.1 = e then bitsField b (lo + x.2) 1 * 2 ^ x.1.2.2 else 0).foldl (· + ·) 0
    let (prec, deltas, diff) := bc6Precision mode
    let value (c e : Nat) : Nat :=
      if e = 0 || !diff then raw c e else (raw c 0 + signTo (raw c e) (deltas.getD c 0) prec) % 2 ^ prec
    let two := mode < 10
    let part := if two then bitsField b 77 5 else 0
    let ns := if two then 2 else 1
    let s := subsetOf ns part t
    let n := if two then 3 else 4
    let w := bcWeight n (indexAt b (if two then 82 else 65) n (anchorsOf ns part) t)
    ((List.range 3).map fun c =>
      bitsOfValue (decodeFloat .f16 (BitVec.ofNat 64
        (bcMix w (bc6Widen (value c (2 * s)) prec) (bc6Widen (value c (2 * s + 1)) prec) * 31 / 64)))) ++ [0x3F800000]

/-- A texel of a block of formats 8 to 14: r, g, b, a as f32. -/
def bcTexel (format : Nat) (bytes : List Byte) (x y : Nat) : List Word :=
  let b := bytesNat bytes
  let high := b / 2 ^ 64
  let t := 4 * y + x
  match format with
  | 8 => bc1Texel false b t
  | 9 => (bc1Texel true high t).take 3 ++ [fraction32 (bitsField b (4 * t) 4) 15]
  | 10 => (bc1Texel true high t).take 3 ++ [bc4Value b t]
  | 11 => [bc4Value b t, 0, 0, 0x3F800000]
  | 12 => [bc4Value b t, bc4Value high t, 0, 0x3F800000]
  | 13 => bc6Texel b t
  | _ => bc7Texel b t

/-! ### ASTC -/

/-- A range of integers: bits of each, and a trit or a quint above them. -/
structure AstcRange where
  bits : Nat
  trit : Bool
  quint : Bool
  deriving DecidableEq, Repr

/-- The ranges in rising order: 2, 3, 4, 5, 6, 8, ... 256 values. -/
def astcRanges : List AstcRange :=
  [⟨1, false, false⟩, ⟨0, true, false⟩, ⟨2, false, false⟩, ⟨0, false, true⟩, ⟨1, true, false⟩, ⟨3, false, false⟩,
   ⟨1, false, true⟩, ⟨2, true, false⟩, ⟨4, false, false⟩, ⟨2, false, true⟩, ⟨3, true, false⟩, ⟨5, false, false⟩,
   ⟨3, false, true⟩, ⟨4, true, false⟩, ⟨6, false, false⟩, ⟨4, false, true⟩, ⟨5, true, false⟩, ⟨7, false, false⟩,
   ⟨5, false, true⟩, ⟨6, true, false⟩, ⟨8, false, false⟩]

def astcRange (i : Nat) : AstcRange := astcRanges.getD i ⟨8, false, false⟩

/-- The bits that `n` integers of a range take. -/
def iseLength (r : AstcRange) (n : Nat) : Nat :=
  r.bits * n + (if r.trit then (8 * n + 4) / 5 else if r.quint then (7 * n + 2) / 3 else 0)

/-- Trit `k` of the five that eight bits hold. -/
def tritOf (T k : Nat) : Nat :=
  let all := bitsField T 2 3 = 7
  let C := if all then bitsField T 5 3 * 4 + bitsField T 0 2 else bitsField T 0 5
  let three := bitsField T 5 2 = 3
  let bit (i : Nat) : Nat := bitsField C i 1
  match k with
  | 4 => if all || three then 2 else bitsField T 7 1
  | 3 => if all then 2 else if three then bitsField T 7 1 else bitsField T 5 2
  | 2 => if C % 4 = 3 || bitsField C 2 2 = 3 then 2 else bit 4
  | 1 => if C % 4 = 3 then bit 4 else if bitsField C 2 2 = 3 then 2 else bitsField C 2 2
  | _ =>
    if C % 4 = 3 then bit 3 * 2 + bit 2 * (1 - bit 3)
    else if bitsField C 2 2 = 3 then C % 4
    else bit 1 * 2 + bit 0 * (1 - bit 1)

/-- Quint `k` of the three that seven bits hold. -/
def quintOf (Q k : Nat) : Nat :=
  let bit (i : Nat) : Nat := bitsField Q i 1
  let four := bitsField Q 1 2 = 3
  if four && bitsField Q 5 2 = 0 then
    (match k with | 2 => bit 0 * 4 + bit 4 * (1 - bit 0) * 2 + bit 3 * (1 - bit 0) | _ => 4)
  else
    let C := if four then bitsField Q 3 2 * 8 + (3 - bitsField Q 5 2) * 2 + bit 0 else bitsField Q 0 5
    match k with
    | 2 => if four then 4 else bitsField Q 5 2
    | 1 => if C % 8 = 5 then 4 else bitsField C 3 2
    | _ => if C % 8 = 5 then bitsField C 3 2 else C % 8

/-- Integer `i` of a sequence of `total` bits that starts at the lowest bit: its low bits, and its trit or quint. -/
def iseValue (r : AstcRange) (b i : Nat) : Nat × Nat :=
  if r.trit then
    let lo := i / 5 * (5 * r.bits + 8)
    let at' (k : Nat) : Nat := lo + r.bits * k + [0, 2, 4, 5, 7].getD k 0
    let T := bitsField b (at' 0 + r.bits) 2 + bitsField b (at' 1 + r.bits) 2 * 4 + bitsField b (at' 2 + r.bits) 1 * 16
      + bitsField b (at' 3 + r.bits) 2 * 32 + bitsField b (at' 4 + r.bits) 1 * 128
    (bitsField b (at' (i % 5)) r.bits, tritOf T (i % 5))
  else if r.quint then
    let lo := i / 3 * (3 * r.bits + 7)
    let at' (k : Nat) : Nat := lo + r.bits * k + [0, 3, 5].getD k 0
    let Q := bitsField b (at' 0 + r.bits) 3 + bitsField b (at' 1 + r.bits) 2 * 8 + bitsField b (at' 2 + r.bits) 2 * 32
    (bitsField b (at' (i % 3)) r.bits, quintOf Q (i % 3))
  else (bitsField b (i * r.bits) r.bits, 0)

/-- A value of `n` bits repeated from the top to fill `w` bits. -/
def repeatBits (v n w : Nat) : Nat :=
  (List.range w).foldl (fun x k => x * 2 + bitsField v (n - 1 - k % n) 1) 0

/-- The number whose bits, the highest first, are the named bits of a value; 9 names a zero. -/
def pickBits (v : Nat) (l : List Nat) : Nat := l.foldl (fun x k => x * 2 + if k = 9 then 0 else bitsField v k 1) 0

/-- A colour value of a range, as eight bits. -/
def astcColour (r : AstcRange) (v : Nat × Nat) : Nat :=
  if !r.trit && !r.quint then repeatBits v.1 r.bits 8
  else
    let (B, C) : List Nat × Nat :=
      match r.trit, r.bits with
      | true, 1 => ([], 204)
      | true, 2 => ([1, 9, 9, 9, 1, 9, 1, 1, 9], 93)
      | true, 3 => ([2, 1, 9, 9, 9, 2, 1, 2, 1], 44)
      | true, 4 => ([3, 2, 1, 9, 9, 9, 3, 2, 1], 22)
      | true, 5 => ([4, 3, 2, 1, 9, 9, 9, 4, 3], 11)
      | true, _ => ([5, 4, 3, 2, 1, 9, 9, 9, 5], 5)
      | false, 1 => ([], 113)
      | false, 2 => ([1, 9, 9, 9, 9, 1, 1, 9, 9], 54)
      | false, 3 => ([2, 1, 9, 9, 9, 9, 2, 1, 2], 26)
      | false, 4 => ([3, 2, 1, 9, 9, 9, 9, 3, 2], 13)
      | false, _ => ([4, 3, 2, 1, 9, 9, 9, 9, 4], 6)
    let A := if v.1 % 2 = 1 then 0x1FF else 0
    let T := (v.2 * C + pickBits v.1 B) ^^^ A
    (A &&& 0x80) + T / 4

/-- A weight of a range, 0 to 64. -/
def astcWeight (r : AstcRange) (v : Nat × Nat) : Nat :=
  let w :=
    if r.bits = 0 then (if r.trit then [0, 32, 63] else [0, 16, 32, 47, 63]).getD v.2 0
    else if !r.trit && !r.quint then repeatBits v.1 r.bits 6
    else
      let (B, C) : List Nat × Nat :=
        match r.trit, r.bits with
        | true, 1 => ([], 50)
        | true, 2 => ([1, 9, 9, 9, 1, 9, 1], 23)
        | true, _ => ([2, 1, 9, 9, 9, 2, 1], 11)
        | false, 1 => ([], 28)
        | false, _ => ([1, 9, 9, 9, 9, 1, 9], 13)
      let A := if v.1 % 2 = 1 then 0x7F else 0
      let T := (v.2 * C + pickBits v.1 B) ^^^ A
      (A &&& 0x20) + T / 4
  if 32 < w then w + 1 else w

/-- The weight grid of a block mode: width, height, range, two planes; none where reserved. -/
def astcGrid (m : Nat) : Option (Nat × Nat × AstcRange × Bool) :=
  let f (lo n : Nat) : Nat := bitsField m lo n
  let A := f 5 2
  let low := f 0 2 = 0
  let r := f 4 1 + (if low then f 2 2 else f 0 2) * 2
  let B := f 7 2
  let size : Option (Nat × Nat × Bool) :=
    if !low then
      (match f 2 2 with
        | 0 => some (B + 4, A + 2, true)
        | 1 => some (B + 8, A + 2, true)
        | 2 => some (A + 2, B + 8, true)
        | _ => if f 8 1 = 0 then some (A + 2, f 7 1 + 6, true) else some (f 7 1 + 2, A + 2, true))
    else if f 2 2 = 0 then none
    else
      (match B with
        | 0 => some (12, A + 2, true)
        | 1 => some (A + 2, 12, true)
        | 2 => some (A + 6, f 9 2 + 6, false)
        | _ => (match A with | 0 => some (6, 10, true) | 1 => some (10, 6, true) | _ => none))
  size.bind fun (w, h, free) =>
    let high := free && f 9 1 = 1
    let dual := free && f 10 1 = 1
    if r < 2 then none else some (w, h, astcRange (r - 2 + if high then 6 else 0), dual)

/-- A 32-bit mixing of a seed. -/
def hash52 (p : Word) : Word :=
  let p := p ^^^ (p >>> 15)
  let p := p - (p <<< 17)
  let p := p + (p <<< 7)
  let p := p + (p <<< 4)
  let p := p ^^^ (p >>> 5)
  let p := p + (p <<< 16)
  let p := p ^^^ (p >>> 7)
  let p := p ^^^ (p >>> 3)
  let p := p ^^^ (p <<< 6)
  p ^^^ (p >>> 17)

/-- The partition of a texel: which of `n` pairs of endpoints it uses. -/
def astcPartition (seed n x y : Nat) (small : Bool) : Nat :=
  if n < 2 then 0
  else
    let x := if small then 2 * x else x
    let y := if small then 2 * y else y
    let seed := seed + (n - 1) * 1024
    let rnum := hash52 (BitVec.ofNat 32 seed)
    let at' (k : Nat) : Nat := bitsField rnum.toNat k 4
    let h1 := if bitOf seed 1 then 4 else 5
    let h2 := if n = 3 then 6 else 5
    let (sh1, sh2) := if bitOf seed 0 then (h1, h2) else (h2, h1)
    let s (k sh : Nat) : Nat := at' k * at' k / 2 ^ sh
    let sum (k1 k2 drop : Nat) : Nat := (s k1 sh1 * x + s k2 sh2 * y + rnum.toNat / 2 ^ drop) % 64
    let a := sum 0 4 14
    let b := sum 8 12 10
    let c := if n ≤ 2 then 0 else sum 16 20 6
    let d := if n ≤ 3 then 0 else sum 24 28 2
    if b ≤ a && c ≤ a && d ≤ a then 0 else if c ≤ b && d ≤ b then 1 else if d ≤ c then 2 else 3

/-- Two values of which the second moves its high bit into the first: the first, and the second as a signed number. -/
def bitTransfer (b a : Nat) : Int × Int :=
  let lo := a / 2 % 64
  ((b / 2 + a / 128 * 128 : Nat), if 32 ≤ lo then (lo : Int) - 64 else lo)

def clamp8 (x : Int) : Nat := if x < 0 then 0 else if 255 < x then 255 else x.toNat

/-- The two endpoints of an LDR mode with their values; none for an HDR mode. -/
def astcEnds (cem : Nat) (v : List Nat) : Option (List Nat × List Nat) :=
  let n (k : Nat) : Nat := v.getD k 0
  let contract (c : List Int) : List Int :=
    let g (k : Nat) : Int := c.getD k 0
    [(g 0 + g 2) / 2, (g 1 + g 2) / 2, g 2, g 3]
  let plain (k : Nat) (a : Nat) : List Int := [(n k : Int), n (k + 2), n (k + 4), a]
  let direct (a0 a1 : Nat) : List Int × List Int :=
    if n 0 + n 2 + n 4 ≤ n 1 + n 3 + n 5 then (plain 0 a0, plain 1 a1) else (contract (plain 1 a1), contract (plain 0 a0))
  let t (k : Nat) : Int × Int := bitTransfer (n k) (n (k + 1))
  let offset (a0 a1 : Int) : List Int × List Int :=
    let e0 := [(t 0).1, (t 2).1, (t 4).1, a0]
    let e1 := [(t 0).1 + (t 0).2, (t 2).1 + (t 2).2, (t 4).1 + (t 4).2, a1]
    if 0 ≤ (t 0).2 + (t 2).2 + (t 4).2 then (e0, e1) else (contract e1, contract e0)
  let grey (l a : Int) : List Int := [l, l, l, a]
  let scaled (a : Int) : List Int := [((n 0 * n 3 / 256 : Nat) : Int), ((n 1 * n 3 / 256 : Nat) : Int), ((n 2 * n 3 / 256 : Nat) : Int), a]
  let base (a : Int) : List Int := [(n 0 : Int), n 1, n 2, a]
  let r : Option (List Int × List Int) :=
    match cem with
    | 0 => some (grey (n 0) 255, grey (n 1) 255)
    | 1 => let l := n 0 / 4 + n 1 / 64 * 64; some (grey l 255, grey ((l + n 1 % 64 : Nat) : Int) 255)
    | 4 => some (grey (n 0) (n 2), grey (n 1) (n 3))
    | 5 => some (grey (t 0).1 (t 2).1, grey ((t 0).1 + (t 0).2) ((t 2).1 + (t 2).2))
    | 6 => some (scaled 255, base 255)
    | 8 => some (direct 255 255)
    | 9 => some (offset 255 255)
    | 10 => some (scaled (n 4), base (n 5))
    | 12 => some (direct (n 6) (n 7))
    | 13 => some (offset (t 6).1 ((t 6).1 + (t 6).2))
    | _ => none
  r.map fun e => (e.1.map clamp8, e.2.map clamp8)

/-- The block reversed bit by bit, so that the weights stand from the lowest bit. -/
def reverse128 (b : Nat) : Nat := (List.range 128).foldl (fun x k => x * 2 + bitsField b k 1) 0

/-- The interpolated weight of a texel in a plane. -/
def astcTexelWeight (bw bh w h : Nat) (weight : Nat → Nat) (x y : Nat) : Nat :=
  let g (n size p : Nat) : Nat := ((1024 + n / 2) / (n - 1) * p * (size - 1) + 32) / 64
  let gx := g bw w x
  let gy := g bh h y
  let fs := gx % 16
  let ft := gy % 16
  let v := gx / 16 + gy / 16 * w
  let w11 := (fs * ft + 8) / 16
  let at' (k c : Nat) : Nat := if c = 0 then 0 else weight k * c
  (at' v (16 + w11 - fs - ft) + at' (v + 1) (fs - w11) + at' (v + w) (ft - w11) + at' (v + w + 1) w11 + 8) / 16

/-- A void-extent block: one colour; none where its extent is illegal or its colour is HDR. -/
def astcVoid (b : Nat) : Option (List Nat) :=
  let e (k : Nat) : Nat := bitsField b (12 + 13 * k) 13
  let open' := (List.range 4).all fun k => e k == 0x1FFF
  if bitOf b 9 || bitsField b 10 2 ≠ 3 || (!open' && (e 1 ≤ e 0 || e 3 ≤ e 2)) then none
  else some ((List.range 4).map fun k => bitsField b (72 + 16 * k) 8)

/-- The largest range whose `n` integers fit `room` bits, at least six values. -/
def astcColourRange (n room : Nat) : Option AstcRange :=
  ((List.range 21).reverse.find? fun i => 4 ≤ i && iseLength (astcRange i) n ≤ room).map astcRange

/-- The endpoint modes of the partitions, and the bits they take below the weights. -/
def astcModes (b parts weights : Nat) : List Nat × Nat :=
  if parts = 1 then ([bitsField b 13 4], 0)
  else
    let sel := bitsField b 23 2
    if sel = 0 then (List.replicate parts (bitsField b 25 4), 0)
    else
      let extra := 3 * parts - 4
      let code := bitsField b 25 4 + bitsField b (128 - weights - extra) extra * 16
      ((List.range parts).map fun i =>
        (sel - 1 + bitsField code i 1) * 4 + bitsField code (parts + 2 * i) 2, extra)

/-- A texel of a block; none where the block is an error, or the texel's endpoints are HDR. -/
def astcBlock (bw bh b x y : Nat) : Option (List Nat) :=
  if bitsField b 0 9 = 0x1FC then astcVoid b
  else
    (astcGrid (bitsField b 0 11)).bind fun (w, h, range, dual) =>
    let planes := if dual then 2 else 1
    let count := w * h * planes
    let weights := iseLength range count
    let parts := bitsField b 11 2 + 1
    let (cems, extra) := astcModes b parts weights
    let start := if parts = 1 then 17 else 29
    let top := 128 - weights - extra
    let room := top - (if dual then 2 else 0)
    let ints := (cems.map fun c => (c / 4 + 1) * 2).foldl (· + ·) 0
    if bw < w || bh < h || 64 < count || weights < 24 || 96 < weights || (dual && parts = 4) || 18 < ints || room < start then none
    else
      (astcColourRange ints (room - start)).bind fun cr =>
      let small := bw * bh < 31
      let part := astcPartition (bitsField b 13 10) parts x y small
      let before := ((cems.take part).map fun c => (c / 4 + 1) * 2).foldl (· + ·) 0
      let cem := cems.getD part 0
      let field := bitsField b start (room - start)
      let vs := (List.range ((cem / 4 + 1) * 2)).map fun k => astcColour cr (iseValue cr field (before + k))
      let stream := bitsField (reverse128 b) 0 weights
      let weight (plane k : Nat) : Nat := astcWeight range (iseValue range stream (k * planes + plane))
      let ccs := if dual then bitsField b room 2 else 4
      (astcEnds cem vs).map fun e => (List.range 4).map fun c =>
        let i := astcTexelWeight bw bh w h (weight (if c = ccs then 1 else 0)) x y
        let wide (v : Nat) : Nat := v * 256 + 128
        ((wide (e.1.getD c 0) * (64 - i) + wide (e.2.getD c 0) * i + 32) / 64) / 256

/-- A texel of an ASTC LDR block as four unorm bytes; an error is opaque magenta. -/
def astcTexel (bw bh : Nat) (bytes : List Byte) (x y : Nat) : List Byte :=
  ((astcBlock bw bh (bytesNat bytes) x y).getD [255, 0, 255, 255]).map (BitVec.ofNat 8 ·)

end Sys2Proof.Machine
end

