-- ==== Sys2Proof/Machine/Texture.lean ====
section
/-! DEFINITION. The texture members and the texture unit, major 0x6C (17 R271 to R275). The resource and sampler
entries and the places of the texels are fixed at issue, so that a lane's fault is precise; the texels are read when the
unit serves the entry. -/

namespace Sys2Proof.Machine

/-! ### Values -/

/-- The exact sum, difference and product of f32 values. -/
def sumOf (x y : FV) : FV := (addFV .rne x y).1
def differenceOf (x y : FV) : FV := sumOf x (negFV y)
def productOf (x y : FV) : FV := (mulFV x y).1
def quotientOf (x y : FV) : FV := rneValue (divFV x y).1
def halfOf (v : FV) : FV := match v with | .fin n m e => .fin n m (e - 1) | v => v
def one : FV := .fin false 1 0

def floorValue (v : FV) : Option Int := match v with | .fin n m e => some (roundToInt .rdn n m e) | _ => none
/-- A number of 256ths, rounded down. -/
def floor256 (v : FV) : Option Int := match v with | .fin n m e => some (roundToInt .rdn n m (e + 8)) | _ => none

/-! ### Resource entries (17 R272, R273) -/

structure TexEntry where
  base : Nat
  size : Nat
  format : Nat
  dim : Nat
  w : Nat
  h : Nat
  d : Nat
  levels : Nat
  bw : Nat
  bh : Nat
  fallback : Bool
  minres : Nat
  deriving DecidableEq, Repr

structure Sampler where
  filter : Nat
  modeU : Nat
  modeV : Nat
  modeW : Nat
  bias : Word
  minLod : Word
  maxLod : Word
  border : List Word
  deriving DecidableEq, Repr

/-- The block sizes of two-dimensional ASTC. -/
def astcBlocks : List (Nat × Nat) :=
  [(4, 4), (5, 4), (5, 5), (6, 5), (6, 6), (8, 5), (8, 6), (8, 8), (10, 5), (10, 6), (10, 8), (10, 10), (12, 10), (12, 12)]

def formatAssigned (n : Nat) : Bool := (1 ≤ n && n ≤ 5) || (8 ≤ n && n ≤ 14) || n == 16
def allZero (l : List Byte) : Bool := l.all (· == 0)

/-- The width and height of a format's block, and its bytes. -/
def blockShape (format astcb : Nat) : Nat × Nat × Nat :=
  match format with
  | 3 => (1, 1, 8)
  | 4 => (1, 1, 16)
  | 8 | 11 => (4, 4, 8)
  | 9 | 10 | 12 | 13 | 14 => (4, 4, 16)
  | 16 => (astcb % 16 + 1, astcb / 16 + 1, 16)
  | _ => (1, 1, 4)

/-- A texture entry without a reserved value. -/
def parseTexture (b : List Byte) : Option TexEntry :=
  let format := fieldNat b 0x12 1
  let dim := fieldNat b 0x13 1
  let dm1 := fieldNat b 0x18 2
  let levels := fieldNat b 0x1A 1
  let astcb := fieldNat b 0x1B 1
  let shape := blockShape format astcb
  let ok := fieldNat b 16 1 == 2 && fieldNat b 17 1 ≤ 1 && formatAssigned format && 1 ≤ dim && dim ≤ 4
    && (dim != 1 || dm1 == 0) && (dim != 4 || dm1 == 5) && 1 ≤ levels && levels ≤ 17
    && (if format = 16 then astcBlocks.contains (shape.1, shape.2.1) else astcb == 0)
    && fieldNat b 0x1C 1 ≤ 1 && fieldNat b 0x1D 1 < levels && allZero (b.drop 0x1E)
  if ok then
    some {
      base := fieldNat b 0 8, size := fieldNat b 8 8, format := format, dim := dim
      w := fieldNat b 0x14 2 + 1, h := fieldNat b 0x16 2 + 1, d := dm1 + 1, levels := levels
      bw := shape.1, bh := shape.2.1, fallback := fieldNat b 0x1C 1 == 1, minres := fieldNat b 0x1D 1 }
  else none

def parseSampler (b : List Byte) : Option Sampler :=
  let uv := fieldNat b 0x13 1
  let ok := fieldNat b 0 8 == 0 && fieldNat b 8 8 == 0 && fieldNat b 16 1 == 3 && fieldNat b 17 1 ≤ 1
    && fieldNat b 0x12 1 < 8 && uv % 16 ≤ 3 && uv / 16 ≤ 3 && fieldNat b 0x14 1 ≤ 3
    && allZero ((b.drop 0x15).take 3) && allZero (b.drop 0x34)
  if ok then
    some {
      filter := fieldNat b 0x12 1, modeU := uv % 16, modeV := uv / 16, modeW := fieldNat b 0x14 1
      bias := bytesWord ((b.drop 0x18).take 4), minLod := bytesWord ((b.drop 0x1C).take 4)
      maxLod := bytesWord ((b.drop 0x20).take 4)
      border := (List.range 4).map fun i => bytesWord ((b.drop (0x24 + 4 * i)).take 4) }
  else none

/-! ### Layout (17 R272) -/

def roundUp (x k : Nat) : Nat := (x + k - 1) / k * k
def blockBytesOf (T : TexEntry) : Nat := (blockShape T.format 0).2.2
def levelW (T : TexEntry) (l : Nat) : Nat := max 1 (T.w / 2 ^ l)
def levelH (T : TexEntry) (l : Nat) : Nat := max 1 (T.h / 2 ^ l)
/-- Slices of a level: only a 3D texture has more than one. -/
def levelD (T : TexEntry) (l : Nat) : Nat := if T.dim = 3 then max 1 (T.d / 2 ^ l) else 1
def rowPitch (T : TexEntry) (l : Nat) : Nat := roundUp (roundUp (levelW T l) T.bw / T.bw * blockBytesOf T) 256
def sliceBytes (T : TexEntry) (l : Nat) : Nat := rowPitch T l * (roundUp (levelH T l) T.bh / T.bh)
def levelBytes (T : TexEntry) (l : Nat) : Nat := sliceBytes T l * levelD T l
def levelsBelow (T : TexEntry) (l : Nat) : Nat := ((List.range l).map (levelBytes T)).foldl (· + ·) 0
def layerBytes (T : TexEntry) : Nat := roundUp (levelsBelow T T.levels) 65536

/-- The offset of the block that holds a texel. -/
def texelOffset (T : TexEntry) (layer l x y z : Nat) : Nat :=
  layer * layerBytes T + levelsBelow T l + z * sliceBytes T l + y / T.bh * rowPitch T l + x / T.bw * blockBytesOf T

/-! ### Level of detail (17 R274) -/

/-- The larger of two values. -/
def largerOf (x y : FV) : FV := if cmpFV x y == some .lt then y else x

/-- The square of the footprint, from the gradients along x and along y. -/
def footprint (ux vx uy vy : FV) : FV :=
  largerOf (sumOf (productOf ux ux) (productOf vx vx)) (sumOf (productOf uy uy) (productOf vy vy))

/-- λ within 2^-8 of half the logarithm of the squared footprint: the free choice falls on a multiple of 2^-24. -/
def lambdaOf (sq : FV) (pick : Nat) : Option FV :=
  match sq with
  | .nan _ => none
  | .inf _ => some (.inf false)
  | .fin _ 0 _ => some (.inf true)
  | .fin _ m e =>
    let y := log2Encl m e
    let k : Int := (y.lo >>> (fixBits - 23) : Nat)
    let centre : Int := if y.neg then -k else k
    let x : Int := centre - (2 ^ 16 + 1 : Nat) + ((Config.lodPick pick % (2 ^ 17 + 3) : Nat) : Int)
    some (.fin (decide (x < 0)) x.natAbs (-24))

/-- λ′; none where a bound is not a number or they cross, for which no result is stated. -/
def clampLod (T : TexEntry) (S : Sampler) (lam : FV) : Option FV :=
  let x := sumOf lam (f32Value S.bias)
  let top : FV := .fin false (T.levels - 1) 0
  let lo := f32Value S.minLod
  match cmpFV (f32Value S.maxLod) top with
  | none => none
  | some c =>
    let hi := if c == .lt then f32Value S.maxLod else top
    match cmpFV lo hi, cmpFV x lo, cmpFV x hi with
    | some .gt, _, _ => none
    | some _, some .lt, _ => some lo
    | some _, some _, some .gt => some hi
    | some _, some _, some _ => some x
    | _, _, _ => none

/-- The levels a lane samples, the weight of the second in 256ths, and whether the filter within a level is linear. -/
structure LodChoice where
  level : Nat
  second : Option Nat
  blend : Nat
  linear : Bool
  deriving DecidableEq, Repr

def natOf (x : Int) : Option Nat := if x < 0 then none else some x.toNat

def chooseLevels (T : TexEntry) (S : Sampler) (lod : FV) : Option LodChoice :=
  let linear := if cmpFV lod (.fin false 0 0) == some .gt then S.filter / 2 % 2 == 1 else S.filter % 2 == 1
  if S.filter / 4 % 2 = 0 then
    match (floorValue (sumOf lod (.fin false 1 (-1)))).bind natOf with
    | some l => some ⟨l, none, 0, linear⟩
    | none => none
  else
    match (floorValue lod).bind natOf, floor256 lod with
    | some l, some k => some ⟨l, some (min (l + 1) (T.levels - 1)), (k - 256 * l).toNat, linear⟩
    | _, _ => none

/-! ### Texel positions -/

/-- The address mode on one coordinate: none is the border. -/
def addressMode (mode size : Nat) (i : Int) : Option Nat :=
  match mode with
  | 0 => some (i % (size : Int)).toNat
  | 1 =>
    let m := i % (2 * size : Nat)
    some (if m < size then m.toNat else 2 * size - 1 - m.toNat)
  | 2 => some (min (max i 0) ((size : Int) - 1)).toNat
  | _ => if 0 ≤ i ∧ i < size then some i.toNat else none

/-- The first texel along one axis, and the weight of the second in 256ths. -/
def texelAlong (linear : Bool) (u : FV) (size : Nat) (offset : Int) : Option (Int × Nat) :=
  let x := rneValue (productOf u (intFV size))
  if linear then
    let y := rneValue (differenceOf x (.fin false 1 (-1)))
    match floorValue y, floor256 y with
    | some i, some k => some (i + offset, (k - 256 * i).toNat)
    | _, _ => none
  else (floorValue x).map fun i => (i + offset, 0)

/-- Where a lane looks: coordinates in the level, the layer or face, and offsets. -/
structure Look where
  u : FV
  v : FV
  w : FV
  layer : Nat
  dx : Int
  dy : Int
  deriving DecidableEq, Repr

/-- The texels of one level by their position, none for the border, with their weights. -/
def texelsOf (T : TexEntry) (S : Sampler) (p : Look) (l : Nat) (linear : Bool) :
    Option (List (Option (Nat × Nat × Nat)) × Nat × Nat) :=
  let W := levelW T l
  let H := levelH T l
  let D := levelD T l
  let along (a : Int × Nat) : List Int := if linear then [a.1, a.1 + 1] else [a.1]
  match texelAlong linear p.u W p.dx, texelAlong linear p.v H p.dy,
      (if T.dim = 3 then texelAlong linear p.w D 0 else some (0, 0)) with
  | some x, some y, some z =>
    let zs := if T.dim = 3 then along z else [0]
    some (zs.flatMap fun zi => (along y).flatMap fun yi => (along x).map fun xi =>
      match addressMode S.modeU W xi, addressMode S.modeV H yi,
          (if T.dim = 3 then addressMode S.modeW D zi else some 0) with
      | some a, some b, some c => some (a, b, c)
      | _, _, _ => none, x.2, y.2)
  | _, _, _ => none

/-! ### Cube faces and layers -/

def magnitudeLt (x y : FV) : Bool :=
  match x, y with
  | .fin _ m e, .fin _ n f => cmpMag m e n f == .lt
  | _, _ => false

/-- The face and its coordinates before scaling: s, t and the major axis, by the Khronos convention. -/
def cubeFace (x y z : FV) : Nat × FV × FV × FV :=
  if !magnitudeLt z x && !magnitudeLt z y then
    if fvNeg z then (5, negFV x, negFV y, z) else (4, x, negFV y, z)
  else if !magnitudeLt y x then if fvNeg y then (3, x, negFV z, y) else (2, x, z, y)
  else if fvNeg x then (1, z, negFV y, x) else (0, negFV z, negFV y, x)

def finiteValue (v : FV) : Bool := match v with | .fin .. => true | _ => false
def absValue (v : FV) : FV := match v with | .fin _ m e => .fin false m e | .inf _ => .inf false | v => v

/-- ½ (s ÷ |m| + 1), each operation rounded (log entry 22). -/
def faceCoord (a m : FV) : FV := halfOf (rneValue (sumOf (quotientOf a (absValue m)) one))

/-- An array layer: rounded to an integer and clamped. -/
def layerOf (w : FV) (layers : Nat) : Option Nat :=
  match w with
  | .nan _ => none
  | .inf neg => some (if neg then 0 else layers - 1)
  | .fin n m e => some (min (max (roundToInt .rne n m e) 0) ((layers : Int) - 1)).toNat

def lookOf (T : TexEntry) (u v w : FV) (dx dy : Int) : Option Look :=
  match T.dim with
  | 2 => (layerOf w T.d).map fun l => ⟨u, v, .fin false 0 0, l, dx, dy⟩
  | 4 =>
    if finiteValue u && finiteValue v && finiteValue w then
      let f := cubeFace u v w
      some ⟨faceCoord f.2.1 f.2.2.2, faceCoord f.2.2.1 f.2.2.2, .fin false 0 0, f.1, dx, dy⟩
    else none
  | _ => some ⟨u, v, w, 0, dx, dy⟩

/-! ### Placing a lane's texels -/

/-- A lane's sample, or its fault. -/
inductive SamplePlace where
  | ok (x : SampleLane)
  | fault (f : LaneFault)
  deriving DecidableEq, Repr

/-- Texels resolved one after the other: their taps, or the first fault with its address. -/
inductive TapRead where
  | ok (l : List Tap)
  | fault (cause : Option Cause) (ea : DWord)
  deriving DecidableEq, Repr

def placeTaps (s : State) (rd : Reader) (T : TexEntry) (layer l : Nat) (ts : List (Option (Nat × Nat × Nat))) :
    TapRead × State :=
  ts.foldl (fun r t =>
    match r.1, t with
    | .fault _ _, _ => r
    | .ok taps, none => (.ok (taps ++ [⟨[], 0, 0⟩]), r.2)
    | .ok taps, some (x, y, z) =>
      let off := texelOffset T layer l x y z
      let ea := BitVec.ofNat 64 (T.base + off)
      if T.size < off + blockBytesOf T then (.fault none ea, r.2)
      else
        match piecesOf r.2 rd ea (blockBytesOf T) with
        | (.ok ps, s) => (.ok (taps ++ [⟨ps, x % T.bw, y % T.bh⟩]), s)
        | (.fault c, s) => (.fault (some c) ea, s)) (.ok [], s)

/-- What placing one lane's levels comes to. -/
inductive LevelsRead where
  | ok (l : List LevelTaps)
  | free
  | fault (cause : Option Cause) (ea : DWord)
  deriving DecidableEq, Repr

def placeLevels (s : State) (rd : Reader) (T : TexEntry) (S : Sampler) (p : Look) (linear : Bool) (ls : List Nat) :
    LevelsRead × State :=
  ls.foldl (fun r l =>
    match r.1 with
    | .ok done =>
      match texelsOf T S p l linear with
      | none => (.free, r.2)
      | some (ts, fx, fy) =>
        match placeTaps r.2 rd T p.layer l ts with
        | (.ok taps, s) => (.ok (done ++ [⟨taps, fx, fy⟩]), s)
        | (.fault c ea, s) => (.fault c ea, s)
    | _ => r) (.ok [], s)

/-- The first address at which levels miss a stream page that is not installed. -/
def levelsMiss (l : List LevelTaps) : Option Nat :=
  (l.flatMap fun x => x.taps.flatMap fun t => t.pieces).findSome? fun p => match p.1 with | .stream va => some va | _ => none

/-- A lane whose result the spec does not state: it reads nothing. -/
def freeSample (lane : Nat) : SampleLane := ⟨lane, [], 0, true, false⟩

/-- The TVAL of an ENGINE_DESCRIPTOR, which the spec does not state (log entry 23). -/
def descriptorFault (s : State) (lane : Nat) : LaneFault := ⟨lane, 0x200, Config.freeDWord s.fresh, 0⟩

/-- A lane at its levels. Under POLICY 1 a lane that misses a stream page is sampled at once from level MINRES or above; a
level there that is not resident either is a fault of the lane (17 R275; log entry 114). -/
def placeSample (s : State) (rd : Reader) (T : TexEntry) (S : Sampler) (p : Look) (c : LodChoice) (lane : Nat) :
    SamplePlace × State :=
  let ls := c.level :: c.second.toList
  let back := ls.map (max · T.minres)
  let finish (r : LevelsRead × State) (fell : Bool) : SamplePlace × State :=
    match r with
    | (.ok taps, s) => (.ok ⟨lane, taps, c.blend, T.dim == 3 && c.linear, fell⟩, s)
    | (.free, s) => (.ok (freeSample lane), s)
    | (.fault none _, s) => (.fault (descriptorFault s lane), { s with fresh := s.fresh + 1 })
    | (.fault (some x) ea, s) => (.fault ⟨lane, x, ea, pageOf ((ea.extractLsb' 0 57).toNat)⟩, s)
  match placeLevels s rd T S p c.linear ls with
  | (.ok taps, s) =>
    if !T.fallback || (levelsMiss taps).isNone then finish (.ok taps, s) false
    else
      match placeLevels s rd T S p c.linear back with
      | (.ok low, s) =>
        match levelsMiss low with
        | some va => (.fault ⟨lane, causeStreamFail, canonicalVa va, 0⟩, s)
        | none => finish (.ok low, s) true
      | r => finish r true
  | r => finish r false

/-! ### Issue -/

/-- What the texture members differ in. -/
inductive TexMember where
  | implicit | level | gradient
  deriving DecidableEq, Repr

/-- The gradients of TEX in a quad: the coarse differences of u·W0 and v·H0. -/
def quadGradients (g : Group) (T : TexEntry) (b lane : Nat) : FV :=
  let q := lane / 4 * 4
  let along (r size k : Nat) : FV := rneValue (productOf (f32Value (vreg g (q + k) r)) (intFV size))
  let diff (r size k : Nat) : FV := rneValue (differenceOf (along r size k) (along r size 0))
  footprint (diff b T.w 1) (diff (b + 1) T.h 1) (diff b T.w 2) (diff (b + 1) T.h 2)

def lodOf (g : Group) (quad : Bool) (m : TexMember) (T : TexEntry) (b lane pick : Nat) : Option FV :=
  let reg (k : Nat) : FV := f32Value (vreg g lane (b + k))
  match m with
  | .implicit => if quad then lambdaOf (quadGradients g T b lane) pick else some (.fin false 0 0)
  | .level => some (reg 3)
  | .gradient => lambdaOf (footprint (reg 3) (reg 4) (reg 5) (reg 6)) pick

/-- A signed texel offset. -/
def offsetField (x : Nat) : Int := signedNat 4 (x % 16)

/-- One lane of TEX, TEXL or TEXG. -/
def sampleLane (g : Group) (f : MF) (quad : Bool) (m : TexMember) (rd : Reader) (T : TexEntry) (S : Sampler) (base : Nat)
    (s : State) (lane : Nat) : SamplePlace × State :=
  let b := f.b.toNat
  let reg (k : Nat) : FV := f32Value (vreg g lane (b + k))
  let ofs := f.ofs.toNat
  let lod := ((lodOf g quad m T b lane (base + lane)).bind (clampLod T S)).bind (chooseLevels T S)
  match lod, lookOf T (reg 0) (reg 1) (reg 2) (offsetField ofs) (offsetField (ofs / 16)) with
  | some c, some p => placeSample s rd T S p c lane
  | _, _ => (.ok (freeSample lane), s)

/-- The address of the entry that index `i` names. -/
def entryAddr (g : Group) (i : Nat) : DWord := sreg g 60 + BitVec.ofNat 64 (64 * i)

/-- The entry, read at issue. -/
def readEntry (s : State) (g : Group) (rd : Reader) (i : Nat) : RangeRead × State := readOwn s g rd (entryAddr g i) 64

/-- The whole guard set faults on a resource entry. -/
def entryFaults (s : State) (g : Group) (cur : Cur) (m : DWord) (f : Nat → LaneFault) : State :=
  submitEntry s g cur .texture (.query []) false true ((laneList g.w m).map f)

/-- Entries that the unit cannot use. -/
def descriptorFaults (s : State) (g : Group) (cur : Cur) (m : DWord) : State :=
  entryFaults { s with fresh := s.fresh + 1 } g cur m (descriptorFault s)

/-- An entry is read and goes on with its bytes, the group in hand refreshed. -/
def withEntry (s : State) (g : Group) (cur : Cur) (rd : Reader) (m : DWord) (i : Nat)
    (k : State → Group → List Byte → State) : State :=
  withOwnRange s g cur rd (entryAddr g i) 64 fun r s g =>
    match r with
    | .bytes b => k s g b
    | .fault c ea => entryFaults s g cur m fun l => ⟨l, c, ea, pageOf ((ea.extractLsb' 0 57).toNat)⟩
    | .stream va => parkStream s g cur va

def submitSample (f : MF) (mem : TexMember) (T : TexEntry) (S : Sampler) (s : State) (g : Group) (cur : Cur) (t : Team)
    (rd : Reader) (m : DWord) : State :=
  let base := s.fresh
  let r := (laneList g.w m).foldl (fun (r : List SampleLane × List LaneFault × State) i =>
    match sampleLane g f (isQuadBound t) mem rd T S base r.2.2 i with
    | (.ok x, s) => (r.1 ++ [x], r.2.1, s)
    | (.fault y, s) => (r.1, r.2.1 ++ [y], s)) ([], [], { s with fresh := s.fresh + 64 })
  submitEntry r.2.2 g cur .texture
    (.sample T.format T.bw T.bh S.border (f.cnt.toNat + 1) f.d.toNat (f.ofs.toNat / 256 % 16) r.1 (entryScope f.sc))
    true r.1.isEmpty r.2.1

def sampleMember (i : Instr) (f : MF) (mem : TexMember) (s : State) : Result :=
  issueQueue i f .texture s fun s g cur t p m =>
    let rd := groupReader s g p m
    let a := (sreg g f.a.toNat).toNat
    withEntry s g cur rd m (a % 2 ^ 32) fun s g tb =>
      withEntry s g cur rd m (a / 2 ^ 32) fun s g sb =>
        match parseTexture tb, parseSampler sb with
        | some T, some S =>
          if mem = .gradient && 3 ≤ T.dim then descriptorFaults s g cur m
          else submitSample f mem T S s g cur t rd m
        | _, _ => descriptorFaults s g cur m

def execTex (f : MF) (s : State) : Result := sampleMember (.tex f) f .implicit s
def execTexl (f : MF) (s : State) : Result := sampleMember (.texl f) f .level s
def execTexg (f : MF) (s : State) : Result := sampleMember (.texg f) f .gradient s

/-- What TEXQ answers for a level. -/
def queryValues (T : TexEntry) (l : Nat) : List Word :=
  if T.levels ≤ l then [0, 0, 0, 0]
  else
    [levelW T l, levelH T l, if T.dim = 3 then levelD T l else T.d, T.levels].map (BitVec.ofNat 32 ·)

def execTexq (f : MF) (s : State) : Result :=
  issueQueue (.texq f) f .texture s fun s g cur _ p m =>
    withEntry s g cur (groupReader s g p m) m ((sreg g f.a.toNat).toNat % 2 ^ 32) fun s g b =>
      match parseTexture b with
      | none => descriptorFaults s g cur m
      | some T =>
        let v := queryValues T (f.ofs.toNat % 256)
        let ws := (laneList g.w m).flatMap fun i =>
          (List.range (f.cnt.toNat + 1)).map fun k => RegWrite.vec i (f.d.toNat + k) (v.getD k 0)
        submitEntry s g cur .texture (.query ws) true false []

/-! ### Texels and their combination (17 R272, R274) -/

/-- A texel as r, g, b, a. -/
def decodeTexel (format bw bh : Nat) (bytes : List Byte) (x y : Nat) : List Word :=
  let byte (k : Nat) : Byte := bytes.getD k 0
  let word (k : Nat) : Word := bytesWord ((bytes.drop (4 * k)).take 4)
  match format with
  | 1 => (List.range 4).map fun k => unorm (byte k)
  | 2 => (List.range 3).map (fun k => srgbToLinear (byte k)) ++ [unorm (byte 3)]
  | 3 => (List.range 4).map fun k => bitsOfValue (decodeFloat .f16 (bytesDWord ((bytes.drop (2 * k)).take 2)))
  | 4 => (List.range 4).map word
  | 5 => [word 0, 0, 0, 0x3F800000]
  | 16 => (astcTexel bw bh bytes x y).map unorm
  | n => bcTexel n bytes x y

/-- The four texels of a channel with their weights, in the order w00, w10, w01, w11. -/
def bilinear (fx fy : Nat) (t : List Word) : Word :=
  let w (a b : Nat) : FV := .fin false (a * b) (-16)
  let p (a b k : Nat) : FV := productOf (w a b) (f32Value (t.getD k 0))
  let s1 := rneValue (sumOf (p (256 - fx) (256 - fy) 0) (p fx (256 - fy) 1))
  let s2 := rneValue (sumOf s1 (p (256 - fx) fy 2))
  bitsOfValue (sumOf s2 (p fx fy 3))

/-- The colour of one level. -/
def levelColour (l : LevelTaps) (texels : List (List Word)) : List Word :=
  match texels with
  | [t] => t
  | _ => (List.range 4).map fun c => bilinear l.fx l.fy (texels.map fun t => t.getD c 0)

/-- The blend of two levels. -/
def mipBlend (f : Nat) (a b : Word) : Word :=
  bitsOfValue (sumOf (f32Value a) (rneValue (productOf (.fin false f (-8)) (differenceOf (f32Value b) (f32Value a)))))

def readTap (s : State) (core format bw bh : Nat) (border : List Word) (t : Tap) : List Word × State :=
  if t.pieces.isEmpty then (border, s)
  else
    let r := readPieces s core t.pieces
    (decodeTexel format bw bh r.1 t.x t.y, r.2)

def readTaps (s : State) (core format bw bh : Nat) (border : List Word) (l : LevelTaps) : List Word × State :=
  let r := l.taps.foldl (fun (r : List (List Word) × State) t =>
    let x := readTap r.2 core format bw bh border t
    (r.1 ++ [x.1], x.2)) ([], s)
  (levelColour l r.1, r.2)

/-- A lane's colour; one the spec does not state is free. -/
def sampleColour (s : State) (core format bw bh : Nat) (border : List Word) (x : SampleLane) : List Word × State :=
  let r := x.levels.foldl (fun (r : List (List Word) × State) l =>
    let y := readTaps r.2 core format bw bh border l
    (r.1 ++ [y.1], y.2)) ([], s)
  if x.free then
    ((List.range 4).map fun k => Config.freeWord (r.2.fresh + k), { r.2 with fresh := r.2.fresh + 4 })
  else
    match r.1 with
    | a :: b :: _ => ((List.range 4).map fun c => mipBlend x.blend (a.getD c 0) (b.getD c 0), r.2)
    | [a] => (a, r.2)
    | [] => ([], r.2)

/-- TEXTURE_SAMPLE: the texture unit under a core serves the first entry of its queue. -/
def serveTexture (s : State) (core : Nat) : State :=
  match queueHead s core .texture with
  | none => s
  | some o =>
    if !storesEarlier s o || waitsForStream o then s
    else
      match o.kind with
      | .query ws => entryResult s o ws
      | .sample format bw bh border n d mask lanes scope =>
        let r := lanes.foldl (fun (r : List RegWrite × State) x =>
          let c := sampleColour r.2 core format bw bh border x
          let ws := (List.range n).map fun k => RegWrite.vec x.lane (d + k) (c.1.getD k 0)
          (r.1 ++ ws ++ (if mask = 0 then [] else [.mask mask x.lane x.fellBack]), c.2)) ([], orderEntry s o scope)
        entryResult r.2 o r.1
      | _ => s

def execTextureSample (core : Nat) (s : State) : Result := .next (serveTexture s core)

end Sys2Proof.Machine
end

