-- ==== Sys2Proof/Machine/Tests.lean ====
section
/-! DEFINITION. Box and triangle tests, major 0x6F (17 R288, R289). -/

namespace Sys2Proof.Machine

/-! ### Arithmetic on f32 codes, rounded to nearest and never flushed -/

def f32Code (w : Word) : DWord := w.zeroExtend 64
def lower (w : DWord) : Word := w.extractLsb' 0 32
def fAdd (a b : Word) : Word := lower (addRne .f32 (f32Code a) (f32Code b))
def fSub (a b : Word) : Word := lower (subRne .f32 (f32Code a) (f32Code b))
def fMul (a b : Word) : Word := lower (mulRne .f32 (f32Code a) (f32Code b))
def fFma (a b c : Word) : Word := lower (fmaRne .f32 (f32Code a) (f32Code b) (f32Code c))
def fNeg (a : Word) : Word := a ^^^ 0x80000000
def fRcp (a : Word) : Word := lower (divRne .f32 0x3F800000 (f32Code a))
def fNaN (a : Word) : Bool := nanCode .f32 (f32Code a)
def fOrder (a b : Word) : Option Ordering := cmpFV (f32Value a) (f32Value b)
def fLt (a b : Word) : Bool := fOrder a b == some .lt
def fLe (a b : Word) : Bool := fOrder a b == some .lt || fOrder a b == some .eq
def posInf : Word := 0x7F800000
def negInf : Word := 0xFF800000
def fOne : Word := 0x3F800000

/-- The smaller and the larger of two numbers, −0 below +0. -/
def fMin (a b : Word) : Word := lower (minMaxBits .f32 false (f32Code a) (f32Code b)).1
def fMax (a b : Word) : Word := lower (minMaxBits .f32 true (f32Code a) (f32Code b)).1
/-- NaN is −∞ in min and +∞ in max. -/
def minWithin (a b : Word) : Word := if fNaN a || fNaN b then negInf else fMin a b
def maxWithin (a b : Word) : Word := if fNaN a || fNaN b then posInf else fMax a b

/-- A ray as the tests see it. -/
structure TestRay where
  origin : List Word
  dir : List Word
  tmin : Word
  tmax : Word
  deriving DecidableEq, Repr

def testRay (l : List Word) : TestRay := ⟨l.take 3, (l.drop 3).take 3, l.getD 6 0, l.getD 7 0⟩
def rayNaN (r : TestRay) : Bool := r.origin.any fNaN || r.dir.any fNaN || fNaN r.tmin || fNaN r.tmax

/-! ### The box test -/

/-- One axis narrows the interval. -/
def boxAxis (r : TestRay) (box : List Word) (t : Word × Word) (a : Nat) : Word × Word :=
  let inv := fRcp (r.dir.getD a 0)
  let o := r.origin.getD a 0
  let p := fMul (fSub (box.getD a 0) o) inv
  let q := fMul (fSub (box.getD (3 + a) 0) o) inv
  (fMax t.1 (minWithin p q), fMin t.2 (maxWithin p q))

/-- The entry distance of a child's box, +∞ for a miss. -/
def boxTest (r : TestRay) (box : List Word) (child : Word) : Word :=
  if child = 0xFFFFFFFF || box.any fNaN || rayNaN r then posInf
  else
    let t := (List.range 3).foldl (boxAxis r box) (r.tmin, r.tmax)
    if fLe t.1 t.2 then t.1 else posInf

def wordAt (b : List Byte) (off : Nat) : Word := bytesWord ((b.drop off).take 4)
def wordsAt (b : List Byte) (off n : Nat) : List Word := (List.range n).map fun i => wordAt b (off + 4 * i)

/-- t0, t1, CHILD0 and CHILD1 of a node record. -/
def boxResult (r : TestRay) (b : List Byte) : List Word :=
  let c0 := wordAt b 0x30
  let c1 := wordAt b 0x34
  [boxTest r (wordsAt b 0 6) c0, boxTest r (wordsAt b 0x18 6) c1, c0, c1]

/-! ### The triangle test -/

def vecSub (a b : List Word) : List Word := (List.range 3).map fun i => fSub (a.getD i 0) (b.getD i 0)
def vecCross (a b : List Word) : List Word :=
  let x (l : List Word) (i : Nat) : Word := l.getD i 0
  let c (i j : Nat) : Word := fFma (x a i) (x b j) (fNeg (fMul (x a j) (x b i)))
  [c 1 2, c 2 0, c 0 1]
def vecDot (a b : List Word) : Word :=
  let x (l : List Word) (i : Nat) : Word := l.getD i 0
  fFma (x a 0) (x b 0) (fFma (x a 1) (x b 1) (fMul (x a 2) (x b 2)))

/-- t, u and v of a hit. -/
def triTest (r : TestRay) (v0 v1 v2 : List Word) : Option (Word × Word × Word) :=
  if rayNaN r || v0.any fNaN || v1.any fNaN || v2.any fNaN then none
  else
    let e1 := vecSub v1 v0
    let e2 := vecSub v2 v0
    let s := vecSub r.origin v0
    let p := vecCross r.dir e2
    let q := vecCross s e1
    let det := vecDot e1 p
    if fOrder det 0 == some .eq then none
    else
      let inv := fRcp det
      let u := fMul (vecDot s p) inv
      let v := fMul (vecDot r.dir q) inv
      let t := fMul (vecDot e2 q) inv
      if fLe 0 u && fLe u fOne && fLe 0 v && fLe (fAdd u v) fOne && fLt r.tmin t && fLt t r.tmax then some (t, u, v)
      else none

def triVertices (b : List Byte) : List Word × List Word × List Word := (wordsAt b 0 3, wordsAt b 12 3, wordsAt b 24 3)

/-- t, u, v and PRIM of a triangle record. -/
def triResult (r : TestRay) (b : List Byte) : List Word :=
  let x := triVertices b
  match triTest r x.1 x.2.1 x.2.2 with
  | some h => [h.1, h.2.1, h.2.2, wordAt b 0x24]
  | none => [posInf, 0, 0, 0xFFFFFFFF]

/-! ### BOXT, TRIT and their unit -/

/-- The record of a lane: v[D] is an unsigned offset. -/
def testEa (g : Group) (f : MF) (lane : Nat) : DWord := baseReg g f.a + f.ofs.signExtend 64 + (vreg g lane f.d.toNat).zeroExtend 64

/-- A record as pieces, after the range check and alignment. -/
def placeRecord (s : State) (rd : Reader) (lane : Nat) (ea : DWord) (size align : Nat) : (List (Loc × Nat) ⊕ LaneFault) × State :=
  let fault (c : Cause) : LaneFault := ⟨lane, c, ea, faultPage rd ea size⟩
  match resolveGlobal s rd.core rd.part rd.origin rd.emu ea size align .read rd.window with
  | (.fault c, s) => (.inr (fault c), s)
  | (.at _, s) =>
    match piecesOf s rd ea size with
    | (.ok l, s) => (.inl l, s)
    | (.fault c, s) => (.inr (fault c), s)

def testMember (i : Instr) (f : MF) (tri : Bool) (s : State) : Result :=
  issueQueue i f .test s fun s g cur _ p m =>
    let rd := groupReader s g p m
    let size := if tri then 48 else 64
    afterBreak s g cur true false ((laneList g.w m).map fun l => (l, testEa g f l, size)) <|
    let r := (laneList g.w m).foldl (fun (r : List TestLane × List LaneFault × State) l =>
      match placeRecord r.2.2 rd l (testEa g f l) size (if tri then 16 else 64) with
      | (.inl ps, s) => (r.1 ++ [⟨l, ps, (List.range 8).map fun k => vreg g l (f.b.toNat + k)⟩], r.2.1, s)
      | (.inr x, s) => (r.1, r.2.1 ++ [x], s)) ([], [], s)
    submitEntry r.2.2 g cur .test (.test tri f.d.toNat r.1 (entryScope f.sc)) true r.1.isEmpty r.2.1

def execBoxt (f : MF) (s : State) : Result := testMember (.boxt f) f false s
def execTrit (f : MF) (s : State) : Result := testMember (.trit f) f true s

/-- TEST_UNIT_SERVICE: the unit under a core serves the first entry of its queue. -/
def serveTest (s : State) (core : Nat) : State :=
  match queueHead s core .test with
  | none => s
  | some o =>
    if !storesEarlier s o || waitsForStream o then s
    else
      match o.kind with
      | .test tri d lanes scope =>
        let r := lanes.foldl (fun (r : List RegWrite × State) x =>
          let b := readPieces r.2 core x.pieces
          let v := if tri then triResult (testRay x.ray) b.1 else boxResult (testRay x.ray) b.1
          (r.1 ++ (List.range 4).map fun k => RegWrite.vec x.lane (d + k) (v.getD k 0), b.2)) ([], orderEntry s o scope)
        entryResult r.2 o r.1
      | _ => s

def execTestUnitService (core : Nat) (s : State) : Result := .next (serveTest s core)

end Sys2Proof.Machine
end

