-- ==== Sys2Proof/Machine/Ray.lean ====
section
/-! DEFINITION. TRACE, VERDICT and the traversal unit (17 R282 to R287). -/

namespace Sys2Proof.Machine

/-! ### Submission -/

/-- The address of a ray record: a global address, aligned to 64 bytes. -/
def rayFault (lane : Nat) (ea : DWord) : Option LaneFault :=
  if !canonical ea then some ⟨lane, causePermission, ea, 0⟩
  else if ea.toNat % 64 != 0 then some ⟨lane, causeMisaligned, ea, 0⟩
  else none

def setLeft (s : State) (n : Nat) : State :=
  { s with ops := s.ops.mapIdx fun i o => if i + 1 == s.ops.length then { o with left := n } else o }

/-- One ray for each lane; the operation counts the rays that are still to end. -/
def execTrace (f : MF) (s : State) : Result :=
  issueQueue (.trace f) f .traversal s fun s g cur _ _ m =>
    let lanes := laneList g.w m
    let bad := lanes.filterMap fun l => rayFault l (laneEa g f l)
    let good := lanes.filter fun l => (rayFault l (laneEa g f l)).isNone
    let o := newOp s g cur (some .vq) (.engine (.trace f) m (good.map fun l => (l, [laneEa g f l, sreg g 60]))) false
    let s := addOp s { o with done := good.isEmpty, left := good.length, queue := if good.isEmpty then none else some .traversal }
    closeIssue s (advance (splitFaults g cur bad) (cur.active &&& ~~~faultSet bad) cur) cur false

/-- One verdict for each lane: handle, code and distance. -/
def execVerdict (f : MF) (s : State) : Result :=
  issueQueue (.verdict f) f .traversal s fun s g cur _ _ m =>
    let d := f.d.toNat
    let lanes := laneList g.w m
    let legal (l : Nat) : Bool := (vreg g l (d + 1)).toNat ≤ 3
    let bad := (lanes.filter fun l => !legal l).map fun l => descriptorFault s l
    let args := (lanes.filter legal).map fun l => (l, (List.range 3).map fun k => (vreg g l (d + k)).zeroExtend 64)
    submitEntry { s with fresh := s.fresh + 1 } g cur .traversal (.engine (.verdict f) m args) false args.isEmpty bad

/-! ### The ray table -/

def tableRays : Nat := 16384

def noHit (tmax : Word) : Candidate := ⟨0, tmax, 0, 0, 0xFFFFFFFF, 0xFFFFFFFF, 0, false⟩

def findRay (s : State) (quad slot : Nat) : Option Ray := (quadAt s quad).rays.find? (·.slot == slot)
def putRay (s : State) (quad : Nat) (r : Ray) : State :=
  modQuad s quad fun q => { q with rays := q.rays.map fun x => if x.slot == r.slot then r else x }

def generationOf (q : Quad) (slot : Nat) : Nat := ((q.gens.find? (·.1 == slot)).map (·.2)).getD 0

/-- A ray leaves its entry, whose next use has another generation. -/
def freeRay (s : State) (quad : Nat) (r : Ray) : State :=
  modQuad s quad fun q =>
    { q with
      rays := q.rays.filter (·.slot != r.slot)
      gens := (r.slot, (r.gen + 1) % 4096) :: q.gens.filter (·.1 != r.slot) }

/-- The operation that submitted a ray counts it as ended; TRACE is complete once all of its rays are. -/
def rayEnded (s : State) (op : Nat) : State :=
  match findOp s op with
  | none => s
  | some o =>
    let s := putOp s { o with left := o.left - 1 }
    if o.left ≤ 1 then opDone s op else s

/-- The event record of a ray that ends with STATUS 4 (log entry 24). -/
def rayRecord (s : State) (quad : Nat) (r : Ray) (c : Cause) (ea : DWord) : State :=
  quadRecord s quad c.toNat r.part false [ea]

def hitBytes (status : Nat) (ws : List Word) : List Byte :=
  natBytes 4 status ++ ws.flatMap (fun w => natBytes 4 w.toNat) ++ natBytes 8 0

/-- What a hit record holds: from the best hit, and free values beside STATUS 4, for which the spec states none. -/
def hitRecord (s : State) (r : Ray) (status : Nat) : List Byte × State :=
  if status = 4 then
    (hitBytes 4 ((List.range 5).map fun k => Config.freeWord (s.fresh + k)), { s with fresh := s.fresh + 5 })
  else (hitBytes status [r.best.t, r.best.u, r.best.v, r.best.prim, r.best.leaf], s)

def rayTeam (s : State) (r : Ray) : Option (Team × Partition) :=
  match findOp s r.op with | some o => teamPart s o.team | none => none

def rayReader (r : Ray) (t : Team) (p : Partition) : Reader := engineReader r.core p t.origin

/-- A page that a unit of a quad waits for. -/
def awaitPage (s : State) (part quad : Nat) (va : Nat) : State :=
  awaitHost s part (dieOfQuad quad) (unitQuad quad) [pageOf va]

/-- A ray that has ended writes its hit record and leaves. -/
def writeHit (s : State) (quad : Nat) (r : Ray) (status : Nat) : State :=
  match rayTeam s r with
  | none => freeRay s quad r
  | some (t, p) =>
    let h := hitRecord s r status
    match writeRange h.2 (rayReader r t p) r.payload h.1 with
    | (.bytes _, s) => rayEnded (freeRay s quad r) r.op
    | (.stream va, s) => putRay s quad { r with ended := some status, waits := some (.stream va) }
    | (.fault c ea, s) =>
      if c = causeNotPresent then
        let va := (ea.extractLsb' 0 57).toNat
        putRay (awaitPage s p.idx quad va) quad { r with ended := some status, waits := some (.host va) }
      else rayEnded (freeRay (rayRecord s quad r c ea) quad r) r.op

/-- A ray ends with STATUS 4 and an event record; one whose record was never read, or whose PAYLOAD is misaligned, has
no hit record to write. -/
def failRay (s : State) (quad : Nat) (r : Ray) (c : Cause) (ea : DWord) : State :=
  let s := rayRecord s quad r c ea
  if r.bvh.isSome && r.payload.toNat % 32 == 0 && r.ended.isNone then writeHit s quad { r with waits := none, cand := none } 4
  else rayEnded (freeRay s quad r) r.op

/-! ### Reading the records -/

/-- What a step of a ray comes to. -/
inductive RayStep where
  | go (r : Ray)
  /-- A candidate suspends it. -/
  | hold (r : Ray)
  | fin (r : Ray) (status : Nat)
  | wait (w : PageWait)
  | fail (cause : Cause) (ea : DWord)
  /-- It fails, with its record read. -/
  | reject (r : Ray) (cause : Cause) (ea : DWord)
  deriving DecidableEq, Repr

/-- A read of a ray: it goes on with the bytes, waits, or fails. -/
def rayRead (s : State) (rd : Reader) (ea : DWord) (n : Nat) (k : List Byte → RayStep) : RayStep × State :=
  match readRange s rd ea n with
  | (.bytes b, s) => (k b, s)
  | (.stream va, s) => (.wait (.stream va), s)
  | (.fault c a, s) =>
    if c = causeNotPresent then (.wait (.host ((a.extractLsb' 0 57).toNat)), s) else (.fail c a, s)

def causeDescriptor : Cause := 0x200

/-- The ray record of 17 R283, with the index of its BVH entry. -/
def readRecord (r : Ray) (b : List Byte) : Ray :=
  { r with
    bvh := some (wordAt b 0x20).toNat
    origin := wordsAt b 0 3, tmin := wordAt b 0x0C, dir := wordsAt b 0x10 3, tmax := wordAt b 0x1C, flags := wordAt b 0x24
    shader := wordAt b 0x28, payload := bytesDWord ((b.drop 0x30).take 8), user := bytesDWord ((b.drop 0x38).take 8)
    best := noHit (wordAt b 0x1C) }

/-- A record is legal where its reserved bits are 0 and the hit record is aligned. -/
def legalRecord (b : List Byte) : Bool :=
  (wordAt b 0x24).toNat < 4 && wordAt b 0x2C == 0 && (bytesDWord ((b.drop 0x30).take 8)).toNat % 32 == 0

/-- The BVH entry of 17 R282, kind 5, within its limits. -/
def loadBvh (r : Ray) (b : List Byte) : Option Ray :=
  let base := fieldNat b 0 8
  let size := fieldNat b 8 8
  let tri := fieldNat b 0x18 8
  let sh := fieldNat b 0x28 8
  let root := wordAt b 0x24
  if fieldNat b 16 1 == 5 && fieldNat b 17 1 ≤ 1 && allZero ((b.drop 0x12).take 6) && allZero (b.drop 0x34)
      && base % 64 == 0 && size % 64 == 0 && tri % 16 == 0 && sh % 128 == 0 then
    some { r with
      nodeBase := BitVec.ofNat 64 base, nodeCount := size / 64, triBase := BitVec.ofNat 64 tri
      triCount := fieldNat b 0x20 4, shTable := BitVec.ofNat 64 sh, shCount := fieldNat b 0x30 4
      stack := [⟨root, negInf, 0⟩], loaded := true }
  else none

def entryAddress (r : Ray) (i : Nat) : DWord := r.res + BitVec.ofNat 64 (64 * i)

/-- A ray's record and then its BVH entry. -/
def loadRay (s : State) (rd : Reader) (r : Ray) : RayStep × State :=
  match r.bvh with
  | none =>
    rayRead s rd r.ea 64 fun b =>
      if legalRecord b then .go (readRecord r b) else .reject (readRecord r b) causeDescriptor r.ea
  | some i =>
    rayRead s rd (entryAddress r i) 64 fun b =>
      match loadBvh r b with
      | some r' => .go r'
      | none => .fail causeDescriptor (entryAddress r i)

/-! ### Traversal (17 R285) -/

def stackSize : Nat := 32
def rayOf (r : Ray) : TestRay := ⟨r.origin, r.dir, r.tmin, r.tmax⟩
def fFinite (w : Word) : Bool := !fNaN w && !infBits .f32 (f32Code w)

/-- Children pushed in order; a push beyond the stack's size ends the ray. -/
def pushAll (r : Ray) : List StackEntry → RayStep
  | [] => .go r
  | e :: l => if stackSize ≤ r.stack.length then .fin r 3 else pushAll { r with stack := e :: r.stack } l

/-- A node: the farther child is pushed first, the nearer is popped first, child 0 on a tie. -/
def visitNode (r : Ray) (w : Word) (b : List Byte) : RayStep :=
  let t := boxResult (rayOf r) b
  let e0 : StackEntry := ⟨t.getD 2 0, t.getD 0 0, w⟩
  let e1 : StackEntry := ⟨t.getD 3 0, t.getD 1 0, w ||| 0x80000000⟩
  let order := if fLt e1.entry e0.entry then [e0, e1] else [e1, e0]
  pushAll r (order.filter fun e => fFinite e.entry)

/-- The end of a ray at its first accepted hit (17 R283 FLAGS bit 1). -/
def endsFirst (r : Ray) : Bool := r.flags.getLsbD 1

def visitTriangle (r : Ray) (l : LeafTodo) (b : List Byte) : RayStep :=
  let flags := wordAt b 0x28
  let next := { r with todo := if l.next < l.last then some { l with next := l.next + 1 } else none }
  if flags.toNat ≥ 2 then .fail causeDescriptor (r.triBase + BitVec.ofNat 64 (48 * l.next))
  else
    let x := triVertices b
    match triTest (rayOf r) x.1 x.2.1 x.2.2 with
    | none => .go next
    | some (t, u, v) =>
      let c : Candidate := ⟨0, t, u, v, wordAt b 0x24, l.ref, r.shader, false⟩
      if r.flags.getLsbD 0 || (!l.nop && !flags.getLsbD 0) then
        let hit := { next with best := c, bestStatus := 1, tmax := t }
        if endsFirst r then .fin hit 1 else .go hit
      else .hold { next with cand := some c }

/-- One step of the loop of 17 R285. -/
def rayStep (s : State) (rd : Reader) (r : Ray) : RayStep × State :=
  match r.todo with
  | some l =>
    rayRead s rd (r.triBase + BitVec.ofNat 64 (48 * l.next)) 48 (visitTriangle r l)
  | none =>
    match r.stack with
    | [] => (.fin r r.bestStatus, s)
    | e :: rest =>
      let r' := { r with stack := rest }
      let w := e.word
      if fLt r.tmax e.entry then (.go r', s)
      else if !w.getLsbD 31 then
        if w.toNat < r.nodeCount then
          rayRead s rd (r.nodeBase + BitVec.ofNat 64 (64 * w.toNat)) 64 (visitNode r' w)
        else (.fail causeDescriptor r.nodeBase, s)
      else if w.getLsbD 30 then
        if w.extractLsb' 24 5 != 0 then (.fail causeDescriptor r.nodeBase, s)
        else
          (.hold { r' with cand := some ⟨1, e.entry, 0, 0, w &&& 0xFFFFFF, e.ref, r.shader + 1, false⟩ }, s)
      else
        let first := (w &&& 0xFFFFFF).toNat
        let last := first + (w.extractLsb' 24 5).toNat
        if last < r.triCount then (.go { r' with todo := some ⟨e.ref, first, last, w.getLsbD 29⟩ }, s)
        else (.fail causeDescriptor r.nodeBase, s)

/-- Steps of one ray taken in one event; a ray that is not at its end goes on at the next. -/
def rayFuel : Nat := 64

def rayRun : Nat → State → Nat → Reader → Ray → State
  | 0, s, quad, _, r => putRay s quad r
  | n + 1, s, quad, rd, r =>
    match if r.loaded then rayStep s rd r else loadRay s rd r with
    | (.go r, s) => rayRun n s quad rd r
    | (.hold r, s) => putRay s quad r
    | (.fin r status, s) => writeHit s quad r status
    | (.wait w, s) => waitRay s quad r w
    | (.fail c ea, s) => failRay s quad r c ea
    | (.reject r c ea, s) => failRay s quad r c ea
where
  waitRay (s : State) (quad : Nat) (r : Ray) (w : PageWait) : State :=
    match w with
    | .host va => putRay (awaitPage s r.part quad va) quad { r with waits := some w }
    | _ => putRay s quad { r with waits := some w }

/-- RAY_TRAVERSE: a ray that neither waits nor is suspended goes on, from the reading of its record to its hit record. -/
def rayTraverse (s : State) (quad slot : Nat) : State :=
  match findRay s quad slot with
  | none => s
  | some r =>
    if r.waits.isSome || r.cand.isSome then s
    else
      match r.ended, rayTeam s r with
      | some status, _ => writeHit s quad r status
      | none, none => s
      | none, some (t, p) =>
        if isStopped p then s else rayRun rayFuel s quad (rayReader r t p) r

def execRayTraverse (quad ray : Nat) (s : State) : Result := .next (rayTraverse s quad ray)

/-! ### The unit's entries (01 R22) -/

/-- The cores of a quad in the order of service, from the one after the last served. -/
def serviceOrder (quad next : Nat) : List Nat := let l := quadCores quad; l.drop (next % 4) ++ l.take (next % 4)

/-- Whether the traversal unit can take the head of a core's queue now: a ray into a free entry, or a verdict, which is a release
and waits as every release does (16 R251, 17 R287). -/
def traversalReady (s : State) (quad : Nat) (o : Op) : Bool :=
  match o.kind with
  | .engine (.trace _) _ _ => storesEarlier s o && (quadAt s quad).rays.length < tableRays
  | .engine (.verdict _) _ _ => allEarlier s o
  | _ => false

/-- The core whose entry the traversal unit takes next, with that entry. -/
def nextTraversal (s : State) (quad : Nat) : Option (Nat × Op) :=
  (serviceOrder quad (quadAt s quad).rayNext).findSome? fun core =>
    match queueHead s core .traversal with
    | some o => if traversalReady s quad o then some (core, o) else none
    | none => none

/-- The unit has served a core. -/
def servedCore (s : State) (quad core : Nat) : State :=
  modQuad s quad fun q => { q with rayNext := ((quadCores quad).findIdx (· == core) + 1) % 4 }

def newRay (s : State) (quad : Nat) (o : Op) (ea res : DWord) : Ray :=
  let q := quadAt s quad
  let slot := lowestFree (q.rays.map (·.slot)) tableRays
  { slot := slot, gen := generationOf q slot, op := o.id, part := o.part, core := o.core, ea := ea, res := res, bvh := none, loaded := false
    origin := [], dir := [], tmin := 0, tmax := 0, flags := 0, shader := 0, payload := 0, user := 0, nodeBase := 0
    nodeCount := 0, triBase := 0, triCount := 0, shTable := 0, shCount := 0, stack := [], todo := none
    best := noHit 0, bestStatus := 0, cand := none, ended := none, waits := none }

/-- RAY_ACCEPT: one ray of the entry enters the table; the entry frees with its last ray. -/
def rayAccept (s : State) (quad : Nat) : State :=
  match nextTraversal s quad with
  | some (core, o) =>
    match o.kind with
    | .engine (.trace f) m ((_, [ea, res]) :: rest) =>
      let s := orderEntry s o (entryScope f.sc)
      let r := newRay s quad o ea res
      let s := putOp s { o with
        kind := .engine (.trace f) m rest
        queue := if rest.isEmpty then none else some .traversal }
      let s := modQuad s quad fun q => { q with rays := q.rays ++ [r] }
      rayTraverse (if rest.isEmpty then servedCore s quad core else s) quad r.slot
    | _ => s
  | none => s

def execRayAccept (quad : Nat) (s : State) : Result := .next (rayAccept s quad)

/-! ### Verdicts (17 R287) -/

/-- A candidate is accepted with a distance where it lies between TMIN and the current tmax. -/
def acceptHit (r : Ray) (c : Candidate) (t : Word) : Ray × Bool :=
  if fLt r.tmin t && fLt t r.tmax then
    ({ r with best := { c with t := t }, bestStatus := c.kind + 1, tmax := t }, true)
  else (r, false)

/-- What a verdict makes of a ray, and whether it ends it. -/
def judge (r : Ray) (c : Candidate) (code : Nat) (t : Word) : Ray × Bool :=
  match code with
  | 0 => let x := acceptHit r c c.t; (x.1, x.2 && endsFirst r)
  | 2 => ((acceptHit r c c.t).1, true)
  | 3 => if fNaN t then (r, false) else let x := acceptHit r c t; (x.1, x.2 && endsFirst r)
  | _ => (r, false)

/-- A verdict reaches its candidate: the ray goes on, or ends. Its next candidate has another generation, so that no
second verdict for this one finds it (log entry 25). -/
def applyJudgement (s : State) (quad : Nat) (r : Ray) (c : Candidate) (code : Nat) (t : Word) : State :=
  let x := judge { r with cand := none, gen := (r.gen + 1) % 4096 } c code t
  if x.2 then writeHit s quad x.1 x.1.bestStatus else putRay s quad x.1

/-- The ray that a handle names: of the same partition, of the same generation, with a candidate that a group has. -/
def handleRay (s : State) (part : Nat) (h : Word) : Option (Nat × Ray × Candidate) :=
  let quad := (h.extractLsb' 18 2).toNat * 16 + (h.extractLsb' 14 4).toNat
  match findRay s quad (h.extractLsb' 0 14).toNat with
  | some r =>
    match r.cand with
    | some c => if r.gen = (h.extractLsb' 20 12).toNat && r.part = part && c.sent then some (quad, r, c) else none
    | none => none
  | none => none

/-- One lane's verdict; a stale one is discarded and counted. -/
def oneVerdict (s : State) (die part : Nat) (a : List DWord) : State :=
  let w (k : Nat) : Word := (a.getD k 0).extractLsb' 0 32
  match handleRay s part (w 0) with
  | some (quad, r, c) => applyJudgement s quad r c (w 1).toNat (w 2)
  | none => countDie s die 12

/-- VERDICT_APPLY: the unit takes the entry, after the release of the group's earlier stores. -/
def verdictApply (s : State) (quad : Nat) : State :=
  match nextTraversal s quad with
  | some (core, o) =>
    match o.kind with
    | .engine (.verdict _) _ args =>
      let s := args.foldl (fun s a => oneVerdict s (dieOfQuad quad) o.part a.2) (orderEntry s o 3)
      opDone (servedCore s quad core) o.id
    | _ => s
  | none => s

def execVerdictApply (quad : Nat) (s : State) : Result := .next (verdictApply s quad)

end Sys2Proof.Machine
end

