-- ==== Sys2Proof/Machine/Raster.lean ====
section
/-! DEFINITION. RASTQ, the raster unit and the fixed rasteriser (17 R277 to R281). -/

namespace Sys2Proof.Machine

/-! ### Submission -/

/-- The record must be global and 64-byte aligned, or MISALIGNED is raised. -/
def execRastq (f : MF) (s : State) : Result :=
  issueQueue (.rastq f) f .raster s fun s g cur _ _ m =>
    let ea := uniformEa g f
    if !canonical ea || ea.toNat % 64 != 0 then
      submitEntry s g cur .raster (.query []) false true ((laneList g.w m).map fun l => ⟨l, causeMisaligned, ea, 0⟩)
    else submitEntry s g cur .raster (.engine (.rastq f) m [(0, [ea])]) false false []

/-! ### The batch record (17 R278) -/

structure BatchRec where
  verts : Nat
  indices : Nat
  count : Nat
  base : Nat
  inst : Nat
  alpha : Bool
  cull : Bool
  vis : Nat
  pitch : Nat
  width : Nat
  height : Nat
  swq : Nat
  flags : Nat
  deriving DecidableEq, Repr

def parseBatch (b : List Byte) : Option BatchRec :=
  let flags := fieldNat b 0x19 1
  let r : BatchRec := {
    verts := fieldNat b 0 8, indices := fieldNat b 8 8, count := fieldNat b 0x10 4, base := fieldNat b 0x14 4
    inst := fieldNat b 0x18 1, alpha := flags % 2 == 1, cull := flags / 2 % 2 == 1, vis := fieldNat b 0x20 8
    pitch := fieldNat b 0x28 4, width := fieldNat b 0x2C 2, height := fieldNat b 0x2E 2, swq := fieldNat b 0x30 8
    flags := flags }
  if r.verts % 16 == 0 && r.indices % 4 == 0 && 1 ≤ r.count && r.count ≤ 2 ^ 25 && r.base + r.count ≤ 2 ^ 25
      && r.inst < 128 && flags < 4 && fieldNat b 0x1A 6 == 0 && r.vis % 8 == 0 && r.pitch % 8 == 0 && r.swq % 64 == 0
      && fieldNat b 0x38 8 == 0 then some r
  else none

/-! ### Accesses of the unit -/

/-- What a step of a batch comes to. -/
inductive UnitRes (α : Type) where
  | ok (a : α)
  | wait (w : PageWait)
  | fail (cause : Cause) (ea : DWord)

def unitRead (s : State) (rd : Reader) (ea : Nat) (n : Nat) : UnitRes (List Byte) × State :=
  match readRange s rd (BitVec.ofNat 64 ea) n with
  | (.bytes b, s) => (.ok b, s)
  | (.stream va, s) => (.wait (.stream va), s)
  | (.fault c a, s) =>
    if c = causeNotPresent then (.wait (.host ((a.extractLsb' 0 57).toNat)), s) else (.fail c a, s)

/-- An aligned word or double word that the unit writes or changes at the home. -/
def unitPlace (s : State) (rd : Reader) (ea n : Nat) (u : Use) : UnitRes Loc × State :=
  let a := BitVec.ofNat 64 ea
  match resolveGlobal s rd.core rd.part rd.origin rd.emu a n n u rd.window with
  | (.at (.stream va), s) => (.wait (.stream va), s)
  | (.at l, s) => (.ok l, s)
  | (.fault c, s) => if c = causeNotPresent then (.wait (.host ((a.extractLsb' 0 57).toNat)), s) else (.fail c a, s)

/-! ### Classification (17 R279) -/

structure Vertex where
  x : Word
  y : Word
  z : Word
  deriving DecidableEq, Repr

def vertexOf (b : List Byte) : Vertex := ⟨wordAt b 0, wordAt b 4, wordAt b 8⟩

inductive TriPath where
  | discard | fixed | software
  deriving DecidableEq, Repr

/-- E of a triangle. -/
def signedArea (v0 v1 v2 : Vertex) : Word :=
  let dx1 := fSub v1.x v0.x
  let dy1 := fSub v1.y v0.y
  let dx2 := fSub v2.x v0.x
  let dy2 := fSub v2.y v0.y
  fFma dx1 dy2 (fNeg (fMul dx2 dy1))

def outOfReach (c : Word) : Bool := fLt c 0xC7000000 || fLt 0x46FFFE00 c

def classify (r : BatchRec) (threshold : Word) (v0 v1 v2 : Vertex) : TriPath :=
  let e := signedArea v0 v1 v2
  let vs := [v0, v1, v2]
  if !(vs.all fun v => fFinite v.x && fFinite v.y && fFinite v.z) || fOrder e 0 == some .eq || (r.cull && fLt e 0) then .discard
  else if r.alpha || vs.any (fun v => outOfReach v.x || outOfReach v.y) then .software
  else if fLt threshold (fMul (e &&& 0x7FFFFFFF) 0x3F000000) then .fixed
  else .software

/-! ### The fixed rasteriser (17 R280) -/

/-- A coordinate snapped to a multiple of 1/256. -/
def snap (w : Word) : Int := match f32Value w with | .fin n m e => roundToInt .rne n m (e + 8) | _ => 0

abbrev Point := Int × Int

/-- The exact edge function of a directed edge at a point. -/
def edgeAt (a b p : Point) : Int := (b.1 - a.1) * (p.2 - a.2) - (b.2 - a.2) * (p.1 - a.1)
/-- A top edge or a left edge of a triangle of positive area, y pointing down. -/
def topLeft (a b : Point) : Bool := (b.2 == a.2 && a.1 < b.1) || b.2 < a.2
def insideEdge (a b p : Point) : Bool := let e := edgeAt a b p; 0 < e || (e == 0 && topLeft a b)

/-- A ratio of integers, correctly rounded. -/
def ratio (n d : Int) : Word := bitsOfValue (divFV (intFV n) (intFV d)).1

/-- A snapped triangle of positive area, with its depths. -/
structure Snapped where
  p0 : Point
  p1 : Point
  p2 : Point
  z0 : Word
  z1 : Word
  z2 : Word
  area : Int
  deriving DecidableEq, Repr

def snapTriangle (v0 v1 v2 : Vertex) : Option Snapped :=
  let p (v : Vertex) : Point := (snap v.x, snap v.y)
  let a := edgeAt (p v0) (p v1) (p v2)
  if a = 0 then none
  else if a < 0 then some ⟨p v0, p v2, p v1, v0.z, v2.z, v1.z, -a⟩
  else some ⟨p v0, p v1, p v2, v0.z, v1.z, v2.z, a⟩

def covers (t : Snapped) (p : Point) : Bool := insideEdge t.p1 t.p2 p && insideEdge t.p2 t.p0 p && insideEdge t.p0 t.p1 p

/-- The depth at a point, clamped; none where it is not a number, for which the spec states no value. -/
def depthAt (t : Snapped) (p : Point) : Option Word :=
  let l1 := ratio (edgeAt t.p2 t.p0 p) t.area
  let l2 := ratio (edgeAt t.p0 t.p1 p) t.area
  let z := fFma l2 (fSub t.z2 t.z0) (fFma l1 (fSub t.z1 t.z0) t.z0)
  if fNaN z then none else if fLe z 0 then some 0 else if fLt fOne z then some fOne else some z

/-- The pixels along one axis that a triangle can cover. -/
def pixelRange (cs : List Int) (limit : Nat) : List Nat :=
  let lo := cs.foldl min (cs.headD 0)
  let hi := cs.foldl max (cs.headD 0)
  let a := (max (lo / 256 - 1) 0).toNat
  let b := min (max (hi / 256 + 2) 0).toNat limit
  (List.range (b - a)).map (a + ·)

def pixelsOf (r : BatchRec) (t : Snapped) : List (Nat × Nat) :=
  (pixelRange [t.p0.2, t.p1.2, t.p2.2] r.height).flatMap fun (y : Nat) =>
    (pixelRange [t.p0.1, t.p1.1, t.p2.1] r.width).filterMap fun (x : Nat) =>
      if covers t ((x : Int) * 256 + 128, (y : Int) * 256 + 128) then some (x, y) else none

/-- One pixel: ATOM.MAX64 at far placement and device scope. -/
def writePixel (s : State) (rd : Reader) (r : BatchRec) (t : Snapped) (id : Nat) (x : Nat × Nat) : UnitRes Unit × State :=
  match unitPlace s rd (r.vis + x.2 * r.pitch + 8 * x.1) 8 .atomic with
  | (.wait w, s) => (.wait w, s)
  | (.fail c ea, s) => (.fail c ea, s)
  | (.ok l, s) =>
    let z := depthAt t ((x.1 : Int) * 256 + 128, (x.2 : Int) * 256 + 128)
    let s' := if z.isNone then { s with fresh := s.fresh + 1 } else s
    let v : DWord := ((z.getD (Config.freeWord s.fresh)).zeroExtend 64 <<< 32) ||| BitVec.ofNat 64 (id * 128 + r.inst)
    (.ok (), (atomAt s' rd.core .max64 .n64 ⟨0, l, v, 0⟩ false).2)

/-- FIXED_RASTERISE: every pixel that a triangle covers. -/
def fixedRasterise (s : State) (rd : Reader) (r : BatchRec) (id : Nat) (v0 v1 v2 : Vertex) : UnitRes Unit × State :=
  match snapTriangle v0 v1 v2 with
  | none => (.ok (), s)
  | some t =>
    (pixelsOf r t).foldl (fun x p => match x.1 with | .ok _ => writePixel x.2 rd r t id p | _ => x) (.ok (), s)

/-! ### RASTER_CLASSIFY -/

def putBatch (s : State) (quad : Nat) (b : Batch) : State :=
  modQuad s quad fun q => { q with batches := q.batches.map fun x => if x.op == b.op then b else x }

/-- A batch leaves; its operation is complete. -/
def dropBatch (s : State) (quad : Nat) (b : Batch) : State :=
  opDone (modQuad s quad fun q => { q with batches := q.batches.filter (·.op != b.op) }) b.op

/-- A batch is complete once its last triangle is classified and appended. -/
def settleBatch (s : State) (quad : Nat) (b : Batch) : State :=
  match parseBatch b.record with
  | some r => if r.count ≤ b.next && b.soft.isEmpty then dropBatch s quad b else putBatch s quad b
  | none => putBatch s quad b

/-- A batch stops at a fault, told by an event record. -/
def stopBatch (s : State) (quad : Nat) (b : Batch) (c : Cause) (ea : DWord) : State :=
  dropBatch (postedRecord s quad b.part c ea) quad b

def waitBatch (s : State) (quad : Nat) (b : Batch) (w : PageWait) : State :=
  match w with
  | .host va => putBatch (awaitPage s b.part quad va) quad { b with waits := some w }
  | _ => putBatch s quad { b with waits := some w }

/-- The three vertices of triangle `n`. -/
def readVertices (s : State) (rd : Reader) (r : BatchRec) (n : Nat) : UnitRes (List Vertex) × State :=
  match unitRead s rd (r.indices + 12 * n) 12 with
  | (.wait w, s) => (.wait w, s)
  | (.fail c ea, s) => (.fail c ea, s)
  | (.ok b, s) =>
    (List.range 3).foldl (fun x k =>
      match x.1 with
      | .ok l =>
        match unitRead x.2 rd (r.verts + 16 * (wordAt b (4 * k)).toNat) 16 with
        | (.ok v, s) => (.ok (l ++ [vertexOf v]), s)
        | (.wait w, s) => (.wait w, s)
        | (.fail c ea, s) => (.fail c ea, s)
      | _ => x) (.ok [], s)

/-- One triangle: discarded, rasterised, or left for the software queue. -/
def classifyOne (s : State) (rd : Reader) (quad : Nat) (r : BatchRec) (threshold : Word) (b : Batch) : UnitRes Batch × State :=
  match readVertices s rd r b.next with
  | (.wait w, s) => (.wait w, s)
  | (.fail c ea, s) => (.fail c ea, s)
  | (.ok vs, s) =>
    let v (k : Nat) : Vertex := vs.getD k ⟨0, 0, 0⟩
    let next := { b with next := b.next + 1 }
    match classify r threshold (v 0) (v 1) (v 2) with
    | .discard => (.ok next, countDie s (dieOfQuad quad) 11)
    | .software => (.ok { next with soft := b.soft ++ [b.next] }, s)
    | .fixed =>
      match fixedRasterise s rd r (r.base + b.next) (v 0) (v 1) (v 2) with
      | (.ok _, s) => (.ok next, s)
      | (.wait w, s) => (.wait w, s)
      | (.fail c ea, s) => (.fail c ea, s)

/-- The triangles of a batch in index order. -/
def classifyAll : Nat → State → Nat → Reader → BatchRec → Word → Batch → State
  | 0, s, quad, _, _, _, b => settleBatch s quad b
  | n + 1, s, quad, rd, r, th, b =>
    if r.count ≤ b.next then settleBatch s quad b
    else
      match classifyOne s rd quad r th b with
      | (.ok b, s) => classifyAll n s quad rd r th b
      | (.wait w, s) => waitBatch s quad b w
      | (.fail c ea, s) => stopBatch s quad b c ea

/-- A batch goes on: its record is read first, which frees the queue entry. -/
def runBatch (s : State) (quad : Nat) (b : Batch) : State :=
  match (findOp s b.op).bind fun o => teamPart s o.team with
  | none => dropBatch s quad b
  | some (t, p) =>
    let rd := engineReader b.core p t.origin
    if !b.record.isEmpty then
      match parseBatch b.record with
      | some r => classifyAll r.count s quad rd r p.csrs.rasThr b
      | none => s
    else
      match unitRead s rd b.ea.toNat 64 with
      | (.wait w, s) => waitBatch s quad b w
      | (.fail c ea, s) => stopBatch s quad b c ea
      | (.ok bytes, s) =>
        let s := { s with ops := s.ops.map fun o => if o.id == b.op then { o with queue := none } else o }
        match parseBatch bytes with
        | none => stopBatch s quad b causeDescriptor b.ea
        | some r => classifyAll r.count s quad rd r p.csrs.rasThr { b with record := bytes }

/-- The core whose raster entry is taken next: one whose batch has not been begun. -/
def nextRaster (s : State) (quad : Nat) : Option (Nat × Op) :=
  (serviceOrder quad (quadAt s quad).rasterNext).findSome? fun core =>
    match queueHead s core .raster with
    | some o => if storesEarlier s o && !((quadAt s quad).batches.any (·.op == o.id)) then some (core, o) else none
    | none => none

/-- RASTER_CLASSIFY: the batch in hand goes on, or the next entry is taken. -/
def rasterClassify (s : State) (quad : Nat) : State :=
  let unread (b : Batch) : Bool := match parseBatch b.record with | some r => b.next < r.count | none => true
  match (quadAt s quad).batches.find? unread with
  | some b => if b.waits.isSome then s else runBatch s quad b
  | none =>
    match nextRaster s quad with
    | none => s
    | some (core, o) =>
      match o.kind with
      | .engine (.rastq f) _ ((_, [ea]) :: _) =>
        let s := orderEntry s o (entryScope f.sc)
        let b : Batch := ⟨o.id, o.part, core, ea, [], 0, [], none⟩
        let s := modQuad s quad fun q =>
          { q with batches := q.batches ++ [b], rasterNext := ((quadCores quad).findIdx (· == core) + 1) % 4 }
        runBatch s quad b
      | _ => s

def execRasterClassify (quad : Nat) (s : State) : Result := .next (rasterClassify s quad)

/-! ### SOFTWARE_QUEUE_APPEND (17 R281) -/

/-- One entry: the slot reserved, its words written, TAIL advanced. -/
def appendEntry (s : State) (rd : Reader) (o : Op) (r : BatchRec) (n : Nat) : UnitRes Bool × State :=
  match unitRead s rd r.swq 24 with
  | (.wait w, s) => (.wait w, s)
  | (.fail c ea, s) => (.fail c ea, s)
  | (.ok b, s) =>
    let resv := wordAt b 0x0C
    let cap := fieldNat b 8 4
    if cap ≤ (resv - wordAt b 4).toNat then (.ok false, s)
    else
      match unitPlace s rd r.swq 4 .atomic, unitPlace s rd (r.swq + 12) 4 .atomic,
          unitPlace s rd (fieldNat b 0x10 8 + 8 * (resv.toNat % cap)) 8 .write with
      | (.ok tail, _), (.ok rv, _), (.ok entry, s) =>
        let word0 := natBytes 4 ((r.base + n) * 128 + r.inst)
        let word1 := natBytes 4 (2 ^ 31 + r.flags)
        let s := (atomAt s rd.core .add .n32 ⟨0, rv, 1, 0⟩ false).2
        let s := storeLoc s rd.core entry (word0 ++ natBytes 4 0) atHome false
        let s := releaseFrom s rd.core o.part o.team 3
        let s := storeLoc s rd.core entry (word0 ++ word1) atHome false
        (.ok true, (atomAt s rd.core .add .n32 ⟨0, tail, 1, 0⟩ false).2)
      | (.wait w, s), _, _ => (.wait w, s)
      | _, (.wait w, s), _ => (.wait w, s)
      | _, _, (.wait w, s) => (.wait w, s)
      | (.fail c ea, s), _, _ => (.fail c ea, s)
      | _, (.fail c ea, s), _ => (.fail c ea, s)
      | _, _, (.fail c ea, s) => (.fail c ea, s)

/-- The next triangle of the oldest batch that has one to append; nothing where the queue is full. -/
def softwareAppend (s : State) (quad : Nat) : State :=
  match (quadAt s quad).batches.find? fun b => !b.soft.isEmpty && b.waits.isNone with
  | none => s
  | some b =>
    match b.soft, parseBatch b.record, findOp s b.op with
    | n :: rest, some r, some o =>
      match teamPart s o.team with
      | none => s
      | some (t, p) =>
        match appendEntry s (engineReader b.core p t.origin) o r n with
        | (.ok true, s) => settleBatch s quad { b with soft := rest }
        | (.ok false, s) => s
        | (.wait w, s) => waitBatch s quad b w
        | (.fail c ea, s) => stopBatch s quad b c ea
    | _, _, _ => s

def execSoftwareQueueAppend (quad : Nat) (s : State) : Result := .next (softwareAppend s quad)

end Sys2Proof.Machine
end

