-- ==== Sys2Proof/Machine/Launch.lean ====
section
/-! DEFINITION. Launch packets and placement maps (03 R69 to R73, R397), admission of clusters (01 R13, 11 R181, 17 R253,
19 R296, R314; 23 R357), what a launch creates (03 R69, 17 R253), and child grids (03 R60, R66; 12 R201). -/

namespace Sys2Proof.Machine

/-! ### The launch packet (03 R69) -/

def parsePacket (b : List Byte) : Packet :=
  let pri := fieldNat b 3 1
  let w (off : Nat) : Word := BitVec.ofNat 32 (fieldNat b off 4)
  let d (off : Nat) : DWord := BitVec.ofNat 64 (fieldNat b off 8)
  { kind := fieldNat b 0 1, wcode := fieldNat b 1 1, vregs := fieldNat b 2 1, pri := pri % 4, heavy := pri / 16
    entry := w 4, codeBase := d 8, resBase := d 0x10, args := d 0x18
    gridX := fieldNat b 0x20 4, gridY := fieldNat b 0x24 4, gridZ := fieldNat b 0x28 4
    teamLanes := fieldNat b 0x2C 2, clw := fieldNat b 0x2E 1, clh := fieldNat b 0x2F 1, scratch := fieldNat b 0x30 4
    acct := fieldNat b 0x34 1, flags := BitVec.ofNat 8 (fieldNat b 0x35 1), pde := fieldNat b 0x36 2, ctlEntry := w 0x38
    privB := fieldNat b 0x3C 4, place := d 0x40, mapLen := fieldNat b 0x48 2, deadline := d 0x50, joinAddr := w 0x58
    specBase := d 0x60
    reservedZero := pri / 4 % 4 == 0 && fieldNat b 0x35 1 < 16 && fieldNat b 0x4A 6 == 0 && fieldNat b 0x5C 4 == 0
      && fieldNat b 0x68 24 == 0 }

def packetW (k : Packet) : Nat := 16 * 2 ^ k.wcode
def packetV (k : Packet) : Nat := 8 * k.vregs
def groupsOf (k : Packet) : Nat := k.teamLanes / packetW k
def groupBytes (k : Packet) : Nat := packetW k * packetV k * 4

/-- Bytes of a team's private allocation (11 R181). -/
def privateBytes (k : Packet) : Nat := (k.teamLanes * k.privB + 65535) / 65536 * 65536

/-- Bytes of a share of one column (01 R32): 0 scratch, 1 ring, 2 shadow. -/
def shareBytes (p : Partition) (k : Nat) : Nat := p.split.toNat / 16 ^ k % 16 * 262144

/-- The quarters of a team's groups in group order, or none (03 R397). -/
def placeGroups : Nat → Nat → List Nat → List Nat → Option (List Nat)
  | 0, _, _, _ => some []
  | n + 1, need, free, count =>
    match pickQuarter free count need with
    | none => none
    | some q => (placeGroups n need (free.modify q (· - need)) (count.modify q (· + 1))).map (q :: ·)

/-- Whether an empty core holds the team (01 R13). -/
def fitsCore (k : Packet) : Bool :=
  (placeGroups (groupsOf k) (groupBytes k) (List.replicate 4 131072) (List.replicate 4 0)).isSome

def migratoryOk (k : Packet) : Bool :=
  !k.flags.getLsbD 2
    || (k.teamLanes == packetW k && k.scratch == 0 && k.acct == 0 && !k.flags.getLsbD 0 && !k.flags.getLsbD 3)

/-- The conditions of 03 R70 and 11 R181 but for KIND and JOINADDR. -/
def packetLegal (p : Partition) (k : Packet) : Bool :=
  k.wcode ≤ 2 && 1 ≤ k.vregs && k.vregs ≤ 32
  && 1 ≤ k.teamLanes && k.teamLanes % packetW k == 0 && k.teamLanes ≤ 1024 && fitsCore k
  && 1 ≤ k.gridX && 1 ≤ k.gridY && 1 ≤ k.gridZ
  && 1 ≤ k.clw && 1 ≤ k.clh && k.clw * k.clh ≤ 12
  && k.scratch % 64 == 0 && k.scratch ≤ shareBytes p 0 && k.acct ≤ 8
  && k.privB % 16 == 0 && privateBytes k ≤ p.privSize.toNat && k.reservedZero && migratoryOk k
  && (!k.flags.getLsbD 3 || 1 ≤ k.acct)
  && ((k.place == 0) == (k.mapLen == 0))

def noJoin : Word := 0xFFFFFFFF

/-- A packet of one group of W lanes, as the entry table and the shader table name it (17 R286, 19 R318). -/
def oneGroupPacket (p : Partition) (k : Packet) : Bool :=
  k.kind == 2 && packetLegal p k && k.gridX == 1 && k.gridY == 1 && k.gridZ == 1 && k.clw == 1 && k.clh == 1
  && k.teamLanes == packetW k && k.joinAddr == noJoin && 64 ≤ k.privB

/-! ### The launch unit's reads (19 R396) -/

def lowCore (p : Partition) : Nat := p.cores.foldl min 255
def launchDie (p : Partition) : Nat := dieOfCore (lowCore p)

def launchReader (p : Partition) : Reader := { engineReader (lowCore p) p (.host 0) with window := false }

def launchRecord (s : State) (p : Partition) (code : Nat) (payload : List DWord) : State :=
  record s (launchDie p) unitLaunch code (some p.idx) false payload

/-- A read of the launch unit waits for a page. -/
def launchWaits (s : State) (p : Partition) (w : PageWait) (u : LaunchUse) : State :=
  let s := match w with
    | .host va => awaitHost s p.idx (launchDie p) unitLaunch [pageOf va]
    | _ => s
  modPart s p.idx fun q => { q with launchWait := some (w, u) }

/-- The launch unit of a partition can take up work: no read of it waits, and the partition is not halted. -/
def launchFree (p : Partition) : Bool := p.launchWait.isNone && !isStopped p

/-! ### Placement maps (03 R71, R72) -/

def parseMap (b : List Byte) (n : Nat) : List MapEntry :=
  (List.range n).map fun i => ⟨fieldNat b (4 * i) 1, fieldNat b (4 * i + 1) 1, fieldNat b (4 * i + 2) 1, fieldNat b (4 * i + 3) 1⟩

/-- The cores of a rectangle, row by row (03 R36). -/
def rectCores (die x y w h : Nat) : List Nat :=
  (List.range h).flatMap fun j => (List.range w).map fun i => coreIndex die (x + i) (y + j)

/-- A rectangle lies on its die and among some cores. -/
def rectInside (cores : List Nat) (die x y w h : Nat) : Bool :=
  die < 4 && x + w ≤ 8 && y + h ≤ 8 && (rectCores die x y w h).all (cores.contains ·)

def mapLegal (cores : List Nat) (k : Packet) (m : List MapEntry) : Bool :=
  m.all fun e => e.zero == 0 && rectInside cores e.die e.x e.y k.clw k.clh

/-- The placement map a packet names, read as a whole. -/
def readMap (s : State) (p : Partition) (k : Packet) : UnitRes (List MapEntry) × State :=
  if k.mapLen = 0 then (.ok [], s)
  else
    match unitRead s (launchReader p) k.place.toNat (4 * k.mapLen) with
    | (.ok b, s) => (.ok (parseMap b k.mapLen), s)
    | (.wait w, s) => (.wait w, s)
    | (.fail c ea, s) => (.fail c ea, s)

/-! ### Queued grids -/

def clustersOf (k : Packet) : Nat := k.gridX * k.gridY * k.gridZ

/-- A grid enters the order of admission, with the page tables and the trap vector of its launch (25 R374). -/
def queueGrid (s : State) (p : Partition) (k : Packet) (o : Origin) (map : List MapEntry) (job : Option Nat)
    (join : Option JoinLine) (records : List (List Byte)) (rays : List (Nat × Nat)) : State :=
  let n := newId s
  { n.2 with grids := n.2.grids ++ [⟨n.1, p.idx, k, o, p.ptroot, p.trapVec, clustersOf k, 0, [], map, [], job, join, records, rays⟩] }

/-- Clocks a new job's timer stands at while its partition pre-empts: those up to the request (21 R333). -/
def pausedAt (s : State) (part start : Nat) : Option Nat :=
  match findPart s part with
  | some p => if p.state == .running then none else some (p.preempt.getD s.now - start)
  | none => none

/-- A job starts its timer (19 R317). -/
def newJob (s : State) (part start : Nat) (deadline : DWord) (queue : Nat) (addr : DWord) : Nat × State :=
  let n := newId s
  (n.1, { n.2 with jobs := n.2.jobs ++ [⟨n.1, part, start, pausedAt s part start, deadline, false, queue, addr⟩] })

/-- A cluster of a grid waits. -/
def clusterWaits (g : Grid) (c : Nat) : Bool := g.passed.contains c || (g.next ≤ c && c < g.total)

/-- Waiting clusters of a grid, among them the first of every place of its map that is not deferred: a later cluster of
the same place can be admitted only where this one can. -/
def waitingOf (g : Grid) : List Nat :=
  g.passed ++ ((List.range (max 1 g.map.length * (g.deferred.length + 1))).map (g.next + ·)).filter (· < g.total)

def isDeferred (g : Grid) (c : Nat) : Bool := g.deferred.any (·.1 == c)

/-- The cores that an unmapped cluster of a grid may go to. -/
def scanCores (p : Partition) (g : Grid) : List Nat :=
  match g.origin with
  | .host _ | .child => p.cores
  | .tile pass _ =>
    match p.graph.bind fun x => x.passes[pass]? with
    | some q =>
      p.cores.filter fun c =>
        q.csDies / 2 ^ dieOfCore c % 2 == 1 && q.csX ≤ localX c && localX c < q.csX + q.csW && q.csY ≤ localY c
          && localY c < q.csY + q.csH
    | none => []
  | .records die => p.cores.filter fun c => dieOfCore c == die
  | .callback quad => p.cores.filter fun c => dieOfCore c == dieOfQuad quad

/-- The rectangles a cluster may take, in the order of 03 R73. -/
def rectsOf (p : Partition) (g : Grid) (c : Nat) : List (List Nat) :=
  let w := g.packet.clw
  let h := g.packet.clh
  match g.map with
  | [] =>
    let cores := scanCores p g
    (List.range 4).flatMap fun die => (List.range 8).flatMap fun y => (List.range 8).filterMap fun x =>
      if rectInside cores die x y w h then some (rectCores die x y w h) else none
  | _ =>
    match g.map[c % g.map.length]? with
    | some e => [rectCores e.die e.x e.y w h]
    | none => []

/-! ### What a team takes -/

def residentOn (t : Team) (core : Nat) : Bool := t.core == core && t.place == .resident && !t.ended
def residentTeams (s : State) (core : Nat) : List Team := s.teams.filter fun t => residentOn t core

/-- The partition of a team has been moved to GDDR (25 R375). -/
def isEvicted (s : State) (part : Nat) : Bool := match findPart s part with | some p => p.evicted.isSome | none => false

/-- Scratchpad bytes taken in a column: a team's share stays until its cluster has ended (03 R55, R62), or its partition
is evicted. -/
def scratchUsed (s : State) (core : Nat) : Nat :=
  ((s.teams.filter fun t => t.column == core && !isEvicted s t.part).map (·.packet.scratch)).foldl (· + ·) 0

def quadTeams (s : State) (quad : Nat) : List Team := (quadCores quad).flatMap (residentTeams s)
def acctUsed (s : State) (quad : Nat) : Nat := ((quadTeams s quad).map (·.packet.acct)).foldl (· + ·) 0

/-- Thread slots taken on a quad control core. -/
def slotsUsed (s : State) (quad : Nat) : List Nat :=
  (s.threads.filter fun t => (quadTeams s quad).any (·.id == t.team)).map (·.slot)

/-- Whether a quad can take the team's tiles and thread (17 R253). -/
def quadAdmits (s : State) (core : Nat) (k : Packet) : Bool :=
  let q := quadOfCore core
  acctUsed s q + k.acct ≤ 8 && (!k.flags.getLsbD 3 || (slotsUsed s q).length < 8)

/-- The lowest free save areas of a die (23 R357). -/
def freeAreas (s : State) (die n : Nat) : Option (List Nat) :=
  let used := (dieAt s die).areas
  let l := ((List.range (used.length + n)).filter fun a => !used.contains a && a < 7168).take n
  if l.length = n then some l else none

/-- The lowest free run of the private pool (11 R181). -/
def freeRun (p : Partition) (size : Nat) : Option Nat :=
  let lo := p.privPool.toNat
  let starts := lo :: p.privAllocs.map fun a => a.1 + a.2
  let ok := starts.filter fun x =>
    x + size ≤ lo + p.privSize.toNat && p.privAllocs.all fun a => x + size ≤ a.1 || a.1 + a.2 ≤ x
  ok.foldl (fun b x => match b with | none => some x | some y => some (min x y)) none

/-- The quarters a team's groups would take on a core as it stands. -/
def quartersFor (s : State) (core : Nat) (k : Packet) : Option (List Nat) :=
  placeGroups (groupsOf k) (groupBytes k) ((List.range 4).map (quarterFree s core)) ((List.range 4).map (quarterCount s core))

/-- Copies of a physical range leave every cache without being written back. -/
def forgetCopies (s : State) (ty : MemType) (lo n : Nat) : State :=
  { s with
    cores := s.cores.map fun c => { c with l1 := c.l1.filter fun l => !(l.ty == ty && l.line * 64 < lo + n && lo < l.line * 64 + 64) }
    quads := s.quads.map fun q =>
      { q with slice := q.slice.filter fun l => !(l.ty == ty && l.line * 256 < lo + n && lo < l.line * 256 + 256) } }

/-- The contents of a global range become undefined: free values on every piece of it that is mapped. -/
def undefGlobal (s : State) (p : Partition) (base size piece : Nat) : State :=
  (List.range (size / piece)).foldl (fun s i =>
    match (walk s p (base + piece * i) s.fresh).1 with
    | .page ty pa _ _ =>
      let m := clearRange (backing s ty) pa (pa + piece) (16 + s.fresh)
      setBacking (forgetCopies { s with fresh := s.fresh + 1 } ty pa piece) ty m
    | _ => s) s

/-! ### What a launch creates (03 R69, 12 R200, 17 R253) -/

def tileXYOf (p : Partition) (o : Origin) : DWord :=
  match o with
  | .tile pass tile =>
    match p.graph.bind fun x => x.passes[pass]? with
    | some q => BitVec.ofNat 64 (tile % q.tw + tile / q.tw * 2 ^ 16 + q.pcode * 2 ^ 32)
    | none => 0
  | _ => 0

def launchTrap (vec : Word) : TrapRegs := ⟨vec, 0, false, 0, 0, 0, false, false, false, false, false⟩

def launchScalars (k : Packet) : List DWord :=
  List.replicate 60 0 ++ [k.resBase, k.args, BitVec.ofNat 64 k.privB, BitVec.ofNat 64 k.privB]

def launchLane (k : Packet) (base lane : Nat) (exited : Bool) : Lane where
  pc := k.entry
  mr := 0xFFFFFFFF
  exited := exited
  priv := false
  helper := false
  home := lane
  privBase := base
  v := List.replicate (packetV k) 0
  t := List.replicate 8 0
  park := .none
  set := 0

/-- Group `i` of a team; lanes from `filled` on start exited. -/
def launchGroup (k : Packet) (id team i core quarter : Nat) (area : Nat × Nat) (alloc : Nat) (vec : Word) (filled : Nat) :
    Group where
  id := id
  team := team
  idx := i
  w := packetW k
  vn := packetV k
  core := core
  quarter := quarter
  landed := false
  shipping := none
  age := id
  lanes := (List.range (packetW k)).map fun l => launchLane k (alloc + i * packetW k * k.privB) l (filled ≤ l)
  s := launchScalars k
  k := List.replicate 16 0
  fst := 0
  ften := 0
  fmode := 0
  splim := 0
  privb := BitVec.ofNat 64 k.privB
  trap := launchTrap vec
  emu := false
  emuRec := none
  area := area
  run := none
  lastLow := none
  traps := []
  after := []
  yield := none
  latches := []
  copyFaults := []
  stepping := none
  resumed := 0
  skips := 0
  sets := 0
  bad := []
  replays := []

def launchThread (k : Packet) (team part quad slot idx : Nat) (vec : Word) : Thread where
  team := team
  part := part
  quad := quad
  slot := slot
  s := List.replicate 28 0 ++ [BitVec.ofNat 64 idx, BitVec.ofNat 64 (idx * 2 ^ 22), k.resBase, k.args]
  c := List.replicate 8 false
  bad := []
  pc := k.ctlEntry
  priv := false
  exited := false
  saved := none
  trap := launchTrap vec
  line := none
  park := .none
  faults := []
  waited := false
  stepping := false
  started := false
  emu := false
  emuRec := none

/-- The launch unit writes a record at private offset 0 of a lane; one whose page faults is told by an event record and is
not written. -/
def writeRecord (s : State) (p : Partition) (core : Nat) (g : Group) (lane : Nat) (b : List Byte) : State :=
  let l := laneAt g lane
  let rd : Reader := { engineReader core p (.host 0) with window := false }
  (List.range 16).foldl (fun s i =>
    match writeRange s rd (BitVec.ofNat 64 (privateVa l g.w (4 * i))) ((b.drop (4 * i)).take 4) with
    | (.bytes _, s) => s
    | (.fault c ea, s) => launchRecord s p c.toNat [ea]
    | (.stream va, s) => launchRecord s p causeStreamFail.toNat [canonicalVa va]) s

/-- Whether teams of a grid acquire at device scope before their first instruction (11 R194, 19 R306). -/
def startAcquires (o : Origin) : Bool := match o with | .child | .tile _ _ | .records _ => true | _ => false

/-- One team of a cluster starts on a core, if the core, its quad, its die and the private pool can hold it. -/
def admitTeam (s : State) (p : Partition) (gr : Grid) (cluster idx core : Nat) : Option State :=
  let k := gr.packet
  let die := dieOfCore core
  let quad := quadOfCore core
  if !p.cores.contains core || shareBytes p 0 < scratchUsed s core + k.scratch || !quadAdmits s core k then none
  else
    match quartersFor s core k, freeAreas s die (groupsOf k) with
    | some qs, some areas =>
      match (if k.privB = 0 then some none else (freeRun ((findPart s p.idx).getD p) (privateBytes k)).map some) with
      | none => none
      | some alloc =>
        let base := alloc.getD 0
        let tid := s.nextId
        let seed := 16 + s.fresh
        let filled := if gr.records.isEmpty then packetW k else gr.records.length
        let t : Team := {
          id := tid, part := p.idx, grid := gr.id, cluster := cluster, idx := idx, column := core, core := core, packet := k
          origin := gr.origin, root := gr.root, tileXY := tileXYOf p gr.origin
          scratch := Memory.fresh k.scratch seed, absent := [], pendLaunch := []
          gated := k.flags.getLsbD 3 || (match gr.origin with | .tile _ _ => 1 < groupsOf k | _ => false)
          gateMark := none, gateOpen := false, privAlloc := alloc, place := .resident, parkedSince := none, shadow := []
          tiles := List.replicate k.acct Memory.empty, badTiles := [], gatherings := [], areas := areas.map fun a => (die, a)
          granted := qs, ended := false, job := gr.job, rays := gr.rays }
        let groups := (List.range (groupsOf k)).map fun i =>
          launchGroup k (tid + 1 + i) tid i core (qs.getD i 0) (die, areas.getD i 0) base gr.trapVec filled
        let s := { s with
          nextId := tid + 1 + groupsOf k
          fresh := s.fresh + 1
          teams := s.teams ++ [t]
          groups := s.groups ++ groups
          threads := s.threads ++
            if k.flags.getLsbD 3 then [launchThread k tid p.idx quad (lowestFree (slotsUsed s quad) 8) idx gr.trapVec] else [] }
        let s := modDie s die fun d => { d with areas := d.areas ++ areas }
        let s := match alloc with
          | some a =>
            undefGlobal (modPart s p.idx fun q => { q with privAllocs := q.privAllocs ++ [(a, privateBytes k)] })
              { p with ptroot := gr.root } a (privateBytes k) 4096
          | none => s
        let s := dropReadOnly (if startAcquires gr.origin then acquireAt s core 3 else s) core
        some (match groups.head? with
          | some g =>
            (gr.records.mapIdx fun i b => (i, b)).foldl (fun s x => writeRecord s { p with ptroot := gr.root } core g x.1 x.2) s
          | none => s)
    | _, _ => none

/-- A whole cluster on a rectangle, or nothing. -/
def admitRect (s : State) (p : Partition) (gr : Grid) (cluster : Nat) (rect : List Nat) : Option State :=
  (rect.mapIdx fun i c => (i, c)).foldl (fun r x => r.bind fun s => admitTeam s p gr cluster x.1 x.2) (some s)

/-! ### Thermal admission (19 R313, R314) -/

def coupling (p : Partition) (k : Nat) : Nat := (p.csrs.tCouple >>> (16 * k)).toNat % 65536

/-- P of a core: the PDE of its resident teams, with one more team on the cores of a rectangle. -/
def powerOf (s : State) (rect : List Nat) (pde core : Nat) : Nat :=
  ((residentTeams s core).map (·.packet.pde)).foldl (· + ·) 0 + if rect.contains core then pde else 0

/-- Neighbours of a core on its die at given distances. -/
def neighboursAt (core : Nat) (ds : List (Int × Int)) : List Nat :=
  ds.filterMap fun d =>
    let x := (localX core : Int) + d.1
    let y := (localY core : Int) + d.2
    if 0 ≤ x && x < 8 && 0 ≤ y && y < 8 then some (coreIndex (dieOfCore core) x.toNat y.toNat) else none

def edgeNeighbours (core : Nat) : List Nat := neighboursAt core [(-1, 0), (1, 0), (0, -1), (0, 1)]
def diagNeighbours (core : Nat) : List Nat := neighboursAt core [(-1, -1), (1, -1), (-1, 1), (1, 1)]

/-- The predicted temperature of a core, in 1/16 degree. -/
def predicted (s : State) (p : Partition) (rect : List Nat) (pde core : Nat) : Nat :=
  let pw := powerOf s rect pde
  let d := dieAt s (dieOfCore core)
  let sum (l : List Nat) : Nat := (l.map pw).foldl (· + ·) 0
  d.temps.getD (core % 64) 0
    + (coupling p 0 * pw core + coupling p 3 * d.power.getD (core % 64) 0 + coupling p 1 * sum (edgeNeighbours core)
        + coupling p 2 * sum (diagNeighbours core)) / 16000

/-- The cores a cluster touches. -/
def touchedCores (rect : List Nat) : List Nat := (rect.flatMap fun c => c :: edgeNeighbours c ++ diagNeighbours c).eraseDups

def coolEnough (s : State) (p : Partition) (rect : List Nat) (pde : Nat) : Bool :=
  (touchedCores rect).all fun c => predicted s p rect pde c ≤ p.csrs.tLimit.toNat

/-! ### Who goes first (12 R201, 19 R296) -/

/-- The waiting clusters that go before cluster `c` of the grid at place `i` of the queue. -/
def goesBefore (s : State) (part i : Nat) (gr : Grid) (c : Nat) : List (Grid × Nat) :=
  (s.grids.mapIdx fun j h => (j, h)).flatMap fun x =>
    let h := x.2
    if h.part != part then []
    else
      ((waitingOf h).filter fun d =>
        !isDeferred h d
          && (gr.packet.pri < h.packet.pri
            || (h.packet.pri == gr.packet.pri && (x.1 < i || (x.1 == i && d < c))))).map fun d => (h, d)

def admissible (s : State) (p : Partition) (gr : Grid) (c : Nat) (rect : List Nat) : Bool :=
  (admitRect s p gr c rect).isSome && coolEnough s p rect gr.packet.pde

/-- A cluster that goes first could be admitted to a core of the rectangle. -/
def rectTaken (s : State) (p : Partition) (before : List (Grid × Nat)) (rect : List Nat) : Bool :=
  before.any fun x =>
    (rectsOf p x.1 x.2).any fun r => r.any (rect.contains ·) && admissible s p x.1 x.2 r

/-- A cluster of a grid has been admitted. -/
def markAdmitted (g : Grid) (c : Nat) : Grid :=
  if g.passed.contains c then { g with passed := g.passed.filter (· != c) }
  else { g with passed := g.passed ++ (List.range (c - g.next)).map (g.next + ·), next := c + 1 }

/-- A cluster of the same launch with a lower index waits and could be admitted (03 R73). -/
def lowerFirst (s : State) (p : Partition) (gr : Grid) (c : Nat) : Bool :=
  (waitingOf gr).any fun d => d < c && !isDeferred gr d && (rectsOf p gr d).any (admissible s p gr d)

/-- The admission of one waiting cluster: to the first rectangle that is free for it, if that is cool enough; a cluster
that is not is deferred (19 R314). -/
def admitCluster (s : State) (gid c : Nat) : State :=
  match findGrid s gid with
  | none => s
  | some gr =>
    match findPart s gr.part with
    | none => s
    | some p =>
      if p.state != .running || !clusterWaits gr c || isDeferred gr c || lowerFirst s p gr c then s
      else
        let before := goesBefore s gr.part (s.grids.findIdx (·.id == gid)) gr c
        match (rectsOf p gr c).find? fun r => (admitRect s p gr c r).isSome && !rectTaken s p before r with
        | none => s
        | some r =>
          let die := dieOfCore (r.headD 0)
          if !coolEnough s p r gr.packet.pde then
            countDie (putGrid s { gr with deferred := gr.deferred ++ [(c, die)] }) die 15
          else
            match admitRect s p gr c r with
            | none => s
            | some s => putGrid s (markAdmitted gr c)

/-- CLUSTER_ADMIT, for host grids, child grids and tile instances. -/
def execClusterAdmit (grid cluster : Nat) (s : State) : Result :=
  .next (match (findGrid s grid).map Grid.origin with
    | some (.host _) | some .child | some (.tile _ _) => admitCluster s grid cluster
    | _ => s)

/-- GATHERED_GROUP_ADMIT (19 R318). -/
def execGatheredGroupAdmit (grid : Nat) (s : State) : Result :=
  .next (match (findGrid s grid).map Grid.origin with | some (.records _) => admitCluster s grid 0 | _ => s)

/-- CALLBACK_GROUP_ADMIT (17 R286). -/
def execCallbackGroupAdmit (grid : Nat) (s : State) : Result :=
  .next (match (findGrid s grid).map Grid.origin with | some (.callback _) => admitCluster s grid 0 | _ => s)

/-! ### Child grids (03 R60, R66; 12 R201) -/

/-- Completion of a child grid counts down its join line; at 0 the line becomes present. -/
def completeChild (s : State) (j : Option JoinLine) : State :=
  match j with
  | none => s
  | some j =>
    match teamAt s j.grid j.cluster (j.addr / 2 ^ 22 % 16) with
    | none => s
    | some t =>
      let off := j.addr % 2 ^ 22
      let n := bytesNat (readScratch s t.id off 4)
      let s := writeScratch s t.id off (natBytes 4 (n + 2 ^ 32 - 1))
      if n = 1 then setPresence s t.id (off / 64) else s

/-- A packet taken by LAUNCH is a child grid whatever its KIND. -/
def childPacket (b : List Byte) : Packet :=
  let k := parsePacket b
  if k.kind = 1 then { k with kind := 2, joinAddr := noJoin } else k

def popLaunch (s : State) (team : Nat) : State := modTeam s team fun t => { t with pendLaunch := t.pendLaunch.drop 1 }

/-- A child packet is rejected: it counts as completed for its join line. -/
def rejectChild (s : State) (p : Partition) (team : Nat) (e : PendLaunch) (payload : List DWord) : State :=
  completeChild (launchRecord (popLaunch s team) p 0x400 payload) e.join

/-- Where a job has no host queue. -/
def noQueue : Nat := 64

/-- CHILD_LAUNCH_VALIDATE: the oldest entry of a team's pending-launch queue becomes a queued grid or is rejected. -/
def childValidate (s : State) (team : Nat) : State :=
  match findTeam s team, (findTeam s team).bind fun t => findPart s t.part with
  | some t, some p =>
    match t.pendLaunch with
    | [] => s
    | e :: _ =>
      if !launchFree p then s
      else
        let k := childPacket e.packet
        let joinOk := k.joinAddr == noJoin || (joinPlace s t k.joinAddr.toNat).isSome
        if !(k.kind == 2 && packetLegal p k && joinOk) then rejectChild s p team e []
        else
          match readMap s p k with
          | (.wait w, s) => launchWaits s p w (.child team)
          | (.fail c ea, s) => rejectChild s p team e [c.zeroExtend 64, ea]
          | (.ok m, s) =>
            if !mapLegal p.cores k m then rejectChild s p team e []
            else
              let j := newJob s p.idx s.now k.deadline noQueue 0
              match findPart j.2 p.idx with
              | some q => queueGrid (popLaunch j.2 team) q k .child m (some j.1) e.join [] []
              | none => s
  | _, _ => s

def execChildLaunchValidate (team : Nat) (s : State) : Result := .next (childValidate s team)

end Sys2Proof.Machine
end

