-- ==== Sys2Proof/Machine/Gather.lean ====
section
/-! DEFINITION. The gatherers of continuation records (03 R67; 19 R318, R319) and of candidate hits (17 R286). -/

namespace Sys2Proof.Machine

/-! ### Which die (19 R319) -/

/-- Records in a die's gatherer that are not yet launched. -/
def gatherDepth (s : State) (die : Nat) : Nat := ((dieAt s die).gather.map (·.records.length)).foldl (· + ·) 0

/-- The hint of a record: its payload word 1 says the size of its data and their home. -/
def recordHint (w : Word) : Option (Nat × Nat) :=
  if w.getLsbD 31 && w.extractLsb' 24 7 == 0 && w.extractLsb' 2 6 == 0 then
    some ((w.extractLsb' 8 16).toNat, (w.extractLsb' 0 2).toNat)
  else none

/-- The cost of a die for a record. -/
def dieCost (s : State) (p : Partition) (bytes home die : Nat) : Nat :=
  p.csrs.recQw.toNat * gatherDepth s die + p.csrs.recMw.toNat * bytes * hopsBetween die home

/-- The gatherer a record goes to: of the dies of least cost the one with the lowest die identifier. -/
def gatherDie (s : State) (p : Partition) (issuing : Nat) (b : List Byte) : Nat :=
  match recordHint (BitVec.ofNat 32 (fieldNat b 8 4)) with
  | none => issuing
  | some (bytes, home) =>
    let cost := dieCost s p bytes home
    let before (x y : Nat) : Bool :=
      cost x < cost y || (cost x == cost y && (dieAt s x).dieid.toNat < (dieAt s y).dieid.toNat)
    match partDies p with
    | [] => issuing
    | d :: l => l.foldl (fun best x => if before x best then x else best) d

/-! ### Records -/

def findGather (d : Die) (part entry : Nat) : Option RecGather := d.gather.find? fun g => g.part == part && g.entry == entry
def dropGather (s : State) (die part entry : Nat) : State :=
  modDie s die fun d => { d with gather := d.gather.filter fun g => !(g.part == part && g.entry == entry) }

/-- The records of a gatherer become a one-team grid on its die. -/
def launchRecords (s : State) (die : Nat) (g : RecGather) : State :=
  match findPart s g.part with
  | some p => queueGrid (dropGather s die g.part g.entry) p g.packet (.records die) [] none none g.records []
  | none => s

/-- A record joins its gatherer, which launches a full group. -/
def addRecord (s : State) (p : Partition) (die entry : Nat) (k : Packet) (b : List Byte) : State :=
  let g := match findGather (dieAt s die) p.idx entry with
    | some g => { g with records := g.records ++ [b] }
    | none => ⟨k, p.idx, entry, coreNow s die, [b]⟩
  let s := modDie (dropGather s die p.idx entry) die fun d => { d with gather := d.gather ++ [g] }
  if g.records.length < packetW k then s else launchRecords s die g

/-- The first record of an EMIT has left it. -/
def popRecord (s : State) (o : Op) (rest : List (List Byte)) : State :=
  let s := putOp s { o with kind := .emit rest }
  if rest.isEmpty then opDone s o.id else s

def recordEntryEa (p : Partition) (entry : Nat) : Nat := p.csrs.entTab.toNat + 128 * entry

/-- RECORD_GATHER: the next record of an EMIT reaches the gatherer of a die, after the release of the group's earlier
stores; one whose entry is illegal is discarded with an event record. -/
def recordGather (s : State) (id : Nat) : State :=
  match findOp s id with
  | none => s
  | some o =>
    match o.kind, findPart s o.part with
    | .emit (b :: rest), some p =>
      if o.done || !allEarlier s o || !launchFree p then s
      else
        let s := releaseFrom s o.core o.part o.team 3
        let entry := fieldNat b 0 4
        let die := gatherDie s p (dieOfCore o.core) b
        let discard (s : State) (payload : List DWord) : State := popRecord (launchRecord s p 0x400 payload) o rest
        if p.csrs.entCount.toNat ≤ entry then discard s []
        else
          match findGather (dieAt s die) p.idx entry with
          | some g => popRecord (addRecord s p die entry g.packet b) o rest
          | none =>
            match unitRead s (launchReader p) (recordEntryEa p entry) 128 with
            | (.wait w, s) => launchWaits s p w (.record id)
            | (.fail c ea, s) => discard s [c.zeroExtend 64, ea]
            | (.ok bytes, s) =>
              let k := parsePacket bytes
              if oneGroupPacket p k then popRecord (addRecord s p die entry k b) o rest
              else discard s []
    | _, _ => s

def execRecordGather (op : Nat) (s : State) : Result := .next (recordGather s op)

/-- RECTO cycles have passed since a time. -/
def recToPassed (s : State) (part die first : Nat) : Bool :=
  match findPart s part with
  | some p => launchFree p && p.csrs.recTo.toNat ≤ coreSince s die first
  | none => false

/-- RECORD_GROUP_TIMEOUT: a partial group of an entry is launched. -/
def recordTimeout (s : State) (die entry : Nat) : State :=
  match (dieAt s die).gather.find? fun g => g.entry == entry && recToPassed s g.part die g.first with
  | some g => launchRecords s die g
  | none => s

def execRecordGroupTimeout (die entry : Nat) (s : State) : Result := .next (recordTimeout s die entry)

/-! ### Candidates -/

/-- The handle of a candidate. -/
def handleOf (quad : Nat) (r : Ray) : Word :=
  BitVec.ofNat 32 (r.slot + quad % 16 * 2 ^ 14 + dieOfQuad quad * 2 ^ 18 + r.gen % 4096 * 2 ^ 20)

/-- The candidate record a lane finds at private offset 0. -/
def candidateRecord (quad : Nat) (r : Ray) : List Byte :=
  match r.cand with
  | none => []
  | some c =>
    ([handleOf quad r, BitVec.ofNat 32 c.kind, c.t, c.u, c.v, c.prim] ++ r.origin ++ r.dir ++ [r.tmin, r.tmax]).flatMap
      (fun w => natBytes 4 w.toNat) ++ natBytes 8 r.user.toNat

def sameCands (a b : CandGather) : Bool := a.table == b.table && a.part == b.part && a.shader == b.shader
def dropCands (s : State) (quad : Nat) (g : CandGather) : State :=
  modQuad s quad fun q => { q with cands := q.cands.filter fun x => !sameCands x g }

/-- The candidates of a gatherer become a one-team grid on the die of their rays. -/
def launchCands (s : State) (quad : Nat) (g : CandGather) : State :=
  match findPart s g.part with
  | some p =>
    let rays := g.rays.filterMap fun slot => findRay s quad slot
    queueGrid (dropCands s quad g) p g.packet (.callback quad) [] none none (rays.map (candidateRecord quad))
      (rays.map fun r => (quad, r.slot + tableRays * r.gen))
  | none => s

def addCand (s : State) (quad : Nat) (r : Ray) (c : Candidate) (k : Packet) : State :=
  let fresh : CandGather := ⟨k, r.shTable, r.part, c.shader, coreNow s (dieOfQuad quad), []⟩
  let g := ((quadAt s quad).cands.find? fun x => sameCands x fresh).getD fresh
  let g := { g with rays := g.rays ++ [r.slot] }
  let s := putRay s quad { r with cand := some { c with sent := true } }
  let s := modQuad (dropCands s quad g) quad fun q => { q with cands := q.cands ++ [g] }
  if g.rays.length < packetW k then s else launchCands s quad g

/-- CANDIDATE_GATHER: a candidate enters the gatherer of its shader-table entry; an illegal entry ends the ray. -/
def candidateGather (s : State) (quad slot : Nat) : State :=
  match findRay s quad slot with
  | none => s
  | some r =>
    match r.cand, findPart s r.part with
    | some c, some p =>
      if c.sent || !launchFree p then s
      else
        let ea := r.shTable.toNat + 128 * c.shader.toNat
        if r.shCount ≤ c.shader.toNat then failRay s quad r causeDescriptor (BitVec.ofNat 64 ea)
        else
          match (quadAt s quad).cands.find? fun g => g.table == r.shTable && g.part == r.part && g.shader == c.shader with
          | some g => addCand s quad r c g.packet
          | none =>
            match unitRead s (launchReader p) ea 128 with
            | (.wait w, s) => launchWaits s p w (.candidate quad slot)
            | (.fail c ea, s) => failRay s quad r c ea
            | (.ok bytes, s) =>
              let k := parsePacket bytes
              if oneGroupPacket p k then addCand s quad r c k else failRay s quad r causeDescriptor (BitVec.ofNat 64 ea)
    | _, _ => s

def execCandidateGather (quad ray : Nat) (s : State) : Result := .next (candidateGather s quad ray)

/-- CANDIDATE_GROUP_TIMEOUT: a partial callback group of an entry is launched. -/
def candidateTimeout (s : State) (quad entry : Nat) : State :=
  match (quadAt s quad).cands.find? fun g => g.shader.toNat == entry && recToPassed s g.part (dieOfQuad quad) g.first with
  | some g => launchCands s quad g
  | none => s

def execCandidateGroupTimeout (quad entry : Nat) (s : State) : Result := .next (candidateTimeout s quad entry)

end Sys2Proof.Machine
end

