-- ==== Sys2Proof/Machine/Graph.lean ====
section
/-! DEFINITION. Host queues and the lottery (19 R292 to R296), frame graphs (19 R297 to R312), and the end of a team
(03 R38, R60; 11 R164; 17 R255). -/

namespace Sys2Proof.Machine

/-! ### Host queues (19 R292 to R295) -/

def queueTickets (q : HQueue) : Nat := q.ctl.toNat % 256
def queueLog (q : HQueue) : Nat := q.ctl.toNat / 256 % 32
def queueEnabled (q : HQueue) : Bool := q.ctl.getLsbD 16
def queueAddr (q : HQueue) : DWord :=
  (q.base &&& ~~~0x7F) + BitVec.ofNat 64 (128 * (q.head.toNat % 2 ^ queueLog q))

/-- The next packet of a queue is a graph packet, or cannot be told to be none while its page waits (log entry 115). -/
def nextIsGraph (s : State) (p : Partition) (q : HQueue) : Bool :=
  match (unitRead s (launchReader p) (queueAddr q).toNat 128).1 with
  | .ok b => fieldNat b 0 1 == 3
  | .wait _ => true
  | .fail _ _ => false

/-- A queue the next draw may take from (19 R294). -/
def queueEligible (s : State) (p : Partition) (q : HQueue) : Bool :=
  queueEnabled q && 1 ≤ queueTickets q && q.head != q.tail && !(p.graph.isSome && nextIsGraph s p q)

/-- The generator of 19 R295. -/
def prngStep (x : Word) : Word :=
  let a := x ^^^ (x <<< 13)
  let b := a ^^^ (a >>> 17)
  b ^^^ (b <<< 5)

/-- The first queue at which the running sum of tickets exceeds `d`. -/
def ticketWinner : List (Nat × Nat) → Nat → Option Nat
  | [], _ => none
  | (i, n) :: l, d => if d < n then some i else ticketWinner l (d - n)

/-- The winner among the eligible queues, each with its tickets and its count of lost draws. -/
def drawWinner (l : List (Nat × Nat × Nat)) (x : Word) : Option Nat :=
  match l.find? fun q => 64 ≤ q.2.2 with
  | some q => some q.1
  | none =>
    let t := (l.map (·.2.1)).foldl (· + ·) 0
    ticketWinner (l.map fun q => (q.1, q.2.1)) (x.toNat % t)

/-- The counts of lost draws after a draw. -/
def afterDraw (won eligible : List Nat) (i : Nat) (q : HQueue) : HQueue :=
  if won.contains i || q.head == q.tail then { q with lost := 0 }
  else if eligible.contains i then { q with lost := q.lost + 1 }
  else q

/-- LOTTERY_DRAW. -/
def lotteryDraw (s : State) (part : Nat) : State :=
  match findPart s part with
  | none => s
  | some p =>
    let el := (p.queues.mapIdx fun i q => (i, q)).filter fun x => queueEligible s p x.2
    if p.state != .running || p.launchWait.isSome || p.taken.isSome || el.isEmpty then s
    else
      let x := prngStep p.csrs.prngState
      match drawWinner (el.map fun q => (q.1, queueTickets q.2, q.2.lost)) x with
      | none => s
      | some w =>
        let addr := match p.queues[w]? with | some q => queueAddr q | none => 0
        putPart s { p with
          csrs := { p.csrs with prngState := x }
          queues := p.queues.mapIdx (afterDraw [w] (el.map (·.1)))
          taken := some ⟨w, addr, s.now⟩ }

def execLotteryDraw (part : Nat) (s : State) : Result := .next (lotteryDraw s part)

/-! ### Edges, tiles and counts (19 R303, R304) -/

def passEdges (g : Graph) (q : Pass) : List Edge := (g.edges.drop q.edge0).take q.inputs
def tileCount (q : Pass) : Nat := q.tw * q.th

def intRange (a b : Int) : List Int := (List.range (b - a + 1).toNat).map fun (i : Nat) => a + (i : Int)

/-- The clipped set of an edge for a consumer tile, as producer tile indices. -/
def clippedSet (prod : Pass) (e : Edge) (cons : Pass) (tile : Nat) : List Nat :=
  let cx := tile % cons.tw
  let cy := tile / cons.tw
  let base (c : Nat) : Int := match e.scale with | 0 => c | 1 => 2 * c | _ => (c / 2 : Nat)
  (intRange e.dy0 e.dy1).flatMap fun dy => (intRange e.dx0 e.dx1).filterMap fun dx =>
    let x := base cx + dx
    let y := base cy + dy
    if 0 ≤ x && x < prod.tw && 0 ≤ y && y < prod.th then some (y.toNat * prod.tw + x.toNat) else none

def edgeSet (g : Graph) (e : Edge) (cons : Pass) (tile : Nat) : List Nat :=
  match g.passes[e.producer]? with
  | some prod => clippedSet prod e cons tile
  | none => []

def initialCount (g : Graph) (q : Pass) (tile : Nat) : Nat :=
  ((passEdges g q).map fun e => (edgeSet g e q tile).length).foldl (· + ·) 0

def setTiles (g : Graph) : Graph :=
  { g with passes := g.passes.map fun q =>
      { q with tiles := (List.range (tileCount q)).map fun n =>
          let c := initialCount g q n
          ⟨if c = 0 then .released else .pending, c, 0⟩ } }

/-! ### Reading a graph (19 R298 to R302) -/

/-- One read after another. -/
def thenRead {α β : Type} (r : UnitRes α × State) (k : α → State → UnitRes β × State) : UnitRes β × State :=
  match r with
  | (.ok a, s) => k a s
  | (.wait w, s) => (.wait w, s)
  | (.fail c ea, s) => (.fail c ea, s)

def records (b : List Byte) (n size : Nat) : List (List Byte) := (List.range n).map fun i => (b.drop (size * i)).take size

def parsePass (b : List Byte) : Pass where
  packet := parsePacket (b.take 128)
  map := []
  tw := fieldNat b 0x80 2
  th := fieldNat b 0x82 2
  pcode := fieldNat b 0x84 1
  pkind := fieldNat b 0x85 1
  inputs := fieldNat b 0x86 1
  edge0 := fieldNat b 0x88 2
  csDies := fieldNat b 0x8A 1
  csX := fieldNat b 0x8B 1
  csY := fieldNat b 0x8C 1
  csW := fieldNat b 0x8D 1
  csH := fieldNat b 0x8E 1
  tiles := []

def parseEdge (b : List Byte) : Edge :=
  let i (off : Nat) : Int := signedNat 8 (fieldNat b off 1)
  let t := fieldNat b 6 2
  ⟨fieldNat b 0 1, fieldNat b 1 1, i 2, i 3, i 4, i 5, if t = 0xFFFF then none else some t⟩

def parseTransient (b : List Byte) : Transient where
  blockBytes := fieldNat b 0 4
  producer := fieldNat b 4 1
  ringDies := fieldNat b 5 1
  ringBlocks := fieldNat b 6 2
  extra := fieldNat b 8 8
  overBase := BitVec.ofNat 64 (fieldNat b 0x10 8)
  overBlocks := fieldNat b 0x18 4
  head := 0
  tail := 0
  marks := []
  blocks := []

/-- The cores of a core set (19 R299). -/
def coreSet (q : Pass) : List Nat :=
  ((List.range 4).filter fun d => q.csDies / 2 ^ d % 2 == 1).flatMap fun d => rectCores d q.csX q.csY q.csW q.csH

/-- A pass and its packet meet 19 R299 and R302, its map apart. -/
def passLegal (p : Partition) (b : List Byte) (q : Pass) (edges : Nat) : Bool :=
  q.packet.kind == 1 && packetLegal p q.packet && q.packet.joinAddr == noJoin && q.packet.deadline == 0
  && 1 ≤ q.tw && 1 ≤ q.th && tileCount q ≤ 65536 && q.pcode ≤ 3 && q.pkind ≤ 3 && q.inputs ≤ 16
  && fieldNat b 0x87 1 == 0 && allZero (b.drop 0x8F)
  && (q.inputs == 0 || q.edge0 + q.inputs ≤ edges)
  && (q.pkind != 1 || q.packet.flags.getLsbD 1) && (q.pkind != 3 || q.tw == 1)
  && 1 ≤ q.csDies && q.csDies < 16 && 1 ≤ q.csW && 1 ≤ q.csH && q.csX + q.csW ≤ 8 && q.csY + q.csH ≤ 8
  && (coreSet q).all (p.cores.contains ·)

def edgeLegal (ts : List Transient) (e : Edge) : Bool :=
  e.scale ≤ 2 && -3 ≤ e.dx0 && e.dx0 ≤ 3 && e.dx0 ≤ e.dx1 && e.dx1 ≤ e.dx0 + 2
  && -3 ≤ e.dy0 && e.dy0 ≤ 3 && e.dy0 ≤ e.dy1 && e.dy1 ≤ e.dy0 + 2
  && match e.tr with
    | none => true
    | some t => match ts[t]? with | some x => x.producer == e.producer | none => false

/-- The slots of a ring that lie on a die (19 R310). -/
def slotsOn (t : Transient) (die : Nat) : Nat :=
  let ds := (List.range 4).filter fun d => t.ringDies / 2 ^ d % 2 == 1
  match ds.idxOf? die with
  | some i => (t.ringBlocks + ds.length - 1 - i) / ds.length
  | none => 0

def ringsFit (p : Partition) (ts : List Transient) : Bool :=
  (List.range 4).all fun d =>
    (ts.map fun t => slotsOn t d * t.blockBytes).foldl (· + ·) 0
      ≤ (p.cores.filter fun c => dieOfCore c == d).length * shareBytes p 1

def transientLegal (p : Partition) (b : List Byte) (g : Graph) (t : Transient) : Bool :=
  t.blockBytes % 256 == 0 && 256 ≤ t.blockBytes && t.blockBytes ≤ 4 * 2 ^ 20 && t.producer < g.passes.length
  && 1 ≤ t.ringDies && t.ringDies < 16 && ((List.range 4).all fun d => t.ringDies / 2 ^ d % 2 == 0 || (partDies p).contains d)
  && 1 ≤ t.ringBlocks && t.overBase.toNat % t.blockBytes == 0 && (t.overBase != 0 || t.overBlocks == 0)
  && fieldNat b 0x1C 4 == 0
  && (List.range 64).all fun i =>
    t.extra / 2 ^ i % 2 == 0 || match g.passes[i]? with
      | some q => (passEdges g q).any (·.producer == t.producer)
      | none => false

/-- The whole graph is legal (19 R302), the placement maps apart. -/
def graphLegal (p : Partition) (passes tr : List (List Byte)) (g : Graph) : Bool :=
  ((passes.zip g.passes).all fun x => passLegal p x.1 x.2 g.edges.length)
  && g.edges.all (edgeLegal g.transients)
  && ((g.passes.mapIdx fun i q => (i, q)).all fun x => (passEdges g x.2).all fun e => e.producer < x.1)
  && ((tr.zip g.transients).all fun x => transientLegal p x.1 g x.2)
  && ringsFit p g.transients

/-- The maps of the passes, one after the other; none where one is illegal. -/
def readMaps (p : Partition) : List Pass → List Pass → State → UnitRes (Option (List Pass)) × State
  | [], done, s => (.ok (some done), s)
  | q :: rest, done, s =>
    thenRead (readMap s p q.packet) fun m s =>
      if mapLegal (coreSet q) q.packet m then readMaps p rest (done ++ [{ q with map := m }]) s else (.ok none, s)

def headerLegal (b : List Byte) : Bool :=
  fieldNat b 0 1 == 1 && 1 ≤ fieldNat b 1 1 && fieldNat b 1 1 ≤ 64 && fieldNat b 2 2 ≤ 256 && fieldNat b 4 2 ≤ 1024
  && fieldNat b 6 2 == 0 && fieldNat b 8 8 % 64 == 0 && fieldNat b 0x10 8 % 64 == 0 && fieldNat b 0x18 8 % 8 == 0
  && fieldNat b 0x20 8 % 8 == 0 && allZero (b.drop 0x30)

/-- The descriptor, its tables and its maps, read once; none where 19 R302 rejects the graph. -/
def readGraph (s : State) (p : Partition) (ea : Nat) : UnitRes (Option Graph) × State :=
  let rd := launchReader p
  thenRead (unitRead s rd ea 64) fun h s =>
    if !headerLegal h then (.ok none, s)
    else
      let np := fieldNat h 1 1
      let nt := fieldNat h 2 2
      let ne := fieldNat h 4 2
      thenRead (unitRead s rd (fieldNat h 8 8) (192 * np)) fun pb s =>
      thenRead (unitRead s rd (fieldNat h 0x10 8) (32 * nt)) fun tb s =>
      thenRead (unitRead s rd (fieldNat h 0x18 8) (8 * ne)) fun eb s =>
        let ps := records pb np 192
        let ts := records tb nt 32
        let g : Graph := {
          passes := ps.map parsePass, edges := (records eb ne 8).map parseEdge, transients := ts.map parseTransient
          done := BitVec.ofNat 64 (fieldNat h 0x20 8), doneVal := BitVec.ofNat 64 (fieldNat h 0x28 8), job := 0, releases := 1 }
        if !graphLegal p ps ts g then (.ok none, s)
        else
          thenRead (readMaps p g.passes [] s) fun qs s =>
            (.ok (qs.map fun qs => setTiles { g with passes := qs }), s)

/-! ### PACKET_VALIDATE (19 R293, R296) -/

/-- The packet taken has been judged: QHEAD advances. -/
def advanceHead (s : State) (part : Nat) (t : Taken) : State :=
  modPart s part fun p => { p with
    taken := none
    queues := p.queues.modify t.queue fun q =>
      let h := q.head + 1
      { q with head := h, lost := if h == q.tail then 0 else q.lost } }

def rejectPacket (s : State) (p : Partition) (t : Taken) (payload : List DWord) : State :=
  launchRecord (advanceHead s p.idx t) p 0x400 payload

/-- A graph packet: read as a whole, and made active with its rings (19 R297, R302, R305, R310). One that stands in a
packet taken as another kind waits for the active graph. -/
def acceptGraph (s : State) (p : Partition) (t : Taken) (b : List Byte) : State :=
  let ea := fieldNat b 8 8
  if !(allZero ((b.drop 1).take 7) && allZero ((b.drop 0x10).take 64) && allZero (b.drop 0x58)) || ea % 64 != 0 then
    rejectPacket s p t []
  else if p.graph.isSome then s
  else
    match readGraph s p ea with
    | (.wait w, s) => launchWaits s p w .packet
    | (.fail c a, s) => rejectPacket s p t [c.zeroExtend 64, a]
    | (.ok none, s) => rejectPacket s p t []
    | (.ok (some g), s) =>
      let j := newJob s p.idx t.since (BitVec.ofNat 64 (fieldNat b 0x50 8)) t.queue t.addr
      modPart (advanceHead j.2 p.idx t) p.idx fun p => { p with graph := some { g with job := j.1 } }

/-- A grid of a host packet (19 R296). -/
def acceptGrid (s : State) (p : Partition) (t : Taken) (k : Packet) : State :=
  if !(packetLegal p k && k.joinAddr == noJoin) then rejectPacket s p t []
  else
    match readMap s p k with
    | (.wait w, s) => launchWaits s p w .packet
    | (.fail c a, s) => rejectPacket s p t [c.zeroExtend 64, a]
    | (.ok m, s) =>
      if !mapLegal p.cores k m then rejectPacket s p t []
      else
        let j := newJob s p.idx t.since k.deadline t.queue t.addr
        queueGrid (advanceHead j.2 p.idx t) p k (.host t.queue) m (some j.1) none [] []

def packetValidate (s : State) (part : Nat) : State :=
  match findPart s part with
  | none => s
  | some p =>
    match p.taken with
    | none => s
    | some t =>
      if !launchFree p then s
      else
        match unitRead s (launchReader p) t.addr.toNat 128 with
        | (.wait w, s) => launchWaits s p w .packet
        | (.fail c a, s) => rejectPacket s p t [c.zeroExtend 64, a]
        | (.ok b, s) =>
          let k := parsePacket b
          match k.kind with
          | 1 => acceptGrid s p t k
          | 3 => acceptGraph s p t b
          | _ => rejectPacket s p t []

def execPacketValidate (part : Nat) (s : State) : Result := .next (packetValidate s part)

/-! ### TILE_LAUNCH (19 R307, R311, R312) -/

/-- The released tile of a pass that launches next: in order of release, then of index. -/
def nextTile (q : Pass) : Option Nat :=
  ((q.tiles.mapIdx fun i t => (i, t)).foldl (fun best x =>
    if x.2.state != .released then best
    else
      match best with
      | none => some (x.1, x.2.order)
      | some b => if x.2.order < b.2 then some (x.1, x.2.order) else best) (none : Option (Nat × Nat))).map (·.1)

/-- All tiles of a pass have retired. -/
def passRetired (q : Pass) : Bool := q.tiles.all fun t => t.state == .retired

/-- The readers of a block by edge and consumer tile. -/
def readerPairs (g : Graph) (tr tile : Nat) : Nat :=
  ((g.passes.flatMap fun q =>
    ((passEdges g q).filter fun e => e.tr == some tr).flatMap fun e =>
      (List.range (tileCount q)).map fun n => ((edgeSet g e q n).filter (· == tile)).length)).foldl (· + ·) 0

/-- EXTRA passes that a new block counts. -/
def extraPasses (g : Graph) (t : Transient) : List Nat :=
  (List.range 64).filter fun i =>
    t.extra / 2 ^ i % 2 == 1 && match g.passes[i]? with | some q => !passRetired q | none => false

def freeOver (t : Transient) : Option Nat :=
  (List.range t.overBlocks).find? fun i => !(t.blocks.any fun b => b.spilled && b.pos == i)

/-- Whether a block of a transient can be allocated. -/
def canAllocate (t : Transient) : Bool := t.head - t.tail < t.ringBlocks || (freeOver t).isSome

/-- A block for a tile: from the ring while it has a free slot, else from the overflow region. -/
def allocate (g : Graph) (tr tile seed : Nat) (t : Transient) : Transient :=
  let ex := extraPasses g t
  let n := readerPairs g tr tile + ex.length
  if t.head - t.tail < t.ringBlocks then
    { t with head := t.head + 1, blocks := t.blocks ++ [⟨tile, t.head, false, Memory.fresh t.blockBytes seed, n, ex, false⟩] }
  else
    match freeOver t with
    | some i => { t with blocks := t.blocks ++ [⟨tile, i, true, Memory.empty, n, ex, false⟩] }
    | none => t

/-- The transients a pass produces. -/
def producedBy (g : Graph) (pass : Nat) : List Nat :=
  (List.range g.transients.length).filter fun i => match g.transients[i]? with | some t => t.producer == pass | none => false

/-- The next tile of a pass and whether its blocks can be allocated. -/
def launchable (g : Graph) (pass : Nat) : Option Nat :=
  match g.passes[pass]? with
  | some q =>
    match nextTile q with
    | some n =>
      if (producedBy g pass).all fun i => match g.transients[i]? with | some t => canAllocate t | none => false then some n else none
    | none => none
  | none => none

/-- A new block of the overflow region has undefined contents. -/
def undefOver (s : State) (p : Partition) (g : Graph) (tile tr : Nat) : State :=
  match g.transients[tr]? with
  | some t =>
    match t.blocks.find? fun b => b.tile == tile && b.spilled with
    | some b => undefGlobal s p (t.overBase.toNat + b.pos * t.blockBytes) t.blockBytes 256
    | none => s
  | none => s

def setTileState (g : Graph) (pass tile : Nat) (st : TileState) : Graph :=
  { g with passes := g.passes.modify pass fun q => { q with tiles := q.tiles.modify tile fun t => { t with state := st } } }

/-- TILE_LAUNCH: a released tile obtains its blocks and is queued as a grid; passes are served in ascending index. -/
def tileLaunch (s : State) (part pass : Nat) : State :=
  match findPart s part with
  | none => s
  | some p =>
    match p.graph with
    | none => s
    | some g =>
      if p.state != .running || (List.range pass).any fun i => (launchable g i).isSome then s
      else
        match launchable g pass, g.passes[pass]? with
        | some n, some q =>
          let ts := producedBy g pass
          let g' := ts.foldl (fun (g : Graph) i => { g with transients := g.transients.modify i (allocate g i n (16 + s.fresh)) }) g
          let g' := setTileState g' pass n .launched
          let p' := { p with graph := some g' }
          let s := putPart { s with fresh := s.fresh + 1 } p'
          let s := ts.foldl (fun s i => undefOver s p' g' n i) s
          queueGrid s p' q.packet (.tile pass n) q.map none none [] []
        | _, _ => s

def execTileLaunch (part pass : Nat) (s : State) : Result := .next (tileLaunch s part pass)

/-! ### Retirement (19 R305, R306, R308, R311) -/

/-- One pair of an edge and a consumer tile is counted down for a retired producer tile. -/
def countDown (n order : Nat) (t : Tile) : Tile :=
  if t.state == .pending && n != 0 then
    if t.count ≤ n then { t with count := 0, state := .released, order := order } else { t with count := t.count - n }
  else t

/-- The consumers of a retired tile. -/
def releaseConsumers (g : Graph) (pass tile : Nat) : Graph :=
  { g with
    passes := g.passes.map fun q =>
      let es := (passEdges g q).filter (·.producer == pass)
      let pairs (n : Nat) : Nat := (es.map fun e => ((edgeSet g e q n).filter (· == tile)).length).foldl (· + ·) 0
      if es.isEmpty then q else { q with tiles := q.tiles.mapIdx fun n t => countDown (pairs n) g.releases t }
    releases := g.releases + 1 }

/-- The blocks that a retired consumer tile read, pair by pair. -/
def countReaders (g : Graph) (pass tile : Nat) : Graph :=
  match g.passes[pass]? with
  | none => g
  | some q =>
    (passEdges g q).foldl (fun g e =>
      match e.tr with
      | none => g
      | some t =>
        let set := edgeSet g e q tile
        { g with transients := g.transients.modify t fun x =>
            { x with blocks := x.blocks.map fun b => { b with count := b.count - (set.filter (· == b.tile)).length } } }) g

/-- The last tile of an EXTRA pass has retired. -/
def countExtra (g : Graph) (pass : Nat) : Graph :=
  match g.passes[pass]? with
  | none => g
  | some q =>
    if !passRetired q then g
    else
      { g with transients := g.transients.map fun x =>
          { x with blocks := x.blocks.map fun b =>
              if b.extra.contains pass then { b with count := b.count - 1, extra := b.extra.filter (· != pass) } else b } }

/-- The tail advances over marked slots. -/
def advanceTail : Nat → Transient → Transient
  | 0, t => t
  | n + 1, t =>
    if t.marks.contains t.tail then advanceTail n { t with tail := t.tail + 1, marks := t.marks.filter (· != t.tail) } else t

/-- Blocks whose producer has retired and whose count is 0 are freed. -/
def freeBlocks (t : Transient) : Transient :=
  let freed := t.blocks.filter fun b => b.written && b.count == 0
  let marks := t.marks ++ (freed.filter (!·.spilled)).map (·.pos)
  advanceTail marks.length { t with blocks := t.blocks.filter fun b => !(b.written && b.count == 0), marks := marks }

/-- The graph after a tile has retired. -/
def retired (g : Graph) (pass tile : Nat) : Graph :=
  let g := setTileState g pass tile .retired
  let g := countExtra (countReaders (releaseConsumers g pass tile) pass tile) pass
  { g with transients := g.transients.map fun t =>
      freeBlocks (if t.producer == pass then
        { t with blocks := t.blocks.map fun b => if b.tile == tile then { b with written := true } else b }
      else t) }

def graphRecord (s : State) (p : Partition) (code : Nat) (payload : List DWord) : State :=
  record s (launchDie p) unitGraph code (some p.idx) false payload

def dropJob (s : State) (id : Nat) : State := { s with jobs := s.jobs.filter (·.id != id) }

/-- GRAPH_COMPLETE, in the order of 19 R308. -/
def completeGraph (s : State) (p : Partition) (core team : Nat) (g : Graph) : State :=
  let s := releaseFrom s core p.idx team 4
  let s :=
    if g.done = 0 then s
    else
      match resolveGlobal s (lowCore p) p (.host 0) false g.done 8 8 .write false with
      | (.at (.stream _), s) => graphRecord s p causePermission.toNat [g.done]
      | (.at l, s) => storeLoc s (lowCore p) l (natBytes 8 g.doneVal.toNat) atHome false
      | (.fault c, s) => graphRecord s p c.toNat [g.done]
  let s := graphRecord s p 0x401 []
  dropJob (modPart s p.idx fun p => { p with graph := none }) g.job

/-- TILE_RETIRE, and GRAPH_COMPLETE after the last tile. -/
def retireTile (s : State) (part core team pass tile : Nat) : State :=
  match findPart s part with
  | none => s
  | some p =>
    match p.graph with
    | none => s
    | some g =>
      let g' := retired g pass tile
      let s := putPart s { p with graph := some g' }
      let s := match g.passes[pass]? with | some q => countDie s (dieOfCore core) (20 + q.pkind) | none => s
      if g'.passes.all passRetired then completeGraph s p core team g' else s

/-! ### TEAM_END -/

/-- The team's groups have ended, no lane of it waits at a segment start, its control thread has exited with nothing
outstanding, and every operation of the team is complete. -/
def teamEnded (s : State) (t : Team) : Bool :=
  t.place == .resident && !t.ended && t.gatherings.isEmpty && t.pendLaunch.isEmpty
  && ((teamGroups s t.id).all fun g => groupEnded g && g.after.isEmpty)
  && (match findThread s t.id with | some h => h.exited && (postedBy s h).isEmpty | none => true)
  && s.ops.all fun o => o.team != t.id || (o.done && !o.owes)

/-- Candidates of a callback group that ended without a verdict are ignored (17 R287). -/
def ignoreUnjudged (s : State) (rays : List (Nat × Nat)) : State :=
  rays.foldl (fun s x =>
    match findRay s x.1 (x.2 % tableRays) with
    | some r =>
      match r.cand with
      | some c => if c.sent && r.gen == x.2 / tableRays then applyJudgement s x.1 r c 1 0 else s
      | none => s
    | none => s) s

/-- What a team held is free again. -/
def freeTeam (s : State) (t : Team) : State :=
  let s := { s with
    groups := s.groups.filter (·.team != t.id)
    threads := s.threads.filter (·.team != t.id)
    ops := s.ops.filter (·.team != t.id) }
  let s := t.areas.foldl (fun s a => modDie s a.1 fun d => { d with areas := d.areas.filter (· != a.2) }) s
  let s := match t.privAlloc with
    | some a => modPart s t.part fun p => { p with privAllocs := p.privAllocs.filter (·.1 != a) }
    | none => s
  let s := putTeam s { t with ended := true, privAlloc := none, areas := [], granted := [], tiles := [] }
  let mine (u : Team) : Bool := u.grid == t.grid && u.cluster == t.cluster
  if s.teams.all fun u => !mine u || u.ended then { s with teams := s.teams.filter fun u => !mine u } else s

/-- The last team of a grid has ended: the job, the join line, the tile. -/
def endGrid (s : State) (gr : Grid) (core team : Nat) : State :=
  let s := { s with grids := s.grids.filter (·.id != gr.id) }
  let s := match gr.job with | some j => dropJob s j | none => s
  match gr.origin with
  | .child => completeChild (if gr.join.isSome then releaseFrom s core gr.part team 3 else s) gr.join
  | .tile pass tile => retireTile s gr.part core team pass tile
  | _ => s

def gridEnded (s : State) (gr : Grid) : Bool :=
  gr.next == gr.total && gr.passed.isEmpty && s.teams.all fun t => t.grid != gr.id || t.ended

/-- TEAM_END. -/
def endTeam (s : State) (team : Nat) : State :=
  match findTeam s team with
  | none => s
  | some t =>
    let halted := match findPart s t.part with | some p => p.state == .halted | none => true
    if halted || !teamEnded s t then s
    else
      let s := ignoreUnjudged s t.rays
      let s := match t.origin with
        | .tile _ _ => ((teamGroups s t.id).map (·.core)).eraseDups.foldl (fun s c => releaseFrom s c t.part t.id 3) s
        | _ => s
      let s := freeTeam s t
      match findGrid s t.grid with
      | some gr => if gridEnded s gr then endGrid s gr t.core t.id else s
      | none => s

def execTeamEnd (team : Nat) (s : State) : Result := .next (endTeam s team)

/-! ### TEAM_GATE_OPEN (18 R291, 20 R322) -/

/-- Stores, atomics and reductions on stacked memory that have still to be accepted (20 R322). -/
def stackedPending (o : Op) : Bool :=
  !performed o && match o.kind with
    | .store accs _ _ _ => accs.any fun a => isStacked a.loc
    | .atom _ _ accs _ _ _ _ _ _ => accs.any fun a => isStacked a.loc
    | .clasp .. => true
    | _ => false

/-- The gate opens once group 0 has made its switch, or has ended; in a tile instance what group 0 issued to stacked
memory before that has then been accepted. -/
def gateOpens (s : State) (t : Team) : Bool :=
  let zero := (teamGroups s t.id).filter (·.idx == 0)
  let settled := match t.origin with
    | .tile _ _ => s.ops.all fun o => !(zero.any (·.id == o.group) && o.id < t.gateMark.getD s.nextId && stackedPending o)
    | _ => true
  t.gated && !t.gateOpen && (t.gateMark.isSome || zero.all groupEnded) && settled

def openGate (s : State) (team : Nat) : State :=
  match findTeam s team with
  | some t => if gateOpens s t then putTeam s { t with gateOpen := true } else s
  | none => s

def execTeamGateOpen (team : Nat) (s : State) : Result := .next (openGate s team)

end Sys2Proof.Machine
end

