-- ==== Sys2Proof/Machine/Swap.lean ====
section
/-! DEFINITION. What a parked pc-set waits for (03 R50), team swap and restore (03 R61, R62; 22 R348), landing after
MIGRATE (03 R68), and pre-emption (21 R333 to R338; 17 R256, R269). -/

namespace Sys2Proof.Machine

/-! ### Waits (03 R50, R61) -/

/-- Whether what a park waits for has come to hold, for the waits on something outside the group. -/
def parkOver (s : State) (g : Group) (p : Park) : Bool :=
  match p with
  | .none => true
  | .lines l => l.all fun x => linePresent s x.1 x.2
  | .queue c order =>
    (queueEntries s g.core c).length < queueSize && !queueBehind s g.core c (some order)
  | .pendingLaunch => match teamOf s g with | some t => t.pendLaunch.length < pendingMax | none => false
  | .counter c n => counterOf s g.id c ≤ n
  | .fence => !memoryHeld s g.id
  | .op id => match findOp s id with | some o => o.done | none => true
  | _ => false

/-- A wait on a condition that can come to hold while the team is out. -/
def isExternal (p : Park) : Bool :=
  match p with
  | .lines _ | .queue _ _ | .pendingLaunch | .counter _ _ | .fence | .op _ | .host _ _ | .stream _ _ => true
  | _ => false

/-- A wait on the team itself. -/
def isOwnWait (p : Park) : Bool := match p with | .join _ _ | .quad _ _ _ | .arrive _ => true | _ => false

/-- The live lanes of a group. -/
def liveList (g : Group) : List Lane := g.lanes.filter fun l => !l.exited

/-- A group waits at the closed gate of its team (18 R291). -/
def atGate (t : Team) (g : Group) : Bool := g.idx != 0 && t.gated && !t.gateOpen

/-- A load that waits for a stream page. -/
def loadStreams (o : Op) : Bool := waitsForStream o && match o.kind with | .load .. => true | _ => false

/-- A group in the park of 03 R46 for nothing but loads that wait for stream pages. -/
def heldByStream (s : State) (g : Group) : Bool := !(owing s g.id).isEmpty && (owing s g.id).all loadStreams

/-- A parked group: every live lane waits for something that does not hold yet, or the whole group at the team gate or for
stream pages. -/
def groupParked (s : State) (t : Team) (g : Group) : Bool :=
  groupEnded g
    || (g.shipping.isNone && g.yield.isNone && g.run.isNone && g.after.isEmpty
        && (heldByStream s g
          || (owing s g.id).isEmpty && (atGate t g || (liveList g).all fun l => l.park != .none && !parkOver s g l.park)))

def teamParked (s : State) (t : Team) : Bool := (teamGroups s t.id).all (groupParked s t)

/-- Since when every group of a team has been parked. -/
def noteParked (s : State) : State :=
  { s with teams := s.teams.map fun t =>
      if t.place == .resident && !t.ended && teamParked s t then 
        { t with parkedSince := some (t.parkedSince.getD (coreNow s (dieOfCore t.core))) }
      else { t with parkedSince := none } }

/-- The condition of a wake-table entry (03 R61): those of a counter or a fence are a group's own. -/
inductive WakeOn where
  | line (team line : Nat)
  | queue (c : VqClass)
  | pendingLaunch
  | counter (group : Nat) (c : OpClass) (n : Nat)
  | fence (group : Nat)
  | op (id : Nat)
  | host (page : Nat)
  | stream (page : Nat)
  /-- A condition that has come to hold while the team was out. -/
  | ended
  deriving DecidableEq, Repr

/-- The external conditions of a park, each by itself. -/
def wakesOf (g : Group) (p : Park) : List WakeOn :=
  match p with
  | .none => [.ended]
  | .lines l => l.map fun x => .line x.1 x.2
  | .queue c _ => [.queue c]
  | .pendingLaunch => [.pendingLaunch]
  | .counter c n => [.counter g.id c n]
  | .fence => [.fence g.id]
  | .op id => [.op id]
  | .host pages _ => pages.map .host
  | .stream page _ => [.stream page]
  | _ => []

/-- The stream pages a load waits for; a request that failed waits no more. -/
def streamWakes (o : Op) : List WakeOn :=
  match o.kind with
  | .load accs .. =>
    if o.done || !waitsForStream o then [.ended]
    else accs.filterMap fun a => match a.loc with | .stream va => some (.stream (va / 65536)) | _ => none
  | _ => [.ended]

/-- The conditions that the pc-sets of a group await: the park of 03 R46 holds the group as a whole. -/
def groupWakes (s : State) (t : Team) (g : Group) : List WakeOn :=
  if atGate t g then []
  else if !g.replays.isEmpty then g.replays.flatMap streamWakes
  else if heldByStream s g then (owing s g.id).flatMap streamWakes
  else (liveList g).flatMap fun l => wakesOf g l.park

/-- The wake-table entries of a team: one for each distinct condition. -/
def wakeEntries (s : State) (t : Team) : List WakeOn := ((teamGroups s t.id).flatMap (groupWakes s t)).eraseDups

/-- The condition of an entry holds. -/
def wakeHolds (s : State) (t : Team) (w : WakeOn) : Bool :=
  match w with
  | .line team line => linePresent s team line
  | .queue c => (queueEntries s t.core c).length < queueSize
  | .pendingLaunch => t.pendLaunch.length < pendingMax
  | .counter g c n => counterOf s g c ≤ n
  | .fence g => !memoryHeld s g
  | .op id => match findOp s id with | some o => o.done | none => true
  | .host _ | .stream _ => false
  | .ended => true

def wakeSize : Nat := 64

/-- Wake-table entries that swapped teams take on a core. -/
def wakeUsed (s : State) (core : Nat) : Nat :=
  ((s.teams.filter fun t => t.core == core && t.place == .swapped && !isEvicted s t.part).map fun t => (wakeEntries s t).length).foldl (· + ·) 0

/-! ### Saving a team -/

/-- Lanes parked on a vertical queue are saved as not having issued their instruction (01 R24). -/
def unqueue (g : Group) : Group :=
  { g with lanes := g.lanes.map fun l => match l.park with | .queue _ _ => { l with park := .none } | _ => l }

/-- Lanes that wait for a page are saved in a replay record: they issue their instruction again (21 R332). -/
def replayWaits (g : Group) : Group :=
  { g with lanes := g.lanes.map fun l =>
      match l.park with
      | .host _ _ => { l with park := .none }
      | .stream _ _ => { l with park := .none }
      | _ => l }

/-- The release of 22 R348 for every group of a team. -/
def releaseTeam (s : State) (t : Team) : State :=
  (teamGroups s t.id).foldl (fun s g => releaseFrom s g.core t.part t.id 3) s

/-- The lanes of a load that wait for a stream page, or for the host link. -/
def waitingSet (s : State) (o : Op) : DWord :=
  match o.kind with
  | .load accs .. => laneSet ((accs.filter fun a => isStream a.loc || (!s.linkUp && isFar a.loc)).map (·.lane))
  | _ => 0

/-- The waiting lanes of a load leave it for a replay record of their group; the others go on (21 R332; log entry 125). -/
def recordReplay (s : State) (o : Op) : State :=
  let m := waitingSet s o
  if m = 0 || performed o then s
  else
    let rest := dropLanes m o.kind
    let s := putOp s { o with kind := rest, owes := o.owes && !noLanes rest, done := o.done || noLanes rest }
    modGroup (ackOps s o.group) o.group fun g =>
      { g with replays := g.replays ++ [{ o with kind := dropLanes (~~~m) o.kind, owes := false, done := false, acks := [] }] }

/-- Every waiting load of a group. -/
def recordReplays (s : State) (gid : Nat) : State := (groupOps s gid).foldl recordReplay s

/-- An operation that a save leaves as it is: complete but for its acknowledgement, or rays in the ray table. -/
def survivesSave (_ : State) (o : Op) : Bool :=
  (o.done && !o.owes) || match o.kind with | .engine (.trace _) _ _ => o.queue.isNone | _ => false

def teamOps (s : State) (team : Nat) : List Op := s.ops.filter (·.team == team)

/-! ### Shadow storage (01 R32) -/

/-- Bytes of a team's register-file, mask, scalar and accumulator state: of its groups that have not ended, of its control
thread, and of the tiles that are saved (log entry 46). -/
def stateBytes (s : State) (t : Team) : Nat :=
  let groups := ((teamGroups s t.id).filter (!groupEnded ·)).map fun g => 4 * g.w * g.vn + 8 * 16 + 8 * 64
  let tiles := match (findThread s t.id).bind (·.saved) with
    | some m => ((List.range t.tiles.length).filter m.getLsbD).length
    | none => t.tiles.length
  groups.foldl (· + ·) 0 + (if (findThread s t.id).any (!·.exited) then 8 * 32 else 0) + 65536 * tiles

/-- Free bytes of a column's shadow share; that of column (0, 0) of a die is one unit smaller than the split names. -/
def shadowFree (s : State) (p : Partition) (core : Nat) : Nat :=
  let used := ((s.teams.filter fun t => !isEvicted s t.part).flatMap (·.shadow)).filter (·.1 == core)
  shareBytes p 2 - (if core % 64 = 0 then 262144 else 0) - (used.map (·.2)).foldl (· + ·) 0

/-- Where a team's state goes: the core's own column, and what does not fit there in the other columns of the quad in
rising order; the bytes placed in each, and those that fit nowhere. -/
def shadowPlaces (s : State) (p : Partition) (core n : Nat) : List (Nat × Nat) × Nat :=
  (core :: (quadCores (quadOfCore core)).filter (· != core)).foldl (fun r c =>
    let k := min r.2 (shadowFree s p c)
    (if k = 0 then r.1 else r.1 ++ [(c, k)], r.2 - k)) ([], n)

/-! ### TEAM_SWAP (03 R61) -/

/-- The control thread of a team, if it has one, is idle. -/
def swapIdle (s : State) (t : Team) : Bool :=
  match findThread s t.id with
  | some h => threadIdle s h
  | none => true

def everyWaitCounts (s : State) (t : Team) : Bool :=
  (teamGroups s t.id).all fun g =>
    atGate t g || heldByStream s g || (liveList g).all fun l => isExternal l.park || isOwnWait l.park

/-- A cluster of queued work could be admitted to a core. -/
def workWaits (s : State) (part core : Nat) : Bool :=
  match findPart s part with
  | none => false
  | some p =>
    s.grids.any fun gr => gr.part == part && (waitingOf gr).any fun c =>
      !isDeferred gr c && (rectsOf p gr c).any fun r => r.contains core && admissible s p gr c r

/-- A team leaves its core, its state in shadow storage. -/
def takeOut (s : State) (t : Team) (place : TeamPlace) : State :=
  let shadow := match findPart s t.part with | some p => (shadowPlaces s p t.core (stateBytes s t)).1 | none => []
  putTeam s { t with place := place, parkedSince := none, shadow := shadow }

/-- A team eligible for swap: parked for SWAPTHR cycles, its waits all such as can end while it is out, room in the wake
table and in shadow storage, and queued work for its core. -/
def swapEligible (s : State) (t : Team) (p : Partition) : Bool :=
  t.place == .resident && !t.ended && p.state == .running && teamParked s t && everyWaitCounts s t && swapIdle s t
  && (match t.parkedSince with
    | some since => p.csrs.swapThr.toNat ≤ coreSince s (dieOfCore t.core) since
    | none => false)
  && wakeUsed s t.core + (wakeEntries s t).length ≤ wakeSize
  && (shadowPlaces s p t.core (stateBytes s t)).2 == 0
  && (teamGroups s t.id).any (!groupEnded ·)
  && workWaits (takeOut s t .swapped) p.idx t.core

/-- What a swap drains is drained: stores, atomics, arrivals, cache maintenance and queue entries. Copies, fences and
records go on while the team is out. -/
def swapDrained (s : State) (team : Nat) : Bool :=
  (teamOps s team).all fun o => o.done || match o.kind with
    | .copy .. | .fence .. | .lfence | .icinv .. | .emit _ => true
    | _ => false

/-- The operations of a team's groups are performed, its waiting loads kept in replay records (21 R332; 22 R348). -/
def drainTeam (s : State) (t : Team) : State :=
  (teamGroups s t.id).foldl (fun s g => recordReplays (performAll s g.id) g.id) s

/-- TEAM_SWAP. -/
def swapTeam (s : State) (team : Nat) : State :=
  match findTeam s team, (findTeam s team).bind fun t => findPart s t.part with
  | some t, some p =>
    if !swapEligible s t p then s
    else
      let s' := drainTeam s t
      if !swapDrained s' team then s
      else
        match findTeam s' team with
        | some t => takeOut (releaseTeam (countEvent s' t.core 8) t) t .swapped
        | none => s
  | _, _ => s

def execTeamSwap (team : Nat) (s : State) : Result := .next (swapTeam s team)

/-! ### Restoring a team (03 R62, 21 R338) -/

/-- The cores of a team's cluster rectangle. -/
def clusterCores (s : State) (t : Team) : List Nat :=
  (s.teams.filter fun u => u.grid == t.grid && u.cluster == t.cluster).map (·.column)

/-- Groups of a team that need a place in a quarter. -/
def placedGroups (s : State) (t : Team) : List Group :=
  (teamGroups s t.id).filter fun g => !groupEnded g && g.shipping.isNone

/-- The quarters of a team restored to a core: for a regroupable kernel those of its whole grant. -/
def restoreQuarters (s : State) (t : Team) (core : Nat) : Option (List Nat) :=
  let n := if isRegroupable t then groupsOf t.packet else (placedGroups s t).length
  placeGroups n (groupBytes t.packet) ((List.range 4).map (quarterFree s core)) ((List.range 4).map (quarterCount s core))

def canRestore (s : State) (t : Team) (core : Nat) : Bool :=
  (clusterCores s t).contains core && (restoreQuarters s t core).isSome && quadAdmits s core t.packet
  && !(s.teams.any fun u => u.id != t.id && u.grid == t.grid && u.cluster == t.cluster && residentOn u core)

/-- A thread resumes on the quad of its core; an MWAIT that it waited in issues again. -/
def restoreThread (s : State) (t : Team) (core : Nat) : State :=
  let quad := quadOfCore core
  let slot := lowestFree (slotsUsed s quad) 8
  modThread s t.id fun h =>
    { h with
      quad := quad, slot := slot, line := none, saved := none, waited := false
      park := match h.park with | .line _ _ => .none | .tag _ => .none | p => p }

/-- Tiles that were not saved are +0.0 (17 R269). -/
def restoreTiles (s : State) (t : Team) : Team :=
  match (findThread s t.id).bind (·.saved) with
  | some m => { t with tiles := t.tiles.mapIdx fun i x => if m.getLsbD i then x else Memory.empty }
  | none => t

/-- Each group takes its place and a new age in group order; its next issue checks its line again, and lanes that still
wait for a page replay. -/
def restoreGroups (s : State) (t : Team) (core : Nat) (qs : List Nat) : State :=
  let gs := sortBy (fun (a b : Group) => a.idx ≤ b.idx) (placedGroups s t)
  (gs.mapIdx fun i g => (i, g)).foldl (fun s x =>
    let g := x.2
    let q := if isRegroupable t then qs.getD g.idx 0 else qs.getD x.1 0
    let n := newId s
    putGroup n.2 { replayWaits (unqueue g) with core := core, quarter := q, landed := false, age := n.1 }) s

/-- Operations that went on while the team was out go on from the core it runs on now. -/
def moveOps (s : State) (team core : Nat) : State :=
  { s with ops := s.ops.map fun o => if o.team == team && !o.done then { o with core := core } else o }

/-- One access of a replay record, looked up again: its place, or the fault it meets (21 R332). -/
def replayAccess (core : Nat) (p : Partition) (size : Nat) (r : (List Access × List LaneFault) × State) (a : Access) :
    (List Access × List LaneFault) × State :=
  let look (va : Nat) : (List Access × List LaneFault) × State :=
    let x := resolvePage r.2 core p va .read
    match checkRead x.2 .read size x.1 with
    | .at l => ((r.1.1 ++ [{ a with loc := l }], r.1.2), x.2)
    | .fault c => ((r.1.1, r.1.2 ++ [⟨a.lane, c, canonicalVa va, pageOf va⟩]), x.2)
  match a.loc with
  | .stream va => look va
  | .page _ pa va => if pa < fwBase || isFar a.loc then look (va % 2 ^ 57) else ((r.1.1 ++ [a], r.1.2), r.2)
  | _ => ((r.1.1 ++ [a], r.1.2), r.2)

/-- A replay record replays: the load of its lanes is issued again, and lanes that fault trap at its pc. -/
def replayOp (s : State) (p : Partition) (core gid : Nat) (o : Op) : State :=
  match o.kind, findGroup s gid with
  | .load accs ty size d scope acq rmt ro byp, some g =>
    let r := accs.foldl (replayAccess core p size) (([], []), s)
    let gone := faultSet r.1.2
    let kind : OpKind := .load (r.1.1.filter fun a => !gone.getLsbD a.lane) ty size d scope acq rmt ro byp
    let cur : Cur := ⟨.group gid, gone, o.pc, false, 0, false⟩
    let s := putGroup r.2 (if r.1.2.isEmpty then g else splitFaults (setPcs g gone o.pc) cur r.1.2)
    if noLanes kind then s
    else
      let n := newId s
      { n.2 with ops := n.2.ops ++ [{ o with id := n.1, core := core, kind := kind, owes := true }] }
  | _, _ => s

/-- The replay records of a restored team's groups replay; a run's deferred traps then enter. -/
def replayLoads (s : State) (t : Team) (core : Nat) : State :=
  match findPart s t.part with
  | none => s
  | some p =>
    (teamGroups s t.id).foldl (fun s g =>
      let s := g.replays.foldl (fun s o => replayOp s { p with ptroot := t.root } core g.id o) (modGroup s g.id fun g => { g with replays := [] })
      if g.replays.isEmpty then s else settle s g.id) s

/-- The team is resident again on a core, which acquires at device scope before its first issue (22 R348). -/
def restoreTeam (s : State) (t : Team) (core : Nat) : State :=
  match restoreQuarters s t core with
  | none => s
  | some qs =>
    let t' := { restoreTiles s t with
      core := core, place := .resident, granted := if isRegroupable t then qs else t.granted, shadow := [] }
    let s := moveOps (restoreThread s t core) t.id core
    let s := dropReadOnly (acquireAt (restoreGroups (putTeam s t') t' core qs) core 3) core
    replayLoads s t' core

/-- The condition of one of a swapped team's wake-table entries holds. -/
def teamWakes (s : State) (t : Team) : Bool := (wakeEntries s t).any (wakeHolds s t)

/-- TEAM_RESTORE: of a swapped team whose wait is over, or of a saved one of a running partition. -/
def restoreEvent (s : State) (team core : Nat) : State :=
  match findTeam s team, (findTeam s team).bind fun t => findPart s t.part with
  | some t, some p =>
    let wakes := match t.place with | .swapped => teamWakes s t | .saved => true | .resident => false
    if p.state == .running && wakes && canRestore s t core then restoreTeam s t core else s
  | _, _ => s

def execTeamRestore (team core : Nat) (s : State) : Result := .next (restoreEvent s team core)

/-! ### MIGRATE_LANDING (03 R68) -/

def landingSlots : Nat := 2

/-- Landing slots taken on a core. -/
def landedOn (s : State) (core : Nat) : Nat :=
  (s.groups.filter fun g =>
    g.core == core && g.landed && g.shipping.isNone && !groupEnded g
      && match teamOf s g with | some t => t.place == .resident && !t.ended | none => false).length

/-- The core of the partition on a die with the lowest local index that has a free landing slot. -/
def landingCore (s : State) (p : Partition) (die : Nat) : Option Nat :=
  (List.range 64).findSome? fun i =>
    let c := die * 64 + i
    if p.cores.contains c && landedOn s c < landingSlots then some c else none

/-- The group resumes in a landing slot, which acquires at device scope; no clock counter it reads from then on is below
one it has read (01 R25, 11 R196). -/
def landGroup (s : State) (gid : Nat) : State :=
  match findGroup s gid with
  | none => s
  | some g =>
    match g.shipping, teamOf s g, findPart s (partOfGroup s g) with
    | some die, some t, some p =>
      if t.place != .resident || isStopped p then s
      else
        match landingCore s p die with
        | none => s
        | some c =>
          let n := newId (passTime s 16)
          let s := putGroup n.2 { g with core := c, quarter := 0, landed := true, shipping := none, age := n.1 }
          dropReadOnly (acquireAt (modTeam s t.id fun t => { t with core := c }) c 3) c
    | _, _, _ => s

def execMigrateLanding (group : Nat) (s : State) : Result := .next (landGroup s group)

/-! ### Completion of a management command (25 R375) -/

/-- A record of the management processor on the primary die. -/
def mgmtRecord (s : State) (code fn : Nat) (payload : List DWord) : State :=
  record s 0 unitMgmt code (if fn = 0 then none else some (fn - 1)) false payload

/-- MSTATUS is set, vector 1 is raised and a record of code 0x402 is written. -/
def completeCommand (s : State) (fn : Nat) (status : DWord) : State :=
  mgmtRecord (modFunc s fn fun f => { f with status := status, msix1 := f.msix1 + 1 }) 0x402 fn []

def succeeded : DWord := 2
def refusedFor (reason : Nat) : DWord := BitVec.ofNat 64 (3 + 256 * reason)

/-! ### Pre-emption (21 R333 to R335) -/

/-- Results of a group that can land now do. -/
def landAll : Nat → State → Nat → State
  | 0, s, _ => s
  | n + 1, s, gid =>
    match oldestOwed s gid with
    | some o => if landable s o then landAll n (landOp s o false) gid else s
    | none => s

/-- A group ends its run, its operations are drained, its waiting loads kept in replay records, and what the run deferred
happens. -/
def haltGroup (s : State) (gid : Nat) : State :=
  let s := modGroup s gid fun g => { endRun g with yield := none }
  let s := performAll (recordReplays (performAll s gid) gid) gid
  settle (landAll (groupOps s gid).length s gid) gid

/-- A team is drained: nothing of it is outstanding that a save does not keep. -/
def drained (s : State) (t : Team) : Bool :=
  ((teamOps s t.id).all (survivesSave s)) && (teamGroups s t.id).all fun g => g.run.isNone && g.after.isEmpty

/-- A resident team is halted, and saved once it is drained. -/
def saveTeam (s : State) (team : Nat) : State :=
  let s := ((s.groups.filter (·.team == team)).map (·.id)).foldl haltGroup s
  match findTeam s team with
  | some t =>
    if t.place == .resident && drained s t then
      let s := releaseTeam s t
      let s := { s with groups := s.groups.map fun g => if g.team == team then replayWaits (unqueue g) else g }
      takeOut s t .saved
    else s
  | none => s

/-- A thread is saved, or needs no saving. -/
def threadSaved (t : Thread) : Bool := t.exited || t.saved.isSome

/-- Every team of the partition has ended or is saved in full. -/
def allSaved (s : State) (part : Nat) : Bool :=
  (s.teams.all fun t => t.part != part || t.ended || t.place != .resident)
  && s.threads.all fun h => h.part != part || threadSaved h
    || match findTeam s h.team with | some t => t.place == .swapped | none => true

/-- What waits for a page when a partition is saved reads it again after a restore (21 R332). -/
def abandonWaits (s : State) (part : Nat) : State :=
  let s := modPart s part fun p => { p with faults := [], launchWait := none }
  { s with quads := s.quads.map fun q =>
      { q with rays := q.rays.map fun r => if r.part == part then { r with waits := none } else r } }

/-- Pre-emption is complete: PSTATE 3, and the command that asked for it completes. -/
def finishPreempt (s : State) (part : Nat) : State :=
  match findPart s part with
  | none => s
  | some p =>
    let s := putPart s { p with state := .halted, preempt := none, preemptFn := none, halting := false }
    match p.preemptFn with
    | some fn => completeCommand s fn succeeded
    | none => s

/-- Clocks since the request. -/
def preemptClock (s : State) (p : Partition) : Nat := s.now - p.preempt.getD s.now

/-- Everything of a partition that runs is lost. -/
def wipePartition (s : State) (part : Nat) : State :=
  let teams := (s.teams.filter (·.part == part)).map (·.id)
  let areas := (s.teams.filter (·.part == part)).flatMap (·.areas)
  let gone (id : Nat) : Bool := teams.contains id
  let s := { s with
    teams := s.teams.filter (·.part != part)
    groups := s.groups.filter fun g => !gone g.team
    threads := s.threads.filter (·.part != part)
    ops := s.ops.filter (·.part != part)
    grids := s.grids.filter (·.part != part)
    jobs := s.jobs.filter (·.part != part)
    quads := s.quads.map fun q =>
      let mine := (q.table.filter fun e => gone e.team).map (·.id)
      { q with
        table := q.table.filter fun e => !gone e.team
        busy := match q.busy with | some id => if mine.contains id then none else some id | none => none
        gens := (q.rays.filter (·.part == part)).foldl
          (fun l r => (r.slot, (r.gen + 1) % 4096) :: l.filter (·.1 != r.slot)) q.gens
        rays := q.rays.filter (·.part != part)
        cands := q.cands.filter (·.part != part)
        batches := q.batches.filter (·.part != part) }
    dies := s.dies.map fun d => { d with
      gather := d.gather.filter (·.part != part)
      streamQ := d.streamQ.filter (·.part != part)
      missQ := d.missQ.filter (·.part != part) } }
  let s := areas.foldl (fun s a => modDie s a.1 fun d => { d with areas := d.areas.filter (· != a.2) }) s
  modPart s part fun p => { p with taken := none, launchWait := none, graph := none, privAllocs := [] }

/-- PREDL2 has come: a partition that is not yet saved is reset, whatever PREDL1 (21 R335). -/
def resetDue (s : State) (p : Partition) : Bool :=
  pstateCode p == 2 && p.csrs.predl2 != 0 && p.csrs.predl2.toNat ≤ preemptClock s p

/-- PREEMPT_RESET: all that runs is lost, an event record tells of it, and the command completes. -/
def preemptReset (s : State) (part : Nat) : State :=
  match findPart s part with
  | none => s
  | some p => if resetDue s p then finishPreempt (launchRecord (wipePartition s part) p 0x185 []) part else s

/-- All groups of a team have ended, and its thread is saved: the team is saved in full (17 R269). -/
def onlySaved (s : State) (t : Team) : Bool :=
  (teamGroups s t.id).all groupEnded && match findThread s t.id with | some h => h.saved.isSome | none => false

/-- PREEMPT_HALT: at PREDL1, or after a halt, the resident teams are halted and saved; earlier only those of which nothing
but a saved thread is left. The pre-emption completes once every team has ended or is saved, unless PREDL2 comes first. -/
def preemptHalt (s : State) (part : Nat) : State :=
  match findPart s part with
  | none => s
  | some p =>
    if p.state == .running then s
    else if resetDue s p then preemptReset s part
    else
      let due := isStopped p || p.csrs.predl1.toNat ≤ preemptClock s p
      let s := if due then putPart s { p with halting := true } else s
      let teams := (s.teams.filter fun t =>
        t.part == part && t.place == .resident && !t.ended && (due || onlySaved s t)).map (·.id)
      let s := teams.foldl saveTeam s
      let s := if due then saveIdle s part else s
      if !allSaved s part then s
      else if p.preemptFn.isSome || p.state == .preempting then finishPreempt (abandonWaits s part) part
      else abandonWaits s part

def execPreemptHalt (part : Nat) (s : State) : Result := .next (preemptHalt s part)

def execPreemptReset (part : Nat) (s : State) : Result := .next (preemptReset s part)

/-! ### PREEMPT and RESUME (21 R333, R338) -/

/-- A pre-emption is requested: nothing more is admitted, and the job timers pause. -/
def requestPreempt (s : State) (part : Nat) (fn : Nat) : State :=
  match findPart s part with
  | none => s
  | some p =>
    saveIdle (pauseJobs (putPart s { p with state := .preempting, preempt := some s.now, preemptFn := some fn }) part) part

def resumeJobs (s : State) (part : Nat) : State :=
  { s with jobs := s.jobs.map fun j =>
      if j.part == part then match j.paused with | some e => { j with start := s.now - e, paused := none } | none => j
      else j }

/-- A halted partition runs again: its saved teams return to cores that can hold them, the rest when one can. A thread
saved ahead of a team that is still resident goes on. -/
def resumePartition (s : State) (part : Nat) : State :=
  let s := resumeJobs (modPart s part fun p => { p with state := .running, preempt := none, halting := false }) part
  let stays (h : Thread) : Bool := h.part == part && (findTeam s h.team).any fun t => t.place == .resident
  let s := { s with threads := s.threads.map fun h => if stays h then { h with saved := none } else h }
  ((s.teams.filter fun t => t.part == part && t.place == .saved).map (·.id)).foldl (fun s id =>
    match findTeam s id with
    | none => s
    | some t =>
      match (t.core :: clusterCores s t).find? (canRestore s t) with
      | some c => restoreTeam s t c
      | none => s) s

end Sys2Proof.Machine
end

