-- ==== Sys2Proof/Machine/Bezel.lean ====
section
/-! DEFINITION. The Bezel: patch images and their checks (23 R350, R354, R360, R361, R363), the decode path (23 R351,
R352), and how a substitute is built (23 R354). -/

namespace Sys2Proof.Machine

/-! ### The decode path (23 R351, R352) -/

def decodeMatches (p : PatchSlot) (w : SlotBits) (pc : Word) : Bool :=
  p.kind == 1 && majorOf w == p.major
  && ((w.extractLsb' 0 64 >>> (7 + p.wsel)).extractLsb' 0 32 &&& p.mask) == p.value
  && (!p.flags.getLsbD 0 || (p.pcLo.toNat ≤ pc.toNat && pc.toNat ≤ p.pcHi.toNat))

/-- The decode-path slot that acts on an instruction. -/
def decodeSlot (d : Die) (w : SlotBits) (pc : Word) : Option PatchSlot :=
  bezelWinner ((d.bezel.slots.mapIdx fun i p => (i, p)).filter fun x => decodeMatches x.2 w pc)

/-! ### Substitutes (23 R354) -/

/-- A bit field replaced. -/
def setField (w : SlotBits) (lo n : Nat) (x : SlotBits) : SlotBits :=
  let m : SlotBits := BitVec.ofNat 96 (2 ^ n - 1) <<< lo
  (w &&& ~~~m) ||| ((x <<< lo) &&& m)

/-- Register field `k` of an instruction word: D, A, B, C. -/
def regField (w : SlotBits) (k : Nat) : BitVec 8 := w.extractLsb' (20 + 8 * k) 8

def selOf (sp : Word) (k : Nat) : Nat := sp.toNat / 16 ^ k % 16

/-- One register field of the substitute: of the entry, of the matched instruction, or a temporary's number. -/
def spliceReg (m e : SlotBits) (sp : Word) (w : SlotBits) (k : Nat) : SlotBits :=
  let x := match selOf sp k with
    | 1 => regField m 0
    | 2 => regField m 1
    | 3 => regField m 2
    | 4 => regField m 3
    | 5 => regField e k &&& 7
    | _ => regField e k
  setField w (20 + 8 * k) 8 (x.zeroExtend 96)

def copyField (on : Bool) (m w : SlotBits) (lo n : Nat) : SlotBits := if on then setField w lo n (m >>> lo) else w

/-- The substitute that an entry with its splice word makes of the matched instruction. -/
def substituteOf (m e : SlotBits) (sp : Word) : SlotBits :=
  let w := (List.range 4).foldl (spliceReg m e sp) e
  let w := copyField (sp.getLsbD 16) m w 15 5
  let w := copyField (sp.getLsbD 17) m w 64 32
  let w := copyField (sp.getLsbD 18) m w 11 4
  let w := copyField (sp.getLsbD 19) m w 55 4
  copyField (sp.getLsbD 20) m w 61 2

/-- The register fields that name a temporary. -/
def tempFields (sp : Word) : List Nat := (List.range 4).filter fun k => selOf sp k == 5

/-! ### The checks of an image (23 R350, R354, R361) -/

def isVectorSrc (s : Src) : Bool := match s.reg with | some r => isVecSlot r | none => false

/-- The fields that an instruction uses for a vector register. -/
def vectorField (i : Instr) (k : Nat) : Bool :=
  match shapeOf false i with
  | .v _ sh _ => ([isVecSlot sh.d, isVecSlot sh.a, isVectorSrc sh.b, isVectorSrc sh.c]).getD k false
  | .m sh _ => ([isVecSlot sh.d, isVecSlot sh.a, isVecSlot sh.b, false]).getD k false
  | .c _ d a _ => ([isVecSlot d, isVecSlot a, false, false]).getD k false
  | _ => false

/-- A splice word without a reserved code, its temporaries standing in vector fields. -/
def spliceLegal (e : SlotBits) (sp : Word) : Bool :=
  sp.toNat < 2 ^ 21 && ((List.range 4).all fun k => selOf sp k ≤ 5)
  && (tempFields sp).all fun k => match construct e with | some i => vectorField i k | none => false

def isNop (i : Instr) : Bool := match i with | .nop _ => true | _ => false
def isCsrr (i : Instr) : Bool := match i with | .csrr _ => true | _ => false
def isPlainLoad (i : Instr) : Bool :=
  match i with | .ld _ | .ldnc _ | .ldr _ | .lds _ | .ldp _ => true | _ => false

/-- Majors that no substitute may have. -/
def bannedMajor (n : Nat) : Bool :=
  n == 0x44 || n == 0x45 || (0x50 ≤ n && n ≤ 0x56) || (0x70 ≤ n && n ≤ 0x73) || n == 0x79 || 0x7C ≤ n

def entryAllowed (w : SlotBits) : Bool :=
  let n := majorOf w
  let i := instrOf w
  !bannedMajor n && (n != 0 || isNop i) && (n != 0x78 || isCsrr i)

/-- An M-format member that must stand last. -/
def mustBeLast (w : SlotBits) : Bool := formatOf (majorOf w) == .m && !isPlainLoad (instrOf w)

/-- The entries of a REWRITE in order. -/
def sequenceLegal (l : List (SlotBits × Word)) : Bool :=
  l.all (fun e => entryAllowed e.1) && l.dropLast.all fun e => !mustBeLast e.1

def parsePatchSlot (b : List Byte) : PatchSlot where
  kind := fieldNat b 0 1
  prio := fieldNat b 1 1
  action := fieldNat b 2 1
  major := fieldNat b 3 1
  wsel := fieldNat b 4 1
  flags := BitVec.ofNat 8 (fieldNat b 5 1)
  arg := fieldNat b 6 2
  mask := BitVec.ofNat 32 (fieldNat b 8 4)
  value := BitVec.ofNat 32 (fieldNat b 0x0C 4)
  pcLo := BitVec.ofNat 32 (fieldNat b 0x10 4)
  pcHi := BitVec.ofNat 32 (fieldNat b 0x14 4)
  target := BitVec.ofNat 32 (fieldNat b 0x18 4)

/-- The parts of a patch image. -/
structure PatchImage where
  version : DWord
  stepping : BitVec 16
  stepMask : BitVec 16
  dies : Nat
  codeOfs : Nat
  slots : List (List Byte)
  micro : List (SlotBits × Word)
  code : List Byte
  signed : List Byte
  body : List Byte
  key : List Byte
  sig : List Byte
  formOk : Bool

/-- The image that a byte string is, if it has room for a header, a key and a signature; whether MAGIC, FORMAT, counts,
lengths and reserved bytes are what they must be is judged with the entries, after the checks 1 to 5 of 23 R361. -/
def parsePatch (b : List Byte) : Option PatchImage :=
  let ns := min (fieldNat b 6 2) 32
  let nm := min (fieldNat b 0x14 2) 256
  let cl := fieldNat b 0x18 4
  let micro := 0x40 + 32 * ns
  let code := micro + 16 * nm
  let key := b.length - 128
  if 0x40 + 128 ≤ b.length then
    some {
      version := BitVec.ofNat 64 (fieldNat b 8 8), stepping := BitVec.ofNat 16 (fieldNat b 0x10 2)
      stepMask := BitVec.ofNat 16 (fieldNat b 0x12 2), dies := fieldNat b 0x16 1, codeOfs := fieldNat b 0x1C 4
      slots := (List.range ns).map fun i => (b.drop (0x40 + 32 * i)).take 32
      micro := (List.range nm).map fun i =>
        (BitVec.ofNat 96 (fieldNat b (micro + 16 * i) 12), BitVec.ofNat 32 (fieldNat b (micro + 16 * i + 12) 4))
      code := (b.drop code).take cl, signed := b.take (key + 64), body := b.take key
      key := (b.drop key).take 64, sig := (b.drop (key + 64)).take 64
      formOk := fieldNat b 0x16 1 < 16 && fieldNat b 0x17 1 == 0 && allZero ((b.drop 0x20).take 32)
        && fieldNat b 0x1C 4 % 64 == 0 && fieldNat b 0 4 == 0x5A424D4B && fieldNat b 4 2 == 1 && fieldNat b 6 2 ≤ 32
        && fieldNat b 0x14 2 ≤ 256 && cl % 64 == 0 && code + cl == key }
  else none

/-- A slot entry that meets 23 R350, R351 and R361. -/
def slotLegal (im : PatchImage) (b : List Byte) : Bool :=
  let p := parsePatchSlot b
  let reserved := p.prio < 16 && p.flags.toNat < 4 && fieldNat b 0x1C 4 == 0
  let code := 0x380 ≤ p.arg && p.arg ≤ 0x3FF
  let inCode := im.codeOfs ≤ p.target.toNat && p.target.toNat < im.codeOfs + im.code.length && pcFormOk p.target
  let common := reserved && (p.value &&& ~~~p.mask) == 0 && pcFormOk p.pcLo && pcFormOk p.pcHi
  match p.kind with
  | 0 => reserved && p.major < 128 && p.action ≤ 3
  | 1 =>
    common && p.major < 128 && p.wsel ≤ 25 && !p.flags.getLsbD 1
    && match p.action with
      | 0 => code && p.target == 0
      | 1 =>
        1 ≤ p.arg && p.arg ≤ 8 && p.target.toNat + p.arg ≤ im.micro.length
        && sequenceLegal ((im.micro.drop p.target.toNat).take p.arg)
      | 2 => code && inCode
      | _ => false
  | 2 =>
    common && p.major == 0 && p.wsel == 0 && p.mask.toNat < 1024
    && match p.action with
      | 0 => code && p.target == 0 && !p.flags.getLsbD 1
      | 2 => code && inCode && !p.flags.getLsbD 1
      | 3 => p.target == 0 && if p.flags.getLsbD 1 then p.arg == 0 else isHandlerCode p.arg
      | _ => false
  | _ => false

/-- What a check of an image comes to. -/
inductive PatchCheck where
  | ok
  /-- The key hash, the signature or the version (25 R375 reason 5). -/
  | untrusted
  | malformed
  deriving DecidableEq, Repr

/-- The checks of 23 R361 on one die, in their order. -/
def checkPatch (d : Die) (pos : Nat) (im : PatchImage) : PatchCheck :=
  if sha256 im.key ≠ d.keyHash then .untrusted
  else if !ecdsaVerify im.key (sha256 im.signed) im.sig then .untrusted
  else if im.version.toNat < d.patchFloor.toNat then .untrusted
  else if d.stepping &&& im.stepMask ≠ im.stepping then .malformed
  else if im.dies / 2 ^ pos % 2 ≠ 1 then .malformed
  else if im.formOk && im.slots.all (slotLegal im) && im.micro.all (fun e => spliceLegal e.1 e.2)
      && im.codeOfs + im.code.length ≤ 2 ^ 20 then .ok
  else .malformed

/-! ### Loading (23 R361 to R363) -/

/-- The low 64 bits of a digest written with its highest byte first. -/
def digestLow (h : List Byte) : DWord := bytesDWord ((h.drop 24).take 8).reverse

/-- A die's image is replaced as a whole: slots, micro-store, code and digest. Where the code of the image before stood
there is the die firmware again, whose bytes are free values. -/
def loadPatch (s : State) (die : Nat) (im : PatchImage) : State :=
  let slots := (im.slots.map parsePatchSlot).take 32
  let base := fwBase + die * fwSize
  let old := (dieAt s die).bezel
  let s := modDie s die fun d =>
    { d with bezel := ⟨slots ++ List.replicate (32 - slots.length) PatchSlot.empty, im.micro, digestLow (sha256 im.body), im.version,
        im.codeOfs, im.code.length⟩ }
  let firmware := clearRange s.gddr (base + old.codeOfs) (base + old.codeOfs + old.codeLen) (16 + s.fresh)
  let s := { s with gddr := writeBytes firmware (base + im.codeOfs) im.code, fresh := s.fresh + 1 }
  { s with cores := s.cores.mapIdx fun i c =>
      if dieOfCore i == die then
        { c with
          icache := c.icache.filter fun l => l.part.isSome
          l1 := c.l1.filter fun l => l.ty != .dev || l.line * 64 < fwBase }
      else c }

end Sys2Proof.Machine
end

