-- ==== Sys2Proof/Machine/Manage.lean ====
section
/-! DEFINITION. The management mailbox and its commands (25 R375; 21 R331, R333, R337, R338, R343, R346; 23 R361, R362;
25 R381, R384). -/

namespace Sys2Proof.Machine

/-! ### The mailbox (25 R375) -/

/-- What a command comes to: it completes, it is refused for a reason, or it stays busy. -/
inductive CmdResult where
  | done (s : State)
  | refused (reason : Nat)
  | busy (s : State)

/-- Codes that a virtual function may issue. -/
def vfCommand (code : Nat) : Bool := (3 ≤ code && code ≤ 7) || code == 0x0D

/-- The partition a command names. -/
def commandPart (fn : Nat) (a : MArgs) : Nat := if fn = 0 then a.m3.toNat % 16 else fn - 1

/-- A write of MARG0 to MARG3 and then MCMD. A write reaches nothing while the link is down or the function refuses
everything, and is ignored while MSTATUS is 1; a package whose boot stopped accepts FLASH_WRITE alone (25 R383). -/
def command (code fn : Nat) (a : MArgs) (s : State) (run : State → CmdResult) : State :=
  if !s.powered || !s.linkUp || 16 < fn || (fn != 0 && (findPart s (fn - 1)).isNone) then s
  else if (s.funcs.getD fn Func.reset).status = 1 then s
  else
    let s := modFunc s fn fun f => { f with marg := [a.m0, a.m1, a.m2, a.m3], mcmd := BitVec.ofNat 8 code, status := 1 }
    if !s.booted && code != 0x0C then completeCommand s fn (refusedFor 4)
    else if fn != 0 && !vfCommand code then completeCommand s fn (refusedFor 6)
    else
      match run s with
      | .done s => completeCommand s fn succeeded
      | .refused r => completeCommand s fn (refusedFor r)
      | .busy s => s

/-- A command on an existing partition. -/
def onPart (fn : Nat) (a : MArgs) (s : State) (f : Partition → CmdResult) : CmdResult :=
  match findPart s (commandPart fn a) with
  | some p => f p
  | none => .refused 2

/-! ### CREATE and DESTROY -/

/-- The cores of a shape (01 R31; 25 R375). -/
def shapeCores (m : DWord) : Option (List Nat) :=
  if m.getLsbD 63 then
    let f (lo n : Nat) : Nat := m.toNat / 2 ^ lo % 2 ^ n
    let x := f 8 3
    let y := f 12 3
    let w := f 16 4
    let h := f 20 4
    if m &&& ~~~0x8000000000FF7703 = 0 ∧ x % 2 = 0 ∧ y % 2 = 0 ∧ w % 2 = 0 ∧ h % 2 = 0 ∧ w ≠ 0 ∧ h ≠ 0 ∧ x + w ≤ 8 ∧ y + h ≤ 8 then
      some (rectCores (f 0 2) x y w h)
    else none
  else if m = 0 ∨ 16 ≤ m.toNat then none
  else some (((List.range 4).filter fun d => m.getLsbD d).flatMap fun d => (List.range 64).map (64 * d + ·))

def splitOk (m : DWord) : Bool :=
  let u (k : Nat) : Nat := m.toNat / 16 ^ k % 16
  m.toNat < 4096 && u 0 != 0 && u 1 != 0 && u 2 != 0 && u 0 + u 1 + u 2 == 16

def coresFree (s : State) (cores : List Nat) : Bool := s.parts.all fun p => p.cores.all fun c => !cores.contains c

/-- The Partition CSRs of a new partition (19 R320, 21 R336). -/
def PartCsrs.fresh : PartCsrs where
  swapThr := 20000
  regTo := 64
  rasThr := 0x42800000
  tLimit := 1520
  prngSeed := 1
  prngState := 1
  predl1 := 38000
  predl2 := 95000
  recTo := 256
  recQw := 1
  recMw := 0
  entTab := 0
  entCount := 0
  tCouple := 0x0100004000800200

def emptyRegion : Region := ⟨0, 0, 0, 0, 0, 0, List.replicate 12 0⟩

/-- A partition as CREATE leaves it (25 R374, R385; 19 R292). -/
def newPartition (idx : Nat) (shape : DWord) (split : BitVec 12) (cores : List Nat) : Partition where
  idx := idx
  shape := shape
  split := split
  cores := cores
  state := .running
  ptroot := 0
  trapVec := 0xFFFFFFFF
  evbase := 0
  even := false
  evlog2n := 0
  evtail := 0
  evhead := 0
  evselc := 0
  evseld0 := 0
  evseld1 := 0
  privPool := 0
  privSize := 0
  csrs := PartCsrs.fresh
  queues := List.replicate 64 ⟨0, 0, 0, 0, 0⟩
  taken := none
  launchWait := none
  graph := none
  regions := List.replicate 64 emptyRegion
  privAllocs := []
  faults := []
  shoots := []
  preempt := none
  preemptFn := none
  halting := false
  evicted := none

/-- The mailbox of a function as it is before any command. -/
def clearMailbox (s : State) (fn : Nat) : State := modFunc s fn fun f => { Func.reset with queue := f.queue }

/-- A new partition's cores: counters 0 (25 R390), no comparator enabled, nothing published. -/
def startCores (s : State) (cores : List Nat) (whole : Bool) : State :=
  { s with
    cores := s.cores.mapIdx fun i c =>
      if cores.contains i then { c with sig := 0, owed := 0, dbg := Debug.reset, counters := List.replicate 8 0 } else c
    dies := s.dies.mapIdx fun i d => if whole && cores.contains (64 * i) then { d with counters := List.replicate 16 0 } else d }

def createPart (a : MArgs) (s : State) : CmdResult :=
  let idx := a.m3.toNat % 16
  match shapeCores a.m0 with
  | none => .refused 1
  | some cores =>
    if !splitOk a.m1 then .refused 1
    else if (findPart s idx).isSome then .refused 2
    else if !coresFree s cores then .refused 3
    else
      let s := startCores (clearMailbox s (idx + 1)) cores (wholeDies a.m0)
      .done { s with parts := s.parts ++ [newPartition idx a.m0 (a.m1.extractLsb' 0 12) cores] }

def execCreate (fn : Nat) (a : MArgs) (s : State) : Result := .next (command 0x01 fn a s (createPart a))

/-- Every copy that the caches of some cores and their quads hold goes back to its home and leaves. -/
def flushCores (s : State) (cores : List Nat) : State :=
  let s := cores.foldl (fun s c => (coreAt s c).l1.foldl (fun s l => evictLine s c l) s) s
  ((cores.map quadOfCore).eraseDups).foldl (fun s q => (quadAt s q).slice.foldl (fun s l => evictSliceLine s q l) s) s

/-- Translations and fetch lines of a partition leave. -/
def forgetPart (s : State) (part : Nat) : State :=
  { s with
    cores := s.cores.map fun c =>
      { c with tlb := c.tlb.filter (·.part != part), icache := c.icache.filter (·.part != some part) }
    dies := s.dies.map fun d => { d with l2tlb := d.l2tlb.filter (·.part != part), missQ := d.missQ.filter (·.part != part) } }

/-- An active graph: that of a halted partition stands in its image. -/
def graphActive (p : Partition) : Bool := p.graph.isSome && p.state != .halted

def residentTeam (s : State) (part : Nat) : Bool :=
  s.teams.any fun t => t.part == part && t.place == .resident && !t.ended

def destroyPart (s : State) (p : Partition) : CmdResult :=
  if pstateCode p == 2 || graphActive p || residentTeam s p.idx then .refused 4
  else
    let s := forgetPart (flushCores (wipePartition s p.idx) p.cores) p.idx
    .done (clearMailbox { s with parts := s.parts.filter (·.idx != p.idx) } (p.idx + 1))

def execDestroy (fn : Nat) (a : MArgs) (s : State) : Result :=
  .next (command 0x02 fn a s fun s => onPart fn a s (destroyPart s))

/-! ### PREEMPT and RESUME -/

def execPreempt (fn : Nat) (a : MArgs) (s : State) : Result :=
  .next (command 0x03 fn a s fun s => onPart fn a s fun p =>
    if p.state != .running then .refused 4 else .busy (requestPreempt s p.idx fn))

/-- RESUME: refused unless PSTATE is 3, and while the partition's contents stand in GDDR. -/
def execResume (fn : Nat) (a : MArgs) (s : State) : Result :=
  .next (command 0x04 fn a s fun s => onPart fn a s fun p =>
    if pstateCode p != 3 || p.evicted.isSome then .refused 4 else .done (resumePartition s p.idx))

/-! ### SHOOTDOWN (21 R343, R344) -/

def va57 (x : DWord) : Nat := (x.extractLsb' 0 57).toNat

/-- A 4 KiB page, or a fetch line, overlaps a range. -/
def inRange (lo n base len : Nat) : Bool := lo < base + len && base < lo + n

/-- Every core and L2 TLB of the partition acknowledges: translations of the range leave, and its instruction-cache
lines are marked. -/
def shootRange (s : State) (part base len : Nat) : State :=
  let stale (e : TlbEntry) : Bool := e.part == part && inRange (e.page * 4096) 4096 base len
  { s with
    cores := s.cores.map fun c =>
      { c with
        tlb := c.tlb.filter fun e => !stale e
        icache := c.icache.map fun l =>
          if l.part == some part && inRange (l.va % 2 ^ 57) 64 base len then { l with retranslate := true } else l }
    dies := s.dies.map fun d => { d with l2tlb := d.l2tlb.filter fun e => !stale e } }

/-- The places of an operation, with the bytes at each, translated when it was issued. -/
def placesOf (k : OpKind) : List (Loc × Nat) :=
  match k with
  | .sample _ _ _ _ _ _ _ lanes _ => lanes.flatMap fun x => x.levels.flatMap fun l => l.taps.flatMap (·.pieces)
  | .test _ _ lanes _ => lanes.flatMap (·.pieces)
  | .invalidate locs _ | .writeBack locs _ => locs.map fun l => (l, 64)
  | k => (touched k).1

/-- Operations of a partition still to be performed that hold a translation of a range. -/
def holdsRange (s : State) (part base len : Nat) : List Nat :=
  (s.ops.filter fun o => o.part == part && !performed o && (placesOf o.kind).any fun x =>
    match x.1 with | .page _ _ va => inRange va x.2 base len | _ => false).map (·.id)

/-- SHOOTDOWN: it completes at once, or when the accesses in flight that hold a translation of its range are performed: a
core acknowledges no sooner (log entry 123). -/
def execShootdown (fn : Nat) (a : MArgs) (s : State) : Result :=
  .next (command 0x05 fn a s fun s => onPart fn a s fun p =>
    let base := va57 a.m0
    let len := a.m1.toNat
    let s := shootRange s p.idx base len
    match holdsRange s p.idx base len with
    | [] => .done s
    | ids => .busy (modPart s p.idx fun p => { p with shoots := p.shoots ++ [⟨fn, base, len, ids⟩] }))

/-- The shootdowns of a partition for which nothing waits any longer complete. -/
def acknowledge (s : State) (part : Nat) : State :=
  match findPart s part with
  | none => s
  | some p =>
    let done (x : Shoot) : Bool := x.ops.all fun id => match findOp s id with | some o => performed o | none => true
    (p.shoots.filter done).foldl (fun s x => completeCommand s x.fn succeeded)
      (putPart s { p with shoots := p.shoots.filter fun x => !done x })

/-! ### FAULT_ANSWER (21 R331) -/

/-- A wait of an engine or of the launch unit on a page. -/
def waitsOn (w : Option PageWait) (page : Nat) : Bool := match w with | some (.host va) => pageOf va == page | _ => false

/-- A lane set parked on an answered page, whatever other pages its lanes missed, is awake and replays (21 R331). -/
def clearPage (page : Nat) (p : Park) : Park :=
  match p with
  | .host pages _ => if pages.contains page then .none else p
  | p => p

def clearCtlPage (page : Nat) (p : CtlPark) : CtlPark :=
  match p with
  | .host pages _ => if pages.contains page then .none else p
  | p => p

def teamIn (s : State) (part team : Nat) : Bool := match findTeam s team with | some t => t.part == part | none => false

/-- The page is resolved: what waits for it replays. -/
def resolveFault (s : State) (part page : Nat) : State :=
  let mine (team : Nat) : Bool := teamIn s part team
  let clear (w : Option PageWait) : Option PageWait := if waitsOn w page then none else w
  { s with
    groups := s.groups.map fun g =>
      if mine g.team then { g with lanes := g.lanes.map fun l => { l with park := clearPage page l.park } } else g
    threads := s.threads.map fun t => if t.part == part then { t with park := clearCtlPage page t.park } else t
    quads := s.quads.map fun q =>
      { q with
        table := q.table.map fun e => if mine e.team then { e with waits := clear e.waits } else e
        rays := q.rays.map fun r => if r.part == part then { r with waits := clear r.waits } else r
        batches := q.batches.map fun b => if b.part == part then { b with waits := clear b.waits } else b }
    parts := s.parts.map fun p =>
      if p.idx == part then
        { p with launchWait := match p.launchWait with
            | some (w, u) => if waitsOn (some w) page then none else some (w, u)
            | none => none }
      else p }

/-- The lane sets of a group that wait for a page, each with its trap. -/
def waitingSets (g : Group) (page : Nat) : List TrapReq :=
  let reqs := ((List.range g.w).filterMap fun i =>
    match (laneAt g i).exited, (laneAt g i).park with
    | false, .host pages r => if pages.contains page then some r else none
    | _, _ => none).eraseDups
  reqs.map fun r =>
    { r with lanes := laneSet ((List.range g.w).filter fun i =>
        !(laneAt g i).exited && match (laneAt g i).park with
          | .host pages r' => pages.contains page && r' == r
          | _ => false) }

/-- A group of a team that is swapped out or saved: an answer reaches none of its lanes, which replay (21 R332). -/
def isOut (s : State) (g : Group) : Bool := match teamOf s g with | some t => t.place != .resident | none => false

/-- A rejected page: the lane sets of a group take their trap into the handler. -/
def rejectGroup (page part : Nat) (s : State) (gid : Nat) : State :=
  match findGroup s gid with
  | none => s
  | some g =>
    if isOut s g then putGroup s { g with lanes := g.lanes.map fun l => { l with park := clearPage page l.park } }
    else
      (waitingSets g page).foldl (fun s r =>
        match findGroup s gid with
        | some g => deliverHandler s g part r
        | none => s) s

def rejectThread (page : Nat) (s : State) (team : Nat) : State :=
  match findThread s team with
  | some t =>
    match t.park with
    | .host pages r => if pages.contains page then deliverThreadHandler s t r else s
    | _ => s
  | none => s

/-- What waits for a page in one quad's engines ends with a fault there (17 R270, R277, R284). -/
def rejectQuad (part page : Nat) (s : State) (quad : Nat) : State :=
  let q := quadAt s quad
  let ea (w : Option PageWait) : DWord := match w with | some (.host va) => canonicalVa va | _ => 0
  let es := q.table.filter fun e => teamIn s part e.team && waitsOn e.waits page
  let rs := q.rays.filter fun r => r.part == part && waitsOn r.waits page
  let bs := q.batches.filter fun b => b.part == part && waitsOn b.waits page
  let s := es.foldl (fun s e => faultEntry s quad e causeNotPresent (ea e.waits)) s
  let s := rs.foldl (fun s r => failRay s quad r causeNotPresent (ea r.waits)) s
  bs.foldl (fun s b => stopBatch s quad b causeNotPresent (ea b.waits)) s

/-- A read of the launch unit that ends with a fault (19 R396). -/
def failLaunchRead (s : State) (p : Partition) (u : LaunchUse) (c : Cause) (ea : DWord) : State :=
  let pay := [c.zeroExtend 64, ea]
  match u with
  | .packet =>
    match p.taken with
    | some t => rejectPacket s p t pay
    | none => s
  | .child team =>
    match (findTeam s team).map Team.pendLaunch with
    | some (e :: _) => rejectChild s p team e pay
    | _ => s
  | .record id =>
    match findOp s id with
    | some o =>
      match o.kind with
      | .emit (_ :: rest) => popRecord (launchRecord s p 0x400 pay) o rest
      | _ => s
    | none => s
  | .candidate quad slot =>
    match findRay s quad slot with
    | some r => failRay s quad r c ea
    | none => s

def rejectLaunch (s : State) (part page : Nat) : State :=
  match findPart s part with
  | none => s
  | some p =>
    match p.launchWait with
    | some (.host va, u) =>
      if pageOf va == page then
        let p := { p with launchWait := none }
        failLaunchRead (putPart s p) p u causeNotPresent (canonicalVa va)
      else s
    | _ => s

def rejectFault (s : State) (part page : Nat) : State :=
  let groups := (s.groups.filter fun g => teamIn s part g.team).map (·.id)
  let threads := (s.threads.filter (·.part == part)).map (·.team)
  let s := groups.foldl (rejectGroup page part) s
  let s := threads.foldl (rejectThread page) s
  let s := (List.range 64).foldl (rejectQuad part page) s
  rejectLaunch s part page

def answerFault (a : MArgs) (s : State) (p : Partition) : State :=
  let page := pageOf (va57 a.m0)
  let s := putPart s { p with faults := p.faults.filter (· != page) }
  if a.m1.getLsbD 0 then rejectFault s p.idx page else resolveFault s p.idx page

def execFaultAnswer (fn : Nat) (a : MArgs) (s : State) : Result :=
  .next (command 0x06 fn a s fun s => onPart fn a s fun p => .done (answerFault a s p))

/-! ### DEBUG_RESUME (21 R346) -/

/-- Lanes halted by a debug match. -/
def haltedLanes (g : Group) : DWord :=
  laneSet ((List.range g.w).filter fun i => !(laneAt g i).exited && (laneAt g i).park == .debug)

def debugResume (a : MArgs) (s : State) (p : Partition) : CmdResult :=
  match findGroup s a.m0.toNat with
  | none => .refused 1
  | some g =>
    let m := haltedLanes g
    if m = 0 ∨ !teamIn s p.idx g.team then .refused 1
    else .done (putGroup s { parkLanes g m .none with resumed := g.resumed ||| m })

def execDebugResume (fn : Nat) (a : MArgs) (s : State) : Result :=
  .next (command 0x07 fn a s fun s => onPart fn a s (debugResume a s))

/-! ### PATCH_LOAD (23 R361, R362) -/

/-- Something of a partition on a die forbids a load. -/
def loadBlocked (s : State) (die : Nat) : Bool :=
  let here (p : Partition) : Bool := p.cores.any fun c => dieOfCore c == die
  (s.parts.any fun p => here p &&
    (residentTeam s p.idx || graphActive p || s.threads.any fun h => h.part == p.idx && !threadSaved h))
  || ((List.range 16).any fun i =>
      let q := quadAt s (16 * die + i)
      !(q.table.isEmpty && q.rays.isEmpty && q.batches.isEmpty))
  || (s.ops.any fun o => dieOfCore o.core == die && o.queue.isSome && !o.done)
  || (s.groups.any fun g => dieOfCore g.core == die && g.emu)
  || s.threads.any fun t => dieOfQuad t.quad == die && t.emu

/-- An image for every die it names, or for none. -/
def loadImage (s : State) (im : PatchImage) : CmdResult :=
  let dies := (List.range 4).filter fun d => im.dies / 2 ^ d % 2 == 1
  let checks := dies.map fun d => checkPatch (dieAt s d) d im
  if dies.any (loadBlocked s) then .refused 4
  else if checks.contains .untrusted then .refused 5
  else if dies.isEmpty || checks.contains .malformed then .refused 1
  else .done (dies.foldl (fun s d => loadPatch s d im) s)

def execPatchLoad (fn : Nat) (a : MArgs) (s : State) : Result :=
  .next (command 0x08 fn a s fun s =>
    match parsePatch (readBytes s.hostMem a.m0.toNat a.m1.toNat) with
    | some im => loadImage s im
    | none => .refused 1)

/-! ### RAISE_FLOOR -/

/-- A die whose active image, if it has one, and whose fused floors let both floors rise. -/
def floorOk (a : MArgs) (d : Die) : Bool :=
  d.patchFloor.toNat ≤ a.m0.toNat && d.fwFloor.toNat ≤ a.m1.toNat
  && (d.bezel == Bezel.reset || a.m0.toNat ≤ d.bezel.version.toNat)

def execRaiseFloor (fn : Nat) (a : MArgs) (s : State) : Result :=
  .next (command 0x09 fn a s fun s =>
    if s.dies.all (floorOk a) && a.m1.toNat ≤ s.fwVersion.toNat then
      .done { s with dies := s.dies.map fun d => { d with patchFloor := a.m0, fwFloor := a.m1 } }
    else .refused 5)

/-! ### EVICT and RELOAD (21 R337) -/

/-- EVICT: the stacked memory and the image of a halted partition move to GDDR, whose range then holds bytes in no
architected layout; the cores are free for another partition. -/
def evictPart (a : MArgs) (s : State) (p : Partition) : CmdResult :=
  let lo := a.m0.toNat
  let hi := lo + p.cores.length * 4 * 2 ^ 20
  if pstateCode p != 3 || p.evicted.isSome || !allSaved s p.idx then .refused 4
  else if fwBase < hi then .refused 1
  else
    let s := forgetPart (flushCores s p.cores) p.idx
    let s := { s with gddr := clearRange s.gddr lo hi (16 + s.fresh), fresh := s.fresh + 1 }
    .done (putPart s { p with cores := [], evicted := some lo })

def execEvict (fn : Nat) (a : MArgs) (s : State) : Result :=
  .next (command 0x0A fn a s fun s => onPart fn a s (evictPart a s))

/-- RELOAD: the partition returns to the cores of its shape. -/
def reloadPart (a : MArgs) (s : State) (p : Partition) : CmdResult :=
  match p.evicted, shapeCores p.shape with
  | some lo, some cores =>
    if a.m0.toNat ≠ lo then .refused 1
    else if !coresFree s cores then .refused 4
    else .done (putPart (startCores s cores (wholeDies p.shape)) { p with cores := cores, evicted := none })
  | _, _ => .refused 4

def execReload (fn : Nat) (a : MArgs) (s : State) : Result :=
  .next (command 0x0B fn a s fun s => onPart fn a s (reloadPart a s))

/-! ### FLASH_WRITE and ATTEST (25 R383, R384) -/

def execFlashWrite (fn : Nat) (a : MArgs) (s : State) : Result :=
  .next (command 0x0C fn a s fun s =>
    .done { s with flash := writeBytes s.flash 0 (readBytes s.hostMem a.m0.toNat a.m1.toNat) })

def nonceOf (a : MArgs) : List Byte := [a.m0, a.m1, a.m2, a.m3].flatMap fun x => natBytes 8 x.toNat

/-- A die report: what 25 R384 lists, in its order, then the die's signature and certificate. -/
def dieReport (s : State) (pos : Nat) (nonce : List Byte) : List Byte :=
  let d := dieAt s pos
  let body := natBytes 1 d.dieid.toNat ++ natBytes 2 d.stepping.toNat ++ s.fwHash ++ natBytes 8 d.bezel.digest.toNat
    ++ natBytes 8 d.patchFloor.toNat ++ natBytes 8 d.fwFloor.toNat ++ nonce
  body ++ dieSign pos body ++ Config.certificate pos

/-- The package master: the die with the lowest identifier (25 R380). -/
def masterDie (s : State) : Nat :=
  (List.range 4).foldl (fun b d => if (dieAt s d).dieid.toNat < (dieAt s b).dieid.toNat then d else b) 0

def attestReport (s : State) (a : MArgs) : List Byte :=
  let body := (List.range 4).flatMap fun d => dieReport s d (nonceOf a)
  body ++ dieSign (masterDie s) body

/-- The contents of the SPDM 1.2 MEASUREMENTS response through the DOE mailbox: the package report over the requester's
nonce (25 R384). The message around it is SPDM's own. -/
def spdmMeasurements (s : State) (a : MArgs) : List Byte := attestReport s a

def execAttest (fn : Nat) (a : MArgs) (s : State) : Result :=
  .next (command 0x0D fn a s fun s =>
    let r := spdmMeasurements s a
    .done (modFunc s fn fun f => { f with data := r, marg := f.marg.set 0 (BitVec.ofNat 64 r.length) }))

end Sys2Proof.Machine
end

