-- ==== Sys2Proof/Machine/Zstd.lean ====
section
/-! DEFINITION. The Zstandard decoder of the streaming engines (RFC 8878): one frame, a window of at most 64 KiB, no
dictionary, and the content checksum where the frame has one (01 R10, 17 R276; PRESUMED, log entry 127). -/

namespace Sys2Proof.Machine

/-! ### A bit stream that is read from its end -/

/-- `left` unread bits of `x`, the next one the highest; `beyond` counts bits read beyond the first, which read as zero. -/
structure BackBits where
  x : Nat
  left : Nat
  beyond : Nat
  deriving DecidableEq, Repr

/-- The stream of bytes: the highest set bit of the last byte marks the end. -/
def backBits (b : List Byte) : Option BackBits :=
  let x := bytesNat b
  let n := bitLen x
  if b.isEmpty || n + 8 ≤ 8 * b.length then none else some ⟨x, n - 1, 0⟩

/-- The next `n` bits, not taken. -/
def peekBack (s : BackBits) (n : Nat) : Nat :=
  if n ≤ s.left then bitsField s.x (s.left - n) n else bitsField s.x 0 s.left * 2 ^ (n - s.left)

def dropBack (s : BackBits) (n : Nat) : BackBits := { s with left := s.left - n, beyond := s.beyond + (n - s.left) }

/-- All bits are read, none beyond them. -/
def backDone (s : BackBits) : Bool := s.left == 0 && s.beyond == 0

/-! ### Finite state entropy tables -/

/-- A decoding entry: the symbol, the bits it reads, the state they are added to. -/
structure FseCell where
  sym : Nat
  bits : Nat
  base : Nat
  deriving DecidableEq, Repr

/-- A table of 2^log entries. -/
structure FseTable where
  log : Nat
  cells : Array FseCell

/-- The probabilities that a table description gives, from bit `pos`: each below 2^log in sum, -1 written as 0 with a
mark; symbols after a zero by repeat codes. -/
def fseProbs (x : Nat) (maxSym : Nat) : Nat → Nat → Nat → Bool → List Int → Option (List Int × Nat)
  | 0, _, _, _, _ => none
  | fuel + 1, pos, remaining, zeros, acc =>
    if zeros then
      let r := bitsField x pos 2
      fseProbs x maxSym fuel (pos + 2) remaining (r == 3) (acc ++ List.replicate r 0)
    else if remaining = 0 then if acc.length ≤ maxSym + 1 then some (acc, pos) else none
    else if maxSym + 1 ≤ acc.length then none
    else
      let bits := bitLen (remaining + 1)
      let v := bitsField x pos bits
      let low := v % 2 ^ (bits - 1)
      let threshold := 2 ^ bits - 1 - (remaining + 1)
      let short := low < threshold
      let v := if short then low else if 2 ^ (bits - 1) ≤ v then v - threshold else v
      let used := if v = 0 then 1 else v - 1
      if remaining < used then none
      else fseProbs x maxSym fuel (pos + (if short then bits - 1 else bits)) (remaining - used) (v == 1) (acc ++ [(v : Int) - 1])

/-- The places of `n` cells of one symbol from place `pos`, below `high`; each place skips those at and above `high`. -/
def fseSpread (size high step sym : Nat) : Nat → Nat → Nat → Array Nat → Array Nat × Nat
  | 0, _, pos, t => (t, pos)
  | _, 0, pos, t => (t, pos)
  | fuel + 1, n + 1, pos, t =>
    let next := (pos + step) % size
    if high ≤ pos then fseSpread size high step sym fuel (n + 1) next t
    else fseSpread size high step sym fuel n next (t.set! pos sym)

/-- The table of a distribution of accuracy `log`. -/
def fseTable (log : Nat) (probs : List Int) : FseTable :=
  let size := 2 ^ log
  let syms := List.range probs.length
  let at' (i : Nat) : Int := probs.getD i 0
  let lows := syms.filter fun i => at' i == -1
  let high := size - lows.length
  let t0 := (lows.zip (List.range lows.length)).foldl (fun t x => t.set! (size - 1 - x.2) x.1) (Array.replicate size 0)
  let step := size / 2 + size / 8 + 3
  let t := (syms.foldl (fun (r : Array Nat × Nat) i =>
    let n := (at' i).toNat
    if n = 0 then r else fseSpread size high step i (2 * size) n r.2 r.1) (t0, 0)).1
  let r := (List.range size).foldl (fun (r : Array FseCell × Array Nat) i =>
    let sym := t[i]!
    let next := r.2[sym]!
    let bits := log - (bitLen next - 1)
    (r.1.push ⟨sym, bits, next * 2 ^ bits - size⟩, r.2.set! sym (next + 1)))
    (#[], (syms.map fun i => if at' i == -1 then 1 else (at' i).toNat).toArray)
  ⟨log, r.1⟩

/-- A table of one symbol that reads no bits. -/
def fseConstant (sym : Nat) : FseTable := ⟨0, #[⟨sym, 0, 0⟩]⟩

def fseCell (t : FseTable) (state : Nat) : FseCell := t.cells.getD state ⟨0, 0, 0⟩

/-- A table description at the start of bytes: the table and the bytes it takes. -/
def readFse (b : List Byte) (maxLog maxSym : Nat) : Option (FseTable × Nat) :=
  let x := bytesNat (b.take 256)
  let log := bitsField x 0 4 + 5
  if b.isEmpty || maxLog < log then none
  else
    match fseProbs x maxSym (4 * (maxSym + 2)) 4 (2 ^ log) false [] with
    | none => none
    | some (p, pos) => let n := (pos + 7) / 8; if b.length < n then none else some (fseTable log p, n)

/-! ### Huffman tables and literals -/

/-- The weights that two interleaved states give. -/
def fseWeights (t : FseTable) : Nat → Nat → Nat → BackBits → List Nat → Option (List Nat)
  | 0, _, _, _, _ => none
  | fuel + 1, s1, s2, b, acc =>
    let c := fseCell t s1
    let next := c.base + peekBack b c.bits
    let b := dropBack b c.bits
    let acc := acc ++ [c.sym]
    if 0 < b.beyond then some (acc ++ [(fseCell t s2).sym]) else fseWeights t fuel s2 next b acc

/-- A Huffman tree: the longest code, and at each value of that many bits the symbol and its code's length. -/
structure HufTable where
  log : Nat
  cells : Array (Nat × Nat)

/-- The tree of the given weights, the last one being what completes a power of two. -/
def hufTable (ws : List Nat) : Option HufTable :=
  let sum := (ws.map fun w => if w = 0 then 0 else 2 ^ (w - 1)).foldl (· + ·) 0
  let log := bitLen sum
  let rest := 2 ^ log - sum
  if sum = 0 || 11 < log || 256 ≤ ws.length || 2 ^ (bitLen rest - 1) ≠ rest then none
  else
    let ws := ws ++ [bitLen rest]
    let of (w : Nat) : List Nat := (List.range ws.length).filter fun i => ws.getD i 0 == w
    some ⟨log, ((List.range log).flatMap fun k =>
      (of (k + 1)).flatMap fun i => List.replicate (2 ^ k) (i, log - k)).toArray⟩

/-- A tree description: the tree and the bytes it takes. -/
def readHuf (b : List Byte) : Option (HufTable × Nat) :=
  match b with
  | [] => none
  | h :: r =>
    let n := h.toNat
    if n < 128 then
      if r.length < n then none
      else
        (readFse (r.take n) 6 255).bind fun (t, k) =>
        (backBits ((r.take n).drop k)).bind fun s =>
        let s1 := peekBack s t.log
        let s := dropBack s t.log
        let s2 := peekBack s t.log
        let s := dropBack s t.log
        if 0 < s.beyond then none
        else (fseWeights t 256 s1 s2 s []).bind fun ws => (hufTable ws).map fun h => (h, n + 1)
    else
      let count := n - 127
      let bytes := (count + 1) / 2
      if r.length < bytes then none
      else
        let w (i : Nat) : Nat := let x := (r.getD (i / 2) 0).toNat; if i % 2 = 0 then x / 16 else x % 16
        (hufTable ((List.range count).map w)).map fun h => (h, bytes + 1)

/-- `n` symbols of a stream, the newest first. -/
def hufSymbols (t : HufTable) : Nat → BackBits → List Byte → Option (List Byte)
  | 0, s, acc => if backDone s then some acc else none
  | n + 1, s, acc =>
    let c := t.cells.getD (peekBack s t.log) (0, 1)
    let s := dropBack s c.2
    if 0 < s.beyond then none else hufSymbols t n s (BitVec.ofNat 8 c.1 :: acc)

def hufStream (t : HufTable) (n : Nat) (b : List Byte) : Option (List Byte) :=
  (backBits b).bind fun s => (hufSymbols t n s []).map List.reverse

/-- Four streams with the lengths of the first three before them. -/
def hufFour (t : HufTable) (n : Nat) (b : List Byte) : Option (List Byte) :=
  let len (k : Nat) : Nat := bytesNat ((b.drop (2 * k)).take 2)
  let q := (n + 3) / 4
  let d := b.drop 6
  if b.length < 6 + len 0 + len 1 + len 2 || n < 3 * q then none
  else
    (hufStream t q (d.take (len 0))).bind fun a =>
    (hufStream t q ((d.drop (len 0)).take (len 1))).bind fun b' =>
    (hufStream t q ((d.drop (len 0 + len 1)).take (len 2))).bind fun c =>
    (hufStream t (n - 3 * q) (d.drop (len 0 + len 1 + len 2))).map fun e => a ++ b' ++ c ++ e

/-- What blocks of a frame hand on: the tables, the three offsets, and the content, the newest byte first. -/
structure ZState where
  huf : Option HufTable
  ll : Option FseTable
  off : Option FseTable
  ml : Option FseTable
  reps : Nat × Nat × Nat
  out : List Byte

/-- The literals of a block, the tree used, and the bytes taken. -/
def readLiterals (z : ZState) (b : List Byte) : Option (List Byte × Option HufTable × Nat) :=
  let x := bytesNat (b.take 5)
  let kind := bitsField x 0 2
  let fmt := bitsField x 2 2
  if kind < 2 then
    let head := if fmt % 2 = 0 then 1 else if fmt = 1 then 2 else 3
    let size := if fmt % 2 = 0 then bitsField x 3 5 else if fmt = 1 then bitsField x 4 12 else bitsField x 4 20
    let n := if kind = 0 then size else 1
    if b.length < head + n || 2 ^ 17 < size then none
    else
      let d := (b.drop head).take n
      some (if kind = 0 then d else List.replicate size (d.getD 0 0), z.huf, head + n)
  else
    let width := if fmt < 2 then 10 else if fmt = 2 then 14 else 18
    let head := if fmt < 2 then 3 else if fmt = 2 then 4 else 5
    let size := bitsField x 4 width
    let comp := bitsField x (4 + width) width
    if b.length < head + comp || 2 ^ 17 < size then none
    else
      let d := (b.drop head).take comp
      let tree := if kind = 2 then readHuf d else z.huf.map fun t => (t, 0)
      tree.bind fun (t, k) =>
        (if fmt = 0 then hufStream t size (d.drop k) else hufFour t size (d.drop k)).map fun l => (l, some t, head + comp)

/-! ### Sequences -/

def llDefault : FseTable :=
  fseTable 6 ([4, 3, 2, 2, 2, 2, 2, 2, 2, 2, 2, 2, 2, 1, 1, 1, 2, 2, 2, 2, 2, 2, 2, 2, 2, 3, 2, 1, 1, 1, 1, 1]
    ++ List.replicate 4 (-1))
def mlDefault : FseTable :=
  fseTable 6 ([1, 4, 3, 2, 2, 2, 2, 2, 2] ++ List.replicate 37 1 ++ List.replicate 7 (-1))
def offDefault : FseTable :=
  fseTable 5 ([1, 1, 1, 1, 1, 1, 2, 2, 2] ++ List.replicate 15 1 ++ List.replicate 5 (-1))

/-- The base and the further bits of a literal-length code. -/
def llCode (c : Nat) : Nat × Nat :=
  if c < 16 then (c, 0) else if c < 20 then (16 + 2 * (c - 16), 1) else if c < 22 then (24 + 4 * (c - 20), 2)
  else if c < 24 then (32 + 8 * (c - 22), 3) else if c = 24 then (48, 4) else (2 ^ (c - 19), c - 19)

/-- The base and the further bits of a match-length code. -/
def mlCode (c : Nat) : Nat × Nat :=
  if c < 32 then (c + 3, 0) else if c < 36 then (35 + 2 * (c - 32), 1) else if c < 38 then (43 + 4 * (c - 36), 2)
  else if c < 40 then (51 + 8 * (c - 38), 3) else if c < 42 then (67 + 16 * (c - 40), 4)
  else if c = 42 then (99, 5) else (2 ^ (c - 36) + 3, c - 36)

/-- One of a block's three tables, by its mode: predefined, one symbol, described, as before. -/
def readTable (mode : Nat) (dflt : FseTable) (prev : Option FseTable) (maxLog maxSym : Nat) (b : List Byte) :
    Option (FseTable × List Byte) :=
  match mode with
  | 0 => some (dflt, b)
  | 1 => if b.isEmpty || maxSym < (b.getD 0 0).toNat then none else some (fseConstant (b.getD 0 0).toNat, b.drop 1)
  | 2 => (readFse b maxLog maxSym).map fun (t, n) => (t, b.drop n)
  | _ => prev.map fun t => (t, b)

/-- The match offset of an offset value, and the three offsets after it. -/
def useOffset (reps : Nat × Nat × Nat) (v ll : Nat) : Nat × (Nat × Nat × Nat) :=
  let (a, b, c) := reps
  if 3 < v then (v - 3, (v - 3, a, b))
  else
    match v - 1 + (if ll = 0 then 1 else 0) with
    | 0 => (a, (a, b, c))
    | 1 => (b, (b, a, c))
    | 2 => (c, (c, a, b))
    | _ => (a - 1, (a - 1, a, b))

/-- A match of `n` bytes at an offset behind the content. -/
def copyMatch (out : List Byte) (off n : Nat) : List Byte :=
  let seg := (out.take off).reverse
  (((List.replicate (n / off + 1) seg).flatten).take n).reverse ++ out

/-- The limits of one block's decoding: the window and the largest block. -/
structure ZLimits where
  window : Nat
  block : Nat

/-- `n` sequences with the three states; each takes literals and then a match. -/
def runSequences (lim : ZLimits) (tl tf tm : FseTable) :
    Nat → Nat → Nat → Nat → BackBits → List Byte → ZState → Option (List Byte × ZState)
  | 0, _, _, _, s, lits, z => if backDone s then some (lits, z) else none
  | n + 1, sl, so, sm, s, lits, z =>
    let cl := fseCell tl sl
    let co := fseCell tf so
    let cm := fseCell tm sm
    let ov := 2 ^ co.sym + peekBack s co.sym
    let s := dropBack s co.sym
    let m := mlCode cm.sym
    let ml := m.1 + peekBack s m.2
    let s := dropBack s m.2
    let l := llCode cl.sym
    let ll := l.1 + peekBack s l.2
    let s := dropBack s l.2
    let (off, reps) := useOffset z.reps ov ll
    let out := (lits.take ll).reverse ++ z.out
    if 0 < s.beyond || lits.length < ll || off = 0 || lim.window < off || out.length < off || lim.block < ml then none
    else
      let z := { z with reps := reps, out := copyMatch out off ml }
      if n = 0 then runSequences lim tl tf tm 0 0 0 0 s (lits.drop ll) z
      else
        let sl := cl.base + peekBack s cl.bits
        let s := dropBack s cl.bits
        let sm := cm.base + peekBack s cm.bits
        let s := dropBack s cm.bits
        let so := co.base + peekBack s co.bits
        let s := dropBack s co.bits
        if 0 < s.beyond then none else runSequences lim tl tf tm n sl so sm s (lits.drop ll) z

/-- The count of sequences and the bytes after it. -/
def sequenceCount (b : List Byte) : Option (Nat × List Byte) :=
  let at' (i : Nat) : Nat := (b.getD i 0).toNat
  if b.isEmpty then none
  else if at' 0 < 128 then some (at' 0, b.drop 1)
  else if at' 0 < 255 then if b.length < 2 then none else some ((at' 0 - 128) * 256 + at' 1, b.drop 2)
  else if b.length < 3 then none else some (at' 1 + at' 2 * 256 + 0x7F00, b.drop 3)

/-- A compressed block. -/
def compressedBlock (lim : ZLimits) (z : ZState) (b : List Byte) : Option ZState :=
  (readLiterals z b).bind fun (lits, huf, n) =>
  let z := { z with huf := huf }
  (sequenceCount (b.drop n)).bind fun (count, b) =>
  if count = 0 then if b.isEmpty then some { z with out := lits.reverse ++ z.out } else none
  else
    let modes := (b.getD 0 0).toNat
    if b.isEmpty || modes % 4 ≠ 0 then none
    else
      (readTable (modes / 64) llDefault z.ll 9 35 (b.drop 1)).bind fun (tl, b) =>
      (readTable (modes / 16 % 4) offDefault z.off 8 31 b).bind fun (tf, b) =>
      (readTable (modes / 4 % 4) mlDefault z.ml 9 52 b).bind fun (tm, b) =>
      (backBits b).bind fun s =>
      let sl := peekBack s tl.log
      let s := dropBack s tl.log
      let so := peekBack s tf.log
      let s := dropBack s tf.log
      let sm := peekBack s tm.log
      let s := dropBack s tm.log
      if 0 < s.beyond then none
      else
        (runSequences lim tl tf tm count sl so sm s lits { z with ll := some tl, off := some tf, ml := some tm }).map
          fun (rest, z) => { z with out := rest.reverse ++ z.out }

/-- The blocks of a frame, at most `fuel` of them, and the bytes after the last. -/
def readBlocks (lim : ZLimits) : Nat → ZState → List Byte → Option (ZState × List Byte)
  | 0, _, _ => none
  | fuel + 1, z, b =>
    let x := bytesNat (b.take 3)
    let size := x / 8
    let kind := bitsField x 1 2
    let n := if kind = 1 then 1 else size
    let d := (b.drop 3).take n
    if b.length < 3 + n || lim.block < size then none
    else
      let next : Option ZState :=
        match kind with
        | 0 => some { z with out := d.reverse ++ z.out }
        | 1 => some { z with out := List.replicate size (d.getD 0 0) ++ z.out }
        | 2 => compressedBlock lim z d
        | _ => none
      next.bind fun z' =>
        if z.out.length + lim.block < z'.out.length || 65536 < z'.out.length then none
        else if x % 2 = 1 then some (z', b.drop (3 + n)) else readBlocks lim fuel z' (b.drop (3 + n))

/-! ### XXH64 -/

def xxP1 : DWord := 0x9E3779B185EBCA87
def xxP2 : DWord := 0xC2B2AE3D27D4EB4F
def xxP3 : DWord := 0x165667B19E3779F9
def xxP4 : DWord := 0x85EBCA77C2B2AE63
def xxP5 : DWord := 0x27D4EB2F165667C5

def xxRound (acc x : DWord) : DWord := (acc + x * xxP2).rotateLeft 31 * xxP1
def xxMerge (acc v : DWord) : DWord := (acc ^^^ xxRound 0 v) * xxP1 + xxP4

/-- The stripes of 32 bytes. -/
def xxStripes : Nat → List Byte → DWord × DWord × DWord × DWord → DWord × DWord × DWord × DWord
  | 0, _, v => v
  | n + 1, b, (v1, v2, v3, v4) =>
    let w (k : Nat) : DWord := bytesDWord ((b.drop (8 * k)).take 8)
    xxStripes n (b.drop 32) (xxRound v1 (w 0), xxRound v2 (w 1), xxRound v3 (w 2), xxRound v4 (w 3))

/-- The bytes after the stripes: by eight, by four, by one. -/
def xxTail : Nat → List Byte → DWord → DWord
  | 0, _, h => h
  | n + 1, b, h =>
    if 8 ≤ b.length then
      xxTail n (b.drop 8) ((h ^^^ xxRound 0 (bytesDWord (b.take 8))).rotateLeft 27 * xxP1 + xxP4)
    else if 4 ≤ b.length then
      xxTail n (b.drop 4) ((h ^^^ (bytesDWord (b.take 4) * xxP1)).rotateLeft 23 * xxP2 + xxP3)
    else
      match b with
      | [] => h
      | x :: r => xxTail n r ((h ^^^ (x.setWidth 64 * xxP5)).rotateLeft 11 * xxP1)

/-- XXH64 with seed 0. -/
def xxh64 (b : List Byte) : DWord :=
  let n := b.length
  let h : DWord :=
    if n < 32 then xxP5
    else
      let (v1, v2, v3, v4) := xxStripes (n / 32) b (xxP1 + xxP2, xxP2, 0, 0 - xxP1)
      let h := v1.rotateLeft 1 + v2.rotateLeft 7 + v3.rotateLeft 12 + v4.rotateLeft 18
      xxMerge (xxMerge (xxMerge (xxMerge h v1) v2) v3) v4
  let h := xxTail 16 (b.drop (n / 32 * 32)) (h + BitVec.ofNat 64 n)
  let h := (h ^^^ (h >>> 33)) * xxP2
  let h := (h ^^^ (h >>> 29)) * xxP3
  h ^^^ (h >>> 32)

/-! ### The frame -/

/-- A frame header: the window, the content size if it is named, the checksum flag, the bytes it takes. -/
structure ZHeader where
  window : Nat
  size : Option Nat
  check : Bool
  len : Nat
  deriving DecidableEq, Repr

/-- The header, where the frame needs no dictionary and no window above 64 KiB. -/
def frameHeader (b : List Byte) : Option ZHeader :=
  let d := (b.getD 4 0).toNat
  let single := d / 32 % 2 = 1
  let wlen := if single then 0 else 1
  let w := (b.getD 5 0).toNat
  let dlen := if d % 4 = 3 then 4 else d % 4
  let flen := if d / 64 = 0 then (if single then 1 else 0) else 2 ^ (d / 64)
  let dict := bytesNat ((b.drop (5 + wlen)).take dlen)
  let f := bytesNat ((b.drop (5 + wlen + dlen)).take flen)
  let size := if flen = 0 then none else some (if flen = 2 then f + 256 else f)
  let base := 2 ^ (10 + w / 8)
  let window := if single then size.getD 0 else base + base / 8 * (w % 8)
  let len := 5 + wlen + dlen + flen
  if b.length < len || bytesNat (b.take 4) ≠ 0xFD2FB528 || d / 8 % 2 = 1 || dict ≠ 0 || 65536 < window then none
  else some ⟨window, size, d / 4 % 2 = 1, len⟩

/-- The contents of the frame at the start of the bytes; none where it does not decode within the limits. -/
def zstdDecode (b : List Byte) : Option (List Byte) :=
  (frameHeader b).bind fun h =>
  (readBlocks ⟨h.window, h.window⟩ b.length ⟨none, none, none, none, (1, 4, 8), []⟩ (b.drop h.len)).bind fun (z, rest) =>
  let out := z.out.reverse
  if h.size.any (· ≠ out.length) then none
  else if h.check && (rest.length < 4 || bytesNat (rest.take 4) ≠ (xxh64 out).toNat % 2 ^ 32) then none
  else some out

end Sys2Proof.Machine
end

