-- ==== Sys2Proof/Machine/Events.lean ====
section
/-! DEFINITION. What the device does of its own to operations in flight: results that land, stores, atomics, fences and
copies that are performed, promotion, page walks and stream pages (03 R43, R46; 11 R164, R185 to R190; 15 R227,
R241, R242; 17 R276; 21 R342). -/

namespace Sys2Proof.Machine

/-! ### Groups -/

/-- PENDING_RESULT_LANDS (03 R46). -/
def execPendingResultLands (group : Nat) (s : State) : Result := .next (landNext s group)

def runLimit : Nat := 24

/-- A run that the 24-instruction limit ends; for group 0 of a gated team the limit arms the gate (03 R43, 18 R291). -/
def limitSwitch (s : State) (gid : Nat) : State :=
  match findGroup s gid with
  | none => s
  | some g =>
    match g.run with
    | some r =>
      if r.count < runLimit then s
      else switchRun s (if g.idx == 0 then { g with after := g.after ++ [.gate] } else g)
    | none => s

/-- RUN_LIMIT_SWITCH. -/
def execRunLimitSwitch (group : Nat) (s : State) : Result := .next (limitSwitch s group)

/-- YIELD_EXPIRY: 64 core clocks have passed since the YIELD (11 R164, 25 R391). -/
def yieldExpire (s : State) (gid : Nat) : State :=
  modGroup s gid fun g =>
    match g.yield with
    | some y => if 64 ≤ coreSince s (dieOfCore g.core) y.start then { g with yield := none } else g
    | none => g

def execYieldExpiry (group : Nat) (s : State) : Result := .next (yieldExpire s group)

/-- REGROUP_TIMEOUT: ready gatherings form, the one at `start` among them (04 R74). -/
def regroupForm (s : State) (team : Nat) (start : Word) : State :=
  match findTeam s team with
  | none => s
  | some t =>
    let ready := t.gatherings.any fun h => h.start == start && gatheringReady s t (packetW t.packet) h
    let runs := match findPart s t.part with | some p => !isStopped p | none => false
    if t.place == .resident && runs && ready then formReady 64 s team else s

def execRegroupTimeout (team : Nat) (start : Word) (s : State) : Result := .next (regroupForm s team start)

/-! ### Stores, atomics, copies -/

/-- Whether a store or a cache-maintenance operation can be performed now. -/
def storeReady (s : State) (o : Op) : Bool :=
  opReady s o && match o.kind with | .store .. | .invalidate .. | .writeBack .. => true | _ => false

/-- STORE_PERFORMED. -/
def execStorePerformed (op : Nat) (s : State) : Result :=
  .next (match findOp s op with
    | some o => if storeReady s o then performOp (readBefore s o) o else s
    | none => s)

/-- Whether an atomic can be performed now; a remote acquire has heard from the owners it asked (15 R241). -/
def atomReady (s : State) (o : Op) : Bool :=
  opReady s o && match o.kind with
    | .atom .. => (awaitedPromotions s o).isEmpty
    | .clasp .. => true
    | _ => false

/-- ATOMIC_PERFORM. A RED whose partials are held is combined: its copies are evicted (15 R242). -/
def execAtomicPerform (op : Nat) (s : State) : Result :=
  .next (match findOp s op with
    | some o => if atomReady s o then performOp (readBefore s o) o else s
    | none => s)

/-- COPY_EXECUTE: the copy engine goes on with a copy that is still outstanding. -/
def execCopyExecute (op : Nat) (s : State) : Result :=
  .next (match findOp s op with
    | some o =>
      match o.kind with
      | .copy c scope release moved => if !performed o && releaseReady s o then executeCopy s o c release scope moved else s
      | _ => s
    | none => s)

/-- WRITE_BUFFER_COMMIT: the oldest store of bank `bank % 16` of the column of core `bank / 16` leaves the write buffer
(01 R16). -/
def execWriteBufferCommit (bank : Nat) (s : State) : Result :=
  .next (modCore s (bank / 16) fun c =>
    { c with wbuf := match c.wbuf.find? (·.1 == bank % 16) with | some x => c.wbuf.erase x | none => c.wbuf })

/-! ### Fences -/

/-- FENCE_COMPLETE: the earlier operations of the group are performed, the partials of its core's REDs combined; then the
release and the acquire of the fence take place (11 R185; 15 R236 to R239, R242). With PF it waits until every posted write
of the group has arrived (15 R249). -/
def execFenceComplete (op : Nat) (s : State) : Result :=
  .next (match findOp s op with
    | some o =>
      match o.kind with
      | .fence scope acq rel pf =>
        if o.done || !allEarlier s o || (pf && s.posted.any (·.group == o.group)) then s
        else
          let s := combineCore s o.core
          let s := if rel then releaseFrom s o.core o.part o.team scope else s
          let s := if acq then acquireAt s o.core scope else s
          opDone s op
      | _ => s
    | none => s)

/-- An access to stacked memory that an LFENCE awaits: the stores and copies of 11 R186, and the loads, which what follows
the LFENCE is ordered after too (16 R252). -/
def usesStacked (o : Op) : Bool :=
  match o.kind with
  | .store accs .. | .load accs .. => accs.any fun a => isStacked a.loc
  | .atom _ _ accs .. | .clasp accs .. => accs.any fun a => isStacked a.loc
  | .copy c .. => c.toScratch
  | _ => false

/-- LFENCE_COMPLETE. -/
def execLfenceComplete (op : Nat) (s : State) : Result :=
  .next (match findOp s op with
    | some o =>
      match o.kind with
      | .lfence => if !o.done && (earlier s o).all fun q => performed q || !usesStacked q then opDone s op else s
      | _ => s
    | none => s)

/-- The cores that an ICINV acts on (11 R187). -/
def icinvCores (s : State) (o : Op) (allDies : Bool) : List Nat :=
  let dies := if allDies then (match findPart s o.part with | some p => partDies p | none => []) else [dieOfCore o.core]
  (List.range 256).filter fun c => dies.contains (dieOfCore c)

/-- ICINV_ACK: every core acted on drops its copies of the lines of the range. -/
def execIcinvAck (op : Nat) (s : State) : Result :=
  .next (match findOp s op with
    | some o =>
      match o.kind with
      | .icinv va len allDies =>
        if o.done then s
        else
          let cores := icinvCores s o allDies
          let hit (l : ILine) : Bool := l.part == some o.part && inRange l.va 64 va len
          opDone { s with cores := s.cores.mapIdx fun i c =>
              if cores.contains i then { c with icache := c.icache.filter fun l => !hit l } else c } op
      | _ => s
    | none => s)

/-! ### Promotion (15 R241, 16 R250) -/

/-- PROMOTION_REQUEST: a core that remote acquires wait for publishes its write-backs at device scope, and they have
heard from it. -/
def promotionRequest (s : State) (core : Nat) : State :=
  let waiting := (s.ops.filter fun o => !performed o && (awaitedPromotions s o).contains core).map (·.id)
  if waiting.isEmpty then s
  else
    let s := promote s core
    { s with ops := s.ops.map fun o => if waiting.contains o.id then { o with acks := o.acks ++ [core] } else o }

def execPromotionRequest (core : Nat) (s : State) : Result := .next (promotionRequest s core)

/-- HOME_EVICTION: the promotion of the cores that a home entry names, then the entry goes with its record, and the L1
lines above it (15 R226, 16 R250). -/
def homeEviction (s : State) (ty : MemType) (line : Nat) : State :=
  (List.range s.quads.length).foldl (fun s q =>
    match homeAt (quadAt s q) ty line with
    | some l => evictSliceLine s q l
    | none => s) (dropOwner s ty line)

def execHomeEviction (ty : MemType) (line : Nat) (s : State) : Result := .next (homeEviction s ty line)

/-- PAGE_WALK. -/
def execPageWalk (die : Nat) (s : State) : Result := .next (pageWalkStep s die)

/-! ### STREAM_FILL (17 R276; 21 R341) -/

/-- The frame that a locator names; none where it cannot be read. -/
def frameOf (s : State) (locator : DWord) : Option (List Byte) :=
  let src := locator.extractLsb' 62 2
  let len := (locator.extractLsb' 46 16).toNat * 16
  let addr := (locator.extractLsb' 9 37).toNat * 64
  if len = 0 then none
  else if src = 0 then some (readBytes s.hostMem addr len)
  else if src = 1 && s.nvmePresent then some (readBytes s.nvme addr len)
  else none

/-- The decoded page of a request. -/
def streamBytes (s : State) (q : StreamReq) : Option (List Byte) :=
  match (frameOf s q.locator).bind zstdDecode with
  | some b => if b.length = 65536 then some b else none
  | none => none

/-- The next table of a walk. -/
def nextTable (s : State) (table idx : Nat) : Option Nat :=
  let e := readNat s.gddr (table + 8 * idx) 8
  if bitOf e 0 && !entryReserved e && !bitOf e 3 then some (bitsField e 12 40 * 4096) else none

/-- The level-0 table of a virtual address. -/
def leafTable (s : State) (root va : Nat) : Option Nat :=
  ((nextTable s root (va / 2 ^ 39 % 2 ^ 18)).bind fun t2 => nextTable s t2 (va / 2 ^ 30 % 512)).bind fun t1 =>
    nextTable s t1 (va / 2 ^ 21 % 512)

/-- Whether the sixteen entries of a page still carry the locator. -/
def stillAsked (s : State) (table : Nat) (q : StreamReq) : Bool :=
  (leafEntries s table (q.page * 65536)).all (· == q.locator.toNat)

/-- A present entry of an installed page: P, LEAF, TYPE 3 and PS64. -/
def installedEntry (pa : Nat) : Nat := pa + 1 + 8 + 48 + 256

/-- The decoded bytes stand in the pool page, and the sixteen entries name it. -/
def installPage (s : State) (table : Nat) (q : StreamReq) (pa : Nat) (b : List Byte) : State :=
  let m := writeBytes s.gddr pa b
  let first := table + 8 * (q.page % 32 * 16)
  { s with gddr := (List.range 16).foldl (fun m i => writeBytes m (first + 8 * i) (natBytes 8 (installedEntry pa))) m }

/-- A team whose accesses a request serves. -/
def asks (s : State) (q : StreamReq) (team : Nat) : Bool :=
  match findTeam s team with | some t => t.part == q.part && t.root == q.root | none => false

def opAsks (s : State) (q : StreamReq) (op : Nat) : Bool := match findOp s op with | some o => asks s q o.team | none => false

def onPage (page : Nat) (l : Loc) : Bool := match l with | .stream va => va / 65536 == page | _ => false

def fillLoc (page pa : Nat) (l : Loc) : Loc :=
  match l with
  | .stream va => if va / 65536 == page then .page .stream (pa + va % 65536) va else l
  | l => l

def fillPieces (page pa : Nat) (l : List (Loc × Nat)) : List (Loc × Nat) := l.map fun x => (fillLoc page pa x.1, x.2)

/-- An operation that waited for a page goes on with its place. -/
def fillKind (page pa : Nat) (k : OpKind) : OpKind :=
  match k with
  | .load accs ty size d scope acq rmt ro byp =>
    .load (accs.map fun a => { a with loc := fillLoc page pa a.loc }) ty size d scope acq rmt ro byp
  | .sample format bw bh border n d mask lanes scope =>
    let tap (t : Tap) : Tap := { t with pieces := fillPieces page pa t.pieces }
    let level (l : LevelTaps) : LevelTaps := { l with taps := l.taps.map tap }
    .sample format bw bh border n d mask (lanes.map fun x => { x with levels := x.levels.map level }) scope
  | .test tri d lanes scope => .test tri d (lanes.map fun x => { x with pieces := fillPieces page pa x.pieces }) scope
  | k => k

def streamWait (w : Option PageWait) (page : Nat) : Bool := match w with | some (.stream va) => va / 65536 == page | _ => false

/-- Everything that waited for a page is awake. -/
def wakeStream (s : State) (q : StreamReq) : State :=
  let clear (w : Option PageWait) : Option PageWait := if streamWait w q.page then none else w
  let unpark (p : Park) : Park := match p with | .stream page _ => if page = q.page then .none else p | p => p
  { s with
    groups := s.groups.map fun g =>
      if asks s q g.team then { g with lanes := g.lanes.map fun l => { l with park := unpark l.park } } else g
    threads := s.threads.map fun t =>
      if asks s q t.team then
        { t with park := match t.park with | .stream page r => if page = q.page then .none else .stream page r | p => p }
      else t
    quads := s.quads.map fun d =>
      { d with
        table := d.table.map fun e => if asks s q e.team then { e with waits := clear e.waits } else e
        rays := d.rays.map fun r => if opAsks s q r.op then { r with waits := clear r.waits } else r
        batches := d.batches.map fun b => if opAsks s q b.op then { b with waits := clear b.waits } else b }
    parts := s.parts.map fun p =>
      if p.idx == q.part && p.ptroot == q.root then
        { p with launchWait := match p.launchWait with
            | some (w, u) => if streamWait (some w) q.page then none else some (w, u)
            | none => none }
      else p }

/-- The lanes of an operation that wait for a page, each with the address it waits on. -/
def waitingLanes (page : Nat) (k : OpKind) : List (Nat × Nat) :=
  let addr (l : Loc) : Option Nat := match l with | .stream va => if va / 65536 == page then some va else none | _ => none
  match k with
  | .load accs .. => accs.filterMap fun a => (addr a.loc).map fun va => (a.lane, va)
  | .sample _ _ _ _ _ _ _ lanes _ =>
    lanes.flatMap fun x => x.levels.flatMap fun l => l.taps.flatMap fun t =>
      t.pieces.filterMap fun p => (addr p.1).map fun va => (x.lane, va)
  | .test _ _ lanes _ => lanes.flatMap fun x => x.pieces.filterMap fun p => (addr p.1).map fun va => (x.lane, va)
  | _ => []

/-- STREAM_FAIL on the lanes of an operation that wait for a page: they write nothing and trap at its pc (11 R174). Those
of a saved team replay (21 R332). -/
def failLanes (page : Nat) (s : State) (o : Op) : State :=
  match waitingLanes page o.kind, findGroup s o.group with
  | x :: rest, some g =>
    if isOut s g then s
    else
      let m := laneSet ((x :: rest).map (·.1))
      let low := (lowLane g.w m).getD 0
      let va := (((x :: rest).filter (·.1 == low)).map (·.2)).foldl min (2 ^ 64)
      let r : TrapReq := ⟨causeStreamFail, m, o.pc, canonicalVa va, [], [], false⟩
      let kind := dropLanes m o.kind
      let g := { splitSet g m with after := g.after.map (withoutLanes m) ++ [.trap r] }
      let s := putOp s { o with kind := kind, owes := o.owes && !noLanes kind, done := o.done || noLanes kind }
      if g.run.isSome then switchRun s g else settle (putGroup s g) g.id
  | _, _ => s

/-- A copy that waits for a page zero-fills it, or writes nothing (11 R191). -/
def failCopy (page : Nat) (o : Op) : Op :=
  match o.kind with
  | .copy c _ _ _ => if o.left = 1 && !o.done && (copySegs c).any fun g => va57 g.ga / 65536 == page then { o with acks := o.acks ++ [page] } else o
  | _ => o

/-- Lane sets of a group that wait for a code or record page. -/
def failParks (page part : Nat) (s : State) (gid : Nat) : State :=
  match findGroup s gid with
  | none => s
  | some g =>
    let awake (p : Park) : Park := match p with | .stream q _ => if q = page then .none else p | p => p
    if isOut s g then putGroup s { g with lanes := g.lanes.map fun l => { l with park := awake l.park } }
    else
      let reqs := ((List.range g.w).filterMap fun i =>
        match (laneAt g i).exited, (laneAt g i).park with
        | false, .stream p r => if p = page then some r else none
        | _, _ => none).eraseDups
      let s := reqs.foldl (fun s r =>
        match findGroup s gid with
        | some g =>
          let m := laneSet ((List.range g.w).filter fun i => !(laneAt g i).exited && (laneAt g i).park == .stream page r)
          throughBezel s g part { r with lanes := m }
        | none => s) s
      settle s gid

def failThread (page : Nat) (s : State) (team : Nat) : State :=
  match findThread s team with
  | some t =>
    match t.park with
    | .stream p r => if p = page then trapThread s t r else s
    | _ => s
  | none => s

def failQuad (q : StreamReq) (s : State) (quad : Nat) : State :=
  let d := quadAt s quad
  let ea (w : Option PageWait) : DWord := match w with | some (.stream va) => canonicalVa va | _ => 0
  let es := d.table.filter fun e => asks s q e.team && streamWait e.waits q.page
  let rs := d.rays.filter fun r => opAsks s q r.op && streamWait r.waits q.page
  let bs := d.batches.filter fun b => opAsks s q b.op && streamWait b.waits q.page
  let s := es.foldl (fun s e => faultEntry s quad e causeStreamFail (ea e.waits)) s
  let s := rs.foldl (fun s r => failRay s quad r causeStreamFail (ea r.waits)) s
  bs.foldl (fun s b => stopBatch s quad b causeStreamFail (ea b.waits)) s

def failStreamLaunch (s : State) (q : StreamReq) : State :=
  match findPart s q.part with
  | none => s
  | some p =>
    match p.launchWait with
    | some (.stream va, u) =>
      if va / 65536 = q.page ∧ p.ptroot = q.root then
        let p := { p with launchWait := none }
        failLaunchRead (putPart s p) p u causeStreamFail (canonicalVa va)
      else s
    | _ => s

def streamRecord (s : State) (die : Nat) (q : StreamReq) (code : Nat) : State :=
  record s die unitStream code (some q.part) false [pageVa q.page 65536]

/-- The request fails: every waiter ends with STREAM_FAIL, and the entries stay as they are. -/
def failStream (s : State) (die : Nat) (q : StreamReq) : State :=
  let s := countDie (streamRecord s die q causeStreamFail.toNat) die 14
  let ops := s.ops.filter fun o => asks s q o.team
  let groups := (s.groups.filter fun g => asks s q g.team).map (·.id)
  let threads := (s.threads.filter fun t => asks s q t.team).map (·.team)
  let ended (o : Op) : Op := if asks s q o.team && !(waitingLanes q.page o.kind).isEmpty then { o with done := true } else o
  let s := { s with
    ops := s.ops.map fun o => if asks s q o.team then failCopy q.page o else o
    groups := s.groups.map fun g => { g with replays := g.replays.map ended } }
  let s := ops.foldl (fun s o => match findOp s o.id with | some o => failLanes q.page s o | none => s) s
  let s := groups.foldl (failParks q.page q.part) s
  let s := threads.foldl (failThread q.page) s
  let s := (List.range 64).foldl (failQuad q) s
  failStreamLaunch s q

/-- The release at device scope of a filled page: every core of the partition hears of its lines, and no copy of what the
page held before is left. -/
def tellPage (s : State) (q : StreamReq) (pa : Nat) : State :=
  let sig := (List.range 256).foldl (fun g i => g ||| sigOf (q.page * 65536 + 256 * i)) 0
  publish (forgetCopies s .stream pa 65536) (match findPart s q.part with | some p => p.cores | none => []) sig

/-- The request succeeds with a page of the pool. -/
def fillStream (s : State) (q : StreamReq) (table pa : Nat) (b : List Byte) : State :=
  let s := tellPage (installPage s table q pa b) q pa
  let fill (o : Op) : Op := if asks s q o.team then { o with kind := fillKind q.page pa o.kind } else o
  let s := { s with
    ops := s.ops.map fill
    groups := s.groups.map fun g => { g with replays := g.replays.map fill } }
  wakeStream s q

def popStream (s : State) (die : Nat) (q : StreamReq) : State :=
  modDie s die fun d => { d with streamQ := d.streamQ.filter fun x => !(x.part == q.part && x.root == q.root && x.page == q.page) }

/-- Pool pages stand at multiples of 64 KiB that an entry can name. -/
def poolPage (x : Nat) : Nat := x % 2 ^ 36 * 65536

/-- STREAM_FILL: the oldest request of a die's streaming engine. A frame in host memory waits for the host link. -/
def streamFill (s : State) (die : Nat) : State :=
  match (dieAt s die).streamQ with
  | [] => s
  | q :: _ =>
    if q.locator.extractLsb' 62 2 == 0 && !s.linkUp then s
    else
      match streamBytes s q, leafTable s q.root.toNat (q.page * 65536) with
      | some b, some table =>
        if !stillAsked s table q then failStream (popStream s die q) die q
        else
          let pool := (dieAt s die).pagePool ++ (Config.poolSupply s.fresh).map poolPage
          let s := { s with fresh := s.fresh + 1 }
          match pool with
          | [] =>
            let s := if q.told then s else streamRecord s die q 0x404
            modDie s die fun d => { d with streamQ := d.streamQ.map fun x => if x == q then { q with told := true } else x }
          | pa :: rest => fillStream (modDie (popStream s die q) die fun d => { d with pagePool := rest }) q table pa b
      | _, _ => failStream (popStream s die q) die q

def execStreamFill (die : Nat) (s : State) : Result := .next (streamFill s die)

end Sys2Proof.Machine
end

