-- ==== Sys2Proof/Machine/Platform.lean ====
section
/-! DEFINITION. What the host and the platform do: register writes (19 R293, R295; 25 R374, R385), host accesses (15 R248),
event records (25 R387 to R389; 26 R395), links (25 R376, R379), power and temperature (19 R313, R317; 25 R392 to R394),
repair and scrub (01 R17, R34), and the boot (25 R380 to R383). -/

namespace Sys2Proof.Machine

/-! ### Host queues (19 R293) -/

/-- The host reaches a register of a partition. -/
def hostWrite (s : State) (part : Nat) (f : Partition → State) : State :=
  match findPart s part with
  | some p => if s.powered && s.linkUp then f p else s
  | none => s

def queueFault (s : State) (p : Partition) (queue : Nat) : State := launchRecord s p 0x407 [BitVec.ofNat 64 queue]

def putQueue (s : State) (part queue : Nat) (q : HQueue) : State :=
  modPart s part fun p => { p with queues := p.queues.set queue { q with lost := if q.head == q.tail then 0 else q.lost } }

def enableBit : DWord := 0x10000
def disable (x : DWord) : DWord := x &&& ~~~enableBit

/-- The indices of a queue are further apart than its ring is long. -/
def overfull (q : HQueue) : Bool := 2 ^ queueLog q < (q.tail - q.head).toNat

/-- QUEUE_DOORBELL. -/
def queueDoorbell (s : State) (part queue : Nat) (value : Word) : State :=
  hostWrite s part fun p =>
    match p.queues[queue]? with
    | none => s
    | some q =>
      let q := { q with tail := value }
      if queueEnabled q && overfull q then queueFault (putQueue s part queue { q with ctl := disable q.ctl }) p queue
      else putQueue s part queue q

def execQueueDoorbell (part queue : Nat) (value : Word) (s : State) : Result := .next (queueDoorbell s part queue value)

/-- A QCTL that would leave the queue enabled with a length, a reserved bit or indices that it may not have. -/
def controlIllegal (q : HQueue) : Bool :=
  queueEnabled q && (queueLog q < 1 || 16 < queueLog q || q.ctl &&& ~~~0x11FFF != 0 || overfull q)

/-- QUEUE_CONTROL_WRITE: its reserved bits are judged, and read 0 from then on (00 R5, 19 R293). -/
def queueControl (s : State) (part queue : Nat) (value : DWord) : State :=
  hostWrite s part fun p =>
    match p.queues[queue]? with
    | none => s
    | some q =>
      let new := { q with ctl := value }
      let stored := value &&& 0x11FFF
      if controlIllegal new || (queueEnabled q && queueLog new != queueLog q) then
        queueFault (putQueue s part queue { q with ctl := disable stored }) p queue
      else putQueue s part queue { q with ctl := stored }

def execQueueControlWrite (part queue : Nat) (value : DWord) (s : State) : Result := .next (queueControl s part queue value)

/-- QUEUE_BASE_WRITE. -/
def queueBase (s : State) (part queue : Nat) (value : DWord) : State :=
  hostWrite s part fun p =>
    match p.queues[queue]? with
    | none => s
    | some q =>
      let base := value &&& ~~~0x7F
      if queueEnabled q && base != q.base then
        queueFault (putQueue s part queue { q with base := base, ctl := disable q.ctl }) p queue
      else putQueue s part queue { q with base := base }

def execQueueBaseWrite (part queue : Nat) (value : DWord) (s : State) : Result := .next (queueBase s part queue value)

/-! ### Partition registers (19 R295, R320; 25 R374, R385) -/

def execPrngseedWrite (part : Nat) (value : Word) (s : State) : Result :=
  .next (hostWrite s part fun p => putPart s (writePartCsr p 0x204 (value.zeroExtend 64)))

def execPrngstateWrite (part : Nat) (value : Word) (s : State) : Result :=
  .next (hostWrite s part fun p => putPart s (writePartCsr p 0x205 (value.zeroExtend 64)))

/-- PRIVPOOL_WRITE. -/
def execPrivpoolWrite (part : Nat) (reg : PoolReg) (value : DWord) (s : State) : Result :=
  .next (hostWrite s part fun p =>
    if !p.privAllocs.isEmpty then mgmtRecord s 0x409 (part + 1) []
    else
      match reg with
      | .base => putPart s { p with privPool := value &&& 0x01FFFFFFFFFF0000 }
      | .size => putPart s { p with privSize := value &&& 0x0000FFFFFFFF0000 })

def parseRegion (b : List Byte) : Region where
  base := BitVec.ofNat 64 (fieldNat b 0 8)
  size := BitVec.ofNat 64 (fieldNat b 8 8)
  dies := BitVec.ofNat 8 (fieldNat b 0x10 1)
  chans := BitVec.ofNat 8 (fieldNat b 0x11 1)
  lstride := BitVec.ofNat 8 (fieldNat b 0x12 1)
  flags := BitVec.ofNat 8 (fieldNat b 0x13 1)
  rest := (b.drop 0x14).take 12

/-- REGION_TABLE_WRITE. -/
def execRegionTableWrite (part index : Nat) (bytes : List Byte) (s : State) : Result :=
  .next (hostWrite s part fun p =>
    if residentTeam s part then mgmtRecord s 0x408 (part + 1) []
    else putPart s { p with regions := p.regions.set index (parseRegion bytes) })

def writeHostReg (p : Partition) (r : HostReg) (x : DWord) : Partition :=
  match r with
  | .ptroot => { p with ptroot := x &&& 0x000FFFFFFFFFF000 }
  | .trapvec => { p with trapVec := x.extractLsb' 0 32 }
  | .evbase => { p with evbase := x &&& 0x01FFFFFFFFFFFFC0 }
  | .evctl => { p with even := x.getLsbD 8, evlog2n := x.extractLsb' 0 5 }
  | .evhead => { p with evhead := x.extractLsb' 0 32 }
  | .evselc => { p with evselc := x }
  | .evseld0 => { p with evseld0 := x }
  | .evseld1 => { p with evseld1 := x }
  | .csr n => writePartCsr p n.toNat x

/-- REGISTER_WRITE. -/
def execRegisterWrite (part : Nat) (reg : HostReg) (value : DWord) (s : State) : Result :=
  .next (hostWrite s part fun p => putPart s (writeHostReg p reg value))

/-! ### Host accesses (15 R248) -/

/-- HOST_GDDR_ACCESS: a write reaches the home; a read changes nothing. The firmware windows are not exposed. Every
device-physical address below 2^52 has storage, also beyond the installed 64 or 128 GiB: DESIGN CHOICE (log entry 119). -/
def execHostGddrAccess (addr count : Nat) (data : Option (List Byte)) (s : State) : Result :=
  .next (match data with
    | some b => if s.powered && s.linkUp && addr + b.length ≤ fwBase && b.length == count then homeWrite (healAt s (.page .dev addr 0) count) .dev addr b else s
    | none => s)

/-- CXL_CACHE_SNOOP: a host write of its own memory; the device-side home copy is invalidated, and what an L1 holds stays
until an acquire. -/
def execCxlCacheSnoop (addr : Nat) (data : List Byte) (s : State) : Result := .next (homeWrite s .host addr data)

/-! ### Delivery of event records (25 R387 to R389; 26 R395) -/

/-- The 64 bytes of a record. Payload words that the raising rule does not name are free values (25 R387). -/
def recordBytes (fresh : Nat) (r : EvRec) : List Byte :=
  natBytes 2 (r.unit + 256 * r.die) ++ natBytes 2 r.code ++ natBytes 4 r.seq.toNat
    ++ natBytes 1 (match r.part with | some p => p | none => 0xFF) ++ natBytes 1 (if r.double then 1 else 0) ++ natBytes 6 0
    ++ (List.range 6).flatMap fun i => natBytes 8 (r.payload.getD i (Config.freeDWord (fresh + i))).toNat

/-- The head of a die's spill ring moves to its function's queue while that has room. -/
def drainSpill (die : Nat) : Nat → State → State
  | 0, s => s
  | n + 1, s =>
    match (dieAt s die).spill with
    | [] => s
    | (fn, r) :: rest =>
      if (s.funcs.getD fn Func.reset).queue.length < 256 then
        drainSpill die n (modFunc (modDie s die fun d => { d with spill := rest }) fn fun f => { f with queue := f.queue ++ [r] })
      else s

/-- A record of code 0x406 for a source's losses. -/
def lossRecord (die : Nat) (d : Die) (l : Lost) : Nat × EvRec :=
  (l.fn, ⟨die, l.unit, 0x406, seqOf d l.unit, if l.fn = 0 then none else some (l.fn - 1), false,
    [BitVec.ofNat 64 (l.unit + 256 * die), BitVec.ofNat 64 l.count, l.first.zeroExtend 64]⟩)

/-- Once the spill ring has room, the kept fault records enter it first, then one record of losses for each source. -/
def refillSpill (die : Nat) (d : Die) : Die :=
  let room := 4096 - d.spill.length
  let kept := d.kept.take room
  let d := { d with spill := d.spill ++ kept, kept := d.kept.drop room }
  let told := d.lost.take (4096 - d.spill.length)
  told.foldl (fun d l =>
    setSeq { d with spill := d.spill ++ [lossRecord die d l], lost := d.lost.erase l } l.unit (seqOf d l.unit + 1)) d

def drainDie (s : State) (die : Nat) : State := modDie (drainSpill die 4096 s) die (refillSpill die)
def drainDies (s : State) : State := (List.range 4).foldl drainDie s

/-- The ring of a function has room: PF0 has none (25 R374). -/
def ringRoom (p : Partition) : Bool :=
  p.even && 4 ≤ p.evlog2n.toNat && p.evlog2n.toNat ≤ 16 && (p.evtail - p.evhead).toNat < 2 ^ p.evlog2n.toNat

/-- The oldest record of a function's queue reaches its ring in host memory, and vector 0 tells of it. -/
def deliverOne (s : State) (fn : Nat) : State :=
  if fn = 0 then s
  else
    match findPart s (fn - 1), (s.funcs.getD fn Func.reset).queue with
    | some p, r :: rest =>
      if ringRoom p then
        let at' := p.evbase.toNat + 64 * (p.evtail.toNat % 2 ^ p.evlog2n.toNat)
        let s := homeWrite { s with fresh := s.fresh + 6 } .host at' (recordBytes s.fresh r)
        modFunc (putPart s { p with evtail := p.evtail + 1 }) fn fun f => { f with queue := rest, msix0 := f.msix0 + 1 }
      else s
    | _, _ => s

/-- EVENT_RECORD_DELIVER: a record of the queue reaches the ring, and spilled records move up. -/
def execEventRecordDeliver (fn : Nat) (s : State) : Result :=
  .next (if s.powered then drainDies (if s.linkUp then deliverOne s fn else s) else s)

/-! ### Links (25 R376, R379) -/

/-- Outstanding stores and atomics to HOST and PEER memory are lost, and the writes on their way to peers. What a lost
atomic was to return is a free value (log entry 118). -/
def loseStores (s : State) : State :=
  { s with
    posted := []
    fresh := s.fresh + 128
    ops := s.ops.map fun o =>
      if performed o then o
      else
        match o.kind with
        | .store accs sc rel na =>
          let rest := accs.filter fun a => !isFar a.loc
          { o with kind := .store rest sc rel na, done := rest.isEmpty }
        | .atom _ ty accs _ _ _ _ _ ret =>
          if accs.any fun a => isFar a.loc then
            { o with
              kind := .result (returnWrites ty ret (accs.map fun a => (a.lane, Config.freeDWord (s.fresh + a.lane)))) []
              done := !o.owes }
          else o
        | _ => o }

/-- Loads of HOST and PEER memory that are outstanding when the link goes down are saved as replay records. -/
def recordFar (s : State) : State := s.groups.foldl (fun s g => recordReplays s g.id) s

def haltAll (s : State) (which : Partition → Bool) : State := ((s.parts.filter which).map (·.idx)).foldl haltPart s

/-- A record that its die writes to the spill ring at once. -/
def spillLinkDown (s : State) (die : Nat) : State :=
  let r := numbered s die unitMgmt 0x300 none false []
  spillRecord r.2 r.1

/-- HOST_LINK_DOWN: each die's record goes to its spill ring (25 R376). -/
def execHostLinkDown (s : State) : Result :=
  .next (if s.powered && s.linkUp then
    let s := recordFar (loseStores { s with linkUp := false })
    haltAll ((List.range 4).foldl spillLinkDown s) fun _ => true
  else s)

/-- HOST_LINK_TRAINED. -/
def execHostLinkTrained (s : State) : Result :=
  .next (if s.powered then drainDies { s with linkUp := true } else s)

/-- The die that a link faces (01 R29). -/
def linkPeer (die : Nat) (l : Link) : Nat :=
  match die, l with
  | 0, .a => 1 | 0, .b => 2
  | 1, .a => 3 | 1, .b => 0
  | 2, .a => 0 | 2, .b => 3
  | _, .a => 2 | _, .b => 1

/-- A partition on both sides of a link, or one with a diagonal pair: the two directions of a diagonal pass through all
four links (01 R29). -/
def spansLink (p : Partition) (a b : Nat) : Bool :=
  let ds := partDies p
  (ds.contains a && ds.contains b) || (ds.contains 0 && ds.contains 3) || (ds.contains 1 && ds.contains 2)

def dropLink (l : Link) (d : Die) : Die := match l with | .a => { d with linkA := false } | .b => { d with linkB := false }
def otherLink (l : Link) : Link := match l with | .a => .b | .b => .a

/-- UCIE_RETRAIN: one that succeeds changes only latency; one that fails is a UCIE_LINK. -/
def execUcieRetrain (die : Nat) (link : Link) (ok : Bool) (s : State) : Result :=
  .next (if ok || !s.powered || 4 ≤ die then s
  else
    let peer := linkPeer die link
    let s := modDie (modDie s die (dropLink link)) peer (dropLink (otherLink link))
    let s := record (record s die unitMgmt 0x301 none false []) peer unitMgmt 0x301 none false []
    haltAll s fun p => spansLink p die peer)

/-! ### Power and temperature -/

/-- DVFS_SAMPLE: each die moves by at most one step (25 R391, R392). -/
def execDvfsSample (moves : List DvfsMove) (s : State) : Result :=
  .next { s with dies := s.dies.mapIdx fun i d =>
    { d with dvfs :=
      match moves.getD i .stay with
      | .stay => d.dvfs
      | .faster => d.dvfs - 1
      | .slower => min 3 (d.dvfs + 1) } }

/-- What outlives the loss of power: fuses, flash, and what stands outside the package (25 R394). -/
def powerLost (s : State) : State :=
  let seed := 16 + s.fresh
  { State.reset with
    powered := false
    booted := false
    linkUp := false
    dies := s.dies.mapIdx fun i d =>
      { Die.reset i with
        dieid := d.dieid, stepping := d.stepping, keyHash := d.keyHash, patchFloor := d.patchFloor, fwFloor := d.fwFloor
        fusedRepairs := d.fusedRepairs }
    fused := s.fused
    gddr := Memory.fresh (2 ^ 53) seed
    hostMem := s.hostMem
    peerMem := s.peerMem
    nvme := s.nvme
    flash := s.flash
    agenda := s.agenda
    fresh := s.fresh + 1
    nextId := s.nextId
    turn := s.turn }

/-- POWER_OFF. -/
def execPowerOff (s : State) : Result := .next (powerLost s)

/-- THERMAL_TRIP on the sensors of a die, in 1/16 degree (25 R393). -/
def thermalTrip (s : State) (die : Nat) (temps : List Nat) : State :=
  let hot := temps.foldl max 0
  if 2000 ≤ hot then powerLost s
  else
    let s := if 1680 ≤ hot then record (modDie s die fun d => { d with dvfs := 3 }) die unitMgmt 0x302 none false [] else s
    if 1840 ≤ hot then haltAll s fun p => (partDies p).contains die else s

/-- THERMAL_UPDATE: new readings, and the clusters deferred on the die are tried again (19 R313, R314). -/
def execThermalUpdate (die : Nat) (temps power : List Nat) (s : State) : Result :=
  .next (if s.powered && die < 4 then
    let s := modDie s die fun d => { d with temps := temps, power := power }
    let s := { s with grids := s.grids.map fun g => { g with deferred := g.deferred.filter (·.2 != die) } }
    thermalTrip s die temps
  else s)

/-! ### Deadlines (19 R317) -/

def overrun (s : State) (j : Job) : Bool :=
  j.deadline != 0 && !j.acted && j.paused.isNone && j.deadline.toNat < s.now - j.start

/-- No other job of the partition overran before it. -/
def overranFirst (s : State) (j : Job) : Bool :=
  s.jobs.all fun k =>
    k.id == j.id || k.part != j.part || !overrun s k
      || j.start + j.deadline.toNat < k.start + k.deadline.toNat
      || (j.start + j.deadline.toNat == k.start + k.deadline.toNat && j.id < k.id)

/-- JOB_DEADLINE. A child grid has neither queue nor packet address, whose values are then free. -/
def execJobDeadline (job : Nat) (s : State) : Result :=
  .next (match findJob s job, (findJob s job).bind fun j => findPart s j.part with
    | some j, some p =>
      if overrun s j && overranFirst s j then
        let child := j.queue = noQueue
        let q := if child then Config.freeDWord s.fresh else BitVec.ofNat 64 j.queue
        let a := if child then Config.freeDWord (s.fresh + 1) else j.addr
        let s := { s with
          jobs := s.jobs.map fun k => if k.id == job then { k with acted := true } else k
          fresh := if child then s.fresh + 2 else s.fresh }
        launchRecord (haltPart s j.part) p 0x184 [q, a]
      else s
    | _, _ => s)

/-! ### Scrub and repair (01 R17, R34) -/

/-- BACKGROUND_SCRUB that finds an uncorrectable error: a record and no trap. -/
def execBackgroundScrub (die unit : Nat) (addr : DWord) (s : State) : Result :=
  .next (if s.powered && die < 4 && unit < 86 then record s die unit 0x405 none false [addr] else s)

/-- ROW_REPAIR at run time, in force until power is lost: neither addresses nor contents change (01 R17). -/
def execRowRepair (die column bank row : Nat) (s : State) : Result :=
  .next (modDie s die fun d => { d with repairs := d.repairs ++ [(column, bank, row)] })

/-! ### Boot (25 R380 to R383) -/

/-- A section of the firmware image lies between its header and its key. -/
def sectionOk (total ofs len : Nat) : Bool := 0x40 ≤ ofs && ofs + len ≤ total - 128

def flashSize : Nat := 2 ^ 32

/-- Check 1 of 25 R382 on the header. -/
def imageForm (h : List Byte) : Bool :=
  let total := fieldNat h 0x24 4
  fieldNat h 0 4 == 0x57464D4B && fieldNat h 4 2 == 1 && fieldNat h 6 2 == 0 && allZero ((h.drop 0x28).take 24)
  && total % 64 == 0 && 0x100 ≤ total && total ≤ flashSize
  && sectionOk total (fieldNat h 0x10 4) (fieldNat h 0x14 4)
  && (fieldNat h 0x1C 4 == 0 || sectionOk total (fieldNat h 0x18 4) (fieldNat h 0x1C 4))

/-- The checks of 25 R382 in their order: the code of 25 R383, or 0. -/
def imageCheck (master : Die) (img : List Byte) : Nat :=
  let total := img.length
  let key := (img.drop (total - 128)).take 64
  if !imageForm img then 5
  else if sha256 key ≠ master.keyHash then 2
  else if !ecdsaVerify key (sha256 (img.take (total - 128))) (img.drop (total - 64)) then 3
  else if fieldNat img 8 8 < master.fwFloor.toNat then 4
  else 0

/-- The image at the start of the flash. -/
def flashImage (s : State) : List Byte :=
  let h := readBytes s.flash 0 64
  if imageForm h then readBytes s.flash 0 (fieldNat h 0x24 4) else h

/-- The patch section of the image. -/
def patchSection (img : List Byte) : Option PatchImage :=
  if fieldNat img 0x1C 4 = 0 then none else parsePatch ((img.drop (fieldNat img 0x18 4)).take (fieldNat img 0x1C 4))

/-- Each die that the patch section passes on loads it. -/
def bootPatches (s : State) (img : List Byte) : State :=
  match patchSection img with
  | none => s
  | some im => (List.range 4).foldl (fun s d => if checkPatch (dieAt s d) d im = .ok then loadPatch s d im else s) s

/-- The fuses are read: the data of the first power-on that gives four distinct identifiers is what is blown in them. -/
def readFuses (s : State) (inp : BootInput) : State :=
  if s.fused || inp.dieids.length != 4 || !decide inp.dieids.Nodup then s
  else
    { s with
      fused := true
      dies := s.dies.mapIdx fun i d => { d with dieid := inp.dieids.getD i 0, fusedRepairs := inp.repairs.getD i [] } }

/-- The package powered, with fuses read, the fused row repairs applied and every SRAM zero; the clock counters agree
within 16 counts. -/
def bootState (s : State) (inp : BootInput) : State :=
  let s := readFuses (powerLost s) inp
  let s : State := { s with
    powered := true
    linkUp := true
    nvmePresent := inp.nvmePresent
    dies := s.dies.mapIdx fun i d =>
      { d with repairs := d.fusedRepairs, clockOffset := (Config.freeWord (s.fresh + i)).toNat % 17 } }
  { s with fresh := s.fresh + 4 }

/-- POWER_ON: the boot of 25 R380, up to the first failure (25 R383). -/
def bootPackage (s : State) (inp : BootInput) : State :=
  let s := bootState s inp
  let img := flashImage s
  let code := imageCheck (dieAt s (masterDie s)) img
  if !inp.exchanged then { s with bootstat := 1 }
  else if code ≠ 0 then { s with bootstat := BitVec.ofNat 64 code }
  else
    match inp.failedCopy with
    | some pos => { s with bootstat := BitVec.ofNat 64 (6 + 256 * (pos % 4)) }
    | none =>
      let s := bootPatches s img
      { s with booted := true, fwHash := sha256 img, fwVersion := BitVec.ofNat 64 (fieldNat img 8 8) }

def execPowerOn (inp : BootInput) (s : State) : Result := .next (bootPackage s inp)

end Sys2Proof.Machine
end

