-- ==== Sys2Proof/Machine/Sched.lean ====
section
/-! DEFINITION. Who issues next, and what stands before an issue: pc-sets and their parks (03 R50), the choice of a group
(03 R48) and of a control thread (17 R254), and line checks (05 R78 to R80; 22 R349). -/

namespace Sys2Proof.Machine

/-! ### pc-sets (03 R41, R50) -/

/-- Held until other lanes come: no pc-set of the round robin. -/
def isHeld (p : Park) : Bool := match p with | .join _ _ | .quad _ _ _ | .arrive _ => true | _ => false

/-- Whether lanes with this park may issue. -/
def parkReady (s : State) (g : Group) (l : Lane) : Bool :=
  match l.park with
  | .heavy => let cap := ((teamOf s g).map (·.packet.heavy)).getD 0; cap == 0 || heavyOthers s g < cap
  | .emulation => !g.emu
  | p => parkOver s g p

/-- Lanes of one pc-set: the same pc, parked lane set and privilege. -/
def samePcSet (a b : Lane) : Bool := a.pc == b.pc && a.set == b.set && a.priv == b.priv

def inPcSet (g : Group) (i : Nat) : Bool := !(laneAt g i).exited && !isHeld (laneAt g i).park

/-- The pc-set of lane `i`. -/
def pcSetOf (g : Group) (i : Nat) : DWord :=
  laneSet ((List.range g.w).filter fun j => inPcSet g j && samePcSet (laneAt g i) (laneAt g j))

/-- The lowest lanes of the pc-sets, by rising index. -/
def pcSetLeads (g : Group) : List Nat :=
  (List.range g.w).filter fun i => inPcSet g i && lowLane g.w (pcSetOf g i) == some i

/-- A pc-set whose every lane may issue. -/
def setReady (s : State) (g : Group) (i : Nat) : Bool := (laneList g.w (pcSetOf g i)).all fun j => parkReady s g (laneAt g j)

/-- The pc-set whose turn it is, by its lowest lane. -/
def nextSet (s : State) (g : Group) : Option Nat :=
  let ready := (pcSetLeads g).filter (setReady s g)
  match g.lastLow with
  | some k => match ready.find? fun i => k < i with | some i => some i | none => ready.head?
  | none => ready.head?

/-! ### The choice of a group (03 R48) -/

def debugHalted (g : Group) : Bool := (List.range g.w).any fun i => !(laneAt g i).exited && (laneAt g i).park == .debug

def partRuns (s : State) (part : Nat) : Bool := match findPart s part with | some p => !isStopped p | none => false

/-- A group that can issue now: its run goes on, or a new one can begin. -/
def canIssue (s : State) (g : Group) : Bool :=
  groupFree s g && !debugHalted g && partRuns s (partOfGroup s g)
  && match g.run with
    | some r => r.count < runLimit
    | none => g.after.isEmpty && (nextSet s g).isSome

/-- Highest launch priority, then the oldest. -/
def groupBefore (s : State) (a b : Group) : Bool :=
  priOf s b < priOf s a || (priOf s a == priOf s b && a.age ≤ b.age)

def bestGroup (s : State) : List Group → Option Group
  | [] => none
  | g :: l =>
    match bestGroup s l with
    | some h => if groupBefore s g h then some g else some h
    | none => some g

/-- The group a quarter issues from. -/
def quarterGroup (s : State) (core quarter : Nat) : Option Group :=
  bestGroup s (s.groups.filter fun g => g.core == core && g.quarter == quarter && canIssue s g)

/-! ### Line checks -/

/-- What stands before an issue: the state in which the instruction issues, or a state in which nothing issued. -/
inductive Ready where
  | issue (s : State) (cur : Cur)
  | stopped (s : State)

/-- A line that is checked now, or the pc's own form (05 R77 to R79). -/
def checkLine (s : State) (core : Nat) (p : Partition) (codeBase : DWord) (emu : Bool) (pc : Word) : Fetched × State :=
  if !pcFormOk pc then (.fault causeLineWord 0, s)
  else
    match fetchLine s core p codeBase emu pc with
    | (.line b, s) => match lineFault b with | some c => (.fault c 0, s) | none => (.line b, s)
    | r => r

/-- The bytes of a line already checked. -/
def heldLine (l : Option (Word × List Byte)) (pc : Word) : Option (List Byte) :=
  match l with
  | some (line, b) => if line = pcLine pc && pcFormOk pc then some b else none
  | none => none

/-! ### A group's issue -/

/-- The run that issues: the one in progress, or a new one of the pc-set whose turn it is. Its lanes are parked no longer,
but for their place in a queue; lanes that waited for scratchpad lines acquire at cluster scope (03 R57). -/
def beginRun (s : State) (g : Group) : Option (State × Group × Run) :=
  match g.run with
  | some r => some (s, g, r)
  | none =>
    match nextSet s g with
    | none => none
    | some i =>
      let m := pcSetOf g i
      let waited := (laneList g.w m).any fun j => match (laneAt g j).park with | .lines _ => true | _ => false
      let s := if waited then acquireAt s g.core 2 else s
      let g := modLanes g m fun _ l => match l.park with | .queue _ _ => l | _ => { l with park := .none }
      some (s, g, ⟨m, 0, none, false⟩)

/-- The line of a pc for a run: held, or fetched and checked. -/
def runLine (s : State) (g : Group) (r : Run) (pc : Word) : Fetched × State :=
  match heldLine r.line pc with
  | some b => (.line b, s)
  | none =>
    match teamPartition s g.team with
    | some p => checkLine s g.core p (codeBaseOf s g.team) (inRoutine g r.lanes) pc
    | none => (.fault causeLineWord 0, s)

/-- A line check that fails stops the pc-set before its instruction (05 R80; 22 R349). -/
def lineTrap (s : State) (g : Group) (cur : Cur) (c : Cause) (page : Nat) : State :=
  trapHere s g cur { trapReq cur cur.active c (cur.pc.zeroExtend 64) with pages := [page] }

/-- Everything before the decode path (05 R101 step 1): the run, its line, and the target bit of a launch (05 R80). -/
def readyGroup (s : State) (gid : Nat) : Ready :=
  match findGroup s gid with
  | none => .stopped s
  | some g =>
    match beginRun s g with
    | none => .stopped s
    | some (s, g, r) =>
      match lowLane g.w r.lanes with
      | none => .stopped (putGroup s (endRun g))
      | some i =>
        let pc := (laneAt g i).pc
        let cur : Cur := ⟨.group gid, r.lanes, pc, false, 0, false⟩
        let g' := { g with run := some r }
        match runLine s g r pc with
        | (.fault c page, s) => .stopped (lineTrap s g' cur c page)
        | (.stream page, s) =>
          .stopped (parkHere s (splitSet g' r.lanes) cur (.stream page (trapReq cur r.lanes causeStreamFail (pc.zeroExtend 64))))
        | (.line b, s) =>
          let g' := { g with run := some { r with line := some (pcLine pc, b) }, lastLow := if g.run.isNone then some i else g.lastLow }
          if g.lastLow.isNone && !tgtBit b (pcSlot pc) then .stopped (lineTrap s g' cur causeIllegalTarget 0)
          else .issue (putGroup s g') { cur with sw := swBit b (pcSlot pc), raw := slotOf b (pcSlot pc) }

/-! ### A control thread's issue (17 R254) -/

def threadParkOver (s : State) (t : Thread) : Bool :=
  match t.park with
  | .none => true
  | .line team line => linePresent s team line
  | .tag tag => !((postedBy s t).any fun e => tagCovers tag e.tag)
  | .table _ => (quadAt s t.quad).table.length < tableSize && !tableBehind s t
  | .ppoint => (postedBy s t).isEmpty
  | .host _ _ | .stream _ _ => false

/-- A thread that can issue now. One whose partition has halted goes on to where it is saved (17 R256, R269; 19 R317). -/
def threadReady (s : State) (t : Thread) : Bool :=
  !t.exited && t.saved.isNone && !gateShut s t && threadParkOver s t
  && match findTeam s t.team with
    | some m => !m.ended && (m.place == .resident || (m.place == .saved && preempting s t.part))
    | none => false

/-- The next ready thread of a quad, from the slot after the one that issued last. -/
def nextThread (s : State) (quad : Nat) : Option Thread :=
  let ts := s.threads.filter fun t => t.quad == quad && threadReady s t
  (List.range 8).findSome? fun k => ts.find? fun t => t.slot == ((quadAt s quad).ctlNext + k) % 8

def threadLine (s : State) (t : Thread) : Fetched × State :=
  match heldLine t.line t.pc with
  | some b => (.line b, s)
  | none =>
    match teamPartition s t.team with
    | some p => checkLine s (leadCore t.quad) p (codeBaseOf s t.team) t.emu t.pc
    | none => (.fault causeLineWord 0, s)

/-- The line of the thread's pc is checked; the turn passes on once an instruction issues. -/
def readyThread (s : State) (t : Thread) : Ready :=
  let req (c : Cause) : TrapReq := threadReq t c t.pc (t.pc.zeroExtend 64)
  match threadLine s t with
  | (.fault c page, s) => .stopped (trapThread s t { req c with pages := [page] })
  | (.stream page, s) => .stopped (putThread s { t with park := .stream page (req causeStreamFail), line := none })
  | (.line b, s) =>
    if !t.started && !tgtBit b (pcSlot t.pc) then .stopped (trapThread s { t with started := true } (req causeIllegalTarget))
    else
      let s := modQuad s t.quad fun q => { q with ctlNext := (t.slot + 1) % 8 }
      .issue (putThread s { t with started := true, line := some (pcLine t.pc, b) })
        ⟨.thread t.team, 1, t.pc, swBit b (pcSlot t.pc), slotOf b (pcSlot t.pc), false⟩

end Sys2Proof.Machine
end

