-- ==== Sys2Proof/Machine/Dispatch.lean ====
section
/-! DEFINITION. Every instruction and every step of the device, each with its meaning. -/

namespace Sys2Proof.Machine

def exec (i : Instr) (s : State) : Host.Outcome State Fault Refusal :=
  match i with
  | .nop f => Sys2Proof.Machine.execNop f s
  | .exit f => Sys2Proof.Machine.execExit f s
  | .yield f => Sys2Proof.Machine.execYield f s
  | .sadd f => Sys2Proof.Machine.execSadd f s
  | .ssub f => Sys2Proof.Machine.execSsub f s
  | .smul f => Sys2Proof.Machine.execSmul f s
  | .smulh f => Sys2Proof.Machine.execSmulh f s
  | .smulhn f => Sys2Proof.Machine.execSmulhn f s
  | .sand f => Sys2Proof.Machine.execSand f s
  | .sor f => Sys2Proof.Machine.execSor f s
  | .sxor f => Sys2Proof.Machine.execSxor f s
  | .sandn f => Sys2Proof.Machine.execSandn f s
  | .sshl f => Sys2Proof.Machine.execSshl f s
  | .sshr f => Sys2Proof.Machine.execSshr f s
  | .ssra f => Sys2Proof.Machine.execSsra f s
  | .smin f => Sys2Proof.Machine.execSmin f s
  | .smax f => Sys2Proof.Machine.execSmax f s
  | .sminn f => Sys2Proof.Machine.execSminn f s
  | .smaxn f => Sys2Proof.Machine.execSmaxn f s
  | .smov f => Sys2Proof.Machine.execSmov f s
  | .sli f => Sys2Proof.Machine.execSli f s
  | .slih f => Sys2Proof.Machine.execSlih f s
  | .ssel f => Sys2Proof.Machine.execSsel f s
  | .sbfe f => Sys2Proof.Machine.execSbfe f s
  | .sbfi f => Sys2Proof.Machine.execSbfi f s
  | .spopc f => Sys2Proof.Machine.execSpopc f s
  | .sclz f => Sys2Proof.Machine.execSclz f s
  | .sbrev f => Sys2Proof.Machine.execSbrev f s
  | .scmp cond f => Sys2Proof.Machine.execScmp cond f s
  | .sdiv f => Sys2Proof.Machine.execSdiv f s
  | .sdivn f => Sys2Proof.Machine.execSdivn f s
  | .srem f => Sys2Proof.Machine.execSrem f s
  | .sremn f => Sys2Proof.Machine.execSremn f s
  | .vadd f => Sys2Proof.Machine.execVadd f s
  | .vsub f => Sys2Proof.Machine.execVsub f s
  | .vrsub f => Sys2Proof.Machine.execVrsub f s
  | .vmul f => Sys2Proof.Machine.execVmul f s
  | .vmulh f => Sys2Proof.Machine.execVmulh f s
  | .vmulhn f => Sys2Proof.Machine.execVmulhn f s
  | .vand f => Sys2Proof.Machine.execVand f s
  | .vor f => Sys2Proof.Machine.execVor f s
  | .vxor f => Sys2Proof.Machine.execVxor f s
  | .vandn f => Sys2Proof.Machine.execVandn f s
  | .vshl f => Sys2Proof.Machine.execVshl f s
  | .vshr f => Sys2Proof.Machine.execVshr f s
  | .vsra f => Sys2Proof.Machine.execVsra f s
  | .vmin f => Sys2Proof.Machine.execVmin f s
  | .vmax f => Sys2Proof.Machine.execVmax f s
  | .vabsd f => Sys2Proof.Machine.execVabsd f s
  | .vmad f => Sys2Proof.Machine.execVmad f s
  | .vmov f => Sys2Proof.Machine.execVmov f s
  | .vsel f => Sys2Proof.Machine.execVsel f s
  | .vbfe f => Sys2Proof.Machine.execVbfe f s
  | .vbfi f => Sys2Proof.Machine.execVbfi f s
  | .vpopc f => Sys2Proof.Machine.execVpopc f s
  | .vclz f => Sys2Proof.Machine.execVclz f s
  | .vbrev f => Sys2Proof.Machine.execVbrev f s
  | .vdot4 f => Sys2Proof.Machine.execVdot4 f s
  | .vdot2 f => Sys2Proof.Machine.execVdot2 f s
  | .vmadw f => Sys2Proof.Machine.execVmadw f s
  | .vicmp cond f => Sys2Proof.Machine.execVicmp cond f s
  | .vdiv f => Sys2Proof.Machine.execVdiv f s
  | .vdivn f => Sys2Proof.Machine.execVdivn f s
  | .vrem f => Sys2Proof.Machine.execVrem f s
  | .vremn f => Sys2Proof.Machine.execVremn f s
  | .vfadd f => Sys2Proof.Machine.execVfadd f s
  | .vfsub f => Sys2Proof.Machine.execVfsub f s
  | .vfmul f => Sys2Proof.Machine.execVfmul f s
  | .vfma f => Sys2Proof.Machine.execVfma f s
  | .vfms f => Sys2Proof.Machine.execVfms f s
  | .vfnma f => Sys2Proof.Machine.execVfnma f s
  | .vfnms f => Sys2Proof.Machine.execVfnms f s
  | .vfmin f => Sys2Proof.Machine.execVfmin f s
  | .vfmax f => Sys2Proof.Machine.execVfmax f s
  | .vfminn f => Sys2Proof.Machine.execVfminn f s
  | .vfmaxn f => Sys2Proof.Machine.execVfmaxn f s
  | .vfcpys f => Sys2Proof.Machine.execVfcpys f s
  | .vfcmp cond f => Sys2Proof.Machine.execVfcmp cond f s
  | .vfrcp f => Sys2Proof.Machine.execVfrcp f s
  | .vfrsq f => Sys2Proof.Machine.execVfrsq f s
  | .vfsqrt f => Sys2Proof.Machine.execVfsqrt f s
  | .vfexp2 f => Sys2Proof.Machine.execVfexp2 f s
  | .vflog2 f => Sys2Proof.Machine.execVflog2 f s
  | .vfsinp f => Sys2Proof.Machine.execVfsinp f s
  | .vfcosp f => Sys2Proof.Machine.execVfcosp f s
  | .vftanh f => Sys2Proof.Machine.execVftanh f s
  | .vfdiv f => Sys2Proof.Machine.execVfdiv f s
  | .vfsqrtc f => Sys2Proof.Machine.execVfsqrtc f s
  | .vfcvt f => Sys2Proof.Machine.execVfcvt f s
  | .vftoi f => Sys2Proof.Machine.execVftoi f s
  | .vitof f => Sys2Proof.Machine.execVitof f s
  | .vfrint f => Sys2Proof.Machine.execVfrint f s
  | .vfclass f => Sys2Proof.Machine.execVfclass f s
  | .vfgetx f => Sys2Proof.Machine.execVfgetx f s
  | .vfldx f => Sys2Proof.Machine.execVfldx f s
  | .vpadd f => Sys2Proof.Machine.execVpadd f s
  | .vpsub f => Sys2Proof.Machine.execVpsub f s
  | .vpmul f => Sys2Proof.Machine.execVpmul f s
  | .vpfma f => Sys2Proof.Machine.execVpfma f s
  | .vpmin f => Sys2Proof.Machine.execVpmin f s
  | .vpmax f => Sys2Proof.Machine.execVpmax f s
  | .vpack2 f => Sys2Proof.Machine.execVpack2 f s
  | .vunpk2 f => Sys2Proof.Machine.execVunpk2 f s
  | .vpack4 f => Sys2Proof.Machine.execVpack4 f s
  | .vunpk4 f => Sys2Proof.Machine.execVunpk4 f s
  | .vscl f => Sys2Proof.Machine.execVscl f s
  | .kand f => Sys2Proof.Machine.execKand f s
  | .kor f => Sys2Proof.Machine.execKor f s
  | .kxor f => Sys2Proof.Machine.execKxor f s
  | .kandn f => Sys2Proof.Machine.execKandn f s
  | .knot f => Sys2Proof.Machine.execKnot f s
  | .kmov f => Sys2Proof.Machine.execKmov f s
  | .kpopc f => Sys2Proof.Machine.execKpopc f s
  | .kffs f => Sys2Proof.Machine.execKffs f s
  | .kset f => Sys2Proof.Machine.execKset f s
  | .kget f => Sys2Proof.Machine.execKget f s
  | .ktov f => Sys2Proof.Machine.execKtov f s
  | .vtok f => Sys2Proof.Machine.execVtok f s
  | .vfaddx f => Sys2Proof.Machine.execVfaddx f s
  | .vfsubx f => Sys2Proof.Machine.execVfsubx f s
  | .vfmulx f => Sys2Proof.Machine.execVfmulx f s
  | .vfnorm f => Sys2Proof.Machine.execVfnorm f s
  | .dwadd f => Sys2Proof.Machine.execDwadd f s
  | .dwsub f => Sys2Proof.Machine.execDwsub f s
  | .dwmul f => Sys2Proof.Machine.execDwmul f s
  | .dwadds f => Sys2Proof.Machine.execDwadds f s
  | .dwmuls f => Sys2Proof.Machine.execDwmuls f s
  | .vredx f => Sys2Proof.Machine.execVredx f s
  | .vreddw f => Sys2Proof.Machine.execVreddw f s
  | .vdotx f => Sys2Proof.Machine.execVdotx f s
  | .vshfi f => Sys2Proof.Machine.execVshfi f s
  | .vshfu f => Sys2Proof.Machine.execVshfu f s
  | .vshfd f => Sys2Proof.Machine.execVshfd f s
  | .vshfx f => Sys2Proof.Machine.execVshfx f s
  | .vbcast f => Sys2Proof.Machine.execVbcast f s
  | .vredadd f => Sys2Proof.Machine.execVredadd f s
  | .vredmin f => Sys2Proof.Machine.execVredmin f s
  | .vredmax f => Sys2Proof.Machine.execVredmax f s
  | .vredand f => Sys2Proof.Machine.execVredand f s
  | .vredor f => Sys2Proof.Machine.execVredor f s
  | .vredxor f => Sys2Proof.Machine.execVredxor f s
  | .vredfadd f => Sys2Proof.Machine.execVredfadd f s
  | .vredfmin f => Sys2Proof.Machine.execVredfmin f s
  | .vredfmax f => Sys2Proof.Machine.execVredfmax f s
  | .vscani f => Sys2Proof.Machine.execVscani f s
  | .vscane f => Sys2Proof.Machine.execVscane f s
  | .vballot f => Sys2Proof.Machine.execVballot f s
  | .vany f => Sys2Proof.Machine.execVany f s
  | .vall f => Sys2Proof.Machine.execVall f s
  | .vmatch f => Sys2Proof.Machine.execVmatch f s
  | .ddx f => Sys2Proof.Machine.execDdx f s
  | .ddy f => Sys2Proof.Machine.execDdy f s
  | .ddxf f => Sys2Proof.Machine.execDdxf f s
  | .ddyf f => Sys2Proof.Machine.execDdyf f s
  | .vqswx f => Sys2Proof.Machine.execVqswx f s
  | .vqswy f => Sys2Proof.Machine.execVqswy f s
  | .vqswd f => Sys2Proof.Machine.execVqswd f s
  | .mstat f => Sys2Proof.Machine.execMstat f s
  | .bra f => Sys2Proof.Machine.execBra f s
  | .brx f => Sys2Proof.Machine.execBrx f s
  | .call f => Sys2Proof.Machine.execCall f s
  | .callx f => Sys2Proof.Machine.execCallx f s
  | .ret f => Sys2Proof.Machine.execRet f s
  | .meet f => Sys2Proof.Machine.execMeet f s
  | .join f => Sys2Proof.Machine.execJoin f s
  | .succ f => Sys2Proof.Machine.execSucc f s
  | .succ2 f => Sys2Proof.Machine.execSucc2 f s
  | .enter f => Sys2Proof.Machine.execEnter f s
  | .leave f => Sys2Proof.Machine.execLeave f s
  | .trap f => Sys2Proof.Machine.execTrap f s
  | .bkpt f => Sys2Proof.Machine.execBkpt f s
  | .tret f => Sys2Proof.Machine.execTret f s
  | .migrate f => Sys2Proof.Machine.execMigrate f s
  | .ld f => Sys2Proof.Machine.execLd f s
  | .ldnc f => Sys2Proof.Machine.execLdnc f s
  | .ldr f => Sys2Proof.Machine.execLdr f s
  | .st f => Sys2Proof.Machine.execSt f s
  | .stnc f => Sys2Proof.Machine.execStnc f s
  | .str f => Sys2Proof.Machine.execStr f s
  | .lds f => Sys2Proof.Machine.execLds f s
  | .sts f => Sys2Proof.Machine.execSts f s
  | .ldp f => Sys2Proof.Machine.execLdp f s
  | .stp f => Sys2Proof.Machine.execStp f s
  | .atom op f => Sys2Proof.Machine.execAtom op f s
  | .atomClasp f => Sys2Proof.Machine.execAtomClasp f s
  | .red op f => Sys2Proof.Machine.execRed op f s
  | .fence f => Sys2Proof.Machine.execFence f s
  | .lfence f => Sys2Proof.Machine.execLfence f s
  | .icinv f => Sys2Proof.Machine.execIcinv f s
  | .cinv f => Sys2Proof.Machine.execCinv f s
  | .cwb f => Sys2Proof.Machine.execCwb f s
  | .pref f => Sys2Proof.Machine.execPref f s
  | .cpy f => Sys2Proof.Machine.execCpy f s
  | .waitc f => Sys2Proof.Machine.execWaitc f s
  | .emit f => Sys2Proof.Machine.execEmit f s
  | .launch f => Sys2Proof.Machine.execLaunch f s
  | .getid f => Sys2Proof.Machine.execGetid f s
  | .clock f => Sys2Proof.Machine.execClock f s
  | .tex f => Sys2Proof.Machine.execTex f s
  | .texl f => Sys2Proof.Machine.execTexl f s
  | .texg f => Sys2Proof.Machine.execTexg f s
  | .texq f => Sys2Proof.Machine.execTexq f s
  | .rastq f => Sys2Proof.Machine.execRastq f s
  | .trace f => Sys2Proof.Machine.execTrace f s
  | .verdict f => Sys2Proof.Machine.execVerdict f s
  | .boxt f => Sys2Proof.Machine.execBoxt f s
  | .trit f => Sys2Proof.Machine.execTrit f s
  | .mma f => Sys2Proof.Machine.execMma f s
  | .mmas f => Sys2Proof.Machine.execMmas f s
  | .mscl f => Sys2Proof.Machine.execMscl f s
  | .mzero f => Sys2Proof.Machine.execMzero f s
  | .mcpyo f => Sys2Proof.Machine.execMcpyo f s
  | .mcpyi f => Sys2Proof.Machine.execMcpyi f s
  | .mwait f => Sys2Proof.Machine.execMwait f s
  | .ppoint f => Sys2Proof.Machine.execPpoint f s
  | .csrr f => Sys2Proof.Machine.execCsrr f s
  | .csrw f => Sys2Proof.Machine.execCsrw f s
  | .csrs f => Sys2Proof.Machine.execCsrs f s
  | .csrc f => Sys2Proof.Machine.execCsrc f s
  | .evrd f => Sys2Proof.Machine.execEvrd f s
  | .illegalOpcode w => Sys2Proof.Machine.execIllegalOpcode w s
  | .pendingResultLands group => Sys2Proof.Machine.execPendingResultLands group s
  | .runLimitSwitch group => Sys2Proof.Machine.execRunLimitSwitch group s
  | .yieldExpiry group => Sys2Proof.Machine.execYieldExpiry group s
  | .regroupTimeout team start => Sys2Proof.Machine.execRegroupTimeout team start s
  | .teamSwap team => Sys2Proof.Machine.execTeamSwap team s
  | .teamRestore team core => Sys2Proof.Machine.execTeamRestore team core s
  | .teamEnd team => Sys2Proof.Machine.execTeamEnd team s
  | .teamGateOpen team => Sys2Proof.Machine.execTeamGateOpen team s
  | .childLaunchValidate team => Sys2Proof.Machine.execChildLaunchValidate team s
  | .clusterAdmit grid cluster => Sys2Proof.Machine.execClusterAdmit grid cluster s
  | .recordGather op => Sys2Proof.Machine.execRecordGather op s
  | .recordGroupTimeout die entry => Sys2Proof.Machine.execRecordGroupTimeout die entry s
  | .gatheredGroupAdmit grid => Sys2Proof.Machine.execGatheredGroupAdmit grid s
  | .migrateLanding group => Sys2Proof.Machine.execMigrateLanding group s
  | .textureSample core => Sys2Proof.Machine.execTextureSample core s
  | .testUnitService core => Sys2Proof.Machine.execTestUnitService core s
  | .rasterClassify quad => Sys2Proof.Machine.execRasterClassify quad s
  | .softwareQueueAppend quad => Sys2Proof.Machine.execSoftwareQueueAppend quad s
  | .rayAccept quad => Sys2Proof.Machine.execRayAccept quad s
  | .rayTraverse quad ray => Sys2Proof.Machine.execRayTraverse quad ray s
  | .candidateGather quad ray => Sys2Proof.Machine.execCandidateGather quad ray s
  | .candidateGroupTimeout quad entry => Sys2Proof.Machine.execCandidateGroupTimeout quad entry s
  | .callbackGroupAdmit grid => Sys2Proof.Machine.execCallbackGroupAdmit grid s
  | .verdictApply quad => Sys2Proof.Machine.execVerdictApply quad s
  | .tileFetch quad entry => Sys2Proof.Machine.execTileFetch quad entry s
  | .mcpyoArm quad entry => Sys2Proof.Machine.execMcpyoArm quad entry s
  | .engineGrant quad => Sys2Proof.Machine.execEngineGrant quad s
  | .engineOpComplete quad => Sys2Proof.Machine.execEngineOpComplete quad s
  | .copyExecute op => Sys2Proof.Machine.execCopyExecute op s
  | .storePerformed op => Sys2Proof.Machine.execStorePerformed op s
  | .atomicPerform op => Sys2Proof.Machine.execAtomicPerform op s
  | .writeBufferCommit bank => Sys2Proof.Machine.execWriteBufferCommit bank s
  | .fenceComplete op => Sys2Proof.Machine.execFenceComplete op s
  | .lfenceComplete op => Sys2Proof.Machine.execLfenceComplete op s
  | .icinvAck op => Sys2Proof.Machine.execIcinvAck op s
  | .promotionRequest core => Sys2Proof.Machine.execPromotionRequest core s
  | .homeEviction ty line => Sys2Proof.Machine.execHomeEviction ty line s
  | .pageWalk die => Sys2Proof.Machine.execPageWalk die s
  | .streamFill die => Sys2Proof.Machine.execStreamFill die s
  | .queueDoorbell part queue value => Sys2Proof.Machine.execQueueDoorbell part queue value s
  | .queueControlWrite part queue value => Sys2Proof.Machine.execQueueControlWrite part queue value s
  | .queueBaseWrite part queue value => Sys2Proof.Machine.execQueueBaseWrite part queue value s
  | .prngseedWrite part value => Sys2Proof.Machine.execPrngseedWrite part value s
  | .prngstateWrite part value => Sys2Proof.Machine.execPrngstateWrite part value s
  | .privpoolWrite part reg value => Sys2Proof.Machine.execPrivpoolWrite part reg value s
  | .regionTableWrite part index bytes => Sys2Proof.Machine.execRegionTableWrite part index bytes s
  | .registerWrite part reg value => Sys2Proof.Machine.execRegisterWrite part reg value s
  | .lotteryDraw part => Sys2Proof.Machine.execLotteryDraw part s
  | .packetValidate part => Sys2Proof.Machine.execPacketValidate part s
  | .tileLaunch part pass => Sys2Proof.Machine.execTileLaunch part pass s
  | .thermalUpdate die temps power => Sys2Proof.Machine.execThermalUpdate die temps power s
  | .jobDeadline job => Sys2Proof.Machine.execJobDeadline job s
  | .preemptHalt part => Sys2Proof.Machine.execPreemptHalt part s
  | .preemptReset part => Sys2Proof.Machine.execPreemptReset part s
  | .create fn args => Sys2Proof.Machine.execCreate fn args s
  | .destroy fn args => Sys2Proof.Machine.execDestroy fn args s
  | .preempt fn args => Sys2Proof.Machine.execPreempt fn args s
  | .resume fn args => Sys2Proof.Machine.execResume fn args s
  | .shootdown fn args => Sys2Proof.Machine.execShootdown fn args s
  | .faultAnswer fn args => Sys2Proof.Machine.execFaultAnswer fn args s
  | .debugResume fn args => Sys2Proof.Machine.execDebugResume fn args s
  | .patchLoad fn args => Sys2Proof.Machine.execPatchLoad fn args s
  | .raiseFloor fn args => Sys2Proof.Machine.execRaiseFloor fn args s
  | .evict fn args => Sys2Proof.Machine.execEvict fn args s
  | .reload fn args => Sys2Proof.Machine.execReload fn args s
  | .flashWrite fn args => Sys2Proof.Machine.execFlashWrite fn args s
  | .attest fn args => Sys2Proof.Machine.execAttest fn args s
  | .hostGddrAccess addr count data => Sys2Proof.Machine.execHostGddrAccess addr count data s
  | .eventRecordDeliver fn => Sys2Proof.Machine.execEventRecordDeliver fn s
  | .hostLinkDown => Sys2Proof.Machine.execHostLinkDown s
  | .ucieRetrain die link ok => Sys2Proof.Machine.execUcieRetrain die link ok s
  | .dvfsSample moves => Sys2Proof.Machine.execDvfsSample moves s
  | .backgroundScrub die unit addr => Sys2Proof.Machine.execBackgroundScrub die unit addr s
  | .rowRepair die column bank row => Sys2Proof.Machine.execRowRepair die column bank row s
  | .powerOn inp => Sys2Proof.Machine.execPowerOn inp s
  | .powerOff => Sys2Proof.Machine.execPowerOff s
  | .hostLinkTrained => Sys2Proof.Machine.execHostLinkTrained s
  | .cxlCacheSnoop addr data => Sys2Proof.Machine.execCxlCacheSnoop addr data s

end Sys2Proof.Machine
end

