-- ==== Sys2Proof/Machine/Issue.lean ====
section
/-! DEFINITION. Issuing through the decode path of the Bezel (23 R351 to R355), and the step of one mover. -/

namespace Sys2Proof.Machine

/-- An instruction is executed for an issuer. -/
def runExec (i : Instr) (s : State) (cur : Cur) : Result :=
  match exec i { s with cur := some cur } with
  | .next s => .next { s with cur := none }
  | r => r

/-! ### EMULATE (23 R355) -/

/-- The matched set goes to a routine once its run has ended; it waits while another lane set is in one (log entry 20). -/
def emulate (s : State) (g : Group) (cur : Cur) (p : PatchSlot) : State :=
  if g.emu && !inRoutine g cur.active then parkHere s g cur .emulation
  else
    let e : After := .emulate cur.active p.target (BitVec.ofNat 10 p.arg) (pcNext cur.pc) (cur.raw.extractLsb' 0 64)
    switchRun s { splitSet (countRun g) cur.active with after := g.after ++ [e] }

/-! ### REWRITE (23 R353, R354) -/

/-- A substitution in progress: the state it acts on, the lanes still in it, the traps of the others, and the status bits
of each lane. -/
structure Subst where
  s : State
  active : DWord
  traps : List TrapReq
  flags : List (Nat × (BitVec 6))

/-- How a substitute ends: the substitution goes on, or the matched instruction waits or halts before it. -/
inductive SubstEnd where
  | go (x : Subst)
  | park (s : State) (p : Park)
  | halt (s : State)

/-- Registers that a substitute's own vector fields may touch, in blocks of eight. -/
def touchedBlocks (w : SlotBits) (temps : List Nat) (i : Instr) : List Nat :=
  ((List.range 4).filter fun k => vectorField i k && !temps.contains k).flatMap fun k =>
    let b := (regField w k).toNat / 8
    [b, b + 1, b + 2]

/-- A block of eight registers that stands in for the temporaries. -/
def tempBlock (w : SlotBits) (temps : List Nat) (i : Instr) : Nat :=
  8 * (((List.range 31).find? fun b => !(touchedBlocks w temps i).contains b).getD 0)

/-- The substitute with its temporaries named in a block. -/
def placeTemps (w : SlotBits) (temps : List Nat) (base : Nat) : SlotBits :=
  temps.foldl (fun w k => setField w (20 + 8 * k) 8 (BitVec.ofNat 96 (base + (regField w k).toNat % 8))) w

/-- A lane whose temporaries stand in a block of its registers. -/
def swapIn (base : Nat) (l : Lane) : Lane :=
  let v := l.v ++ List.replicate (256 - l.v.length) 0
  { l with v := v.take base ++ (List.range 8).map (l.t.getD · 0) ++ v.drop (base + 8) }

/-- The temporaries taken out again, the block as it was. -/
def swapOut (base : Nat) (old l : Lane) : Lane :=
  let kept := l.v.take base ++ ((old.v ++ List.replicate (256 - old.v.length) 0).drop base).take 8 ++ l.v.drop (base + 8)
  { l with t := (l.v.drop base).take 8, v := kept.take old.v.length }

def zipLanes (f : Lane → Lane → Lane) (old new : List Lane) : List Lane := (old.zip new).map fun x => f x.1 x.2

/-- Results of a substitute land before the next one issues. -/
def landSubst : Nat → State → Nat → State
  | 0, s, _ => s
  | n + 1, s, gid =>
    match oldestOwed s gid with
    | some o => if landable s o then landSubst n (landOp s o true) gid else s
    | none => s

def finishSubst (s : State) (gid : Nat) : State :=
  if (owing s gid).isEmpty then s
  else
    let s := performAll s gid
    landSubst (groupOps s gid).length s gid

/-- The first lane of a set with a park. -/
def parkOf (g : Group) (m : DWord) : Option Park :=
  ((laneList g.w m).find? fun i => (laneAt g i).park != .none && (laneAt g i).park != .trap).map fun i => (laneAt g i).park

/-- Operations that a substitution has begun leave with it. -/
def dropOwed (s : State) (gid first : Nat) : State := { s with ops := s.ops.filter fun o => o.group != gid || o.id < first }

/-- The group as it was before the substitution. -/
def undoGroup (s : State) (old : Group) (first : Nat) : State := dropOwed (putGroup s old) old.id first

/-- What the first result owed still waits for: a stream page, or an earlier operation of its core. -/
def owedWait (s : State) (cur : Cur) (gid first : Nat) : Option Park :=
  (owing s gid).head?.map fun o =>
    let page : Option Nat := match o.kind with
      | .load accs .. => accs.findSome? fun a => match a.loc with | .stream va => some va | _ => none
      | _ => none
    match page with
    | some va => .stream (va / 65536) (trapReq cur cur.active causeStreamFail (canonicalVa va))
    | none =>
      match s.ops.find? fun q => q.core == o.core && q.id < first && !performed q with
      | some q => .op q.id
      | none => .none

/-- Lanes whose status bits are enabled trap at the matched pc; those of the others are kept (07 R125; 23 R353). -/
def arithTraps (cur : Cur) (g : Group) (l : List (Nat × (BitVec 6))) : List TrapReq :=
  let en (b : BitVec 6) : BitVec 6 := g.ften.extractLsb' 0 6 &&& b
  let bad := l.filter fun x => en x.2 != 0
  let bits := bad.foldl (fun b x => b ||| en x.2) 0
  if bad.isEmpty then []
  else [⟨(arithCause bits).getD 0x080, laneSet (bad.map (·.1)), cur.pc, BitVec.ofNat 64 (cur.pc.toNat + bits.toNat * 2 ^ 32), [],
    (laneList g.w cur.active).map fun l => (l, pcNext cur.pc), false⟩]

def arithOf (g : Group) : List (Nat × (BitVec 6)) :=
  g.after.filterMap fun a => match a with | .arith m bits _ _ => (lowLane g.w m).map fun i => (i, bits) | _ => none
def trapsOf (g : Group) : List TrapReq := g.after.filterMap fun a => match a with | .trap r => some r | _ => none

/-- What an executed substitute leaves: its traps, its status bits, the lanes that go on. -/
def collectSubst (x : Subst) (cur : Cur) (s : State) (old g : Group) : Subst :=
  let flags := arithOf g
  let traps := trapsOf g ++ arithTraps cur g flags
  let gone := traps.foldl (fun m r => m ||| r.lanes) 0
  { s := putGroup s { g with after := old.after, vn := old.vn }
    active := x.active &&& ~~~gone
    traps := x.traps ++ traps
    flags := x.flags ++ flags }

/-- One substitute. `old` is the group before the substitution, `first` the number of the next operation then. -/
def oneSubst (x : Subst) (cur : Cur) (old : Group) (first : Nat) (e : SlotBits × Word) : SubstEnd :=
  match findGroup x.s old.id with
  | none => .go x
  | some g =>
    let w := substituteOf cur.raw e.1 e.2
    let temps := tempFields e.2
    let i := instrOf w
    let now : Cur := { cur with active := x.active, raw := w, subst := true }
    let bad := match i with
      | .illegalOpcode w => some (rejectCause (groupEnv x.s g x.active) w)
      | i => checkInstr (groupEnv x.s g x.active) i
    match bad with
    | some c => .go { x with active := 0, traps := x.traps ++ [trapReq now x.active c (w.extractLsb' 0 64)] }
    | none =>
      let base := tempBlock w temps i
      let g' := if temps.isEmpty then g else { g with vn := 256, lanes := g.lanes.map (swapIn base) }
      match runExec (instrOf (placeTemps w temps base)) (putGroup x.s g') now with
      | .next s =>
        match findGroup s old.id with
        | none => .go { x with s := s }
        | some h =>
          match parkOf h x.active with
          | some .debug => .halt (undoGroup s old first)
          | some p => .park (undoGroup s old first) p
          | none =>
            let s := finishSubst s old.id
            match owedWait s cur old.id first with
            | some p => .park (undoGroup s old first) p
            | none =>
              match findGroup s old.id with
              | none => .go { x with s := s }
              | some h =>
                let h := if temps.isEmpty then h else { h with lanes := zipLanes (swapOut base) g.lanes h.lanes }
                .go (collectSubst x cur s old h)
      | _ => .go x

def substAll (cur : Cur) (old : Group) (first : Nat) : List (SlotBits × Word) → Subst → SubstEnd
  | [], x => .go x
  | e :: l, x =>
    if x.active = 0 then .go x
    else
      match oneSubst x cur old first e with
      | .go x => substAll cur old first l x
      | r => r

/-- Lanes that trapped have the registers, mask bits and parks they had. -/
def discardLanes (old g : Group) (m : DWord) : Group :=
  { g with
    lanes := g.lanes.mapIdx fun i l => if m.getLsbD i then { laneAt old i with t := l.t } else l
    k := g.k.mapIdx fun r x => (x &&& ~~~m) ||| (old.k.getD r 0 &&& m)
    s := if old.lanes.length ≤ (laneList g.w m).length then old.s else g.s }

/-- The substitution is over: its writes are committed for the lanes that completed, the others trap, and the run ends. -/
def commitSubst (x : Subst) (cur : Cur) (old : Group) : State :=
  match findGroup x.s old.id with
  | none => x.s
  | some g =>
    let gone := cur.active &&& ~~~x.active
    let g := discardLanes old g gone
    let g := if x.active = 0 then { g with s := old.s } else g
    let kept := (x.flags.filter fun f => x.active.getLsbD f.1).foldl (fun b f => b ||| f.2.zeroExtend 7) (0 : FlagSet)
    let g := { g with fst := if x.active = 0 then g.fst else fstAfter g.fst kept }
    let g := x.traps.foldl deferTrap (releaseJoins (setPcs g x.active (pcNext cur.pc)))
    let g := stepDone (useSkips (countRun g) cur) x.active cur.pc
    noteIssued (switchRun (countEvent x.s g.core 1) g) g.id

/-- Temporaries undefined at the start (23 R354). -/
def freeTemps (fresh : Nat) (g : Group) : Group :=
  { g with lanes := g.lanes.mapIdx fun i l => { l with t := (List.range 8).map fun n => Config.freeWord (fresh + 8 * i + n) } }

/-- REWRITE: the run ends before the matched instruction; then its substitutes execute as one. -/
def rewrite (s : State) (g : Group) (cur : Cur) (p : PatchSlot) : State :=
  if (match g.run with | some r => r.count != 0 | none => false) then switchRun s g
  else
    match breakPc s g cur with
    | some (c, false) => trapHere s g cur (controlReq (instrOf cur.raw) g cur 0x280 (BitVec.ofNat 64 c))
    | some (_, true) => debugHalt s g cur 0x280
    | none =>
      let old := freeTemps s.fresh g
      let s := putGroup { s with fresh := s.fresh + 512 } old
      let micro := (dieAt s (dieOfCore g.core)).bezel.micro
      match substAll cur old s.nextId ((micro.drop p.target.toNat).take p.arg) ⟨s, cur.active, [], []⟩ with
      | .go x => commitSubst x cur old
      | .park s q => parkHere s old cur q
      | .halt s => debugHalt s old cur 0x281

/-- The decode path acts (23 R352). -/
def bezelAct (s : State) (g : Group) (cur : Cur) (p : PatchSlot) : State :=
  match p.action with
  | 0 => trapHere s g cur (trapReq cur cur.active (BitVec.ofNat 10 p.arg) (cur.raw.extractLsb' 0 64))
  | 1 => rewrite s g cur p
  | _ => emulate s g cur p

/-! ### The issue of a group and of a control thread -/

/-- A group issues the instruction at its pc, or does what stands in the way. -/
def issueFrom (s : State) (gid : Nat) : Result :=
  match readyGroup s gid with
  | .stopped s => .next s
  | .issue s cur =>
    match findGroup s gid with
    | none => .next s
    | some g =>
      match decodeSlot (dieAt s (dieOfCore g.core)) cur.raw cur.pc with
      | some p => .next (bezelAct s g cur p)
      | none => runExec (instrOf cur.raw) s cur

/-- A control thread issues the instruction at its pc; the decode path does not examine it (23 R351). -/
def issueCtl (s : State) (t : Thread) : Result :=
  match readyThread s t with
  | .stopped s => .next s
  | .issue s cur => runExec (instrOf cur.raw) s cur

/-! ### Moves -/

def dropFetch (s : State) (core va : Nat) : State := modCore s core fun c => { c with icache := c.icache.filter (·.va != va) }

/-- A word that an uncorrectable error can destroy: of memory in a cache or in the stack (01 R34). -/
def canFail (s : State) (l : Loc) : Bool :=
  match l with
  | .page .peer _ _ => false
  | .page ty pa _ => (s.cores.any fun c => (l1At c ty (pa / 64)).isSome)
      || s.quads.any fun q => (sliceAt q ty (pa / 256)).isSome || (homeAt q ty (pa / 256)).isSome
  | .scratch team off => match findTeam s team with | some t => off < t.packet.scratch | none => false
  | .ring part tr tile _ => (findBlock s part tr tile).isSome
  | .stream _ => false

/-- A soft error (01 R34): a corrected one is counted (25 R390); another loses a word until it is written again. -/
def softError (e : SoftError) (s : State) : State :=
  match e with
  | .corrected die => if die < 4 then countDie s die 9 else s
  | .memory l => if canFail s l then { s with bad := s.bad ++ [⟨(eccWord l).1, 0xFF⟩] } else s
  | .register gid r =>
    modGroup s gid fun g =>
      if (r.file = 0 ∧ r.lane < g.w ∧ r.reg < g.vn) ∨ (r.file = 1 ∧ r.lane = 0 ∧ r.reg < 64) ∨ (r.file = 2 ∧ r.lane = 0 ∧ 1 ≤ r.reg ∧ r.reg < 16)
      then { g with bad := r :: g.bad } else g
  | .control team r => modThread s team fun t => if r < 32 then { t with bad := r :: t.bad } else t
  | .tile team n => modTeam s team fun t => if n < t.tiles.length then { t with badTiles := n :: t.badTiles } else t

/-- One mover acts: a quarter, a control core, the device, a cache that loses a line, a peer, or chance. -/
def runMove (m : Move) (s : State) : Result :=
  match m with
  | .issue core quarter => match quarterGroup s core quarter with | some g => issueFrom s g.id | none => .next s
  | .control quad => match nextThread s quad with | some t => issueCtl s t | none => .next s
  | .event i => exec i s
  | .evictL1 core line => match (coreAt s core).l1[line]? with | some l => .next (evictLine s core l) | none => .next s
  | .evictSlice quad line => match (quadAt s quad).slice[line]? with | some l => .next (evictSliceLine s quad l) | none => .next s
  | .evictFetch core va => .next (dropFetch s core va)
  | .peerArrives group => .next (peerArrive s group)
  | .acknowledge part => .next (acknowledge s part)
  | .softError e => .next (softError e s)

/-! ### The order when no input is given (log entry 2) -/

/-- The groups and threads that can issue. -/
def issuers (s : State) : List Move :=
  ((s.groups.filter (canIssue s)).map fun g => Move.issue g.core g.quarter)
    ++ (s.threads.filter (threadReady s)).map fun t => Move.control t.quad

/-- What a step does with a state. -/
abbrev Act := State → Result

/-- Steps the device may take of its own. -/
def groupEvents (s : State) : List Act :=
  s.groups.flatMap fun g => [execPendingResultLands g.id, execRunLimitSwitch g.id, execYieldExpiry g.id, execMigrateLanding g.id]

def teamEvents (s : State) : List Act :=
  s.teams.flatMap fun t =>
    [execTeamEnd t.id, execTeamGateOpen t.id, execChildLaunchValidate t.id, execTeamSwap t.id]
      ++ (t.gatherings.map fun h => execRegroupTimeout t.id h.start) ++ (clusterCores s t).map fun c => execTeamRestore t.id c

def gridEvents (s : State) : List Act :=
  s.grids.flatMap fun g => ((waitingOf g).map fun c => execClusterAdmit g.id c) ++ [execGatheredGroupAdmit g.id, execCallbackGroupAdmit g.id]

def opEvents (s : State) : List Act :=
  s.ops.flatMap fun o =>
    [execStorePerformed o.id, execAtomicPerform o.id, execCopyExecute o.id, execFenceComplete o.id, execLfenceComplete o.id, execIcinvAck o.id,
      execRecordGather o.id] ++ (if performed o then [] else (awaitedPromotions s o).map execPromotionRequest)

/-- Quads that hold work, and cores whose queues hold entries. -/
def unitEvents (s : State) : List Act :=
  let cores := ((s.ops.filter (·.queue.isSome)).map (·.core)).eraseDups
  let quads := (List.range 64).filter fun q =>
    let d := quadAt s q
    !(d.table.isEmpty && d.rays.isEmpty && d.batches.isEmpty && d.cands.isEmpty) || d.busy.isSome || cores.any (quadOfCore · == q)
  (cores.flatMap fun c => [execTextureSample c, execTestUnitService c])
    ++ quads.flatMap fun q =>
      let d := quadAt s q
      [execRasterClassify q, execSoftwareQueueAppend q, execRayAccept q, execVerdictApply q, execEngineGrant q, execEngineOpComplete q]
        ++ (d.rays.flatMap fun r => [execRayTraverse q r.slot, execCandidateGather q r.slot])
        ++ (d.cands.map fun g => execCandidateGroupTimeout q g.shader.toNat)
        ++ d.table.flatMap fun e => [execTileFetch q e.id, execMcpyoArm q e.id]

def dieEvents (s : State) : List Act :=
  (List.range 4).flatMap fun d =>
    [execPageWalk d, execStreamFill d] ++ (dieAt s d).gather.map fun g => execRecordGroupTimeout d g.entry

def bufferEvents (s : State) : List Act :=
  (List.range s.cores.length).flatMap fun c => (((coreAt s c).wbuf.map (·.1)).eraseDups).map fun b => execWriteBufferCommit (16 * c + b)

def partEvents (s : State) : List Act :=
  (s.parts.flatMap fun p =>
    [execLotteryDraw p.idx, execPacketValidate p.idx, execPreemptHalt p.idx, execPreemptReset p.idx, execEventRecordDeliver (p.idx + 1)]
      ++ match p.graph with
        | some g => (List.range g.passes.length).map fun i => execTileLaunch p.idx i
        | none => []) ++ (s.jobs.map fun j => execJobDeadline j.id) ++ [execEventRecordDeliver 0]

/-- Posted writes arrive, and shootdowns complete. -/
def lateEvents (s : State) : List Act :=
  ((s.posted.map (·.group)).eraseDups).map (fun g s => .next (peerArrive s g))
    ++ s.parts.map fun p s => .next (acknowledge s p.idx)

def ownEvents (s : State) : List Act :=
  lateEvents s ++ opEvents s ++ groupEvents s ++ unitEvents s ++ teamEvents s ++ gridEvents s ++ partEvents s ++ dieEvents s ++ bufferEvents s

/-- An act that would change something. -/
def acts (s : State) (f : Act) : Bool := match f s with | .next t => t != s | _ => false

/-- A list turned so that every element comes first in its time. -/
def rotate {α : Type} (n : Nat) (l : List α) : List α := l.drop (n % l.length) ++ l.take (n % l.length)

/-- What is done when no input is given: issues and the device's own steps by turns. -/
def defaultAct (s : State) : Option Act :=
  let n := s.turn / 2
  let first (_ : Unit) : Option Act := (rotate n (issuers s)).head?.map runMove
  let second (_ : Unit) : Option Act := (rotate n (ownEvents s)).find? (acts s)
  if s.turn % 2 = 0 then (first ()).orElse second else (second ()).orElse first

/-! ### After a step -/

/-- Time passes, parked teams are noted, and idle threads of a partition under pre-emption are saved. -/
def afterStep (s : State) : State :=
  let ticks := Config.stepTicks s.fresh
  let s := passTime { s with fresh := s.fresh + 1 } ticks
  let s := s.parts.foldl (fun s p => if p.state == .running then s else saveIdle s p.idx) s
  noteParked s

def closeStep (r : Result) : Result := match r with | .next s => .next (afterStep s) | r => r

end Sys2Proof.Machine
end

