-- ==== Sys2Proof/Machine/Install.lean ====
section
/-! DEFINITION. A program of one instruction put where the machine fetches it (log entry 1): what the host would have
placed and launched, for questions about single instructions. -/

namespace Sys2Proof.Machine

def installRoot : Nat := 0x1000
def installTable : Nat := 0x2000
def installCode : Nat := 0x10000

/-- A kernel of one quad-bound team of one group of 16 lanes and 256 registers, eight tiles and a control thread. -/
def installPacket : Packet where
  kind := 2
  wcode := 0
  vregs := 32
  pri := 0
  heavy := 0
  entry := 0
  codeBase := BitVec.ofNat 64 installCode
  resBase := 0x20000
  args := 0x30000
  gridX := 1
  gridY := 1
  gridZ := 1
  teamLanes := 16
  clw := 1
  clh := 1
  scratch := 4096
  acct := 8
  flags := 0x0A
  pde := 0
  ctlEntry := 0
  privB := 0
  place := 0
  mapLen := 0
  deadline := 0
  joinAddr := noJoin
  specBase := 0
  reservedZero := true

/-- Die 0 as one partition, its device-physical memory on the die's own channels. -/
def installPart : Partition :=
  { newPartition 0 1 0x358 (List.range 64) with
    ptroot := BitVec.ofNat 64 installRoot
    regions := ⟨0, 0x40000000, 1, 0xF, 12, 1, List.replicate 12 0⟩ :: List.replicate 63 emptyRegion }

/-- A line whose first slot holds an instruction: every slot may be entered, no slot has SW (05 R75 to R77). -/
def installLine (w : SlotBits) : List Byte :=
  let body := natBytes 12 w.toNat ++ List.replicate 48 0
  body ++ natBytes 4 (31 + (lineParity body).toNat * 2 ^ 24)

/-- The line at the code base, and page tables that map the first GiB of the code window onto itself. -/
def installMemory (m : Memory) (line : List Byte) : Memory :=
  let m := writeBytes m installRoot (natBytes 8 (installTable + 1))
  let m := writeBytes m installTable (natBytes 8 0x0F)
  writeBytes m installCode line

def installTeam (id : Nat) : Team where
  id := id
  part := 0
  grid := id + 2
  cluster := 0
  idx := 0
  column := 0
  core := 0
  packet := installPacket
  origin := .host 0
  root := BitVec.ofNat 64 installRoot
  tileXY := 0
  scratch := Memory.empty
  absent := []
  pendLaunch := []
  gated := true
  gateMark := some 0
  gateOpen := true
  privAlloc := none
  place := .resident
  parkedSince := none
  shadow := []
  tiles := List.replicate 8 Memory.empty
  badTiles := []
  gatherings := []
  areas := [(0, 0)]
  granted := [0]
  ended := false
  job := none
  rays := []

def installGrid (id : Nat) : Grid where
  id := id + 2
  part := 0
  packet := installPacket
  origin := .host 0
  root := BitVec.ofNat 64 installRoot
  trapVec := 0xFFFFFFFF
  total := 1
  next := 1
  passed := []
  map := []
  deferred := []
  job := none
  join := none
  records := []
  rays := []

/-- The X format issues on the quad control core, every other format in a group (17 R254). -/
def installMove (w : SlotBits) : Move := if formatOf (majorOf w) = .x then .control 0 else .issue 0 0

/-- A package in which the very next step issues the instruction of a slot. -/
def installWord (s : State) (w : SlotBits) : State :=
  let id := s.nextId
  { s with
    powered := true
    booted := true
    linkUp := true
    dies := s.dies.modify 0 fun d => { d with l2tlb := [], missQ := [], areas := [0], bezel := Bezel.reset }
    cores := s.cores.modify 0 fun _ => Core.reset
    quads := s.quads.modify 0 fun _ => Quad.reset
    parts := [installPart]
    grids := [installGrid id]
    jobs := []
    teams := [installTeam id]
    groups := [launchGroup installPacket (id + 1) id 0 0 0 (0, 0) 0 0xFFFFFFFF 16]
    threads := [launchThread installPacket id 0 0 0 0 0xFFFFFFFF]
    ops := []
    homes := []
    bad := []
    gddr := installMemory s.gddr (installLine w)
    nextId := id + 3
    agenda := [installMove w]
    cur := none }

end Sys2Proof.Machine
end

