-- ==== Sys2Proof/Machine/Step.lean ====
section
/-! DEFINITION. One step of the package (log entry 2), and the state in which a given instruction is the next one. -/

namespace Sys2Proof.Machine

/-- The next input if there is one, else what the package does of its own; then time passes. -/
def step (s : State) : Host.Outcome State Fault Refusal :=
  match s.agenda with
  | m :: rest => closeStep (runMove m { s with agenda := rest })
  | [] => closeStep (match defaultAct s with | some f => f { s with turn := s.turn + 1 } | none => .next { s with turn := s.turn + 1 })

/-- The state in which the very next step fetches and runs the instruction of the given bits (log entry 1). -/
def State.withFetchWord (s : State) (_nbits w : Nat) : State := installWord s (BitVec.ofNat 96 w)

end Sys2Proof.Machine
end

