-- ==== Sys2Proof/WellFormed.lean ====
section
/-! DEFINITION. Which terms are instructions: an operand term that a slot can hold, and the decode checks of 05 R101. -/

namespace Sys2Proof

/-- A term that a slot value decodes to (05 R100, R103): every operand field has its width by type, so all but the steps
of the device and the values that are no instruction. -/
def inSlot (i : Instr) : Bool := (encode i).isSome

/-- An instruction that passes the decode checks 4 to 8 of 05 R101 for an issuer. -/
def wellFormed (env : CheckEnv) (i : Instr) : Bool := inSlot i && (checkInstr env i).isNone

/-- A vector pc-set of user privilege with all 256 registers in a quad-bound kernel of eight tiles. -/
def fullVector : CheckEnv := ⟨false, 256, 8, true, false⟩

/-- A control thread of the same kernel. -/
def fullControl : CheckEnv := ⟨true, 32, 8, false, false⟩

end Sys2Proof
end

