-- ==== Sys2Proof/Safety.lean ====
section
/-! DEFINITION. The terms in which claims are made: when an instruction has its own effect, what it leaves alone, and what
its results look like. -/

namespace Sys2Proof.Machine

/-! ### When an instruction has its own effect -/

/-- The issue in hand is that of `i` by the pc-set `cur` of group `g`: the checks of 05 R101 let it through, the HEAVY cap
is not reached, no PC comparator matches, no register it reads holds an uncorrectable error (01 R34), and it is no
substitute of the Bezel. -/
abbrev Issuing (s : State) (g : Group) (cur : Cur) (i : Instr) : Prop :=
  s.cur = some cur ∧ cur.who = .group g.id ∧ findGroup s g.id = some g ∧ cur.subst = false
    ∧ checkInstr (groupEnv s g cur.active) i = none ∧ heavyBlocked s g i = false ∧ breakPc s g cur = none
    ∧ eccReads s g i cur.active = []

/-- The slot does not end the run, no event of the group waits for the end of the run, and the group is not stepped. -/
abbrev MidRun (g : Group) (cur : Cur) : Prop := cur.sw = false ∧ g.after = [] ∧ g.stepping = none

/-- The issue in hand is that of `i` by control thread `t`, which is not stepped; the checks of 05 R101 let it through, and
no register it reads holds an uncorrectable error. -/
abbrev IssuingCtl (s : State) (t : Thread) (cur : Cur) (i : Instr) : Prop :=
  s.cur = some cur ∧ cur.who = .thread t.team ∧ findThread s t.team = some t
    ∧ checkInstr (threadEnv s t) i = none ∧ t.stepping = false ∧ (threadReads i).find? t.bad.contains = none

/-! ### What an instruction leaves alone -/

/-- Every memory outside the teams and the rings. -/
abbrev SameMemory (s u : State) : Prop :=
  u.gddr = s.gddr ∧ u.hostMem = s.hostMem ∧ u.peerMem = s.peerMem ∧ u.nvme = s.nvme ∧ u.flash = s.flash

/-- A core without its event counters. -/
def Core.bare (c : Core) : Core := { c with counters := [] }
/-- A die without its event counters. -/
def Die.bare (d : Die) : Die := { d with counters := [] }
/-- A group without the count of those it yields to. -/
def Group.bare (g : Group) : Group := { g with yield := none }

/-- All that stands outside one group is as before: memories, scratchpads and tiles (in the teams), rings and registers of
the partitions, caches, engines, control threads, operations in flight; event counters may count, and a group that yields
may wait for one group fewer. -/
abbrev Apart (s u : State) (gid : Nat) : Prop :=
  SameMemory s u ∧ u.teams = s.teams ∧ u.threads = s.threads ∧ u.parts = s.parts ∧ u.quads = s.quads ∧ u.grids = s.grids
    ∧ u.jobs = s.jobs ∧ u.homes = s.homes ∧ u.funcs = s.funcs
    ∧ u.cores.map Core.bare = s.cores.map Core.bare ∧ u.dies.map Die.bare = s.dies.map Die.bare
    ∧ ∀ n, n ≠ gid → (findGroup u n).map Group.bare = (findGroup s n).map Group.bare

/-- All that stands outside one control thread is as before. -/
abbrev ApartCtl (s u : State) (team : Nat) : Prop :=
  SameMemory s u ∧ u.teams = s.teams ∧ u.groups = s.groups ∧ u.parts = s.parts ∧ u.quads = s.quads ∧ u.grids = s.grids
    ∧ u.jobs = s.jobs ∧ u.homes = s.homes ∧ u.funcs = s.funcs ∧ u.cores = s.cores ∧ u.dies = s.dies ∧ u.ops = s.ops
    ∧ ∀ n, n ≠ team → findThread u n = findThread s n

/-- `g` with the bookkeeping of a run as in `like`: the run's count, operand latches, comparator skips that are used up,
the groups it yields to, and which registers hold an uncorrectable error (a write heals one). -/
def bookkept (g like : Group) : Group :=
  { g with run := like.run, latches := like.latches, yield := like.yield, resumed := like.resumed, skips := like.skips
           bad := like.bad, trap := { g.trap with bpskip := like.trap.bpskip } }

/-! ### Results -/

/-- The guard set of an instruction of the V layout. -/
def guardV (g : Group) (cur : Cur) (f : VF) : DWord := guardSet g cur.active f.gk f.gn
/-- A lane of the group in a set. -/
def inLanes (g : Group) (m : DWord) (l : Nat) : Bool := l < g.w && m.getLsbD l

/-- Registers written in order. -/
def writeRegs (v : List Word) (ws : List (Nat × Word)) : List Word := ws.foldl (fun v w => v.set w.1 w.2) v

/-- The words in which a value of a type stands from register `d` (05 R96, 07 R115). -/
def wordsOf (t : Ty) (d : Nat) (x : DWord) : List (Nat × Word) :=
  if isWide t then [(d, x.extractLsb' 0 32), (d + 1, x.extractLsb' 32 32)] else [(d, placeWord t x)]

/-- The lanes of the active set go on at the next slot, as in `pcNext` (05 R79). -/
def goOn (cur : Cur) (l : Nat) (x : Lane) : Lane :=
  if cur.active.getLsbD l then { x with pc := pcNext cur.pc, park := .none, set := 0 } else x

/-- The group after an instruction that only goes on. -/
def moved (g : Group) (cur : Cur) : Group := { g with lanes := g.lanes.mapIdx (goOn cur) }

/-- The group after an instruction whose lanes in `m` write registers and raise status bits; nothing else changes. -/
def laneResult (g : Group) (cur : Cur) (m : DWord) (ws : Nat → List (Nat × Word)) (fl : FlagSet) : Group :=
  { g with
    lanes := g.lanes.mapIdx fun l x => goOn cur l (if inLanes g m l then { x with v := writeRegs x.v (ws l) } else x)
    fst := fstAfter g.fst fl }

/-- The union of the status bits that the lanes of a set raise. -/
def raised (g : Group) (m : DWord) (fl : Nat → FlagSet) : FlagSet := flagUnion ((laneList g.w m).map fl)

/-- No lane of the set raises a status bit that FTEN enables. -/
def noTrap (g : Group) (m : DWord) (fl : Nat → FlagSet) : Prop :=
  ∀ l, inLanes g m l = true → enabledBits g.ften (fl l) = 0

/-- The scalar register `d` written, if `m` is not empty; the active set goes on at the next slot. -/
def scalarResult (g : Group) (cur : Cur) (m : DWord) (d : Nat) (x : DWord) : Group :=
  { moved g cur with s := if m = 0 then g.s else g.s.set d x, fst := fstAfter g.fst 0 }

/-- Bits of a mask register replaced at the lanes of a set. -/
def mergeMask (g : Group) (m : DWord) (bit : Nat → Bool) (x : DWord) : DWord :=
  (x &&& ~~~laneSet (laneList g.w m)) ||| laneSet ((laneList g.w m).filter bit)

/-- Mask register `d` written at the lanes of `m`; a write of k0 is discarded (05 R89). -/
def maskResult (g : Group) (cur : Cur) (m : DWord) (d : Nat) (bit : Nat → Bool) (fl : FlagSet) : Group :=
  { moved g cur with k := if d = 0 then g.k else g.k.modify d (mergeMask g m bit), fst := fstAfter g.fst fl }

/-- `i` completes at once: it answers a state in which group `g` is `r` but for the bookkeeping of its run, and all
that stands outside the group is as before. -/
def Completes (i : Instr) (s : State) (g r : Group) : Prop :=
  ∃ u g', exec i s = .next u ∧ u.ops = s.ops ∧ Apart s u g.id ∧ findGroup u g.id = some g' ∧ g' = bookkept r g'

/-- `i` completes with an operation `o` in flight that will write its result; its lanes go on at once. -/
def Posts (i : Instr) (s : State) (g r : Group) (o : Op → Prop) : Prop :=
  ∃ u g' x, exec i s = .next u ∧ u.ops = s.ops ++ [x] ∧ o x ∧ x.id = s.nextId ∧ x.group = g.id ∧ x.done = false
    ∧ Apart s u g.id ∧ findGroup u g.id = some g' ∧ g' = bookkept r g'

/-! ### Scalar results (09 R141 to R144) -/

/-- What each two-source member of major 0x01 computes, with whether an immediate is zero-extended (09 R140, R141). -/
def scalarTwo (f : VF) : List (Instr × Bool × (DWord → DWord → DWord)) := [
  (.sadd f, false, fun a b => a + b),
  (.ssub f, false, fun a b => a - b),
  (.smul f, false, fun a b => a * b),
  (.smulh f, false, fun a b => BitVec.ofInt 64 (a.toInt * b.toInt / 2 ^ 64)),
  (.smulhn f, true, fun a b => BitVec.ofNat 64 (a.toNat * b.toNat / 2 ^ 64)),
  (.sand f, true, fun a b => a &&& b),
  (.sor f, true, fun a b => a ||| b),
  (.sxor f, true, fun a b => a ^^^ b),
  (.sandn f, true, fun a b => a &&& ~~~b),
  (.sshl f, false, fun a b => a <<< (b &&& 63)),
  (.sshr f, false, fun a b => a >>> (b &&& 63)),
  (.ssra f, false, fun a b => a.sshiftRight' (b &&& 63)),
  (.smin f, false, fun a b => if a.sle b then a else b),
  (.smax f, false, fun a b => if b.sle a then a else b),
  (.sminn f, true, fun a b => if a.ule b then a else b),
  (.smaxn f, true, fun a b => if b.ule a then a else b)]

/-- A source that is a scalar register or an immediate (05 R88). -/
def sourceOf (rd : Nat → DWord) (k : Kind) (field : BitVec 8) (imm : Word) (zext : Bool) : DWord :=
  if k = .imm then (if zext then imm.zeroExtend 64 else imm.signExtend 64) else rd field.toNat

/-- The bits of a field of length `len` at `pos`. -/
def fieldBits (pos len : Nat) : DWord := BitVec.ofNat 64 ((2 ^ len - 1) <<< pos)

/-- What the members of major 0x02 compute from the scalar registers (09 R142). -/
def scalarMoves (f : VF) : List (Instr × ((Nat → DWord) → DWord)) :=
  let a (rd : Nat → DWord) := rd f.a.toNat
  let b (rd : Nat → DWord) := sourceOf rd f.bk f.b f.imm false
  let c (rd : Nat → DWord) := sourceOf rd f.ck f.c f.imm false
  let pos (rd : Nat → DWord) := (b rd).toNat % 64
  let len (rd : Nat → DWord) := min ((c rd).toNat % 128) (64 - pos rd)
  [(.smov f, a),
   (.sli f, fun _ => f.imm.signExtend 64),
   (.slih f, fun rd => f.imm.zeroExtend 64 <<< 32 ||| rd f.d.toNat &&& 0xFFFFFFFF),
   (.ssel f, fun rd => if a rd ≠ 0 then b rd else c rd),
   (.sbfe f, fun rd => (a rd &&& fieldBits (pos rd) (len rd)) >>> pos rd),
   (.sbfi f, fun rd =>
     rd f.d.toNat &&& ~~~fieldBits (pos rd) (len rd) ||| (a rd <<< pos rd) &&& fieldBits (pos rd) (len rd)),
   (.spopc f, fun rd => BitVec.ofNat 64 ((List.range 64).countP fun k => (a rd).getLsbD k)),
   (.sclz f, fun rd => if a rd = 0 then 64 else BitVec.ofNat 64 (63 - Nat.log2 (a rd).toNat)),
   (.sbrev f, fun rd => (a rd).reverse)]

/-- A condition on values of `w` bits (09 R143, R147): on patterns, signed, or unsigned. -/
def condition (c : Cond) (w : Nat) (a b : DWord) : Bool :=
  let x := a.setWidth w
  let y := b.setWidth w
  match c with
  | .eq => x == y
  | .ne => x != y
  | .lt => x.slt y
  | .le => x.sle y
  | .gt => y.slt x
  | .ge => y.sle x
  | .ltn => x.ult y
  | .len => x.ule y
  | .gtn => y.ult x
  | .gen => y.ule x

/-- A division of values of `w` bits (09 R144, R148): a zero divisor gives all ones and the dividend. -/
def divide (signed rem : Bool) (w : Nat) (a b : DWord) : DWord :=
  let x := a.setWidth w
  let y := b.setWidth w
  let q := if signed then (if y = 0 then BitVec.allOnes w else x.sdiv y) else if y = 0 then BitVec.allOnes w else x.udiv y
  let r := if y = 0 then x else if signed then x.srem y else x.umod y
  (if rem then r else q).setWidth 64

/-- A group after an instruction that writes its scalar register D. -/
def scalarDone (g : Group) (cur : Cur) (f : VF) (x : DWord) : Group :=
  scalarResult g cur (guardV g cur f) f.d.toNat x

/-! ### Vector results (09 R145 to R161; 13 R204 to R213) -/

/-- What a vector member does at each lane of its guard set: the words it writes, by register, and the status bits it
raises. -/
abbrev LaneFn := Nat → List (Nat × Word) × FlagSet

/-- A group after a vector member. -/
def laneDone (g : Group) (cur : Cur) (f : VF) (h : LaneFn) : Group :=
  laneResult g cur (guardV g cur f) (fun l => (h l).1) (raised g (guardV g cur f) fun l => (h l).2)

/-- No lane of the guard set raises an enabled status bit. -/
def quietV (g : Group) (cur : Cur) (f : VF) (h : LaneFn) : Prop := noTrap g (guardV g cur f) fun l => (h l).2

/-- The low bits of a value as an integer of a type. -/
def tInt (t : Ty) (x : DWord) : Int := if isSigned t then (x.setWidth (bitsOf t)).toInt else (x.setWidth (bitsOf t)).toNat

/-- An exact integer written in a type: wrapped modulo 2^w, or with SAT clamped, which raises SAT where it changes the
value (07 R123, 09 R145). -/
def intResult (t : Ty) (sat : Bool) (x : Int) : DWord × FlagSet :=
  let w := bitsOf t
  let lo : Int := if isSigned t then -(2 ^ (w - 1) : Nat) else 0
  let hi : Int := if isSigned t then (2 ^ (w - 1) : Nat) - 1 else (2 ^ w : Nat) - 1
  if sat then ((BitVec.ofInt w (max lo (min hi x))).setWidth 64, if x < lo ∨ hi < x then flagSAT else 0)
  else ((BitVec.ofInt w x).setWidth 64, 0)

/-- Element `k` of a packed word, as a value of 64 bits (07 R128). -/
def element (t : Ty) (x : DWord) (k : Nat) : DWord := (x.extractLsb' (k * bitsOf t) (bitsOf t)).setWidth 64

/-- The members of majors 0x10 and 0x11 but VSEL (09 R145, R146). -/
def vectorIntegers (g : Group) (f : VF) : List (Instr × LaneFn) :=
  let t := f.ty
  let w := bitsOf t
  let d := f.d.toNat
  let A (l : Nat) := operandA g f t l
  let B (l : Nat) := operandB g f t l
  let a (l : Nat) := tInt t (A l)
  let b (l : Nat) := tInt t (B l)
  let exact (h : Nat → Int) : LaneFn := fun l => let r := intResult t f.sat (h l); (wordsOf t d r.1, r.2)
  let bits (h : Nat → BitVec w) : LaneFn := fun l => (wordsOf t d ((h l).setWidth 64), 0)
  let n (l : Nat) := (wordB g f l).toNat % w
  let pos (l : Nat) := (wordB g f l).toNat % 32
  let len (l : Nat) := min ((wordC g f l).toNat % 64) (32 - pos l)
  let dots (n : Nat) : LaneFn := fun l =>
    let r := intResult (wordTy t) f.sat
      (((List.range n).map fun k =>
          tInt t (applyAm t f.am (element t (readReg g l f.a.toNat false) k)) * tInt t (element t (wordB g f l) k)).sum
        + tInt (wordTy t) (wordC g f l))
    (wordsOf (wordTy t) d r.1, r.2)
  [(.vadd f, exact fun l => a l + b l),
   (.vsub f, exact fun l => a l - b l),
   (.vrsub f, exact fun l => b l - a l),
   (.vmul f, exact fun l => a l * b l),
   (.vmin f, exact fun l => min (a l) (b l)),
   (.vmax f, exact fun l => max (a l) (b l)),
   (.vmad f, exact fun l => a l * b l + tInt t (operandC g f t l)),
   (.vmulh f, bits fun l => BitVec.ofInt w (((A l).setWidth w).toInt * ((B l).setWidth w).toInt / 2 ^ w)),
   (.vmulhn f, bits fun l => BitVec.ofNat w (((A l).setWidth w).toNat * ((B l).setWidth w).toNat / 2 ^ w)),
   (.vand f, bits fun l => (A l &&& B l).setWidth w),
   (.vor f, bits fun l => (A l ||| B l).setWidth w),
   (.vxor f, bits fun l => (A l ^^^ B l).setWidth w),
   (.vandn f, bits fun l => (A l &&& ~~~B l).setWidth w),
   (.vshl f, bits fun l => (A l).setWidth w <<< n l),
   (.vshr f, bits fun l => (A l).setWidth w >>> n l),
   (.vsra f, bits fun l => ((A l).setWidth w).sshiftRight (n l)),
   (.vabsd f, fun l =>
     let x := (a l - b l).natAbs
     (if isWide t then wordsOf t d (BitVec.ofNat 64 x) else [(d, BitVec.ofNat 32 x)], 0)),
   (.vmov f, fun l => (wordsOf t d (B l), 0)),
   (.vbfe f, fun l =>
     let x := (A l).extractLsb' (pos l) (len l)
     ([(d, if t = .i32 then x.signExtend 32 else x.setWidth 32)], 0)),
   (.vbfi f, fun l =>
     let m := (fieldBits (pos l) (len l)).setWidth 32
     ([(d, vreg g l d &&& ~~~m ||| ((A l).setWidth 32 <<< pos l) &&& m)], 0)),
   (.vpopc f, fun l => ([(d, BitVec.ofNat 32 ((List.range w).countP fun k => (A l).getLsbD k))], 0)),
   (.vclz f, fun l =>
     let x := ((A l).setWidth w).toNat
     ([(d, BitVec.ofNat 32 (if x = 0 then w else w - 1 - Nat.log2 x))], 0)),
   (.vbrev f, bits fun l => ((A l).setWidth w).reverse),
   (.vdot4 f, dots 4),
   (.vdot2 f, dots 2),
   (.vmadw f, fun l =>
     let r := intResult (dwordTy t) f.sat (a l * tInt t (wordB g f l) + tInt (dwordTy t) (wideC g f l))
     (wordsOf (dwordTy t) d r.1, r.2))]

/-- VSEL and the shuffles outside quads: lane `l` copies operand A of a lane, bit for bit (09 R146; 13 R209, R210). -/
def copied (g : Group) (f : VF) (l from' : Nat) : List (Nat × Word) × FlagSet :=
  let j := if from' < g.w then from' else l
  (if isWide f.ty then [(f.d.toNat, vreg g j f.a.toNat), (f.d.toNat + 1, vreg g j (f.a.toNat + 1))]
    else [(f.d.toNat, vreg g j f.a.toNat)], 0)

/-- The shuffles of major 0x40 (13 R210). -/
def shuffles (g : Group) (f : VF) : List (Instr × LaneFn) :=
  let b (l : Nat) := (wordB g f l).toNat
  [(.vshfi f, fun l => copied g f l (b l % g.w)),
   (.vshfu f, fun l => copied g f l (if b l ≤ l then l - b l else l)),
   (.vshfd f, fun l => copied g f l (l + b l)),
   (.vshfx f, fun l => copied g f l (l ^^^ (b l % g.w))),
   (.vbcast f, fun l => copied g f l (b l % g.w))]

/-- The votes with a vector result, VMATCH and the scans (13 R212, R213). `m` is the guard set. -/
def votesAndScans (g : Group) (m : DWord) (f : VF) : List (Instr × LaneFn) :=
  let d := f.d.toNat
  let lanes := laneList g.w m
  let value (l : Nat) := readReg g l f.a.toNat (isWide f.ty)
  let op := f.imm.toNat
  let e := scanIdentity op f.ty
  let scan := scanSteps op f.ty g.w 7 1 ((List.range g.w).map fun l => if m.getLsbD l then value l else e)
  [(.vany f, fun _ => ([(d, if lanes.any fun l => vreg g l f.a.toNat != 0 then 1 else 0)], 0)),
   (.vall f, fun _ => ([(d, if lanes.all fun l => vreg g l f.a.toNat != 0 then 1 else 0)], 0)),
   (.vmatch f, fun l =>
     let same := laneSet (lanes.filter fun j => value j == value l)
     ([(d, same.extractLsb' 0 32), (d + 1, same.extractLsb' 32 32)], 0)),
   (.vscani f, fun l => (wordsOf f.ty d (scan.1.getD l 0), scan.2)),
   (.vscane f, fun l => (wordsOf f.ty d (if l = 0 then e else scan.1.getD (l - 1) 0), scan.2))]

/-- The fixed-latency floating-point members (09 R149, R150, R154, R155) but VFCMP. -/
def vectorFloats (g : Group) (f : VF) : List (Instr × LaneFn) :=
  let t := f.ty
  let fl := flushOf g t
  let d := f.d.toNat
  let x (l : Nat) := floatA g f l
  let y (l : Nat) := floatB g f l
  let z (l : Nat) := floatC g f l
  let bitsA (l : Nat) := flushBits t fl (operandA g f t l)
  let bitsB (l : Nat) := flushBits t fl (operandB g f t l)
  let value (h : Nat → DWord × FlagSet) : LaneFn := fun l => (wordsOf t d (h l).1, (h l).2)
  let word (h : DWord → Word) : LaneFn := fun l =>
    ([(d, h (operandA g f t l))], flagIf (isSNaN (decodeFloat t (operandA g f t l))) flagNV)
  [(.vfadd f, value fun l => faddV t f.rm f.sat fl (x l) (y l)),
   (.vfsub f, value fun l => faddV t f.rm f.sat fl (x l) (negFV (y l))),
   (.vfmul f, value fun l => fmulV t f.rm f.sat fl (x l) (y l)),
   (.vfma f, value fun l => fmaV t f.rm f.sat fl false (x l) (y l) (z l)),
   (.vfms f, value fun l => fmaV t f.rm f.sat fl false (x l) (y l) (negFV (z l))),
   (.vfnma f, value fun l => fmaV t f.rm f.sat fl true (x l) (y l) (z l)),
   (.vfnms f, value fun l => fmaV t f.rm f.sat fl true (x l) (y l) (negFV (z l))),
   (.vfmin f, value fun l => minMaxBits t false (bitsA l) (bitsB l)),
   (.vfmax f, value fun l => minMaxBits t true (bitsA l) (bitsB l)),
   (.vfminn f, value fun l => minMaxNumBits t false (bitsA l) (bitsB l)),
   (.vfmaxn f, value fun l => minMaxNumBits t true (bitsA l) (bitsB l)),
   (.vfcpys f, value fun l => copySign t (bitsA l) (bitsB l)),
   (.vfcvt f, value fun l => cvtFV t f.rm f.sat fl (cvtFloat g f l)),
   (.vftoi f, value fun l =>
     let r := ftoi t f.rm (cvtFloat g f l)
     ((BitVec.ofInt (bitsOf t) r.1).setWidth 64, r.2)),
   (.vitof f, value fun l => roundFV t f.rm f.sat fl (intFV (tInt (cvtSrc f) (cvtOperand g f l)))),
   (.vfrint f, value fun l => roundIntegral t f.rm (x l)),
   (.vfldx f, value fun l => scaleByPower t f.rm f.sat fl (x l) ((wordB g f l).setWidth 32).toInt),
   (.vfclass f, word fun a => BitVec.ofNat 32 (classMask t a)),
   (.vfgetx f, word (exponentOf t))]

/-- Results of sub-elements joined in a word, the first the lowest, with the union of their status bits (07 R128). -/
def joined (t : Ty) (l : List (DWord × FlagSet)) : Word × FlagSet :=
  (BitVec.ofNat 32 ((l.map fun r => r.1.toNat % 2 ^ bitsOf t).foldr (fun x acc => x + 2 ^ bitsOf t * acc) 0),
    flagUnion (l.map (·.2)))

/-- The packed members (09 R156 to R158). -/
def vectorPacked (g : Group) (f : VF) : List (Instr × LaneFn) :=
  let t := f.ty
  let fl := flushOf g t
  let d := f.d.toNat
  let A (l : Nat) := readReg g l f.a.toNat false
  let a (l k : Nat) := applyAm t f.am (element t (A l) k)
  let b (l k : Nat) := element t (wordB g f l) k
  let c (l k : Nat) := element t (wordC g f l) k
  let v (x : DWord) := packedFV t fl x
  let each (h : Nat → Nat → DWord × FlagSet) : LaneFn := fun l =>
    let r := joined t ((List.range (32 / bitsOf t)).map (h l)); ([(d, r.1)], r.2)
  let half (x : Word) : Word := (0xFFFF : Word) <<< halfShift f &&& x
  [(.vpadd f, each fun l k => faddV t f.rm f.sat fl (v (a l k)) (v (b l k))),
   (.vpsub f, each fun l k => faddV t f.rm f.sat fl (v (a l k)) (negFV (v (b l k)))),
   (.vpmul f, each fun l k => fmulV t f.rm f.sat fl (v (a l k)) (v (b l k))),
   (.vpfma f, each fun l k => fmaV t f.rm f.sat fl false (v (a l k)) (v (b l k)) (v (c l k))),
   (.vpmin f, each fun l k => ((minMaxBits t false (flushBits t fl (a l k)) (flushBits t fl (b l k))).1, 0)),
   (.vpmax f, each fun l k => ((minMaxBits t true (flushBits t fl (a l k)) (flushBits t fl (b l k))).1, 0)),
   (.vscl f, each fun l k => scaleE8m0 t f.rm f.sat fl (v (a l k)) ((wordB g f l).toNat % 256)),
   (.vpack2 f, fun l =>
     let r := joined t [packCvt g f (A l), packCvt g f (wordB g f l)]
     ([(d, r.1)], r.2)),
   (.vpack4 f, fun l =>
     let r := joined t ((List.range 4).map fun k => packCvt g f (readReg g l (f.a.toNat + k) false))
     ([(d, if t = .e2m1 then vreg g l d &&& ~~~half 0xFFFFFFFF ||| half (r.1 <<< halfShift f) else r.1)], r.2)),
   (.vunpk2 f, fun l => ((List.range 2).map fun k => (d + k, widen g t (element t (A l) k)), 0)),
   (.vunpk4 f, fun l => ((List.range 4).map fun k => (d + k, widen g t (element t (A l >>> halfShift f) k)), 0))]

/-- Pairs of elements, the first in the lower register or pair (13 R204). -/
def pairWords (t : Ty) (d : Nat) (r : PairR) : List (Nat × Word) × FlagSet :=
  (wordsOf t d r.hi ++ wordsOf t (if isWide t then d + 2 else d + 1) r.lo, r.flags)

/-- The exact-pair and double-word members of majors 0x38 and 0x39 (13 R204, R207). -/
def vectorPairs (g : Group) (f : VF) : List (Instr × LaneFn) :=
  let t := f.ty
  let a (l : Nat) := operandA g f t l
  let b (l : Nat) := operandB g f t l
  let x (l : Nat) := readDW g t l f.a.toNat
  let y (l : Nat) := readDW g t l f.b.toNat
  let pair (h : Nat → PairR) : LaneFn := fun l => pairWords t f.d.toNat (h l)
  [(.vfaddx f, pair fun l => twoSum t false (a l) (b l)),
   (.vfsubx f, pair fun l => twoSum t false (a l) (negBits t (b l))),
   (.vfmulx f, pair fun l => twoProd t (a l) (b l)),
   (.vfnorm f, pair fun l => twoSum t true (a l) (b l)),
   (.dwadd f, pair fun l => dwAdd t (x l) (y l)),
   (.dwsub f, pair fun l => dwAdd t (x l) ⟨negBits t (y l).hi, negBits t (y l).lo⟩),
   (.dwmul f, pair fun l => dwMul t (x l) (y l)),
   (.dwadds f, pair fun l => dwAdds t (x l) (b l)),
   (.dwmuls f, pair fun l => dwMuls t (x l) (b l))]

/-! ### Mask results (09 R147, R151, R159 to R161) -/

/-- The comparisons and the operations of major 0x48: the bit of each lane, and the status bits it raises. -/
def maskMembers (g : Group) (f : VF) : List (Instr × (Nat → Bool × FlagSet)) :=
  let a (l : Nat) := (kreg g f.a.toNat).getLsbD l
  let b (l : Nat) := (kreg g f.b.toNat).getLsbD l
  let source := if f.bk = .imm then f.imm.zeroExtend 64 else sreg g f.b.toNat
  [(.kand f, fun l => (a l && b l, 0)),
   (.kor f, fun l => (a l || b l, 0)),
   (.kxor f, fun l => (a l != b l, 0)),
   (.kandn f, fun l => (a l && !b l, 0)),
   (.knot f, fun l => (!a l, 0)),
   (.kmov f, fun l => (a l, 0)),
   (.kset f, fun l => (source.getLsbD l, 0))]

/-- The members whose result is one scalar of a whole set (09 R160; 13 R213). `m` is the guard set. -/
def scalarOfMasks (g : Group) (m : DWord) (f : VF) : List (Instr × DWord) :=
  let k := kreg g f.a.toNat
  [(.kpopc f, BitVec.ofNat 64 ((List.range g.w).countP fun l => k.getLsbD l)),
   (.kffs f, match (List.range g.w).find? fun l => k.getLsbD l with
     | some l => BitVec.ofNat 64 l
     | none => BitVec.allOnes 64),
   (.kget f, k),
   (.vballot f, laneSet ((laneList g.w m).filter fun l => vreg g l f.a.toNat != 0))]

/-- The comparisons (09 R147, R151): the bit of each lane, and the status bits it raises. -/
def comparisons (g : Group) (f : VF) (c : Cond) (fc : FCond) : List (Instr × (Nat → Bool × FlagSet)) :=
  [(.vicmp c f, fun l => (condition c (bitsOf f.ty) (operandA g f f.ty l) (operandB g f f.ty l), 0)),
   (.vfcmp fc f, fun l => fcondHolds fc (floatA g f l) (floatB g f l))]

/-- A group after a member that writes its mask register D. -/
def maskDone (g : Group) (cur : Cur) (f : VF) (h : Nat → Bool × FlagSet) : Group :=
  maskResult g cur (guardV g cur f) f.d.toNat (fun l => (h l).1) (raised g (guardV g cur f) fun l => (h l).2)

/-- A group after VTOK (09 R161): bit `j` of the register goes to the `j`-th of the mask registers from D. -/
def spreadDone (g : Group) (cur : Cur) (f : VF) : Group :=
  { moved g cur with
    k := (List.range f.imm.toNat).foldl (fun k j =>
      if f.d.toNat + j = 0 then k
      else k.modify (f.d.toNat + j) (mergeMask g (guardV g cur f) fun l => (vreg g l f.a.toNat).getLsbD j)) g.k
    fst := fstAfter g.fst 0 }

/-- KTOV and VSEL (09 R146, R161), and the quad swaps of a kernel that is not quad-bound (13 R215). -/
def selections (g : Group) (f : VF) : List (Instr × LaneFn) :=
  [(.ktov f, fun l =>
     ([(f.d.toNat, BitVec.ofNat 32
        ((List.range f.imm.toNat).map fun j => if (kreg g (f.a.toNat + j)).getLsbD l then 2 ^ j else 0).sum)], 0)),
   (.vsel f, fun l =>
     (wordsOf f.ty f.d.toNat (if (kreg g f.c.toNat).getLsbD l then operandA g f f.ty l else operandB g f f.ty l), 0))]

def quadSwaps (g : Group) (f : VF) : List (Instr × LaneFn) :=
  [(.vqswx f, fun l => copied g f l (l ^^^ 1)),
   (.vqswy f, fun l => copied g f l (l ^^^ 2)),
   (.vqswd f, fun l => copied g f l (l ^^^ 3))]

/-! ### Variable-latency results (03 R45; 09 R144, R148, R152, R153; 13 R208, R211) -/

/-- An operation that will write, at each lane of a set, the words of a function, and raise its status bits. -/
def owesLanes (g : Group) (m : DWord) (cls : Option OpClass) (h : LaneFn) (o : Op) : Prop :=
  o.kind = .result ((laneList g.w m).flatMap fun l => (h l).1.map fun w => .vec l w.1 w.2)
      ((laneList g.w m).map fun l => (l, (h l).2))
    ∧ o.owes = true ∧ o.writes = none ∧ o.cls = cls

/-- An operation that will write a scalar register. -/
def owesScalar (cls : Option OpClass) (d : Nat) (x : DWord) (o : Op) : Prop :=
  o.kind = .result [.scalar d x] [] ∧ o.owes = true ∧ o.writes = none ∧ o.cls = cls

/-- The scalar divisions (09 R144). -/
def scalarDivisions (f : VF) : List (Instr × Bool × (DWord → DWord → DWord)) :=
  [(.sdiv f, false, divide true false 64),
   (.sdivn f, true, divide false false 64),
   (.srem f, false, divide true true 64),
   (.sremn f, true, divide false true 64)]

/-- What a special function gives: operands flushed, a NaN giving NV where it signals, tiny results flushed. -/
def special (g : Group) (f : VF) (uf : Bool) (h : Ty → DWord → FV → DWord × FlagSet) : LaneFn := fun l =>
  let fl := flushOf g f.ty
  let x := flushBits f.ty fl ((operandA g f f.ty l).setWidth (bitsOf f.ty) |>.setWidth 64)
  let r := sfuFinish f.ty fl uf (h f.ty x (decodeFloat f.ty x))
  (wordsOf f.ty f.d.toNat r.1, r.2 ||| flagIf (isSNaN (decodeFloat f.ty x)) flagNV)

/-- The members of variable latency with a result per lane. -/
def slowLanes (g : Group) (f : VF) : List (Instr × LaneFn) :=
  let t := f.ty
  let fl := flushOf g t
  let ints (signed rem : Bool) : LaneFn := fun l =>
    (wordsOf t f.d.toNat (divide signed rem (bitsOf t) (operandA g f t l) (operandB g f t l)), 0)
  let value (h : Nat → DWord × FlagSet) : LaneFn := fun l => (wordsOf t f.d.toNat (h l).1, (h l).2)
  [(.vdiv f, ints true false),
   (.vdivn f, ints false false),
   (.vrem f, ints true true),
   (.vremn f, ints false true),
   (.vfdiv f, value fun l => fdivV t f.rm f.sat fl (floatA g f l) (floatB g f l)),
   (.vfsqrtc f, value fun l => fsqrtV t f.rm fl (floatA g f l)),
   (.vfrcp f, special g f true fun t x v => (sfuRcp t x v, 0)),
   (.vfrsq f, special g f false sfuRsq),
   (.vfsqrt f, special g f false sfuSqrt),
   (.vfexp2 f, special g f true sfuExp2),
   (.vflog2 f, special g f false sfuLog2),
   (.vfsinp f, special g f false sfuSinp),
   (.vfcosp f, special g f false sfuCosp),
   (.vftanh f, special g f false fun t x v => (sfuTanh t x v, 0))]

/-- One result for every lane. -/
def everyLane (t : Ty) (d : Nat) (r : DWord × FlagSet) : LaneFn := fun _ => (wordsOf t d r.1, r.2)

/-- The reductions whose result no order of combination changes (13 R211). `m` is the guard set. -/
def integerReductions (g : Group) (m : DWord) (f : VF) : List (Instr × LaneFn) :=
  let t := f.ty
  let w := bitsOf t
  let xs := (laneList g.w m).map fun l => readReg g l f.a.toNat (isWide t)
  let best (less : Int → Int → Bool) : DWord :=
    (xs.foldl (fun b x => match b with
      | none => some x
      | some y => if less (tInt t x) (tInt t y) then some x else some y) none).getD 0
  let value (x : DWord) : LaneFn := everyLane t f.d.toNat ((x.setWidth w).setWidth 64, 0)
  [(.vredadd f, value (BitVec.ofNat 64 (xs.map (·.toNat)).sum)),
   (.vredmin f, value (best fun a b => a < b)),
   (.vredmax f, value (best fun a b => b < a)),
   (.vredand f, value (xs.foldl (· &&& ·) (BitVec.allOnes 64))),
   (.vredor f, value (xs.foldl (· ||| ·) 0)),
   (.vredxor f, value (xs.foldl (· ^^^ ·) 0))]

/-- A combination in the fixed lane tree (07 R135), with the union of the status bits of its steps; a lane without a
value stands aside. -/
def inTree (op : DWord → DWord → DWord × FlagSet) (leaves : List (Option DWord)) : Option (DWord × FlagSet) :=
  let node (x y : Option (DWord × FlagSet)) : Option (DWord × FlagSet) :=
    match x, y with
    | some a, some b => some ((op a.1 b.1).1, (op a.1 b.1).2 ||| a.2 ||| b.2)
    | some a, none => some a
    | none, y => y
  (laneTree node (leaves.map fun x => x.map fun a => (a, 0))).getD none

/-- The floating-point and the compensated reductions (13 R208, R211). -/
def floatReductions (g : Group) (m : DWord) (f : VF) : List (Instr × LaneFn) :=
  let t := f.ty
  let fl := flushOf g t
  let at_ (l : Nat) := flushBits t fl (readReg g l f.a.toNat (isWide t))
  let leaves (other : Option DWord) := (List.range g.w).map fun l => if m.getLsbD l then some (at_ l) else other
  let value (r : Option (DWord × FlagSet)) : LaneFn := everyLane t f.d.toNat (r.getD (0, 0))
  let pairs (leaf : Nat → PairR) : LaneFn := fun _ =>
    let node (x y : PairR) : PairR :=
      let r := dwAdd .f32 ⟨x.hi, x.lo⟩ ⟨y.hi, y.lo⟩
      ⟨r.hi, r.lo, r.flags ||| x.flags ||| y.flags⟩
    match laneTree node ((List.range g.w).map fun l => if m.getLsbD l then leaf l else ⟨0, 0, 0⟩) with
    | some r => pairWords .f32 f.d.toNat r
    | none => ([], 0)
  [(.vredfadd f, value (inTree (fun a b => faddV t .rne false fl (decodeFloat t a) (decodeFloat t b)) (leaves (some 0)))),
   (.vredfmin f, value (inTree (minMaxBits t false) (leaves none))),
   (.vredfmax f, value (inTree (minMaxBits t true) (leaves none))),
   (.vredx f, pairs fun l => ⟨readReg g l f.a.toNat false, 0, 0⟩),
   (.vreddw f, pairs fun l => ⟨readReg g l f.a.toNat false, readReg g l (f.a.toNat + 1) false, 0⟩),
   (.vdotx f, pairs fun l => twoProd .f32 (operandA g f .f32 l) (operandB g f .f32 l))]

/-! ### Control instructions (03 R39, R40; 05 R80; 11 R162 to R172; 21 R328, R330) -/

/-- The guard sets of the B, C and M layouts. -/
def guardB (g : Group) (cur : Cur) (f : BF) : DWord := guardSet g cur.active f.gk f.gn
def guardC (g : Group) (cur : Cur) (f : CF) : DWord := guardSet g cur.active f.gk f.gn
def guardM (g : Group) (cur : Cur) (f : MF) : DWord := guardSet g cur.active f.gk f.gn

/-- All that stands outside one group is as before, but for what translating and fetching leave in TLBs, instruction
caches, miss queues and counters, and for operations in flight. -/
abbrev Aside (s u : State) (gid : Nat) : Prop :=
  SameMemory s u ∧ u.teams = s.teams ∧ u.threads = s.threads ∧ u.parts = s.parts ∧ u.quads = s.quads ∧ u.grids = s.grids
    ∧ u.jobs = s.jobs ∧ u.homes = s.homes ∧ u.funcs = s.funcs
    ∧ ∀ n, n ≠ gid → (findGroup u n).map Group.bare = (findGroup s n).map Group.bare

/-- `i` completes, and its run may end with it: the group is `r` but for the bookkeeping of its run. -/
def Goes (i : Instr) (s : State) (g r : Group) : Prop :=
  ∃ u g', exec i s = .next u ∧ Aside s u g.id ∧ findGroup u g.id = some g' ∧ g' = bookkept r g'

/-- A group after a transfer: the lanes of `m` stand at their targets, with the link register written, and the rest of the
active set goes on. -/
def transferred (g : Group) (cur : Cur) (m : DWord) (target : Nat → Word) (link : Option Nat) : Group :=
  { g with
    lanes := g.lanes.mapIdx fun l x =>
      if inLanes g m l then
        { x with
          pc := target l, park := .none, set := 0
          v := match link with | some a => x.v.set a (pcNext cur.pc) | none => x.v }
      else goOn cur l x }

/-- Every target of a transfer passes the checks of 05 R80. -/
abbrev TargetsPass (s : State) (g : Group) (m : DWord) (target : Nat → Word) : Prop :=
  ∀ x ∈ (checkTargets s g m target).1, x.2.2 = .ok

/-- The five transfers: the register that names each lane's target, or none for DISP, and the link register. -/
def transfers (f : BF) : List (Instr × Option (BitVec 8) × Option Nat) :=
  [(.bra f, none, none),
   (.brx f, some f.a, none),
   (.call f, none, some f.a.toNat),
   (.callx f, some f.c, some f.a.toNat),
   (.ret f, some f.a, none)]

/-- Where a lane goes. -/
def targetOf (g : Group) (cur : Cur) (f : BF) (r : Option (BitVec 8)) (l : Nat) : Word :=
  match r with
  | some r => vreg g l r.toNat
  | none => dispTarget cur.pc f.disp

/-- The lanes of a set go to one target, or, where the target is an operand of the instruction, all or none of the active
set go (05 R80). -/
def uniform (g : Group) (cur : Cur) (r : Option (BitVec 8)) (m : DWord) : Prop :=
  match r with
  | some r => ∀ l k, inLanes g m l = true → inLanes g m k = true → vreg g l r.toNat = vreg g k r.toNat
  | none => m = 0 ∨ m = cur.active

/-- The active set is one of live lanes of the group, not empty, that stand at the pc of the issue. -/
abbrev ActiveAt (g : Group) (cur : Cur) : Prop :=
  g.w = g.lanes.length ∧ g.w ≤ 64 ∧ cur.active ≠ 0 ∧ ∀ l, cur.active.getLsbD l = true →
    l < g.w ∧ (laneAt g l).exited = false ∧ (laneAt g l).pc = cur.pc ∧ (laneAt g l).park = .none

/-- No trap of the group waits, no result is owed. -/
abbrev Settled (s : State) (g : Group) : Prop := g.traps = [] ∧ owing s g.id = []

/-- Nothing of the group's team waits for the end of a run of it: no gathering that is ready has room to form, and a gated
team's group 0 has not ended without a mark of it (04 R74; 18 R291). -/
abbrev TeamQuiet (s : State) (g : Group) : Prop :=
  ∀ t, findTeam s g.team = some t →
    (groupsOf t.packet ≤ groupsHeld s t.id ∨ nextGathering s t (packetW t.packet) = none)
    ∧ (t.gated = true → t.gateMark.isSome = true ∨ ∀ h ∈ teamGroups s t.id, h.idx = 0 → groupEnded h = false)

/-- No lane of the group is held at a JOIN. -/
abbrev NoJoins (g : Group) : Prop := ∀ l b c, (laneAt g l).park ≠ .join b c

/-- What a write of a mask register at the lanes of `m` leaves: JOINs that await no other lane now let go (03 R39). -/
def letGo (m : DWord) (g : Group) : Group := if laneList g.w m = [] then g else releaseJoins g

/-- Lanes of a group that stand at one pc and have not exited. -/
abbrev LanesAt (g : Group) (m : DWord) (pc : Word) : Prop :=
  g.w = g.lanes.length ∧ g.w ≤ 64 ∧ m ≠ 0 ∧ ∀ l, m.getLsbD l = true →
    l < g.w ∧ (laneAt g l).exited = false ∧ (laneAt g l).pc = pc

/-- A trap of the lanes `m` with a cause goes to the handler at once: the lanes are of user privilege, a handler is
named, no lane set of the group is in it or in a routine, no fault-path slot of the Bezel matches, and nothing of the team
waits for the end of the run (21 R326 to R329; 23 R358). -/
abbrev HandlerFree (s : State) (g : Group) (m : DWord) (c : Cause) : Prop :=
  g.trap.tvec ≠ 0xFFFFFFFF ∧ g.trap.inh = false ∧ g.emu = false ∧ anyPrivileged g m = false
    ∧ faultSlot (dieAt s (dieOfCore g.core)) c = none ∧ deliveryOf c = .handler ∧ TeamQuiet s g

/-- What trap entry writes (21 R328): the registers that save the cause, the pc, the value, the lanes and the privilege;
the lanes of `m` stand at the handler, privileged, and every other lane, each register, mask and status bit is as in
`g`. -/
def entered (g : Group) (m : DWord) (c : Cause) (tpc : Word) (tval : DWord) (g' : Group) : Prop :=
  g'.trap.cause = c ∧ g'.trap.ctl = false ∧ g'.trap.tpc = tpc ∧ g'.trap.tval = tval ∧ g'.trap.tmask = m
    ∧ g'.trap.ppriv = false ∧ g'.trap.inh = true ∧ g'.trap.tvec = g.trap.tvec
    ∧ g'.run = none ∧ g'.latches = []
    ∧ g'.s = g.s ∧ g'.k = g.k ∧ g'.fst = g.fst ∧ g'.ften = g.ften ∧ g'.fmode = g.fmode ∧ g'.splim = g.splim
    ∧ g'.privb = g.privb ∧ g'.lanes.length = g.lanes.length
    ∧ ∀ l, l < g.lanes.length →
        (laneAt g' l).v = (laneAt g l).v ∧ (laneAt g' l).mr = (laneAt g l).mr ∧ (laneAt g' l).exited = (laneAt g l).exited
        ∧ if m.getLsbD l then (laneAt g' l).pc = g.trap.tvec ∧ (laneAt g' l).priv = true ∧ (laneAt g' l).park = .none
          else (laneAt g' l).pc = (laneAt g l).pc ∧ (laneAt g' l).priv = (laneAt g l).priv ∧ (laneAt g' l).park = (laneAt g l).park

/-- `i` completes by taking a trap: the lanes of `m` enter the handler from `r`, the group as `i` leaves it otherwise. -/
def Traps (i : Instr) (s : State) (g r : Group) (m : DWord) (c : Cause) (tpc : Word) (tval : DWord) : Prop :=
  ∃ u g', exec i s = .next u ∧ Aside s u g.id ∧ findGroup u g.id = some g' ∧ entered r m c tpc tval g'

/-- A group whose active set but the lanes of `m` has gone on. -/
def movedBut (g : Group) (cur : Cur) (m : DWord) : Group :=
  { g with lanes := g.lanes.mapIdx fun l x => if m.getLsbD l then x else goOn cur l x }

/-- A group after MEET (03 R39): the lanes save `mr` in A, if there is one, and take the target as `mr`; the mask
register B holds the active set. -/
def metDone (g : Group) (cur : Cur) (f : BF) : Group :=
  { g with
    lanes := g.lanes.mapIdx fun l x => goOn cur l (if inLanes g cur.active l then
      { x with mr := dispTarget cur.pc f.disp, v := if f.a = 0xFF then x.v else x.v.set f.a.toNat x.mr } else x)
    k := if f.b = 0 then g.k else g.k.modify f.b.toNat fun x =>
      (x &&& ~~~allLanes g.w) ||| cur.active &&& allLanes g.w }

/-- The lanes held at the JOIN that the active set reaches, the active set among them. -/
def heldNow (g : Group) (cur : Cur) : DWord := heldAt g cur.pc ||| cur.active

/-- Every lane of mask register B is held at the JOIN or has exited (03 R39, R40). -/
def allHeld (g : Group) (cur : Cur) (b : BitVec 8) : Prop :=
  ∀ l, inLanes g (kreg g b.toNat) l = true → (laneAt g l).exited = true ∨ (heldNow g cur).getLsbD l = true

/-- A group after a JOIN that lets its lanes go: each takes back its `mr` from register C, or all ones. -/
def joined' (g : Group) (cur : Cur) (f : BF) : Group :=
  { g with
    lanes := g.lanes.mapIdx fun l x => if inLanes g (heldNow g cur) l then
      { x with pc := pcNext cur.pc, park := .none, set := 0, mr := if f.c = 0xFF then 0xFFFFFFFF else x.v.getD f.c.toNat 0 }
      else x }

/-- A group after a JOIN that holds its lanes. -/
def heldDone (g : Group) (cur : Cur) (f : BF) : Group :=
  { g with lanes := g.lanes.mapIdx fun l x => if inLanes g cur.active l then { x with park := .join f.b f.c } else x }

/-- All lanes that are held at a JOIN are held at this one. -/
abbrev OneJoin (g : Group) (cur : Cur) (f : BF) : Prop :=
  ∀ l b c, (laneAt g l).exited = false → (laneAt g l).park = .join b c → (laneAt g l).pc = cur.pc ∧ b = f.b ∧ c = f.c

/-- A global address resolves to a place, whatever the counters say. -/
abbrev ResolvesTo (s : State) (core : Nat) (p : Partition) (o : Origin) (addr : DWord) (l : Loc) : Prop :=
  ∀ u, u.gddr = s.gddr → u.parts = s.parts → u.fresh = s.fresh → u.bad = s.bad →
    u.cores.map Core.bare = s.cores.map Core.bare → u.dies.map Die.bare = s.dies.map Die.bare →
    (resolveGlobal u core p o false addr 0 1 .read false).1 = .at l

/-- The register file of a group with its pcs, as SUCC leaves it (03 R53: s0 to s59 and k1 to k15 are undefined). -/
abbrev KeptAtSegment (g g' : Group) (l : Nat) : Prop :=
  (laneAt g' l).v = (laneAt g l).v ∧ g'.s.drop 60 = g.s.drop 60 ∧ g'.fst = g.fst ∧ g'.ften = g.ften ∧ g'.fmode = g.fmode

/-! ### Memory instructions (11 R173 to R192) -/

/-- A memory instruction acts: its guard set is not empty, no fence or acquire of the group stands before it, its counter
has room, and the group's team and partition stand. -/
abbrev MemReady (s : State) (g : Group) (m : DWord) (cls : Option OpClass) (t : Team) (p : Partition) : Prop :=
  m ≠ 0 ∧ memoryHeld s g.id = false ∧ (∀ c, cls = some c → counterOf s g.id c < 63)
    ∧ findTeam s g.team = some t ∧ teamPartition s g.team = some p

/-- `i` completes with an operation in flight; translations may have filled TLBs and queued walks. -/
def PostsMem (i : Instr) (s : State) (g r : Group) (o : Op → Prop) : Prop :=
  ∃ u g' x, exec i s = .next u ∧ u.ops = s.ops ++ [x] ∧ o x ∧ x.id = s.nextId ∧ x.group = g.id ∧ x.core = g.core
    ∧ Aside s u g.id ∧ findGroup u g.id = some g' ∧ g' = bookkept r g'

/-- An operation of a kind that owes registers or not; one without an access is complete at once (11 R189). -/
def submitted (cls : Option OpClass) (kind : OpKind) (owes empty : Bool) (o : Op) : Prop :=
  o.kind = kind ∧ o.cls = cls ∧ o.owes = (owes && !empty) ∧ o.done = empty ∧ o.writes = none

/-- One per-lane memory instruction: its counter, whether it reads and writes, its lanes, where a lane's bytes stand,
what is submitted for the places, and whether registers are owed. -/
structure Access1 where
  cls : OpClass
  reads : Bool
  writes : Bool
  lanes : List Nat
  size : Nat
  place : State → Nat → LanePlace × State
  kind : List (Nat × Loc) → OpKind
  owes : Bool

/-- The lanes of a set that are no helpers (03 R63). -/
def acting (g : Group) (m : DWord) : List Nat := (laneList g.w m).filter fun l => (laneAt g l).helper = false

/-- The members of majors 0x58 to 0x5B but LDR and STR, and of 0x5C, with the places of their bytes. `m` is the guard
set; a lane's address is `laneEa`, s[A] + v[B] + OFFSET (05 R90). -/
def memoryMembers (s : State) (g : Group) (t : Team) (p : Partition) (f : MF) (m : DWord) (op : AtomOp) (red : RedOp) :
    List (Instr × Access1) :=
  let rd := groupReader s g p m
  let n := accessSize f.ty f.cnt.toNat
  let al := accessAlign f.ty f.cnt.toNat
  let e := elemBytes f.ty
  let ea := laneEa g f
  let acq := f.ord = .acquire ∨ f.ord = .acqRel
  let rel := f.ord = .release ∨ f.ord = .acqRel
  let global (u : Use) (st : State) (l : Nat) := placeGlobal st rd l (ea l) n al u
  let stacked (u : Use) (st : State) (l : Nat) := placeScratch st t l (ea l) n al u
  let own (u : Use) (st : State) (l : Nat) := placePrivate st g rd l (ea l) n al u
  let load (ro : Bool) (piece : Nat) (x : List (Nat × Loc)) : OpKind :=
    .load (x.map fun y => ⟨y.1, y.2, []⟩) f.ty piece f.d.toNat f.sc.toNat (decide acq) f.rmt ro (f.ch = 3)
  let store (na : Bool) (piece : Nat) (x : List (Nat × Loc)) : OpKind :=
    .store (storeAccs x piece (storeData g f.ty f.cnt.toNat f.d.toNat)) f.sc.toNat (decide rel) na
  let one (st : State) (l : Nat) :=
    if f.space then placeScratch st t l (ea l) e e .atomic else placeGlobal st rd l (ea l) e e .atomic
  let atomKind (o : AtomOp) (ret : Option Nat) (x : List (Nat × Loc)) : OpKind :=
    .atom o f.ty (atomAccs g o f x) f.sc.toNat (decide acq) (decide rel) f.rmt
      (f.nf && (ret.isNone || f.sc.toNat < 2)) ret
  [(.ld f, ⟨.load, true, false, laneList g.w m, n, global .read, load false n, true⟩),
   (.ldnc f, ⟨.load, true, false, laneList g.w m, n, global .read, load true n, true⟩),
   (.st f, ⟨.store, false, true, acting g m, n, global .write, store false n, false⟩),
   (.stnc f, ⟨.store, false, true, acting g m, n, global .write, store true n, false⟩),
   (.lds f, ⟨.load, true, false, laneList g.w m, n, stacked .read, load false n, true⟩),
   (.sts f, ⟨.store, false, true, acting g m, n, stacked .write, store false n, false⟩),
   (.ldp f, ⟨.load, true, false, laneList g.w m, n, own .read, load false (min 4 n), true⟩),
   (.stp f, ⟨.store, false, true, acting g m, n, own .write, store false (min 4 n), false⟩),
   (.atom op f, ⟨.load, true, true, acting g m, e, one, atomKind op (some f.d.toNat), true⟩),
   (.red red f, ⟨.store, true, true, acting g m, e, one, atomKind (redAsAtom red) none, false⟩)]

/-- Whether an operation is one of arrivals at clasp lines. -/
def isClasp (k : OpKind) : Bool := match k with | .clasp .. => true | _ => false

/-- No arrival of the group that is still to be performed stands before its accesses (11 R182). -/
abbrev NoArrivals (s : State) (g : Group) : Prop := ∀ o ∈ groupOps s g.id, performed o = true ∨ isClasp o.kind = false

/-- The bytes that a read answered. -/
def bytesRead : RangeRead → Option (List Byte)
  | .bytes b => some b
  | _ => none

/-- What a step of a unit came to, where it came to something. -/
def got {α : Type} : UnitRes α → Option α
  | .ok a => some a
  | _ => none

/-- What a fetch of the matrix engine has read. -/
def fetched {α : Type} : Fetch α → Option α
  | .ok a => some a
  | _ => none

/-- Where the record that a CPY names stands, in the space of its S bit. -/
def copyPlace (s : State) (g : Group) (rd : Reader) (t : Team) (f : MF) : Option Loc × State :=
  let answer : Resolved → Option Loc
    | .at l => some l
    | .fault _ => none
  if f.space then (answer (resolveScratch s t (uniformEa g f) 32 32), s)
  else
    let r := resolveGlobal s rd.core rd.part t.origin rd.emu (uniformEa g f) 32 32 .read true
    (answer r.1, r.2)

/-- No cache of the package holds a dirty byte or a partial: what stands behind a type is what its memory holds. -/
abbrev Clean (s : State) : Prop :=
  (∀ c ∈ s.cores, ∀ l ∈ c.l1, l.dirty = 0) ∧ (∀ q ∈ s.quads, ∀ l ∈ q.slice, l.dirty = 0) ∧ ∀ o ∈ s.ops, heldRed o = false

/-- A core reads a place at a scope without fetching a line: in stacked memory, at the home from device scope on, or in the
line that its own L1 holds. -/
def ReadsPlain (s : State) (core scope : Nat) (ro : Bool) (l : Loc) : Prop :=
  match l with
  | .page ty pa _ => ty = .peer ∨ 2 ≤ scope
      ∨ ∃ x, l1At (coreAt s core) ty (pa / 64) = some x ∧ (x.readOnly = true → ro = true)
  | .stream _ => False
  | _ => True

/-- The bytes that stand at a place: below device scope those of the core's own copy of the line, if it has one. -/
def heldBytes (s : State) (core scope : Nat) (l : Loc) (n : Nat) : List Byte :=
  match l with
  | .page ty pa _ =>
    match (if ty = .peer ∨ 2 ≤ scope then none else l1At (coreAt s core) ty (pa / 64)) with
    | some x => (x.bytes.drop (pa % 64)).take n
    | none => readBytes (backing s ty) pa n
  | .scratch team off => readScratch s team off n
  | .ring part tr tile off =>
    match findBlock s part tr tile with
    | some b => readBytes b.mem off n
    | none => List.replicate n 0
  | .stream _ => []

/-- The places of a lane's bytes. -/
def locsOf : LanePlace → List Loc
  | .ok l => l
  | .fault _ => []

/-! ### Quads (03 R63 to R65; 13 R214, R215) -/

/-- The two values of a quad, in the order p00, p10, p01, p11, whose difference lane `k` of it receives. -/
def derivatives (f : VF) : List (Instr × (Nat → Nat × Nat)) :=
  [(.ddx f, fun _ => (1, 0)),
   (.ddy f, fun _ => (2, 0)),
   (.ddxf f, fun k => if k < 2 then (1, 0) else (3, 2)),
   (.ddyf f, fun k => if k % 2 = 0 then (2, 0) else (3, 1))]

/-- What a lane receives at a rendezvous of its quad. -/
def quadValue (g : Group) (f : VF) (l k : Nat) : DWord := operandA g f f.ty (l / 4 * 4 + k)
def quadFn (g : Group) (f : VF) : List (Instr × (Nat → DWord × FlagSet)) :=
  (derivatives f).map (fun x => (x.1, fun l =>
    faddV f.ty f.rm false false (decodeFloat f.ty (quadValue g f l (x.2 (l % 4)).1))
      (negFV (decodeFloat f.ty (quadValue g f l (x.2 (l % 4)).2)))))
  ++ [(.vqswx f, fun l => (quadValue g f l (l % 4 ^^^ 1), 0)),
      (.vqswy f, fun l => (quadValue g f l (l % 4 ^^^ 2), 0)),
      (.vqswd f, fun l => (quadValue g f l (l % 4 ^^^ 3), 0))]

/-- Every lane of a lane's quad issues the instruction or has exited. -/
def quadWhole (g : Group) (cur : Cur) (l : Nat) : Prop :=
  ∀ j, j < g.w → j / 4 = l / 4 → cur.active.getLsbD j = true ∨ (laneAt g j).exited = true

/-! ### Vertical queues (01 R22, R23; 17 R271 to R290) -/

/-- An instruction takes an entry of a queue: it acts as a memory instruction of the VQ class, a free entry exists, and
no pc-set that parked earlier waits for it. -/
abbrev QueueReady (s : State) (g : Group) (cur : Cur) (m : DWord) (c : VqClass) (t : Team) (p : Partition) : Prop :=
  MemReady s g m (some .vq) t p ∧ queueBlocked s g cur.active c = false

/-- `i` completes with an entry in a queue of the core. `s0` is the state in which its records have been read, the group's
own writes to them performed first. -/
def Enqueues (i : Instr) (s0 s : State) (g r : Group) (c : VqClass) (o : Op → Prop) : Prop :=
  ∃ u g' x, exec i s = .next u ∧ u.ops = s0.ops ++ [x] ∧ o x ∧ x.group = g.id ∧ x.core = g.core ∧ x.cls = some .vq
    ∧ x.queue = some c ∧ x.done = false ∧ x.writes = none ∧ u.teams = s0.teams ∧ u.parts = s0.parts ∧ u.threads = s0.threads
    ∧ findGroup u g.id = some g' ∧ g' = bookkept r g'

/-! ### Control threads -/

/-- `i` completes on a control thread, which is then `r`; nothing outside the thread changes. -/
def CompletesCtl (i : Instr) (s : State) (t r : Thread) : Prop :=
  ∃ u, exec i s = .next u ∧ ApartCtl s u t.team ∧ findThread u t.team = some r

/-- A scalar register of a control thread written; a write heals an uncorrectable error (01 R34). -/
def threadWrote (t : Thread) (r : Nat) (x : DWord) : Thread := { t with s := t.s.set r x, bad := t.bad.filter (· != r) }

/-- A control thread after an instruction that writes its scalar register D where its guard holds (05 R88). -/
def threadScalarDone (t : Thread) (cur : Cur) (f : VF) (x : DWord) : Thread :=
  let t' := if threadGuard t f.gk f.gn then threadWrote t f.d.toNat x else t
  { t' with pc := pcNext cur.pc }

/-- All that stands outside one control thread is as before, but for what translating and fetching leave in TLBs,
instruction caches, miss queues and counters. -/
abbrev AsideCtl (s u : State) (team : Nat) : Prop :=
  SameMemory s u ∧ u.teams = s.teams ∧ u.groups = s.groups ∧ u.parts = s.parts ∧ u.quads = s.quads ∧ u.grids = s.grids
    ∧ u.jobs = s.jobs ∧ u.homes = s.homes ∧ u.funcs = s.funcs ∧ u.ops = s.ops
    ∧ ∀ n, n ≠ team → findThread u n = findThread s n

/-- `i` completes on a control thread, which is then `r`. -/
def GoesCtl (i : Instr) (s : State) (t r : Thread) : Prop :=
  ∃ u, exec i s = .next u ∧ AsideCtl s u t.team ∧ findThread u t.team = some r

/-- A control thread whose trap its handler takes (17 R254, 21 R328). -/
def threadEntered (t : Thread) (c : Cause) (tpc : Word) (tval : DWord) : Thread :=
  { t with
    trap := { t.trap with cause := c, ctl := true, tpc := tpc, tval := tval, tmask := 1, ppriv := false, inh := true }
    priv := true, pc := t.trap.tvec, started := true, line := none, park := .none }

/-- A trap of a control thread goes to its handler at once. -/
abbrev ThreadHandlerFree (s : State) (t : Thread) (c : Cause) : Prop :=
  t.trap.tvec ≠ 0xFFFFFFFF ∧ t.priv = false ∧ faultSlot (dieAt s (dieOfQuad t.quad)) c = none ∧ deliveryOf c = .handler

/-- The operations of the matrix engine. -/
def matrixOps (f : XF) : List Instr := [.mma f, .mmas f, .mscl f, .mzero f, .mcpyo f, .mcpyi f]

/-! ### Steps of the device and acts of the host -/

/-- `i` completes, and what then holds. -/
def Does (i : Instr) (s : State) (post : State → Prop) : Prop := ∃ u, exec i s = .next u ∧ post u

/-- An operation is complete: it has left, or stands as done. -/
def Gone (u : State) (id : Nat) : Prop := ∀ q, findOp u id = some q → q.done = true

/-- The queue of a function. -/
def eventQueue (s : State) (fn : Nat) : List EvRec := (s.funcs.getD fn Func.reset).queue

/-- A record of a unit of a die for a function finds room in its queue, with none held back before it (25 R388, R389). -/
abbrev RoomFor (s : State) (die unit fn : Nat) : Prop :=
  fn < s.funcs.length ∧ (eventQueue s fn).length < 256
    ∧ (dieAt s die).spill.any (·.1 == fn) = false ∧ (dieAt s die).kept.any (·.1 == fn) = false
    ∧ (dieAt s die).lost.any (·.unit == unit) = false

/-- Where there is room, one event record reached the queue of its function (25 R387, R389); `dbl` marks a double trap. -/
def ToldAs (dbl : Bool) (s u : State) (die unit code : Nat) (part : Option Nat) (payload : List DWord) : Prop :=
  RoomFor s die unit (fnOfPart part) →
    eventQueue u (fnOfPart part)
      = eventQueue s (fnOfPart part) ++ [⟨die, unit, code, seqOf (dieAt s die) unit, part, dbl, payload⟩]
abbrev Told (s u : State) (die unit code : Nat) (part : Option Nat) (payload : List DWord) : Prop :=
  ToldAs false s u die unit code part payload

/-- A mailbox takes a command of a code (25 R375). -/
abbrev CommandReady (s : State) (fn code : Nat) : Prop :=
  s.powered = true ∧ s.linkUp = true ∧ s.booted = true ∧ fn ≤ 16 ∧ fn < s.funcs.length
    ∧ (fn = 0 ∨ ((findPart s (fn - 1)).isSome = true ∧ vfCommand code = true))
    ∧ (s.funcs.getD fn Func.reset).status ≠ 1

/-- A command has ended with a status, told by vector 1. -/
abbrev Answered (s u : State) (fn : Nat) (status : DWord) : Prop :=
  (u.funcs.getD fn Func.reset).status = status
    ∧ (u.funcs.getD fn Func.reset).msix1 = (s.funcs.getD fn Func.reset).msix1 + 1

/-- What reaches partition `part` from the host does so. -/
abbrev HostReaches (s : State) (part : Nat) (p : Partition) : Prop :=
  findPart s part = some p ∧ s.powered = true ∧ s.linkUp = true

/-- A group as a launch creates it (03 R69): its lanes from `live` on have exited. -/
def launched (gr : Grid) (core i live : Nat) (g : Group) : Prop :=
  g.idx = i ∧ g.core = core ∧ g.w = packetW gr.packet ∧ g.lanes.length = g.w
    ∧ (∀ l, l < g.w → (laneAt g l).pc = gr.packet.entry ∧ (laneAt g l).mr = 0xFFFFFFFF ∧ (laneAt g l).priv = false
      ∧ (laneAt g l).v = List.replicate (packetV gr.packet) 0 ∧ (laneAt g l).exited = decide (live ≤ l))
    ∧ g.s = List.replicate 60 0 ++ [gr.packet.resBase, gr.packet.args, BitVec.ofNat 64 gr.packet.privB, BitVec.ofNat 64 gr.packet.privB]
    ∧ g.k = List.replicate 16 0 ∧ g.fst = 0 ∧ g.ften = 0 ∧ g.fmode = 0 ∧ g.trap.tvec = gr.trapVec ∧ g.run = none

/-- Every memory of the package. -/
def State.memories (s : State) : List Memory :=
  [s.gddr, s.hostMem, s.peerMem, s.nvme, s.flash]
    ++ (s.teams.flatMap fun t => t.scratch :: t.tiles)
    ++ s.parts.flatMap fun p => match p.graph with
      | some g => g.transients.flatMap fun t => t.blocks.map (·.mem)
      | none => []

/-- Every memory is in its canonical form (log entry 3). -/
abbrev Canonical (s : State) : Prop := ∀ m ∈ s.memories, m.wf = true

/-- Groups, teams, operations, control threads, partitions, entries of a reservation table and rays of a ray table each have
a number of their own, and what is made next gets a new one. -/
abbrev UniqueIds (s : State) : Prop :=
  (∀ l ∈ [s.groups.map (·.id), s.teams.map (·.id), s.ops.map (·.id), s.threads.map (·.team)], l.Nodup ∧ ∀ n ∈ l, n < s.nextId)
    ∧ (s.parts.map (·.idx)).Nodup
    ∧ ∀ q ∈ s.quads, (q.table.map (·.id)).Nodup ∧ (∀ e ∈ q.table, e.id < s.nextId) ∧ (q.rays.map (·.slot)).Nodup

/-- Pairs of an edge from a pass and a consumer tile in whose clipped set a tile of that pass stands (19 R303, R304). -/
def pairsOf (g : Graph) (q : Pass) (pass tile n : Nat) : Nat :=
  (((passEdges g q).filter (·.producer == pass)).map fun e => ((edgeSet g e q n).filter (· == tile)).length).sum

/-- A tile of a pass. -/
def tileAt (g : Graph) (pass n : Nat) : Option Tile := (g.passes[pass]?).bind fun q => q.tiles[n]?

/-- The tickets of the eligible queues below an index. -/
def ticketsBelow (s : State) (p : Partition) (k : Nat) : Nat :=
  (((p.queues.mapIdx fun i q => (i, q)).filter fun x => queueEligible s p x.2 && decide (x.1 < k)).map
    fun x => queueTickets x.2).sum

end Sys2Proof.Machine
end

