-- ==== Sys2Proof/Certificates/Slice0/Obligations.lean ====
section
/-! DEFINITION. The statements for the provers. -/

open Sys2Proof Sys2Proof.Machine

/-! ### Reset, encoding, steps -/

/-- 25 R380 to R383: after a good boot the package is powered, its host link is trained and the boot status is 0; no
partition exists, nothing runs and no operation is in flight; no die holds a patch. (The reset values that the spec does
not give are the model's: log entries 3, 5 and 6.) -/
def Obligations.ResetState : Prop :=
  let s := State.reset
  s.powered = true ∧ s.booted = true ∧ s.bootstat = 0 ∧ s.linkUp = true ∧ s.parts = [] ∧ s.grids = [] ∧ s.jobs = []
    ∧ s.teams = [] ∧ s.groups = [] ∧ s.threads = [] ∧ s.ops = [] ∧ s.homes = [] ∧ s.cur = none
    ∧ s.dies.length = 4 ∧ s.cores.length = 256 ∧ s.quads.length = 64 ∧ s.funcs.length = 17
    ∧ (∀ d ∈ s.dies, d.dvfs = 0 ∧ d.bezel.micro = [] ∧ d.bezel.digest = 0 ∧ d.bezel.version = 0 ∧ d.spill = [])
    ∧ (∀ q ∈ s.quads, q.table = [] ∧ q.busy = none ∧ q.rays = [] ∧ q.batches = []) ∧ (∀ f ∈ s.funcs, f.queue = []) ∧ Canonical s
    ∧ UniqueIds s

/-- 05 R83 to R92 and the worked examples of 06 and 12: a few words as the spec's formats write them decode to what they
stand for; majors 0x7C to 0x7F and an unassigned member decode to nothing. -/
def Obligations.DecodesWrittenWords : Prop :=
  let f : VF := ⟨0, false, .rne, .none, .vec, .vec, false, false, false, 0, 0, 0, 0, false, 0, .i32⟩
  let m : MF := ⟨0, false, false, 0, false, .relaxed, 0, 0, 0xFF, 0, 0, false, 0, .b32⟩
  decode 0x3FC000002C90005020A9C1A0 = .ok (.vfma
      { f with imm := 0x3FC00000, rm := .rtz, am := .neg, ck := .imm, bk := .scalar, ra := true, b := 5, a := 2, d := 10, gn := true
               gk := 3, ty := .f32 })
    ∧ decode 0x000000080100000010C00249 = .ok (.ktov { f with imm := 8, bk := .imm, a := 1, d := 12 })
    ∧ decode 0x000000040100000020200010 = .ok (.vadd { f with imm := 4, bk := .imm, a := 2, d := 2 })
    ∧ decode 0x000000000000004060600010 = .ok (.vadd { f with b := 4, a := 6, d := 6 })
    ∧ decode 0x000000000000007020100112 = .ok (.vicmp .lt { f with b := 7, a := 2, d := 1 })
    ∧ decode 0x000000000000002080407858 = .ok (.ld { m with b := 2, a := 8, d := 4 })
    ∧ decode 0x0000004000868FF0A0507D5C = .ok (.atomClasp { m with ofs := 64, space := true, ord := .acqRel, sc := 2, a := 10, d := 5 })
    ∧ decode 0x000000000000000000008050 = .ok (.bra ⟨0, 0, 0, 0, false, false, 1⟩)
    ∧ decode 0x000000030100051010477070 = .ok (.mma ⟨0, 3, true, false, 0, 0, 5, 4, 1, 0, 1, 0, .e2m1, .e2m1⟩)
    ∧ decode 0 = .ok (.nop ⟨0, 0, 0, 0, false, false, 0⟩)
    ∧ decode 0x7C = .error .reservedMajor ∧ decode 0x7F = .error .reservedMajor ∧ decode 0x512 = .error .unassigned

/-- 05 R83 to R93: no bit of an encoding is dropped. Every instruction that a slot can hold decodes from its encoding. -/
def Obligations.DecodeOfEncode : Prop := ∀ (i : Instr) (w : SlotBits), encode i = some w → decode w = .ok i

/-- 05 R83 to R93, R100: an instruction has one encoding, and every slot value that decodes is one. -/
def Obligations.EncodeOfDecode : Prop := ∀ (w : SlotBits) (i : Instr), decode w = .ok i → encode i = some w

/-- 03 R43, R48; 05 R79, R101: a step in which a quarter issues runs the instruction that its group's line holds at the pc of the
run, if no decode-path slot of the Bezel matches it; one in which a control core issues runs that of its thread; a step
of the device or an act of the host is that act. After each, time has passed. -/
def Obligations.StepRunsDecoded : Prop :=
  ∀ (s : State) (rest : List Move) (i : Instr),
    let s' : State := { s with agenda := rest }
    (s.agenda = .event i :: rest → step s = closeStep (exec i s'))
    ∧ (∀ core quarter g s0 g0 r low b s1, s.agenda = .issue core quarter :: rest → quarterGroup s' core quarter = some g →
        findGroup s' g.id = some g → beginRun s' g = some (s0, g0, r) → lowLane g0.w r.lanes = some low →
        let pc := (laneAt g0 low).pc
        let g1 : Group := { g0 with
          run := some { r with line := some (pcLine pc, b) }
          lastLow := if g0.run.isNone then some low else g0.lastLow }
        runLine s0 g0 r pc = (.line b, s1) → (findGroup s1 g.id).isSome = true →
        (g0.lastLow.isSome = true ∨ tgtBit b (pcSlot pc) = true) →
        decodeSlot (dieAt (putGroup s1 g1) (dieOfCore g1.core)) (slotOf b (pcSlot pc)) pc = none →
        decode (slotOf b (pcSlot pc)) = .ok i →
          step s = closeStep (runExec i (putGroup s1 g1)
            ⟨.group g.id, r.lanes, pc, swBit b (pcSlot pc), slotOf b (pcSlot pc), false⟩))
    ∧ (∀ quad t b s1, s.agenda = .control quad :: rest → nextThread s' quad = some t → threadLine s' t = (.line b, s1) →
        (t.started = true ∨ tgtBit b (pcSlot t.pc) = true) → decode (slotOf b (pcSlot t.pc)) = .ok i →
          step s = closeStep (runExec i
            (putThread (modQuad s1 t.quad fun q => { q with ctlNext := (t.slot + 1) % 8 })
              { t with started := true, line := some (pcLine t.pc, b) })
            ⟨.thread t.team, 1, t.pc, swBit b (pcSlot t.pc), slotOf b (pcSlot t.pc), false⟩))

/-! ### Memory and numbers -/

/-- 00 R4 and log entry 3: bytes that are written are read back, no other byte changes, and the canonical form is
kept; memories in that form without undefined ranges that read alike are the same. -/
def Obligations.MemoryReadsBack : Prop :=
  (∀ (m : Memory) (x : Nat) (b : List Byte), m.wf = true →
    (writeBytes m x b).wf = true ∧ readBytes (writeBytes m x b) x b.length = b
      ∧ ∀ y, y < x ∨ x + b.length ≤ y → readByte (writeBytes m x b) y = readByte m y)
  ∧ (∀ (m : Memory) (lo hi seed : Nat), m.wf = true → (clearRange m lo hi seed).wf = true
      ∧ ∀ y, y < lo ∨ hi ≤ y → readByte (clearRange m lo hi seed) y = readByte m y)
  ∧ ∀ m n : Memory, m.wf = true → n.wf = true → m.undef = [] → n.undef = [] → (∀ x, readByte m x = readByte n x) → m = n

/-- 00 R4; 11 R197 and log entry 3: what every step keeps. No step takes any memory of the package out of its
canonical form: GDDR, host and peer memory, the namespace, the flash, each team's scratchpad and accumulator tiles,
each ring block. No step gives a number twice: groups, teams, operations, control threads, partitions, reservation
entries and rays stay told apart. And no step changes the trap vector of a group, or of a control thread, that has no
privileged lane. -/
def Obligations.MemoryStaysCanonical : Prop :=
  (∀ (s t : State), Canonical s → step s = .next t → Canonical t)
  ∧ (∀ (s t : State), UniqueIds s → step s = .next t → UniqueIds t)
  ∧ ∀ (s t : State), UniqueIds s → step s = .next t →
    (∀ g ∈ s.groups, anyPrivileged g (allLanes g.w) = false → ∀ g' ∈ t.groups, g'.id = g.id → g'.trap.tvec = g.trap.tvec)
    ∧ ∀ h ∈ s.threads, h.priv = false → ∀ h' ∈ t.threads, h'.team = h.team → h'.trap.tvec = h.trap.tvec

/-- 07 R112: in e4m3 only the codes 0x7F and 0xFF are NaN, and quiet; every other code with an exponent field of all ones is a
normal number, so that 0x7E is 448 and 0xFE is -448; no code is an infinity. -/
def Obligations.E4m3Codes : Prop :=
  (∀ n < 256, (isNaN (decodeFloat .e4m3 (BitVec.ofNat 64 n)) = true ↔ n = 0x7F ∨ n = 0xFF)
    ∧ isSNaN (decodeFloat .e4m3 (BitVec.ofNat 64 n)) = false ∧ isInfV (decodeFloat .e4m3 (BitVec.ofNat 64 n)) = false
    ∧ (n / 8 % 16 = 15 → n ≠ 0x7F → n ≠ 0xFF →
        decodeFloat .e4m3 (BitVec.ofNat 64 n) = .fin (decide (128 ≤ n)) (8 + n % 8) 5))
  ∧ decodeFloat .e4m3 0x7E = .fin false 14 5 ∧ 14 * 2 ^ 5 = 448 ∧ decodeFloat .e4m3 0xFE = .fin true 14 5

/-! ### Scalar and vector arithmetic -/

/-- 09 R141, R142: a group that issues a scalar member of major 0x01 or 0x02 completes with the member's result in D,
unless its guard set is empty; nothing else changes. -/
def Obligations.ScalarResults : Prop :=
  ∀ (s : State) (g : Group) (cur : Cur) (f : VF), MidRun g cur →
    (∀ p ∈ scalarTwo f, Issuing s g cur p.1 →
      Completes p.1 s g (scalarDone g cur f (p.2.2 (sreg g f.a.toNat) (sourceOf (sreg g) f.bk f.b f.imm p.2.1))))
    ∧ ∀ p ∈ scalarMoves f, Issuing s g cur p.1 → Completes p.1 s g (scalarDone g cur f (p.2 (sreg g)))

/-- 09 R141, R142, 05 R88: the same members on the control core, on the thread's own registers. -/
def Obligations.ScalarOnControlThread : Prop :=
  ∀ (s : State) (t : Thread) (cur : Cur) (f : VF),
    (∀ p ∈ scalarTwo f, IssuingCtl s t cur p.1 →
      CompletesCtl p.1 s t
        (threadScalarDone t cur f (p.2.2 (threadReg t f.a.toNat) (sourceOf (threadReg t) f.bk f.b f.imm p.2.1))))
    ∧ ∀ p ∈ scalarMoves f, IssuingCtl s t cur p.1 →
      CompletesCtl p.1 s t (threadScalarDone t cur f (p.2 (threadReg t)))

/-- 09 R145, R146: the integer members, each with what its row says, at the lanes of its guard set. -/
def Obligations.VectorIntegers : Prop :=
  ∀ (s : State) (g : Group) (cur : Cur) (f : VF), ∀ p ∈ vectorIntegers g f,
    Issuing s g cur p.1 → MidRun g cur → quietV g cur f p.2 → Completes p.1 s g (laneDone g cur f p.2)

/-- 09 R149, R150, R154, R155; 07 R125: the floating-point members of fixed latency. Where lanes raise status bits
that FTEN enables, the results are written, the run ends, and these lanes trap with the cause of the lowest such bit,
TPC being the next slot's pc and TVAL the instruction's pc with the enabled bits. -/
def Obligations.VectorFloats : Prop :=
  ∀ (s : State) (g : Group) (cur : Cur) (f : VF), ∀ p ∈ vectorFloats g f,
    Issuing s g cur p.1 → MidRun g cur →
      (quietV g cur f p.2 → Completes p.1 s g (laneDone g cur f p.2))
      ∧ ∀ k,
        let m := guardV g cur f
        let hot := laneSet ((laneList g.w m).filter fun l => enabledBits g.ften (p.2 l).2 != 0)
        let bits := enabledBits g.ften (raised g m fun l => (p.2 l).2)
        let c : Cause := BitVec.ofNat 10 (0x080 + k)
        lowestBit bits = some k → ActiveAt g cur → Settled s g → HandlerFree s g hot c →
          Traps p.1 s g (laneDone g cur f p.2) hot c (pcNext cur.pc) (BitVec.ofNat 64 (cur.pc.toNat + bits.toNat * 2 ^ 32))

/-- 09 R156 to R158; 13 R204 to R207: the packed, the exact-pair and the double-word members. -/
def Obligations.VectorPackedAndPairs : Prop :=
  ∀ (s : State) (g : Group) (cur : Cur) (f : VF), ∀ p ∈ vectorPacked g f ++ vectorPairs g f,
    Issuing s g cur p.1 → MidRun g cur → quietV g cur f p.2 → Completes p.1 s g (laneDone g cur f p.2)

/-- 13 R209, R210, R212, R213: the shuffles, votes, VMATCH and the scans. -/
def Obligations.CrossLane : Prop :=
  ∀ (s : State) (g : Group) (cur : Cur) (f : VF), ∀ p ∈ shuffles g f ++ votesAndScans g (guardV g cur f) f,
    Issuing s g cur p.1 → MidRun g cur → quietV g cur f p.2 → Completes p.1 s g (laneDone g cur f p.2)

/-! ### Masks, comparisons, selections -/

/-- 09 R147, R151, R159, R160: the comparisons, at every condition, and the mask members write the mask register D at the
lanes of their guard set, and nothing of k0; JOINs that then await no other lane let theirs go (03 R39). -/
def Obligations.MaskResults : Prop :=
  ∀ (s : State) (g : Group) (cur : Cur) (f : VF) (c : Cond) (fc : FCond), ∀ p ∈ maskMembers g f ++ comparisons g f c fc,
    Issuing s g cur p.1 → MidRun g cur → (noTrap g (guardV g cur f) fun l => (p.2 l).2) →
      Completes p.1 s g (letGo (guardV g cur f) (maskDone g cur f p.2))
      ∧ (NoJoins g → Completes p.1 s g (maskDone g cur f p.2))

/-- 09 R146, R160, R161; 13 R213, R215: KPOPC, KFFS, KGET and VBALLOT write one scalar register, KTOV and VTOK move predicates between mask registers and bits of a vector register, VSEL
selects bit for bit, and outside quad-bound kernels the quad swaps are shuffles. -/
def Obligations.Selections : Prop :=
  ∀ (s : State) (g : Group) (cur : Cur) (f : VF), MidRun g cur →
    (∀ p ∈ scalarOfMasks g (guardV g cur f) f, Issuing s g cur p.1 → Completes p.1 s g (scalarDone g cur f p.2))
    ∧ (∀ p ∈ selections g f, Issuing s g cur p.1 → Completes p.1 s g (laneDone g cur f p.2))
    ∧ (Issuing s g cur (.vtok f) → Completes (.vtok f) s g (letGo (guardV g cur f) (spreadDone g cur f))
      ∧ (NoJoins g → Completes (.vtok f) s g (spreadDone g cur f)))
    ∧ ∀ t, findTeam s g.team = some t → isQuadBound t = false → ∀ p ∈ quadSwaps g f,
        Issuing s g cur p.1 → Completes p.1 s g (laneDone g cur f p.2)

/-- 09 R143, 05 R88: SCMP writes 1 or 0 in the scalar register D; on the control core a D with bit 5 set names a condition
register, and a write of c0 is discarded. -/
def Obligations.ScalarComparisons : Prop :=
  ∀ (s : State) (cur : Cur) (f : VF) (c : Cond),
    let holds (rd : Nat → DWord) : Bool :=
      condition c 64 (rd f.a.toNat) (sourceOf rd f.bk f.b f.imm (c = .ltn ∨ c = .len ∨ c = .gtn ∨ c = .gen))
    (∀ g, Issuing s g cur (.scmp c f) → MidRun g cur →
      Completes (.scmp c f) s g (scalarDone g cur f (if holds (sreg g) then 1 else 0)))
    ∧ ∀ t, IssuingCtl s t cur (.scmp c f) →
      CompletesCtl (.scmp c f) s t
        (if f.d.getLsbD 5 && threadGuard t f.gk f.gn then
          { t with pc := pcNext cur.pc, c := if f.d.toNat % 8 = 0 then t.c else t.c.set (f.d.toNat % 8) (holds (threadReg t)) }
        else threadScalarDone t cur f (if holds (threadReg t) then 1 else 0))

/-! ### Results of variable latency -/

/-- 09 R144: the scalar divisions. With a guard set, the quotient or remainder is owed to the scalar register D; on the
control core it is written at once. -/
def Obligations.ScalarDivisions : Prop :=
  ∀ (s : State) (cur : Cur) (f : VF), ∀ p ∈ scalarDivisions f,
    let result (rd : Nat → DWord) : DWord := p.2.2 (rd f.a.toNat) (sourceOf rd f.bk f.b f.imm p.2.1)
    (∀ g, Issuing s g cur p.1 → MidRun g cur →
      (guardV g cur f = 0 → Completes p.1 s g (scalarDone g cur f (result (sreg g))))
      ∧ (guardV g cur f ≠ 0 → Posts p.1 s g (moved g cur) (owesScalar none f.d.toNat (result (sreg g)))))
    ∧ ∀ t, IssuingCtl s t cur p.1 → CompletesCtl p.1 s t (threadScalarDone t cur f (result (threadReg t)))

/-- 09 R148, R152, R153: the divisions, the special functions, VFDIV and VFSQRTC compute each lane's result at issue
and owe it; no register changes yet. The value that a special function takes within the bounds of R152 is the model's
(log entries 9 and 102), and so are the bits it raises where R126 and R152 differ (log entry 103). -/
def Obligations.SlowLaneResults : Prop :=
  ∀ (s : State) (g : Group) (cur : Cur) (f : VF), ∀ p ∈ slowLanes g f,
    Issuing s g cur p.1 → MidRun g cur →
      (guardV g cur f = 0 → Completes p.1 s g (moved g cur))
      ∧ (guardV g cur f ≠ 0 → Posts p.1 s g (moved g cur) (owesLanes g (guardV g cur f) none p.2))

/-- 13 R208, R211: the reductions give every lane of the guard set the combination of all its lanes. -/
def Obligations.Reductions : Prop :=
  ∀ (s : State) (g : Group) (cur : Cur) (f : VF),
    ∀ p ∈ integerReductions g (guardV g cur f) f ++ floatReductions g (guardV g cur f) f,
    g.w ∈ [16, 32, 64] → Issuing s g cur p.1 → MidRun g cur →
      (guardV g cur f = 0 → Completes p.1 s g (moved g cur))
      ∧ (guardV g cur f ≠ 0 → Posts p.1 s g (moved g cur) (owesLanes g (guardV g cur f) none p.2))

/-- 13 R216: MSTAT owes each lane the greatest element, the sum, and the sum of squares of its row of the accumulator
tile, and counts in the MATRIX counter. That the tile is read at issue, and how a row is added, is the model's (log entry
80). -/
def Obligations.RowStatistics : Prop :=
  ∀ (s : State) (g : Group) (cur : Cur) (f : VF) (t : Team),
    let m := guardV g cur f
    let row0 := rowOperand g f
    Issuing s g cur (.mstat f) → MidRun g cur → findTeam s g.team = some t →
      (m = 0 → Completes (.mstat f) s g (moved g cur))
      ∧ (m ≠ 0 → (∀ l, inLanes g m l = true → row0 + l ≤ 127) →
        Posts (.mstat f) s g (moved g cur) (owesLanes g m (some .matrix) fun l =>
          let r := rowStats (t.tiles.getD f.a.toNat Memory.empty) (row0 + l)
          ((List.range 3).map fun k => (f.d.toNat + k, (r.1.getD k 0).setWidth 32), r.2)))

/-- 03 R45, R46; 07 R125; 11 R177; 15 R227: a result that is owed lands once the run has ended: its register writes
reach the group, its status bits are ORed in, and the operation is gone. Lanes that raise an enabled bit then trap. A
load reads memory as it lands: its registers take the bytes that stand at its places, those of the core's own copy of
a line below device scope, else those of the line's home; a line that is missing is fetched from the home. -/
def Obligations.ResultLands : Prop :=
  ∀ (s : State) (g : Group) (o : Op), findGroup s g.id = some g → owing s g.id = [o] → o.writes = none → o.done = false →
    g.run = none → g.after = [] → g.traps = [] → g.stepping = none → (∀ q ∈ s.ops, q.id = o.id → q = o) →
    let Landed (r : Group) : Prop := ∃ u g', exec (.pendingResultLands g.id) s = .next u ∧ findGroup u g.id = some g'
      ∧ g' = r ∧ SameMemory s u ∧ owing u g.id = [] ∧ (findOp u o.id = none ∨ ∃ q, findOp u o.id = some q ∧ q.done = true)
      ∧ ∀ n, n ≠ g.id → findGroup u n = findGroup s n
    (∀ (ws : List RegWrite) (fl : List (Nat × FlagSet)), o.kind = .result ws fl →
      let r : Group := { applyWrites g ws with fst := fstAfter g.fst (flagUnion (fl.map (·.2))) }
      (groupEnded g = false → (∀ x ∈ fl, enabledBits g.ften x.2 = 0) → Landed (afterMasks r false ws))
      ∧ ∀ k pc,
        let m := enabledLanes g.ften fl
        let bits := enabledBits g.ften (flagUnion (fl.map (·.2)))
        let c : Cause := BitVec.ofNat 10 (0x080 + k)
        lowestBit bits = some k → LanesAt g m pc → NoJoins g → HandlerFree s g m c →
          ∃ u g', exec (.pendingResultLands g.id) s = .next u ∧ findGroup u g.id = some g' ∧ SameMemory s u
            ∧ entered r m c pc (BitVec.ofNat 64 (o.pc.toNat + bits.toNat * 2 ^ 32)) g')
    ∧ ∀ accs ty size d scope acq rmt ro byp, o.kind = .load accs ty size d scope acq rmt ro byp → groupEnded g = false →
      landable s o = true → meshBefore s o = [] → Clean s → (∀ w ∈ s.posted, w.group ≠ g.id) →
      let Loaded (bytes : Access → List Byte) : Prop :=
        Landed { applyWrites g (loadResult ty d (accs.map fun a => (a.lane, bytes a))) with fst := fstAfter g.fst 0 }
      ((∀ a ∈ accs, ReadsPlain s o.core scope ro a.loc) → Loaded fun a => heldBytes s o.core scope a.loc size)
      ∧ ∀ a pty pa va, accs = [a] → a.loc = .page pty pa va → pty ≠ .peer → scope < 2 → o.core < s.cores.length →
        l1At (coreAt s o.core) pty (pa / 64) = none → homeDirect s o.core pty pa = true → pa % 64 + size ≤ 64 →
          Loaded fun _ => readBytes (backing s pty) pa size

/-! ### Identifiers and CSRs -/

/-- 11 R195, R196, R199: GETID writes the guard set's lanes, CLOCK and EVRD a scalar register. -/
def Obligations.Identifiers : Prop :=
  ∀ (s : State) (g : Group) (cur : Cur) (f : CF), MidRun g cur →
    (Issuing s g cur (.getid f) →
      Completes (.getid f) s g (laneResult g cur (guardC g cur f) (fun l => [(f.d.toNat, idValue s g f.csr.toNat l)]) 0))
    ∧ (Issuing s g cur (.clock f) →
      Completes (.clock f) s g (scalarResult g cur (guardC g cur f) f.d.toNat
        (BitVec.ofNat 64 (s.now + (dieAt s (g.core / 64)).clockOffset))))
    ∧ ∀ p, findPart s (partOfGroup s g) = some p → Issuing s g cur (.evrd f) →
      Completes (.evrd f) s g (scalarResult g cur (guardC g cur f) f.d.toNat (eventCounter s g p f.csr.toNat))

/-- 11 R197, R198: CSRR owes the value of a CSR to a scalar register; CSRW, CSRS and CSRC write s[A], set its bits and clear its bits in a CSR. A CSR of the group changes
nothing else; a Partition CSR changes in its partition, a Debug CSR in its core. That a Partition CSR changes at once, where
R197 leaves a time, is the model's choice (log entry 83). -/
def Obligations.CsrAccess : Prop :=
  (∀ (s : State) (g : Group) (cur : Cur) (f : CF), Issuing s g cur (.csrr f) → MidRun g cur →
    (guardC g cur f = 0 → Completes (.csrr f) s g (moved g cur))
    ∧ (guardC g cur f ≠ 0 → counterOf s g.id .load < 63 →
      Posts (.csrr f) s g (moved g cur) (owesScalar (some .load) f.d.toNat (readCsr s g f.csr.toNat))))
  ∧
  ∀ (s : State) (g : Group) (cur : Cur) (f : CF),
    ∀ p ∈ [(Instr.csrw f, fun (_ x : DWord) => x), (.csrs f, fun c x => c ||| x), (.csrc f, fun c x => c &&& ~~~x)],
    let n := f.csr.toNat
    let x := p.2 (readCsr s g n) (sreg g f.a.toNat)
    Issuing s g cur p.1 → MidRun g cur →
      (guardC g cur f = 0 → Completes p.1 s g (moved g cur))
      ∧ (guardC g cur f ≠ 0 → n < 0x110 → Completes p.1 s g (moved (writeCsr s g n x).2 cur))
      ∧ (guardC g cur f ≠ 0 → 0x200 ≤ n → ∃ u g', exec p.1 s = .next u
          ∧ u.parts = s.parts.map (fun q => if q.idx == partOfGroup s g then writePartCsr q n x else q)
          ∧ u.teams = s.teams ∧ SameMemory s u ∧ u.ops = s.ops
          ∧ findGroup u g.id = some g' ∧ g' = bookkept (moved g cur) g')
      ∧ (guardC g cur f ≠ 0 → 0x110 ≤ n → n < 0x200 → g.core < s.cores.length → ∃ u g', exec p.1 s = .next u
          ∧ (coreAt u g.core).dbg = writeDebug (coreAt s g.core).dbg n x
          ∧ u.teams = s.teams ∧ u.parts = s.parts ∧ SameMemory s u ∧ u.ops = s.ops
          ∧ findGroup u g.id = some g' ∧ g' = bookkept (moved g cur) g')

/-! ### Control flow -/

/-- 03 R43; 05 R81; 11 R163, R164; 18 R291: NOP goes on at the next slot, whatever its guard, and a set SW bit ends the run
after it; where that run is group 0's, the gate of a gated team is to open. YIELD ends the run, and the group then waits for
every ready group of its quarter with PRI equal or higher. EXIT ends the run; with no result owed, the lanes of its guard set
have exited, with their registers, and the rest of the active set goes on. That NOP ignores its guard and an EXIT of no lane
ends the run is read from the spec (log entry 78), and which groups a YIELD waits for is log entry 65. -/
def Obligations.RunEnds : Prop :=
  ∀ (s : State) (g : Group) (cur : Cur) (f : BF),
    (MidRun g cur → Issuing s g cur (.nop f) → Completes (.nop f) s g (moved g cur))
    ∧ (cur.sw = true → g.after = [] → g.stepping = none → g.idx ≠ 0 → Settled s g → ActiveAt g cur → Issuing s g cur (.nop f) →
        ∃ u g', exec (.nop f) s = .next u ∧ Aside s u g.id ∧ findGroup u g.id = some g' ∧ g'.run = none
          ∧ g'.s = g.s ∧ g'.k = g.k ∧ g'.lanes = (moved g cur).lanes)
    ∧ (cur.sw = true → g.after = [] → g.stepping = none → g.idx = 0 → Settled s g → ActiveAt g cur → Issuing s g cur (.nop f) →
        ∀ t, findTeam s g.team = some t → nextGathering s t (packetW t.packet) = none →
          ∃ u g', exec (.nop f) s = .next u ∧ SameMemory s u ∧ findGroup u g.id = some g' ∧ g'.run = none
            ∧ g'.s = g.s ∧ g'.k = g.k ∧ g'.lanes = (moved g cur).lanes
            ∧ findTeam u t.id = some { t with
                gateMark := if t.gated then some (t.gateMark.getD s.nextId) else t.gateMark })
    ∧ (MidRun g cur → Issuing s g cur (.yield f) → guardB g cur f = 0 → Completes (.yield f) s g (moved g cur))
    ∧ (MidRun g cur → Issuing s g cur (.yield f) → guardB g cur f ≠ 0 → g.traps = [] → ActiveAt g cur →
        ∃ u g', exec (.yield f) s = .next u ∧ Aside s u g.id ∧ findGroup u g.id = some g'
          ∧ g' = bookkept (moved g cur) g' ∧ g'.run = none
          ∧ g'.yield = if yieldOthers s g = [] then none else some ⟨yieldOthers s g, coreNow s (dieOfCore g.core)⟩)
    ∧ (Issuing s g cur (.exit f) → MidRun g cur → Settled s g → ActiveAt g cur →
        ∃ u g', exec (.exit f) s = .next u ∧ SameMemory s u ∧ findGroup u g.id = some g' ∧ g'.run = none
          ∧ ∀ l, cur.active.getLsbD l = true →
            (laneAt g' l).v = (laneAt g l).v ∧ (laneAt g' l).exited = (guardB g cur f).getLsbD l
            ∧ ((guardB g cur f).getLsbD l = false → (laneAt g' l).pc = pcNext cur.pc))

/-- 03 R42; 05 R80, R91; 11 R165 to R167: a transfer whose targets pass their checks, and whose UNI assertion holds, puts the
lanes of its guard set at their targets, with the next slot's pc in the link register, and the others at the next slot.
Where the assertion does not hold, the whole active set traps with UNIFORMITY_VIOLATION. -/
def Obligations.Transfers : Prop :=
  ∀ (s : State) (g : Group) (cur : Cur) (f : BF), ∀ p ∈ transfers f,
    Issuing s g cur p.1 → MidRun g cur → ActiveAt g cur → g.traps = [] →
      ((f.uni = true → uniform g cur p.2.1 (guardB g cur f)) →
        TargetsPass s g (guardB g cur f) (targetOf g cur f p.2.1) →
          Goes p.1 s g (transferred g cur (guardB g cur f) (targetOf g cur f p.2.1) p.2.2))
      ∧ (f.uni = true → ¬ uniform g cur p.2.1 (guardB g cur f) → owing s g.id = [] → HandlerFree s g cur.active 0x180 →
        ∀ low, lowLane g.w cur.active = some low →
          Traps p.1 s g g cur.active 0x180 cur.pc
            (match p.2.1 with | none => guardB g cur f | some r => (vreg g low r.toNat).zeroExtend 64))

/-- 03 R39, R40: MEET saves `mr` and sets it, and the mask of the lanes to await, and JOINs that then await no other lane let
theirs go; JOIN holds its lanes until every lane of mask register B that has not exited is held there, and then
lets all of them go; a lane whose `mr` is not the JOIN's pc traps. -/
def Obligations.MeetAndJoin : Prop :=
  (∀ (s : State) (g : Group) (cur : Cur) (f : BF),
    Issuing s g cur (.meet f) → MidRun g cur → ActiveAt g cur → Completes (.meet f) s g (releaseJoins (metDone g cur f))
      ∧ (NoJoins g → Completes (.meet f) s g (metDone g cur f)))
  ∧
  ∀ (s : State) (g : Group) (cur : Cur) (f : BF),
    Issuing s g cur (.join f) → MidRun g cur → ActiveAt g cur → g.traps = [] → OneJoin g cur f →
      ((∀ l, cur.active.getLsbD l = true → (laneAt g l).mr = cur.pc) →
        (allHeld g cur f.b → Goes (.join f) s g (joined' g cur f))
        ∧ (¬ allHeld g cur f.b → Goes (.join f) s g (heldDone g cur f)))
      ∧ ((∀ l, cur.active.getLsbD l = true → (laneAt g l).mr ≠ cur.pc) → owing s g.id = [] →
          (∀ l b c, (laneAt g l).park ≠ .join b c) → HandlerFree s g cur.active 0x181 →
          ∀ low, lowLane g.w cur.active = some low →
            Traps (.join f) s g g cur.active 0x181 cur.pc ((laneAt g low).mr.zeroExtend 64))

/-- 03 R51, R53: SUCC and SUCC2 of a kernel that is not regroupable put their lanes at the segment's start, with s60 to
s63, the vector registers and the control CSRs kept; what R53 leaves undefined is not stated. -/
def Obligations.SuccessorsGoOn : Prop :=
  ∀ (s : State) (g : Group) (cur : Cur) (f : BF) (t : Team),
    MidRun g cur → ActiveAt g cur → Settled s g → findTeam s g.team = some t → isRegroupable t = false → t.gatherings = [] →
    (∀ l, cur.active.getLsbD l = true → (laneAt g l).mr = 0xFFFFFFFF) →
      (Issuing s g cur (.succ f) → (checkFor s g cur.active (dispTarget cur.pc f.disp)).1 = .ok →
        ∃ u g', exec (.succ f) s = .next u ∧ SameMemory s u ∧ findGroup u g.id = some g' ∧ g'.run = none
          ∧ ∀ l, cur.active.getLsbD l = true → (laneAt g' l).pc = dispTarget cur.pc f.disp ∧ KeptAtSegment g g' l)
      ∧ (Issuing s g cur (.succ2 f) →
        let a := cur.active &&& kreg g f.b.toNat
        let b := cur.active &&& ~~~kreg g f.b.toNat
        (a ≠ 0 → (checkFor s g a (dispTarget cur.pc f.disp)).1 = .ok) →
        (b ≠ 0 → (checkFor (if a = 0 then s else (checkFor s g a (dispTarget cur.pc f.disp)).2) g b (pcNext cur.pc)).1 = .ok) →
        ∃ u g', exec (.succ2 f) s = .next u ∧ SameMemory s u ∧ findGroup u g.id = some g' ∧ g'.run = none
          ∧ ∀ l, cur.active.getLsbD l = true →
            (laneAt g' l).pc = (if a.getLsbD l then dispTarget cur.pc f.disp else pcNext cur.pc) ∧ KeptAtSegment g g' l)

/-- 11 R170: ENTER and LEAVE move the stack pointer s63 within the bounds SPLIM and PRIVB, if the active set is the
whole group; else they trap. A size that is no multiple of 16 from 16 to 0x0100_0000 is an illegal field. That LEAVE
compares with PRIVB as signed numbers is read from the spec (log entry 106). -/
def Obligations.StackMoves : Prop :=
  (∀ (env : CheckEnv) (f : BF), env.ctl = false → f.disp.toNat % 16 ≠ 0 ∨ f.disp.toNat < 16 ∨ 0x1000000 < f.disp.toNat →
    checkInstr env (.enter f) = some 0x003 ∧ checkInstr env (.leave f) = some 0x003)
  ∧ ∀ (s : State) (g : Group) (cur : Cur) (f : BF),
    ∀ p ∈ [(Instr.enter f, sreg g 63 - f.disp.zeroExtend 64, decide ((sreg g 63 - f.disp.zeroExtend 64).slt g.splim)),
      (.leave f, sreg g 63 + f.disp.zeroExtend 64, decide (g.privb.slt (sreg g 63 + f.disp.zeroExtend 64)))],
    Issuing s g cur p.1 → MidRun g cur →
      (cur.active = liveLanes g → p.2.2 = false → Completes p.1 s g { moved g cur with s := g.s.set 63 p.2.1 })
      ∧ (cur.active = liveLanes g → p.2.2 = true → Settled s g → ActiveAt g cur → HandlerFree s g cur.active 0x182 →
          Traps p.1 s g g cur.active 0x182 cur.pc p.2.1)
      ∧ (cur.active ≠ liveLanes g → Settled s g → ActiveAt g cur → HandlerFree s g cur.active 0x183 →
          Traps p.1 s g g cur.active 0x183 cur.pc 0)

/-- 05 R100, R101; 11 R171; 21 R326, R328, R329: a slot value that is no instruction traps, before any effect, with
the cause of its check and the bits [63:0] of the slot; TRAP n and BKPT take their trap: the lanes of the guard set
enter the handler, TPC being the next slot's pc or the instruction's own. Where no handler is named, these lanes exit
and a record tells of the trap. Where one of them is privileged, the trap is double: a record says so and the
partition halts. -/
def Obligations.TrapEntries : Prop :=
  (∀ (s : State) (g : Group) (cur : Cur) (w : SlotBits),
    let c := rejectCause (groupEnv s g cur.active) w
    s.cur = some cur → cur.who = .group g.id → findGroup s g.id = some g → cur.subst = false →
    MidRun g cur → ActiveAt g cur → Settled s g → HandlerFree s g cur.active c →
      Traps (.illegalOpcode w) s g g cur.active c cur.pc (w.extractLsb' 0 64))
  ∧
  ∀ (s : State) (g : Group) (cur : Cur) (f : BF),
    ∀ p ∈ [(Instr.trap f, BitVec.ofNat 10 (0x340 + f.disp.toNat % 64), pcNext cur.pc, cur.pc.zeroExtend 64),
      (.bkpt f, 0x283, cur.pc, (0 : DWord))],
    Issuing s g cur p.1 → MidRun g cur → ActiveAt g cur →
      (guardB g cur f = 0 → Completes p.1 s g (moved g cur))
      ∧ (guardB g cur f ≠ 0 → Settled s g → HandlerFree s g (guardB g cur f) p.2.1 →
          Traps p.1 s g (movedBut g cur (guardB g cur f)) (guardB g cur f) p.2.1 p.2.2.1 p.2.2.2)
      ∧ (guardB g cur f ≠ 0 → Settled s g → faultSlot (dieAt s (dieOfCore g.core)) p.2.1 = none →
          anyPrivileged g (guardB g cur f) = false → g.trap.tvec = 0xFFFFFFFF →
          ∃ u g', exec p.1 s = .next u ∧ SameMemory s u ∧ findGroup u g.id = some g'
            ∧ (∀ l, (guardB g cur f).getLsbD l = true → (laneAt g' l).exited = true ∧ (laneAt g' l).v = (laneAt g l).v)
            ∧ Told s u (dieOfCore g.core) (unitCore g.core) p.2.1.toNat (some (partOfGroup s g))
                [BitVec.ofNat 64 p.2.1.toNat, p.2.2.1.zeroExtend 64, p.2.2.2, guardB g cur f, specBaseOf s g.team])
      ∧ (guardB g cur f ≠ 0 → Settled s g → anyPrivileged g (guardB g cur f) = true →
          ∀ q, findPart s (partOfGroup s g) = some q →
          ∃ u q', exec p.1 s = .next u ∧ SameMemory s u ∧ findPart u q.idx = some q' ∧ q'.state = .halted
            ∧ ToldAs true s u (dieOfCore g.core) (unitCore g.core) p.2.1.toNat (some q.idx) [p.2.2.1.zeroExtend 64])

/-- 05 R101; 11 R171, R197: an instruction that fails a check traps before any effect with the cause of that check, at its
own pc, with bits [63:0] of the slot and the whole active set. At user privilege TRET, every access of a Trap CSR and a
write of a Stack or Partition CSR fail the privilege check and no earlier one, and at either privilege a write of an
Identity CSR fails the field check. -/
def Obligations.ChecksAndPrivileges : Prop :=
  (∀ (s : State) (g : Group) (cur : Cur) (i : Instr) (c : Cause),
    s.cur = some cur → cur.who = .group g.id → findGroup s g.id = some g → cur.subst = false →
    checkInstr (groupEnv s g cur.active) i = some c → MidRun g cur → ActiveAt g cur → Settled s g →
    HandlerFree s g cur.active c → Traps i s g g cur.active c cur.pc (cur.raw.extractLsb' 0 64))
  ∧
  ∀ (env : CheckEnv) (b : BF) (c : CF), env.ctl = false →
    let write (i : Instr) : Prop := i = .csrw c ∨ i = .csrs c ∨ i = .csrc c
    (checkInstr { env with priv := true } (.tret b) = none → checkInstr { env with priv := false } (.tret b) = some 0x00A)
    ∧ (∀ i, (csrClass c.csr.toNat = some .trap ∧ (write i ∨ i = .csrr c))
          ∨ ((csrClass c.csr.toNat = some .stack ∨ csrClass c.csr.toNat = some .partition) ∧ write i) →
        checkInstr { env with priv := true } i = none → checkInstr { env with priv := false } i = some 0x00A)
    ∧ (∀ i, csrClass c.csr.toNat = some .user ∨ (i = .csrr c ∧ csrClass c.csr.toNat ≠ some .trap) → write i ∨ i = .csrr c →
        checkInstr { env with priv := true } i = none → checkInstr { env with priv := false } i = none)
    ∧ ∀ i, csrClass c.csr.toNat = some .identity → write i → checkInstr env i = some 0x003

/-- 21 R330, R347: TRET puts the lanes of TMASK at TPC with the privilege PPRIV, and clears INH; a single step is armed
where SS is set. With an active set that is not TMASK's it halts the partition. -/
def Obligations.TrapReturn : Prop :=
  ∀ (s : State) (g : Group) (cur : Cur) (f : BF),
    Issuing s g cur (.tret f) → MidRun g cur → ActiveAt g cur →
      (g.traps = [] → g.emu = false → cur.active = g.trap.tmask &&& liveLanes g →
        Goes (.tret f) s g
          { g with
            lanes := g.lanes.mapIdx fun l x =>
              if inLanes g cur.active l then { x with pc := g.trap.tpc, park := .none, set := 0, priv := g.trap.ppriv } else x
            trap := { g.trap with inh := false }
            stepping := if g.trap.ss then some cur.active else none })
      ∧ (cur.active ≠ g.trap.tmask &&& liveLanes g → ∀ p, findPart s (partOfGroup s g) = some p →
        ∃ u q, exec (.tret f) s = .next u ∧ findPart u p.idx = some q ∧ q.state = .halted)

/-- 03 R68, 11 R172: MIGRATE of a migratory kernel to a page homed on its own die goes on at the next slot; homed on
another die of the partition, the group leaves for it. -/
def Obligations.MigrateGoes : Prop :=
  ∀ (s : State) (g : Group) (cur : Cur) (f : BF) (t : Team) (p : Partition) (ty : MemType) (pa va d : Nat),
    Issuing s g cur (.migrate f) → MidRun g cur → ActiveAt g cur → g.traps = [] → owing s g.id = [] →
    (∀ o ∈ groupOps s g.id, o.cls.isSome = true → o.done = true) →
    findTeam s g.team = some t → teamPartition s g.team = some p → isMigratory t = true →
    (∀ l, awaitsFault (laneAt g l) = false) →
    ResolvesTo s g.core p t.origin (sreg g f.a.toNat) (.page ty pa va) →
    ty ≠ .host → ty ≠ .peer → homeDie p ty pa = some d → d ∈ partDies p →
      ∃ u g', exec (.migrate f) s = .next u ∧ findGroup u g.id = some g'
        ∧ (∀ l, cur.active.getLsbD l = true →
            (laneAt g' l).pc = pcNext cur.pc ∧ (laneAt g' l).v = (laneAt g l).v ∧ (laneAt g' l).mr = (laneAt g l).mr)
        ∧ g'.s = g.s ∧ g'.k = g.k ∧ g'.shipping = if d = dieOfCore g.core then g.shipping else some d

/-! ### Memory instructions -/

/-- 03 R58; 05 R90; 11 R173 to R183, R189: a per-lane memory instruction whose lanes meet no fault and no absent line completes at
issue: the operation it submits names each lane's bytes where the lane's address places them, a store's with the lane's
data; the group goes on with every register as before, and no memory has changed. ATOM CLASP
submits one arrival for each lane at its line, present or absent. -/
def Obligations.MemoryIssue : Prop :=
  (∀ (s : State) (g : Group) (cur : Cur) (f : MF) (t : Team) (p : Partition) (op : AtomOp) (red : RedOp),
      ∀ a ∈ memoryMembers s g t p f (guardM g cur f) op red,
      let r := placeLanes s a.2.lanes a.2.place
      let locs := placed r.1
      Issuing s g cur a.1 → MidRun g cur → MemReady s g (guardM g cur f) (some a.2.cls) t p →
      breakData s g cur a.2.reads a.2.writes (a.2.lanes.map fun l => (l, laneEa g f l, a.2.size)) = none →
      NoArrivals s g → placeFaults r.1 = [] → absentLines s locs = [] →
        PostsMem a.1 s g (moved g cur) (submitted (some a.2.cls) (a.2.kind locs) a.2.owes locs.isEmpty))
  ∧
  ∀ (s : State) (g : Group) (cur : Cur) (f : MF) (t : Team) (p : Partition),
    let lanes := acting g (guardM g cur f)
    let ret := if f.d = 0xFF then none else some f.d.toNat
    let cls : OpClass := if f.d = 0xFF then .store else .load
    let r := placeLanes s lanes fun st l => placeScratch st t l (laneEa g f l) 4 64 .atomic
    let locs := placed r.1
    Issuing s g cur (.atomClasp f) → MidRun g cur → MemReady s g (guardM g cur f) (some cls) t p →
    breakData s g cur true true (lanes.map fun l => (l, laneEa g f l, 4)) = none → placeFaults r.1 = [] →
      PostsMem (.atomClasp f) s g (moved g cur) (submitted (some cls)
        (.clasp (locs.map fun x => ⟨x.1, x.2, 0, 0⟩) f.sc.toNat (f.ord = .acquire ∨ f.ord = .acqRel)
          (f.ord = .release ∨ f.ord = .acqRel) ret)
        ret.isSome locs.isEmpty)

/-- 11 R177, 15 R222: LDR and STR read the resource entry that s[A] names, after the group's own writes to it, and submit the
accesses of the lanes, each within the resource. -/
def Obligations.ResourceIssue : Prop :=
  ∀ (s : State) (g : Group) (cur : Cur) (f : MF) (t : Team) (p : Partition) (e : Nat × Nat × Bool),
    let m := guardM g cur f
    let rd := groupReader s g p m
    let n := accessSize f.ty f.cnt.toNat
    let s1 := (readOwn s g rd (entryEa g f.a) 64).2
    let h := refresh s1 g
    ∀ a ∈ [(Instr.ldr f, OpClass.load, Use.read, laneList g.w m), (.str f, .store, .write, acting g m)],
    let r := placeLanes s1 a.2.2.2 fun st l => placeResource st h f rd e l n (accessAlign f.ty f.cnt.toNat) a.2.2.1
    let locs := placed r.1
    Issuing s g cur a.1 → MidRun g cur → MemReady s g m (some a.2.1) t p →
    (ownPlaces s g rd (entryEa g f.a) 64).1 = none →
    (bytesRead (readOwn s g rd (entryEa g f.a) 64).1).bind bufferEntry = some e →
    breakData s1 h cur (a.2.2.1 == .read) (a.2.2.1 == .write) (a.2.2.2.map fun l => (l, resourceEa h f e.1 l, n)) = none →
    placeFaults r.1 = [] →
      ∃ u g' x, exec a.1 s = .next u ∧ u.ops = s1.ops ++ [x] ∧ findGroup u g.id = some g' ∧ g' = bookkept (moved h cur) g'
        ∧ submitted (some a.2.1)
          (if a.2.2.1 = .read then
            .load (locs.map fun y => ⟨y.1, y.2, []⟩) f.ty n f.d.toNat f.sc.toNat (f.ord = .acquire ∨ f.ord = .acqRel) f.rmt false
              (f.ch = 3)
          else .store (storeAccs locs n (storeData h f.ty f.cnt.toNat f.d.toNat)) f.sc.toNat
            (f.ord = .release ∨ f.ord = .acqRel) false)
          (a.2.2.1 == .read) locs.isEmpty x
        ∧ SameMemory s1 u

/-- 11 R173 to R175, R180; 21 R324, R327, R328, R331: a global load or store whose lanes are all misaligned, at addresses
that are canonical and in neither the transient nor the firmware window, traps with MISALIGNED and the lowest lane's address;
nothing is accessed. A per-lane memory instruction whose lanes all fault with one cause that a handler takes traps with it and
the TVAL of the lowest lane. Where the cause is PAGE_NOT_PRESENT, of one page, the lanes wait at the instruction for the host,
which a record tells once. A lane's access faults beyond the scratchpad, beyond its private memory, at an address that is not
canonical, at a page that is not present, and as a write to a page that may not be written. -/
def Obligations.MisalignmentTraps : Prop :=
  (∀ (s : State) (g : Group) (cur : Cur) (f : MF) (t : Team) (p : Partition),
    let m := guardM g cur f
    let n := accessSize f.ty f.cnt.toNat
    ∀ a ∈ [(Instr.ld f, OpClass.load, true), (.ldnc f, .load, true), (.st f, .store, false), (.stnc f, .store, false)],
    Issuing s g cur a.1 → MidRun g cur → ActiveAt g cur → Settled s g → MemReady s g m (some a.2.1) t p →
    breakData s g cur a.2.2 (!a.2.2)
      ((if a.2.2 then laneList g.w m else acting g m).map fun l => (l, laneEa g f l, n)) = none →
    (∀ l, inLanes g m l = true → (laneAt g l).helper = false ∧ canonical (laneEa g f l) = true
      ∧ isTransient (laneEa g f l) = false ∧ (laneEa g f l).toNat % accessAlign f.ty f.cnt.toNat ≠ 0) →
    HandlerFree s g m 0x102 → ∀ low, lowLane g.w m = some low →
      Traps a.1 s g (movedBut g cur m) m 0x102 cur.pc (laneEa g f low))
  ∧ (∀ (s : State) (g : Group) (cur : Cur) (f : MF) (t : Team) (p : Partition) (op : AtomOp) (red : RedOp),
      ∀ a ∈ memoryMembers s g t p f (guardM g cur f) op red,
      let r := placeLanes s a.2.lanes a.2.place
      let m := laneSet a.2.lanes
      Issuing s g cur a.1 → MidRun g cur → ActiveAt g cur → Settled s g → MemReady s g (guardM g cur f) (some a.2.cls) t p →
      breakData s g cur a.2.reads a.2.writes (a.2.lanes.map fun l => (l, laneEa g f l, a.2.size)) = none →
      placed r.1 = [] → ∀ x rest, placeFaults r.1 = x :: rest →
        ((∀ y ∈ rest, y.cause = x.cause) → HandlerFree s g m x.cause →
          Traps a.1 s g (movedBut g cur m) m x.cause cur.pc x.tval)
        ∧ (x.cause = 0x100 → (∀ y ∈ rest, y.cause = 0x100 ∧ y.page = x.page) → TeamQuiet s g →
            faultSlot (dieAt s (dieOfCore g.core)) 0x100 = none →
          ∃ u g' q, exec a.1 s = .next u ∧ SameMemory s u ∧ findGroup u g.id = some g' ∧ g'.run = none
            ∧ (∀ l, m.getLsbD l = true → (laneAt g' l).pc = cur.pc ∧ (laneAt g' l).v = (laneAt g l).v
              ∧ ∃ req, (laneAt g' l).park = .host [x.page] req)
            ∧ findPart u p.idx = some q ∧ x.page ∈ q.faults
            ∧ (x.page ∉ p.faults → Told s u (dieOfCore g.core) (unitCore g.core) 0x100 (some p.idx) [pageVa x.page 4096])))
  ∧ ∀ (s : State) (g : Group) (t : Team) (rd : Reader) (l n al : Nat) (ea : DWord) (u : Use),
      let va := (ea.extractLsb' 0 57).toNat
      (t.packet.scratch < (ea.extractLsb' 0 22).toNat + n → (placeScratch s t l ea n al u).1 = .fault ⟨l, 0x104, ea, 0⟩)
      ∧ (ea.toInt < 0 ∨ g.privb.toInt < ea.toInt + n → (placePrivate s g rd l ea n al u).1
          = .fault ⟨l, 0x103, BitVec.ofNat 64 (privateVa (laneAt g l) g.w ea.toNat), 0⟩)
      ∧ (isTransient ea = false → isFirmware rd.emu ea = false →
          (canonical ea = false → (placeGlobal s rd l ea n al u).1 = .fault ⟨l, 0x101, ea, pageOf va⟩)
          ∧ (canonical ea = true → ea.toNat % al = 0 →
            ((translate s rd.core rd.part va).1 = .notPresent → (placeGlobal s rd l ea n al u).1 = .fault ⟨l, 0x100, ea, pageOf va⟩)
            ∧ ∀ ty pa x, (translate s rd.core rd.part va).1 = .page ty pa false x → usesWrite u = true →
              (placeGlobal s rd l ea n al u).1 = .fault ⟨l, 0x101, ea, pageOf va⟩))

/-- 11 R185 to R188: FENCE and LFENCE submit a fence of the group, CINV and CWB the invalidation or the write-back of the
lines of a range; PREF never faults, waits or counts. Each goes on at the next
slot, but for ICINV, which parks its pc-set there until every core acted on has acknowledged. -/
def Obligations.FencesAndMaintenance : Prop :=
  ∀ (s : State) (g : Group) (cur : Cur) (f : MF) (t : Team) (p : Partition), MidRun g cur →
    (∀ a ∈ [(Instr.fence f,
        OpKind.fence f.sc.toNat (f.ord = .acquire ∨ f.ord = .acqRel) (f.ord = .release ∨ f.ord = .acqRel) (f.ofs = 1)),
        (.lfence f, .lfence)],
      Issuing s g cur a.1 → MemReady s g (guardM g cur f) none t p →
        PostsMem a.1 s g (moved g cur) (submitted none a.2 false false))
    ∧ (∀ (locs : List Loc),
        ∀ a ∈ [(Instr.cinv f, OpKind.invalidate locs f.sc.toNat), (.cwb f, .writeBack locs f.sc.toNat)],
        Issuing s g cur a.1 → MemReady s g (guardM g cur f) (some .store) t p →
        breakData s g cur true false (wideRange g (guardM g cur f) (uniformEa g f) (rangeLength g f)) = none →
        (maintainPlaces s (groupReader s g p (guardM g cur f)) (uniformEa g f) (rangeLength g f)).1 = .inl locs →
          PostsMem a.1 s g (moved g cur) (submitted (some .store) a.2 false false))
    ∧ (Issuing s g cur (.pref f) →
        ∃ u g', exec (.pref f) s = .next u ∧ u.ops = s.ops ∧ findGroup u g.id = some g' ∧ g' = bookkept (moved g cur) g'
          ∧ u.teams = s.teams ∧ u.parts = s.parts ∧ u.threads = s.threads)
    ∧ (∀ len, len = (if f.d = 0xFF then 1 else (sreg g f.d.toNat).toNat) →
        Issuing s g cur (.icinv f) → ActiveAt g cur → g.traps = [] →
        MemReady s g (guardM g cur f) none t p → isTransient (uniformEa g f) = false → canonical (uniformEa g f) = true →
          ∃ u g' x, exec (.icinv f) s = .next u ∧ x ∈ u.ops ∧ x.id = s.nextId ∧ (∀ q ∈ u.ops, q = x ∨ q ∈ s.ops)
            ∧ submitted none (.icinv (uniformEa g f).toNat len (f.sc == 4)) false false x
            ∧ Aside s u g.id ∧ findGroup u g.id = some g' ∧ g'.s = g.s ∧ g'.k = g.k ∧ g'.run = none
            ∧ ∀ l, cur.active.getLsbD l = true →
              (laneAt g' l).pc = pcNext cur.pc ∧ (laneAt g' l).park = .op x.id ∧ (laneAt g' l).v = (laneAt g l).v)

/-- 11 R190, R182: CPY reads its region record, in either space, after the group's own writes to it, and submits the copy where
its scratchpad lines are present; those that it is to fill turn absent. A row may lie in the scratchpad of any team of the
cluster: that is the model's reading of R190 (log entry 84). -/
def Obligations.CopyIssue : Prop :=
  ∀ (s : State) (g : Group) (cur : Cur) (f : MF) (t : Team) (p : Partition) (l : Loc) (c : CopyRec),
    let q := copyPlace s g (groupReader s g p (guardM g cur f)) t f
    let o := ownLocs q.2 g.id 32 [l]
    let b := loadLoc o.2 g.core l 32 0 false
    let s1 := b.2
    let lines := copyLines s1 t c
    Issuing s g cur (.cpy f) → MidRun g cur → MemReady s g (guardM g cur f) (some .copy) t p → NoArrivals s g → NoArrivals s1 g →
    breakData s g cur true false (wideRange g (guardM g cur f) (uniformEa g f) 32) = none →
    q.1 = some l → isStream l = false → o.1 = none → (f.space = true → absentLines s [(0, l)] = [] ∧ badAt o.2 l 32 = false) →
    copyRecord b.1 = some c → badRow s1 t c = none → (∀ x ∈ lines, linePresent s1 x.1 x.2 = true) →
      ∃ u g' x, exec (.cpy f) s = .next u ∧ u.ops = s1.ops ++ [x]
        ∧ submitted (some .copy) (.copy c f.sc.toNat (f.ord = .release ∨ f.ord = .acqRel) []) false false x
        ∧ SameMemory s1 u ∧ findGroup u g.id = some g' ∧ g' = bookkept (moved (refresh s1 g) cur) g'
        ∧ ∀ x ∈ lines, linePresent u x.1 x.2 = !(c.toScratch && (findTeam s1 x.1).isSome)

/-- 11 R191, R192; 15 R244: a WAITC whose counter is at most its bound ends the run and goes on; else its pc-set parks
until it is. On VQ with the bound 0 it acquires: the core's signature is clear after it. On COPY, with a covered copy that
met a fault, it traps with COPY_FAULT instead, TVAL being the first address the oldest such copy faulted at. -/
def Obligations.WaitForCounter : Prop :=
  ∀ (s : State) (g : Group) (cur : Cur) (f : MF) (c : OpClass),
    classOfCode f.d.toNat = c → Issuing s g cur (.waitc f) → MidRun g cur → ActiveAt g cur → g.traps = [] →
      (guardM g cur f = 0 ∨ (counterOf s g.id c ≤ f.ofs.toNat ∧ (c = .copy → g.copyFaults = []) ∧ (c = .vq → f.ofs ≠ 0)) →
        ∃ u g', exec (.waitc f) s = .next u ∧ Aside s u g.id ∧ findGroup u g.id = some g'
          ∧ g' = bookkept (moved g cur) g' ∧ g'.run = none)
      ∧ (guardM g cur f ≠ 0 → c = .vq → f.ofs = 0 → counterOf s g.id c = 0 → g.core < s.cores.length →
        ∃ u g', exec (.waitc f) s = .next u ∧ (coreAt u g.core).sig = 0 ∧ u.teams = s.teams ∧ u.threads = s.threads
          ∧ findGroup u g.id = some g' ∧ g' = bookkept (moved g cur) g' ∧ g'.run = none)
      ∧ (guardM g cur f ≠ 0 → c = .copy → counterOf s g.id c ≤ f.ofs.toNat → Settled s g →
        HandlerFree s g (guardM g cur f) 0x106 → ∀ x, g.copyFaults = [x] → findOp s x.1 = none →
          Traps (.waitc f) s g { movedBut g cur (guardM g cur f) with copyFaults := [] } (guardM g cur f) 0x106 cur.pc x.2)
      ∧ (guardM g cur f ≠ 0 → f.ofs.toNat < counterOf s g.id c →
        ∃ u g', exec (.waitc f) s = .next u ∧ Aside s u g.id ∧ findGroup u g.id = some g' ∧ g'.run = none
          ∧ g'.s = g.s ∧ g'.k = g.k ∧ ∀ l, cur.active.getLsbD l = true →
            (laneAt g' l).pc = cur.pc ∧ (laneAt g' l).park = .counter c f.ofs.toNat ∧ (laneAt g' l).v = (laneAt g l).v)

/-- 03 R60, R66; 11 R193, R194; 15 R236: EMIT submits one record for each lane that is no helper, the 64 bytes that stand at the
lane's private places, read at issue after the group's own writes to them. LAUNCH, once what the group issued before it is
performed, releases it and puts the packet of its scratchpad address in the team's pending-launch queue; a child whose join
address is legal counts on its join line, which turns absent. -/
def Obligations.WorkIssue : Prop :=
  (∀ (s : State) (g : Group) (cur : Cur) (f : MF) (t : Team) (p : Partition),
    let m := guardM g cur f
    let lanes := acting g m
    let r := placeLanes s lanes fun st l => placePrivate st g (groupReader s g p m) l (laneEa g f l) 64 4 .read
    let o := ownLocs r.2 g.id 4 ((placed r.1).map (·.2))
    let rs := recordsAt o.2 g.core r.1
    Issuing s g cur (.emit f) → MidRun g cur → MemReady s g m (some .store) t p →
    breakData s g cur true false (lanes.map fun l => (l, laneEa g f l, 64)) = none → placeFaults r.1 = [] → o.1 = none →
      ∃ u g' x, exec (.emit f) s = .next u ∧ u.ops = rs.2.ops ++ [x] ∧ findGroup u g.id = some g'
        ∧ g' = bookkept (moved (refresh rs.2 g) cur) g' ∧ SameMemory rs.2 u ∧ rs.1.length = lanes.length
        ∧ submitted (some .store) (.emit rs.1) false rs.1.isEmpty x
        ∧ (Clean o.2 → (∀ y ∈ r.1, ∀ l ∈ locsOf y.2, ReadsPlain o.2 g.core 0 false l) →
          rs.1 = r.1.map fun y => (locsOf y.2).flatMap fun l => heldBytes o.2 g.core 0 l 4))
  ∧
  ∀ (s : State) (g : Group) (cur : Cur) (f : MF) (t : Team) (p : Partition) (l : Loc),
    let s1 := performAll s g.id
    let s2 := releaseFrom s1 g.core t.part t.id 3
    let b := (loadLoc s2 g.core l 128 0 false).1
    let addr := fieldNat b 0x58 4
    let join := if fieldNat b 0 1 = 1 then none else joinPlace s2 t addr
    Issuing s g cur (.launch f) → MidRun g cur → MemReady s g (guardM g cur f) none t p → NoArrivals s g →
    breakData s g cur true false (wideRange g (guardM g cur f) (uniformEa g f) 128) = none →
    resolveScratch s t (uniformEa g f) 128 128 = .at l → absentLines s [(0, l), (0, shiftLoc l 64)] = [] →
    t.pendLaunch.length < 4 → releaseWaits s1 g.id = none → badAt s1 l 128 = false →
      ∃ u g' t1 t', exec (.launch f) s = .next u ∧ findGroup u g.id = some g' ∧ g' = bookkept (moved (refresh s1 g) cur) g'
        ∧ findTeam s2 t.id = some t1 ∧ findTeam u t.id = some t' ∧ SameMemory s2 u
        ∧ t'.pendLaunch = t1.pendLaunch ++ [⟨b, join.map fun _ => ⟨t.grid, t.cluster, addr⟩, g.core⟩]
        ∧ ∀ j, join = some j → linePresent u j.1 (j.2 / 64) = !(findTeam s2 j.1).isSome
          ∧ (∀ jt, findTeam s2 j.1 = some jt → jt.scratch.wf = true →
              bytesNat (readScratch u j.1 j.2 4) = (bytesNat (readScratch s2 j.1 j.2 4) + 1) % 2 ^ 32)

/-! ### Quads -/

/-- 03 R63, R64; 13 R214, R215: at a derivative instruction, or a quad swap of a quad-bound kernel, the lanes of a quad
whose every live lane has come execute it, those of the guard set receiving their difference or their neighbour's value;
the lanes of other quads are held. -/
def Obligations.QuadRendezvous : Prop :=
  ∀ (s : State) (g : Group) (cur : Cur) (f : VF) (t : Team), ∀ p ∈ quadFn g f,
    Issuing s g cur p.1 → MidRun g cur → ActiveAt g cur → g.traps = [] → g.w % 4 = 0 →
    findTeam s g.team = some t → isQuadBound t = true → (∀ l i b n, (laneAt g l).park ≠ .quad i b n) →
    (noTrap g (guardV g cur f) fun l => (p.2 l).2) →
      ∃ u g', exec p.1 s = .next u ∧ Aside s u g.id ∧ findGroup u g.id = some g' ∧ g'.run = none ∧ g'.s = g.s ∧ g'.k = g.k
        ∧ ∀ l, cur.active.getLsbD l = true →
          (quadWhole g cur l → (laneAt g' l).pc = pcNext cur.pc ∧ (laneAt g' l).park = .none
            ∧ (laneAt g' l).v = if (guardV g cur f).getLsbD l then writeRegs (laneAt g l).v (wordsOf f.ty f.d.toNat (p.2 l).1)
              else (laneAt g l).v)
          ∧ (¬ quadWhole g cur l → (laneAt g' l).pc = cur.pc ∧ (laneAt g' l).v = (laneAt g l).v
            ∧ (laneAt g' l).park = .quad p.1 ((guardV g cur f).getLsbD l) s.nextId)

/-! ### The quad control core -/

/-- 05 R88, R102; 11 R162 to R171; 17 R254; 21 R328, R330: control instructions of a control thread. -/
def Obligations.ControlThreadFlow : Prop :=
  ∀ (s : State) (t : Thread) (cur : Cur) (f : BF),
    let go := threadGuard t f.gk f.gn
    let next := { t with pc := pcNext cur.pc }
    (∀ i ∈ [Instr.nop f, .yield f], IssuingCtl s t cur i → CompletesCtl i s t next)
    ∧ (IssuingCtl s t cur (.exit f) → t.faults = [] →
        CompletesCtl (.exit f) s t (if go then { t with exited := true, park := .none, faults := [] } else next))
    ∧ (∀ a ∈ transfers f, IssuingCtl s t cur a.1 →
        let target := match a.2.1 with | some r => (threadReg t r.toNat).extractLsb' 0 32 | none => dispTarget cur.pc f.disp
        (go = false → GoesCtl a.1 s t next)
        ∧ (go = true → ∀ p, teamPartition s t.team = some p →
            (checkTarget s (leadCore t.quad) p (codeBaseOf s t.team) t.emu target).1 = .ok →
            GoesCtl a.1 s t { (match a.2.2 with | some r => threadWrote t r ((pcNext cur.pc).zeroExtend 64) | none => t) with
              pc := target, line := none }))
    ∧ (∀ a ∈ [(Instr.trap f, BitVec.ofNat 10 (0x340 + f.disp.toNat % 64), pcNext cur.pc, cur.pc.zeroExtend 64),
          (.bkpt f, 0x283, cur.pc, (0 : DWord))], IssuingCtl s t cur a.1 →
        (go = false → GoesCtl a.1 s t next)
        ∧ (go = true → ThreadHandlerFree s t a.2.1 → GoesCtl a.1 s t (threadEntered t a.2.1 a.2.2.1 a.2.2.2)))
    ∧ (IssuingCtl s t cur (.tret f) → t.emu = false →
        GoesCtl (.tret f) s t { t with
          pc := t.trap.tpc, line := none, priv := t.trap.ppriv, trap := { t.trap with inh := false }, stepping := t.trap.ss })

/-- 05 R94, R102; 11 R197, R198: a control thread reads and writes its CSRs, a Partition CSR in its partition. -/
def Obligations.ControlThreadCsrs : Prop :=
  ∀ (s : State) (t : Thread) (cur : Cur) (f : CF),
    let n := f.csr.toNat
    let go := threadGuard t f.gk f.gn
    let next := { t with pc := pcNext cur.pc }
    (IssuingCtl s t cur (.csrr f) →
      CompletesCtl (.csrr f) s t (if go then { threadWrote t f.d.toNat (readThreadCsr s t n) with pc := pcNext cur.pc } else next))
    ∧ ∀ p ∈ [(Instr.csrw f, fun (_ x : DWord) => x), (.csrs f, fun c x => c ||| x), (.csrc f, fun c x => c &&& ~~~x)],
      let x := p.2 (readThreadCsr s t n) (threadReg t f.a.toNat)
      IssuingCtl s t cur p.1 →
        (go = false → CompletesCtl p.1 s t next)
        ∧ (go = true → n < 0x200 → CompletesCtl p.1 s t { next with trap := writeTrapCsr t.trap n x })
        ∧ (go = true → 0x200 ≤ n → ∃ u, exec p.1 s = .next u ∧ findThread u t.team = some next
            ∧ u.parts = s.parts.map (fun q => if q.idx == t.part then writePartCsr q n x else q)
            ∧ u.groups = s.groups ∧ u.teams = s.teams ∧ SameMemory s u)

/-- 17 R257, R264, R268, R269: an engine operation whose guard holds enters the reservation table of the quad with the
scalar values it reads, if the table has room and no thread that parked earlier waits for it; MWAIT goes on once no
posted operation that it covers is left and no fault of one is to be raised, and parks before; PPOINT saves the
thread while a pre-emption of its partition is pending. -/
def Obligations.ControlThreadEngine : Prop :=
  ∀ (s : State) (t : Thread) (cur : Cur) (f : XF),
    let go := xor (condReg t f.gc.toNat) f.gcn
    let next := { t with pc := pcNext cur.pc }
    (∀ i ∈ matrixOps f, IssuingCtl s t cur i →
      (go = false → CompletesCtl i s t { next with park := .none })
      ∧ (go = true → (quadAt s t.quad).table.length < 32 → tableBehind s t = false → t.quad < s.quads.length →
          ∃ u e, exec i s = .next u ∧ (quadAt u t.quad).table = (quadAt s t.quad).table ++ [e]
            ∧ e.team = t.team ∧ e.instr = i ∧ e.prio = f.prio.toNat ∧ e.tag = f.tag ∧ e.stage = .posted
            ∧ e.a = threadReg t f.sa.toNat ∧ e.b = threadReg t f.sb.toNat ∧ e.ss = threadReg t f.ss.toNat
            ∧ findThread u t.team = some { next with park := .none } ∧ u.groups = s.groups ∧ u.teams = s.teams ∧ SameMemory s u))
    ∧ (∀ team, findTeam s t.team = some team → IssuingCtl s t cur (.mwait f) →
        (go = false → CompletesCtl (.mwait f) s t next)
        ∧ (go = true → waitFault s team f t = none → (∀ e ∈ postedBy s t, tagCovers f.tag e.tag = false) →
            (∀ x ∈ t.faults, tagCovers f.tag x.tag = false) →
            (f.kb = 1 → t.waited = false → ∃ owner off, waitLine s team (threadReg t f.sa.toNat) = .at (.scratch owner off)
              ∧ linePresent s owner (off / 64) = true) →
            ∃ u, exec (.mwait f) s = .next u ∧ findThread u t.team = some { next with waited := false, park := .none })
        ∧ (go = true → f.kb ≠ 1 → waitFault s team f t = none → (∃ e ∈ postedBy s t, tagCovers f.tag e.tag = true) →
            CompletesCtl (.mwait f) s t { t with park := .tag f.tag, line := none })
        ∧ (go = true → f.kb = 1 → t.waited = false → waitFault s team f t = none →
            ∀ owner off, waitLine s team (threadReg t f.sa.toNat) = .at (.scratch owner off) →
            linePresent s owner (off / 64) = false →
            CompletesCtl (.mwait f) s t { t with park := .line owner (off / 64), line := none }))
    ∧ (IssuingCtl s t cur (.ppoint f) →
        (go = false ∨ preempting s t.part = false → CompletesCtl (.ppoint f) s t next)
        ∧ (go = true → preempting s t.part = true → postedBy s t = [] →
            CompletesCtl (.ppoint f) s t { next with park := .none, line := none, saved := some (f.tag.extractLsb' 0 8) }))

/-! ### Vertical queues -/

/-- 17 R277, R284, R287: RASTQ, TRACE and VERDICT whose records and verdicts are legal take a queue entry with what they
read at issue. -/
def Obligations.RasterAndRaySubmission : Prop :=
  ∀ (s : State) (g : Group) (cur : Cur) (f : MF) (t : Team) (p : Partition),
    let m := guardM g cur f
    let lanes := laneList g.w m
    let d := f.d.toNat
    MidRun g cur → ActiveAt g cur →
    (Issuing s g cur (.rastq f) → QueueReady s g cur m .raster t p → canonical (uniformEa g f) = true →
      (uniformEa g f).toNat % 64 = 0 →
        Enqueues (.rastq f) s s g (moved g cur) .raster fun o => o.kind = .engine (.rastq f) m [(0, [uniformEa g f])])
    ∧ (Issuing s g cur (.trace f) → QueueReady s g cur m .traversal t p →
      (∀ l ∈ lanes, canonical (laneEa g f l) = true ∧ (laneEa g f l).toNat % 64 = 0) → lanes ≠ [] →
        Enqueues (.trace f) s s g (moved g cur) .traversal fun o =>
          o.kind = .engine (.trace f) m (lanes.map fun l => (l, [laneEa g f l, sreg g 60])) ∧ o.left = lanes.length)
    ∧ (Issuing s g cur (.verdict f) → QueueReady s g cur m .traversal t p →
      (∀ l ∈ lanes, (vreg g l (d + 1)).toNat ≤ 3) → lanes ≠ [] →
        Enqueues (.verdict f) s s g (moved g cur) .traversal fun o =>
          o.kind = .engine (.verdict f) m
            (lanes.map fun l => (l, (List.range 3).map fun k => (vreg g l (d + k)).zeroExtend 64)))

/-- 17 R271 to R276, R288; 11 R182: the texture members read their resource and sampler entries at issue, after the group's own
writes to them, and take a queue entry for the lanes; BOXT and TRIT take one with each lane's ray. That both happen at
issue is the model's reading (log entry 32). -/
def Obligations.TextureAndTestSubmission : Prop :=
  ∀ (s : State) (g : Group) (cur : Cur) (f : MF) (t : Team) (p : Partition),
    let m := guardM g cur f
    let lanes := laneList g.w m
    let rd := groupReader s g p m
    let lo := (sreg g f.a.toNat).toNat % 2 ^ 32
    let hi := (sreg g f.a.toNat).toNat / 2 ^ 32
    let r1 := readEntry s g rd lo
    let h1 := refresh r1.2 g
    let r2 := readEntry r1.2 h1 rd hi
    let h2 := refresh r2.2 h1
    MidRun g cur → ActiveAt g cur →
    (∀ a ∈ [(Instr.tex f, TexMember.implicit), (.texl f, .level), (.texg f, .gradient)], ∀ (T : TexEntry) (S : Sampler),
      let r := lanes.foldl (fun (r : List SampleLane × List LaneFault × State) l =>
        match sampleLane h2 f (isQuadBound t) a.2 rd T S r2.2.fresh r.2.2 l with
        | (.ok x, st) => (r.1 ++ [x], r.2.1, st)
        | (.fault y, st) => (r.1, r.2.1 ++ [y], st)) ([], [], { r2.2 with fresh := r2.2.fresh + 64 })
      Issuing s g cur a.1 → QueueReady s g cur m .texture t p →
      (ownPlaces s g rd (entryAddr g lo) 64).1 = none → (bytesRead r1.1).bind parseTexture = some T →
      (ownPlaces r1.2 h1 rd (entryAddr h1 hi) 64).1 = none → (bytesRead r2.1).bind parseSampler = some S →
      (a.2 = .gradient → T.dim < 3) → r.1 ≠ [] → r.2.1 = [] →
        Enqueues a.1 r2.2 s g (moved h2 cur) .texture fun o =>
          o.kind = .sample T.format T.bw T.bh S.border (f.cnt.toNat + 1) f.d.toNat (f.ofs.toNat / 256 % 16) r.1 (entryScope f.sc)
            ∧ o.owes = true)
    ∧ (∀ (T : TexEntry), Issuing s g cur (.texq f) → QueueReady s g cur m .texture t p →
        (ownPlaces s g rd (entryAddr g lo) 64).1 = none → (bytesRead r1.1).bind parseTexture = some T →
          Enqueues (.texq f) r1.2 s g (moved h1 cur) .texture fun o => o.owes = true
            ∧ o.kind = .query (lanes.flatMap fun l => (List.range (f.cnt.toNat + 1)).map fun k =>
              .vec l (f.d.toNat + k) ((queryValues T (f.ofs.toNat % 256)).getD k 0)))
    ∧ (∀ a ∈ [(Instr.boxt f, false, 64, 64), (.trit f, true, 48, 16)], Issuing s g cur a.1 → QueueReady s g cur m .test t p →
        breakData s g cur true false (lanes.map fun l => (l, testEa g f l, a.2.2.1)) = none →
        let ea (l : Nat) : DWord := baseReg g f.a + f.ofs.signExtend 64 + (vreg g l f.d.toNat).zeroExtend 64
        let r := lanes.foldl (fun (r : List TestLane × List LaneFault × State) l =>
          match placeRecord r.2.2 rd l (ea l) a.2.2.1 a.2.2.2 with
          | (.inl ps, st) => (r.1 ++ [⟨l, ps, (List.range 8).map fun k => vreg g l (f.b.toNat + k)⟩], r.2.1, st)
          | (.inr x, st) => (r.1, r.2.1 ++ [x], st)) ([], [], s)
        r.1 ≠ [] → r.2.1 = [] →
          Enqueues a.1 s s g (moved g cur) .test fun o =>
            o.kind = .test a.2.1 f.d.toNat r.1 (entryScope f.sc) ∧ o.owes = true)

/-! ### Operations in flight -/

/-- 01 R18; 03 R56, R58; 11 R183, R185 to R191; 15 R227, R236, R249: what operations in flight do when they are
performed. A store to stacked memory writes its bytes and no others; one at device scope or wider writes memory at its
home; one to a peer is posted; an atomic of stacked memory returns the old value and writes the new; an arrival that
reaches its target makes its line present and advances the phase. FENCE, LFENCE and ICINV complete: a fence with PF
once every posted write of its group has arrived; a releasing fence of device scope tells the cores of the partition
of every dirty line and of those the core owes (R236; log entry 100), an acquiring one clears the signature. A copy
that need not wait moves every piece: into the scratchpad the bytes that stand at the home, zeros where a piece
faults, and all its lines are present; out of it the bytes of the scratchpad. -/
def Obligations.OperationsPerformed : Prop :=
  ∀ (s : State) (o : Op), findOp s o.id = some o →
    (∀ accs scope na, o.kind = .store accs scope false na → storeReady s o = true →
      (∀ team off a, accs = [a] → a.loc = .scratch team off → meshBefore s o = [] →
        ∀ t, findTeam s team = some t → t.scratch.wf = true →
          Does (.storePerformed o.id) s fun u => Gone u o.id ∧ SameMemory s u
            ∧ readScratch u team off a.data.length = a.data
            ∧ ∀ team' x, team' ≠ team ∨ x < off ∨ off + a.data.length ≤ x → readScratch u team' x 1 = readScratch s team' x 1)
      ∧ (∀ a ty pa va, accs = [a] → a.loc = .page ty pa va → ty ≠ .peer → 2 ≤ scope → Clean s →
          Does (.storePerformed o.id) s fun u => Gone u o.id ∧ u.teams = s.teams
            ∧ backing u ty = writeBytes (backing s ty) pa a.data)
      ∧ (∀ a pa va, accs = [a] → a.loc = .page .peer pa va →
          Does (.storePerformed o.id) s fun u => Gone u o.id ∧ SameMemory s u ∧ u.teams = s.teams
            ∧ u.posted = s.posted ++ [⟨o.group, pa, a.data⟩]))
    ∧ (∀ op ty a scope rmt near ret team off t, o.kind = .atom op ty [a] scope false false rmt near ret → atomReady s o = true →
        meshBefore s o = [] → heldRed o = false → a.loc = .scratch team off → findTeam s team = some t → t.scratch.wf = true →
        let n := elemBytes ty
        let old := bytesDWord (readScratch s team off n)
        Does (.atomicPerform o.id) s fun u => SameMemory s u
          ∧ readScratch u team off n = natBytes n (atomNew op ty old a.x a.y).toNat
          ∧ (∀ team' x, team' ≠ team ∨ x < off ∨ off + n ≤ x → readScratch u team' x 1 = readScratch s team' x 1)
          ∧ (o.owes = false → Gone u o.id)
          ∧ (o.owes = true → (near && ret.isNone) = false →
              findOp u o.id = some { o with writes := some (returnWrites ty ret [(a.lane, old)]) }))
    ∧ (∀ a scope ret team off t, o.kind = .clasp [a] scope false false ret → atomReady s o = true → meshBefore s o = [] →
        a.loc = .scratch team off → findTeam s team = some t → t.scratch.wf = true →
        bytesNat (readScratch s team off 4) + 1 = bytesNat (readScratch s team (off + 4) 4) →
        Does (.atomicPerform o.id) s fun u => SameMemory s u ∧ linePresent u team (off / 64) = true
          ∧ bytesNat (readScratch u team off 4) = 0
          ∧ bytesNat (readScratch u team (off + 8) 4) = (bytesNat (readScratch s team (off + 8) 4) + 1) % 2 ^ 32)
    ∧ (∀ scope acq rel pf, o.kind = .fence scope acq rel pf → o.done = false → allEarlier s o = true →
        (pf = true → ∀ w ∈ s.posted, w.group ≠ o.group) →
        Does (.fenceComplete o.id) s fun u => Gone u o.id ∧ u.teams = s.teams ∧ u.groups = s.groups
          ∧ (acq = true → 2 ≤ scope → o.core < s.cores.length → (coreAt u o.core).sig = 0)
          ∧ (rel = true → 3 ≤ scope → (∀ q ∈ s.ops, q.core = o.core → heldRed q = false) →
            ∀ c ∈ scopeCores s o.part o.team 3, c ≠ o.core → c < s.cores.length →
              (∀ l ∈ (coreAt s o.core).l1, l.dirty ≠ 0 → sigMatches (coreAt u c).sig l.va = true)
              ∧ ∀ va, sigMatches (coreAt s o.core).owed va = true → sigMatches (coreAt u c).sig va = true))
    ∧ (∀ scope acq rel, o.kind = .fence scope acq rel true → (∃ w ∈ s.posted, w.group = o.group) →
        exec (.fenceComplete o.id) s = .next s)
    ∧ (o.kind = .lfence → o.done = false → (∀ q ∈ earlier s o, performed q = true ∨ usesStacked q = false) →
        Does (.lfenceComplete o.id) s fun u => Gone u o.id ∧ SameMemory s u ∧ u.teams = s.teams ∧ u.groups = s.groups)
    ∧ (∀ va len allDies, o.kind = .icinv va len allDies → o.done = false →
        Does (.icinvAck o.id) s fun u => Gone u o.id ∧ SameMemory s u ∧ u.teams = s.teams ∧ u.groups = s.groups
          ∧ ∀ c ∈ icinvCores s o allDies, ∀ l ∈ (coreAt u c).icache,
            l.part = some o.part → inRange l.va 64 va len = false)
    ∧ (∀ c scope moved t p, o.kind = .copy c scope false moved → performed o = false → findTeam s o.team = some t →
        teamPartition s o.team = some p →
        let rd := engineReader o.core p t.origin
        ((moveSegs s rd t o c moved).1.2 = false → Does (.copyExecute o.id) s fun u => Gone u o.id
          ∧ (c.toScratch = true → ∀ l ∈ copyLines s t c, linePresent u l.1 l.2 = true))
        ∧ ∀ x team off q, moved = [] → copySegs c = [x] → scratchPlace s t x.sa x.len = some (team, off) →
          findTeam s team = some q → q.scratch.wf = true →
          let k := checkSeg s rd t o c x
          (k.1 = .fault → c.toScratch = true → Does (.copyExecute o.id) s fun u => SameMemory s u
            ∧ readScratch u team off x.len = List.replicate x.len 0)
          ∧ (k.1 = .fault → c.toScratch = false → Does (.copyExecute o.id) s fun u => SameMemory s u ∧ u.teams = s.teams)
          ∧ ∀ ty pa va, k.1 = .ok → Clean s → x.ga.toNat % 64 + x.len ≤ 64 →
            (resolveGlobal k.2 rd.core rd.part rd.origin rd.emu x.ga x.len 1 (if c.toScratch then .read else .write) true).1
              = .at (.page ty pa va) →
            Does (.copyExecute o.id) s fun u =>
              (c.toScratch = true → SameMemory s u ∧ readScratch u team off x.len = readBytes (backing s ty) pa x.len
                ∧ ∀ team' y, team' ≠ team ∨ y < off ∨ off + x.len ≤ y → readScratch u team' y 1 = readScratch s team' y 1)
              ∧ (c.toScratch = false → u.teams = s.teams
                ∧ backing u ty = writeBytes (backing s ty) pa (readScratch s team off x.len)))

/-- 01 R16; 15 R241; 16 R250; 17 R276; 21 R342: the write buffer of a column loses the oldest store of a bank; a promotion request leaves the core and its quad's slice
without a dirty line, and every waiting acquire has heard; an eviction from a home leaves no owner record; a queued
walk fills the TLBs (that what missed does not wait for it is log entry 19); a stream page whose frame decodes is installed in a page of
the pool, whose pages are the host's choice (log entry 62), and every lane
that waited for it is awake. -/
def Obligations.CacheSteps : Prop :=
  ∀ (s : State),
    (∀ bank, bank / 16 < s.cores.length →
      Does (.writeBufferCommit bank) s fun u => SameMemory s u ∧ u.teams = s.teams
        ∧ (coreAt u (bank / 16)).l1 = (coreAt s (bank / 16)).l1
        ∧ (∀ n, n ≠ bank % 16 → (coreAt u (bank / 16)).wbuf.filter (fun x => x.1 == n)
          = (coreAt s (bank / 16)).wbuf.filter fun x => x.1 == n)
        ∧ (coreAt u (bank / 16)).wbuf.filter (fun x => x.1 == bank % 16)
          = ((coreAt s (bank / 16)).wbuf.filter fun x => x.1 == bank % 16).drop 1)
    ∧ (∀ core, (∃ o ∈ s.ops, performed o = false ∧ core ∈ awaitedPromotions s o) →
        Does (.promotionRequest core) s fun u => u.teams = s.teams ∧ u.groups = s.groups
          ∧ (∀ l ∈ (coreAt u core).l1, l.dirty = 0) ∧ (∀ l ∈ (quadAt u (quadOfCore core)).slice, l.dirty = 0)
          ∧ ∀ o ∈ s.ops, performed o = false → core ∈ awaitedPromotions s o →
            ∃ q ∈ u.ops, q.id = o.id ∧ core ∈ q.acks)
    ∧ (∀ ty line, Does (.homeEviction ty line) s fun u => u.teams = s.teams ∧ u.groups = s.groups
          ∧ ∀ h ∈ u.homes, h.ty ≠ ty ∨ h.line ≠ line)
    ∧ (∀ die m rest p ty pa w x, (dieAt s die).missQ = m :: rest → findPart s m.part = some p → m.core < s.cores.length →
        walk s { p with ptroot := m.root } (m.page * 4096) s.fresh = (.page ty pa w x, false) → die < s.dies.length →
        Does (.pageWalk die) s fun u => SameMemory s u ∧ (dieAt u die).missQ = rest
          ∧ ⟨m.part, m.root, m.page, ty, pa / 4096, w, x⟩ ∈ (dieAt u die).l2tlb
          ∧ ⟨m.part, m.root, m.page, ty, pa / 4096, w, x⟩ ∈ (coreAt u m.core).tlb)
    ∧ (∀ die q rest table pa pool, (dieAt s die).streamQ = q :: rest →
        (s.linkUp = true ∨ q.locator.extractLsb' 62 2 ≠ 0) →
        leafTable s q.root.toNat (q.page * 65536) = some table → stillAsked s table q = true →
        (dieAt s die).pagePool ++ (Config.poolSupply s.fresh).map poolPage = pa :: pool → die < s.dies.length → s.gddr.wf = true →
        pa + 65536 ≤ table ∨ table + 4096 ≤ pa → ∀ b, streamBytes s q = some b →
        Does (.streamFill die) s fun u =>
          readBytes u.gddr pa 65536 = b ∧ q ∉ (dieAt u die).streamQ ∧ (dieAt u die).pagePool = pool
          ∧ (∀ i, i < 16 → readNat u.gddr (table + 8 * (q.page % 32 * 16 + i)) 8 = installedEntry pa % 2 ^ 64)
          ∧ u.hostMem = s.hostMem ∧ u.teams = s.teams
          ∧ ∀ g ∈ u.groups, asks s q g.team = true → ∀ l ∈ g.lanes, ∀ r, l.park ≠ .stream q.page r)

/-! ### Units that serve queues -/

/-- 17 R274, R288, R290: the texture unit and the test unit serve the first entry of their queue once the group's earlier stores
are performed; the results are then in hand, to land at a run end. -/
def Obligations.QueueServices : Prop :=
  ∀ (s : State) (core : Nat) (o : Op), findOp s o.id = some o → storesEarlier s o = true → waitsForStream o = false →
    (queueHead s core .texture = some o →
      (∀ ws, o.kind = .query ws → Does (.textureSample core) s fun u =>
        findOp u o.id = some { o with writes := some ws } ∧ SameMemory s u ∧ u.groups = s.groups)
      ∧ (∀ format bw bh border n d mask x scope, o.kind = .sample format bw bh border n d mask [x] scope →
        Does (.textureSample core) s fun u =>
          let colour := (sampleColour (orderEntry s o scope) core format bw bh border x).1
          findOp u o.id = some { o with writes := some (((List.range n).map fun k =>
              RegWrite.vec x.lane (d + k) (colour.getD k 0))
            ++ if mask = 0 then [] else [.mask mask x.lane x.fellBack]) }
          ∧ u.groups = s.groups ∧ u.teams = s.teams))
    ∧ (queueHead s core .test = some o → ∀ tri d x scope, o.kind = .test tri d [x] scope →
        Does (.testUnitService core) s fun u =>
          let b := (readPieces (orderEntry s o scope) core x.pieces).1
          let v := if tri then triResult (testRay x.ray) b else boxResult (testRay x.ray) b
          findOp u o.id = some { o with writes := some ((List.range 4).map fun k => RegWrite.vec x.lane (d + k) (v.getD k 0)) }
          ∧ u.groups = s.groups ∧ u.teams = s.teams)

/-- 17 R277 to R281: the raster unit reads the record of the first entry, which frees it; an illegal record stops the batch; a
legal one is taken in index order. Of each triangle in turn the path is that of its classification: one that is
discarded counts in event code 11, one for the software queue joins those to append, one for the fixed path writes every
pixel it covers; the batch ends with its last triangle if none waits to be appended. A pixel takes the greater of what
stood there and its depth with its identifier, as one 64-bit unsigned number. An append takes the first triangle that waits; a full
queue leaves the batch as it is. (Where a depth is not a number the value written is free.) -/
def Obligations.RasterSteps : Prop :=
  ∀ (s : State) (quad : Nat) (t : Team) (p : Partition), quad < s.quads.length →
    (∀ core o f m l ea rest, (quadAt s quad).batches = [] → nextRaster s quad = some (core, o) →
      o.kind = .engine (.rastq f) m ((l, [ea]) :: rest) →
      let b : Batch := ⟨o.id, o.part, core, ea, [], 0, [], none⟩
      let begun := modQuad (orderEntry s o (entryScope f.sc)) quad fun q =>
        { q with batches := q.batches ++ [b], rasterNext := ((quadCores quad).findIdx (· == core) + 1) % 4 }
      let rd := engineReader core p t.origin
      let r0 := unitRead begun rd ea.toNat 64
      findOp begun o.id = some o → teamPart begun o.team = some (t, p) → ∀ bytes, got r0.1 = some bytes →
        (parseBatch bytes = none → Does (.rasterClassify quad) s fun u => Gone u o.id ∧ (quadAt u quad).batches = [])
        ∧ ∀ r, parseBatch bytes = some r → exec (.rasterClassify quad) s = .next (classifyAll r.count
            { r0.2 with ops := r0.2.ops.map fun x => if x.id == o.id then { x with queue := none } else x } quad rd r p.csrs.rasThr
            { b with record := bytes }))
    ∧ (∀ b o r, (quadAt s quad).batches = [b] → b.waits = none → findOp s b.op = some o → teamPart s o.team = some (t, p) →
        b.record ≠ [] → parseBatch b.record = some r → b.next < r.count →
        let rd := engineReader b.core p t.origin
        let q := readVertices s rd r b.next
        let die := dieOfQuad quad
        let next : Batch := { b with next := b.next + 1 }
        let GoesOn (st : State) (x : Batch) : Prop :=
          exec (.rasterClassify quad) s = .next (classifyAll (r.count - 1) st quad rd r p.csrs.rasThr x)
        ∀ vs, got q.1 = some vs →
          let v (k : Nat) : Vertex := vs.getD k ⟨0, 0, 0⟩
          let c := classify r p.csrs.rasThr (v 0) (v 1) (v 2)
          let fixed := fixedRasterise q.2 rd r (r.base + b.next) (v 0) (v 1) (v 2)
          (c = .software → GoesOn q.2 { next with soft := b.soft ++ [b.next] })
          ∧ (c = .discard → GoesOn (countDie q.2 die 11) next)
          ∧ (c = .fixed → (got fixed.1).isSome = true → GoesOn fixed.2 next)
          ∧ (r.count = b.next + 1 →
              (c = .software → Does (.rasterClassify quad) s fun u =>
                (quadAt u quad).batches = [{ next with soft := b.soft ++ [b.next] }] ∧ u.groups = s.groups)
              ∧ (c = .discard → Does (.rasterClassify quad) s fun u =>
                u.groups = s.groups ∧ (dieAt u die).counters = (dieAt (countDie q.2 die 11) die).counters
                ∧ (b.soft ≠ [] → (quadAt u quad).batches = [next]) ∧ (b.soft = [] → (quadAt u quad).batches = [] ∧ Gone u b.op))
              ∧ (c = .fixed → (got fixed.1).isSome = true → Does (.rasterClassify quad) s fun u => SameMemory fixed.2 u
                ∧ (b.soft ≠ [] → (quadAt u quad).batches = [next]) ∧ (b.soft = [] → (quadAt u quad).batches = [] ∧ Gone u b.op))))
    ∧ (∀ rd r tri id x, Clean s →
        let w := writePixel s rd r tri id x
        ∀ ty pa va z, got (unitPlace s rd (r.vis + x.2 * r.pitch + 8 * x.1) 8 .atomic).1 = some (.page ty pa va) →
          depthAt tri ((x.1 : Int) * 256 + 128, (x.2 : Int) * 256 + 128) = some z →
          let v : DWord := (z.zeroExtend 64 <<< 32) ||| BitVec.ofNat 64 (id * 128 + r.inst)
          backing w.2 ty = writeBytes (backing s ty) pa
            (natBytes 8 (max (bytesDWord (readBytes (backing s ty) pa 8)).toNat v.toNat)))
    ∧ (∀ b o r n rest, (quadAt s quad).batches = [b] → b.waits = none → b.soft = n :: rest → parseBatch b.record = some r →
        r.count ≤ b.next → findOp s b.op = some o → teamPart s o.team = some (t, p) →
        let a := appendEntry s (engineReader b.core p t.origin) o r n
        (got a.1 = some true → Does (.softwareQueueAppend quad) s fun u => SameMemory a.2 u
            ∧ (rest = [] → (quadAt u quad).batches = [] ∧ Gone u b.op)
            ∧ (rest ≠ [] → (quadAt u quad).batches = [{ b with soft := rest }]))
        ∧ (got a.1 = some false → Does (.softwareQueueAppend quad) s fun u => SameMemory a.2 u
            ∧ (quadAt u quad).batches = [b] ∧ u.groups = s.groups))

/-- 17 R283 to R287: the traversal unit accepts the rays of an entry one by one into free entries of its table, where each goes
on from its record through its nodes, and leaves to a candidate or its end; candidates are gathered by shader entry
and launched when a group is full or RECTO has passed; a verdict reaches the candidate that its handle names: code 0
accepts it at its own distance and code 3 at the distance given, if that is a number, where it lies between TMIN and the
current tmax, code 1 ignores it, and code 2 accepts as code 0 and ends the ray; a ray that ends writes its hit record. A stale
verdict is counted in event code 12. -/
def Obligations.RaySteps : Prop :=
  ∀ (s : State) (quad : Nat), quad < s.quads.length →
    (∀ core o f m l ea res rest, nextTraversal s quad = some (core, o) → o.kind = .engine (.trace f) m ((l, [ea, res]) :: rest) →
      let s0 := orderEntry s o (entryScope f.sc)
      let r := newRay s0 quad o ea res
      let s1 := modQuad
        (putOp s0 { o with kind := .engine (.trace f) m rest, queue := if rest = [] then none else some .traversal })
        quad fun q => { q with rays := q.rays ++ [r] }
      let s2 := if rest = [] then servedCore s1 quad core else s1
      exec (.rayAccept quad) s = exec (.rayTraverse quad r.slot) s2 ∧ (∃ u, exec (.rayAccept quad) s = .next u)
        ∧ r.ea = ea ∧ r.res = res ∧ r.op = o.id ∧ r.loaded = false ∧ r.slot < 16384
        ∧ ∀ x ∈ (quadAt s0 quad).rays, x.slot ≠ r.slot)
    ∧ (∀ r t p, findRay s quad r.slot = some r → r.waits = none → r.cand = none → r.ended = none → rayTeam s r = some (t, p) →
        isStopped p = false → r.loaded = true → (∀ x ∈ (quadAt s quad).rays, x.slot = r.slot → x = r) →
        let st := rayStep s (rayReader r t p) r
        (∀ r', st.1 = .hold r' → Does (.rayTraverse quad r.slot) s fun u =>
          findRay u quad r.slot = some r' ∧ u.groups = s.groups)
        ∧ (∀ e, r.todo = none → r.stack = [e] → fLt r.tmax e.entry = true →
          let h := hitRecord s { r with stack := [] } r.bestStatus
          let w := writeRange h.2 (rayReader { r with stack := [] } t p) r.payload h.1
          (bytesRead w.1).isSome = true →
          Does (.rayTraverse quad r.slot) s fun u => findRay u quad r.slot = none ∧ SameMemory w.2 u))
    ∧ (∀ r c p g, findRay s quad r.slot = some r → r.cand = some c → findPart s r.part = some p → c.sent = false →
        launchFree p = true → c.shader.toNat < r.shCount →
        (∀ x ∈ (quadAt s quad).rays, x.slot = r.slot → x = r) →
        let mine (x : CandGather) : Bool := x.table == r.shTable && x.part == r.part && x.shader == c.shader
        (quadAt s quad).cands.find? mine = some g →
        Does (.candidateGather quad r.slot) s fun u => SameMemory s u ∧ u.groups = s.groups
          ∧ findRay u quad r.slot = some { r with cand := some { c with sent := true } }
          ∧ (g.rays.length + 1 < packetW g.packet →
              (quadAt u quad).cands.find? mine = some { g with rays := g.rays ++ [r.slot] } ∧ u.grids = s.grids)
          ∧ (packetW g.packet ≤ g.rays.length + 1 → (quadAt u quad).cands.find? mine = none
              ∧ ∃ gr, u.grids = s.grids ++ [gr] ∧ gr.packet = g.packet ∧ gr.origin = .callback quad
                ∧ gr.records = ((g.rays ++ [r.slot]).filterMap fun slot => findRay s quad slot).map (candidateRecord quad)))
    ∧ (∀ entry g p, (quadAt s quad).cands.find? (fun x => x.shader.toNat == entry && recToPassed s x.part (dieOfQuad quad) x.first) = some g →
        findPart s g.part = some p →
        Does (.candidateGroupTimeout quad entry) s fun u => SameMemory s u ∧ u.groups = s.groups
          ∧ (∀ x ∈ (quadAt u quad).cands, sameCands x g = false)
          ∧ ∃ gr, u.grids = s.grids ++ [gr] ∧ gr.packet = g.packet ∧ gr.origin = .callback quad
            ∧ gr.records = (g.rays.filterMap fun slot => findRay s quad slot).map (candidateRecord quad))
    ∧ (∀ core o f m l h code d, nextTraversal s quad = some (core, o) → findOp s o.id = some o →
        o.kind = .engine (.verdict f) m [(l, [h, code, d])] →
        let s1 := orderEntry s o 3
        let die := dieOfQuad quad
        (handleRay s1 o.part (h.setWidth 32) = none → Does (.verdictApply quad) s fun u => Gone u o.id
          ∧ (∀ q, (quadAt u q).rays = (quadAt s1 q).rays)
          ∧ (dieAt u die).counters = (dieAt (countDie s1 die 12) die).counters)
        ∧ (∀ quad' r c, handleRay s1 o.part (h.setWidth 32) = some (quad', r, c) → quad' < s.quads.length →
          (∀ x ∈ (quadAt s1 quad').rays, x.slot = r.slot → x = r) →
          let x : Ray := { r with cand := none, gen := (r.gen + 1) % 4096 }
          let within (z : Word) : Bool := fLt r.tmin z && fLt z r.tmax
          let took (z : Word) : Ray :=
            if within z then { x with best := { c with t := z }, bestStatus := c.kind + 1, tmax := z } else x
          let GoesOn (y : Ray) : Prop := Does (.verdictApply quad) s fun u => Gone u o.id ∧ findRay u quad' r.slot = some y
          let Ends (y : Ray) : Prop := ∀ t p, rayTeam s1 y = some (t, p) →
            let hit := hitRecord s1 y y.bestStatus
            let w := writeRange hit.2 (rayReader y t p) y.payload hit.1
            (bytesRead w.1).isSome = true →
              Does (.verdictApply quad) s fun u => Gone u o.id ∧ findRay u quad' r.slot = none ∧ SameMemory w.2 u
          let Accepts (z : Word) : Prop :=
            (within z = true → r.flags.getLsbD 1 = true → Ends (took z))
            ∧ (within z = false ∨ r.flags.getLsbD 1 = false → GoesOn (took z))
          (code.setWidth 32 = (0 : Word) → Accepts c.t)
          ∧ (code.setWidth 32 = (1 : Word) → GoesOn x)
          ∧ (code.setWidth 32 = (2 : Word) → Ends (took c.t))
          ∧ (code.setWidth 32 = (3 : Word) → fNaN (d.setWidth 32) = true → GoesOn x)
          ∧ (code.setWidth 32 = (3 : Word) → fNaN (d.setWidth 32) = false → Accepts (d.setWidth 32))))

/-- 17 R257 to R267; 07 R131: an entry whose turn it is fetches its operands (which four of a table the unit fetches for at a time
is the model's reading: log entry 113); the arming of an MCPYO makes its lines absent; the free engine takes the
first ready entry in the arbiter's order; an operation that completes leaves the table and has written its tile, or the rows
of its region, each element rounded to the type of the row, whose lines are then present. -/
def Obligations.EngineSteps : Prop :=
  ∀ (s : State) (quad : Nat) (e : Entry), quad < s.quads.length → findEntry s quad e.id = some e →
    (∀ x ∈ (quadAt s quad).table, x.id = e.id → x = e) →
    (∀ t p, teamPart s e.team = some (t, p) → fetchTurn s quad e = true →
      let r := fetchEntry s (leadCore quad) p t { e with waits := none }
      ∀ e', fetched r.1 = some e' →
      Does (.tileFetch quad e.id) s fun u => u.groups = r.2.groups ∧ u.teams = r.2.teams ∧ SameMemory r.2 u
        ∧ (quadAt u quad).table = (quadAt r.2 quad).table.map fun x => if x.id == e'.id then e' else x)
    ∧ (∀ f d t rows, e.instr = .mcpyo f → e.stage = .fetched → e.descA = some d → findTeam s e.team = some t →
        copyOutRows s t d = .ok rows →
        (∀ l ∈ copyOutLines rows (128 * elemBytes f.ta), linePresent s l.1 l.2 = true ∧ (findTeam s l.1).isSome = true) →
        Does (.mcpyoArm quad e.id) s fun u => SameMemory s u ∧ u.groups = s.groups
          ∧ findEntry u quad e.id = some { e with stage := .armed }
          ∧ ∀ l ∈ copyOutLines rows (128 * elemBytes f.ta), linePresent u l.1 l.2 = false)
    ∧ ((quadAt s quad).busy = none → entryReady (quadAt s quad) e = true →
        (∀ x ∈ (quadAt s quad).table, entryReady (quadAt s quad) x = true → x = e ∨ arbiterBefore x e = false) →
        Does (.engineGrant quad) s fun u => SameMemory s u ∧ u.groups = s.groups ∧ u.teams = s.teams
          ∧ (quadAt u quad).busy = some e.id ∧ findEntry u quad e.id = some { e with stage := .granted })
    ∧ (∀ t, (quadAt s quad).busy = some e.id → findTeam s e.team = some t → (tilesRead e).find? t.badTiles.contains = none →
        let Complete (post : State → Prop) : Prop := Does (.engineOpComplete quad) s fun u =>
          (quadAt u quad).busy = none ∧ findEntry u quad e.id = none ∧ SameMemory s u ∧ u.groups = s.groups ∧ post u
        let Writes (n : Nat) (val : Nat → Nat → DWord) : Prop := n < t.tiles.length → Complete fun u =>
          ∃ t', findTeam u t.id = some t' ∧ t'.scratch = t.scratch ∧ t'.absent = t.absent ∧ t'.tiles.length = t.tiles.length
            ∧ (∀ k, k ≠ n → t'.tiles[k]? = t.tiles[k]?)
            ∧ ∀ i j, i < 128 → j < 128 → tileElem (tileOf t' n) i j = ((val i j).setWidth 32).setWidth 64
        (∀ f, e.instr = .mzero f → Writes f.md.toNat fun _ _ => 0)
        ∧ (∀ f, e.instr = .mcpyi f → Writes f.md.toNat fun i j => (e.opA.getD i []).getD j 0)
        ∧ (∀ f, e.instr = .mma f ∨ e.instr = .mmas f → Writes f.mp.toNat fun i j =>
            mmaElem (f.kb.toNat + 1) f.ovw (tileElem (tileOf t f.mp.toNat) i j) (e.opA.getD i []) (e.opB.getD j []))
        ∧ (∀ f, e.instr = .mscl f → Writes f.md.toNat fun i j =>
            msclElem f.ovw (tileElem (tileOf t f.md.toNat) i j) (tileElem (tileOf t f.mp.toNat) i j)
              ((e.opA.getD i []).getD 0 127).toNat ((e.opB.getD j []).getD 0 127).toNat)
        ∧ (∀ f d rows, e.instr = .mcpyo f → e.descA = some d → copyOutRows s t d = .ok rows →
            (∀ x ∈ s.teams, x.scratch.wf = true) →
            let n := 128 * elemBytes f.ta
            Complete fun u => (∀ l ∈ copyOutLines rows n, linePresent u l.1 l.2 = true)
              ∧ (∀ i r, rows[i]? = some r → (findTeam s r.1).isSome = true →
                  (∀ k r', i < k → rows[k]? = some r' → r'.1 ≠ r.1 ∨ r'.2 + n ≤ r.2 ∨ r.2 + n ≤ r'.2) →
                  readScratch u r.1 r.2 n = (List.range 128).flatMap fun j => natBytes (elemBytes f.ta)
                    (roundFV f.ta .rne f.ovw false (decodeFloat .f32 (tileElem (tileOf t f.md.toNat) i j))).1.toNat)
              ∧ ∀ team x, (∀ r ∈ rows, team ≠ r.1 ∨ x < r.2 ∨ r.2 + n ≤ x) → readScratch u team x 1 = readScratch s team x 1))

/-! ### Groups and teams -/

/-- 03 R43, R46, R52, R54, R68; 11 R164; 18 R291; 25 R391: a run ends at its 24th instruction, and no sooner by the limit, and for group 0
of a gated team the gate is then to open; a YIELD expires after 64 clocks of the core, and no sooner (that
a step which is not enabled changes nothing is log entry 92); a gathering that is ready forms one group of its lanes in the order of R52; a group that was
shipped lands in a slot of the die with its registers. -/
def Obligations.SchedulerSteps : Prop :=
  ∀ (s : State),
    (∀ g r, findGroup s g.id = some g → g.run = some r → groupEnded g = false →
      (r.count < 24 → exec (.runLimitSwitch g.id) s = .next s)
      ∧ (24 ≤ r.count → g.after = [] → g.traps = [] → owing s g.id = [] →
          (g.idx ≠ 0 → Does (.runLimitSwitch g.id) s fun u => SameMemory s u ∧ u.teams = s.teams
            ∧ findGroup u g.id = some { g with run := none, latches := [] })
          ∧ (g.idx = 0 → ∀ t, findTeam s g.team = some t → nextGathering s t (packetW t.packet) = none →
            Does (.runLimitSwitch g.id) s fun u => SameMemory s u
              ∧ findGroup u g.id = some { g with run := none, latches := [] }
              ∧ findTeam u t.id = some { t with gateMark := if t.gated then some (t.gateMark.getD s.nextId) else t.gateMark })))
    ∧ (∀ g y, findGroup s g.id = some g → g.yield = some y →
        let due := 64 ≤ coreSince s (dieOfCore g.core) y.start
        (due → Does (.yieldExpiry g.id) s fun u => findGroup u g.id = some { g with yield := none } ∧ u.teams = s.teams)
        ∧ (¬ due → Does (.yieldExpiry g.id) s fun u => findGroup u g.id = some g ∧ u.teams = s.teams))
    ∧ (∀ t p h, findTeam s t.id = some t → findPart s t.part = some p → isStopped p = false → t.place = .resident →
        t.gatherings = [h] → gatheringReady s t (packetW t.packet) h = true → h.arrivals.length ≤ packetW t.packet →
        liveArrivals h ≠ [] → groupsHeld s t.id < groupsOf t.packet →
        Does (.regroupTimeout t.id h.start) s fun u => SameMemory s u
          ∧ (∃ t', findTeam u t.id = some t' ∧ t'.gatherings = [])
          ∧ ∃ g, u.groups = s.groups ++ [g] ∧ g.team = t.id ∧ g.w = packetW t.packet ∧ g.core = t.core
            ∧ (∀ i a, (sortArrivals h.arrivals)[i]? = some a → laneAt g i = a.state)
            ∧ ∀ i, h.arrivals.length ≤ i → (laneAt g i).exited = true)
    ∧ (∀ g t p die c, findGroup s g.id = some g → g.shipping = some die → teamOf s g = some t → t.place = .resident →
        findPart s (partOfGroup s g) = some p → isStopped p = false → landingCore s p die = some c →
        Does (.migrateLanding g.id) s fun u => ∃ g', findGroup u g.id = some g' ∧ g'.core = c ∧ g'.landed = true
          ∧ g'.shipping = none ∧ g'.lanes = g.lanes ∧ g'.s = g.s ∧ g'.k = g.k ∧ g'.fst = g.fst ∧ g'.trap = g.trap)

/-- 03 R38, R61, R62; 11 R164; 18 R291; 21 R332, R338; 22 R348: a team that is eligible swaps out once what it has in flight is
drained, its cores released at device scope, and not before (what its saved state takes of the shadow share is the
model's reading, log entry 46, and that a step which is not enabled changes nothing log entry 92); a saved team, or a swapped one of which a wait is over, that fits is resident again with its
registers; the gate opens; a team that has ended frees what it held, and with the last team of a grid the grid and its
job end. -/
def Obligations.TeamSteps : Prop :=
  ∀ (s : State) (t : Team) (p : Partition), findTeam s t.id = some t → findPart s t.part = some p →
    (swapEligible s t p = true →
      let s1 := drainTeam s t
      (swapDrained s1 t.id = false → exec (.teamSwap t.id) s = .next s)
      ∧ (swapDrained s1 t.id = true → ∀ t1, findTeam s1 t.id = some t1 → Does (.teamSwap t.id) s fun u => u.groups = s1.groups
        ∧ (∃ t', findTeam u t.id = some t' ∧ t'.place = .swapped ∧ t'.parkedSince = none ∧ t'.scratch = t1.scratch
          ∧ t'.tiles = t1.tiles ∧ t'.core = t1.core)
        ∧ ∀ g ∈ s1.groups, g.team = t.id → ∀ l ∈ (coreAt u g.core).l1, l.dirty = 0))
    ∧ (swapEligible s t p = false → exec (.teamSwap t.id) s = .next s)
    ∧ (∀ core, t.place = .saved ∨ (t.place = .swapped ∧ teamWakes s t = true) → p.state = .running → canRestore s t core = true →
        (s.groups.map (·.id)).Nodup → (∀ g ∈ s.groups, g.team = t.id → g.replays = []) →
        Does (.teamRestore t.id core) s fun u =>
          (∃ t', findTeam u t.id = some t' ∧ t'.place = .resident ∧ t'.core = core ∧ t'.scratch = t.scratch)
          ∧ ∀ g ∈ s.groups, ∃ g', findGroup u g.id = some g' ∧ g'.s = g.s ∧ g'.k = g.k ∧ g'.trap = g.trap
            ∧ g'.lanes.map (fun l => (l.v, l.pc, l.mr, l.exited)) = g.lanes.map (fun l => (l.v, l.pc, l.mr, l.exited)))
    ∧ (gateOpens s t = true → Does (.teamGateOpen t.id) s fun u => u.groups = s.groups ∧ SameMemory s u
        ∧ findTeam u t.id = some { t with gateOpen := true })
    ∧ (∀ gr, p.state ≠ .halted → teamEnded s t = true → t.rays = [] → (∃ q, t.origin = .host q) → findGrid s t.grid = some gr →
        gr.origin = t.origin →
        Does (.teamEnd t.id) s fun u => SameMemory s u
          ∧ (∀ g ∈ u.groups, g.team ≠ t.id) ∧ (∀ h ∈ u.threads, h.team ≠ t.id) ∧ (∀ o ∈ u.ops, o.team ≠ t.id)
          ∧ (gr.next < gr.total → u.grids = s.grids ∧ u.jobs = s.jobs)
          ∧ (gr.next = gr.total → gr.passed = [] → (∀ x ∈ s.teams, x.grid = gr.id → x.id ≠ t.id → x.ended = true) →
              (∀ x ∈ u.grids, x.id ≠ gr.id) ∧ ∀ j ∈ u.jobs, gr.job ≠ some j.id))

/-! ### Work -/

/-- 03 R36, R66, R67, R69, R73; 11 R193; 12 R201; 19 R314, R318; 17 R286: a legal child packet becomes a grid, an illegal one is
discarded; a waiting cluster that is admitted to a core creates the groups of one team there, as the packet says, for grids of every
origin; a cluster whose heat would exceed the limit is deferred; a record joins its gatherer, and RECTO launches what
is there. (Log entries 42 and 26: that a grid keeps the page tables and the trap vector of the time it was queued, and the
payload of the record.) -/
def Obligations.WorkAdmission : Prop :=
  ∀ (s : State) (p : Partition),
    (∀ t e rest, findTeam s t.id = some t → findPart s t.part = some p → t.pendLaunch = e :: rest → launchFree p = true →
      let k := childPacket e.packet
      (k.kind = 2 → packetLegal p k = true → k.joinAddr = noJoin → k.mapLen = 0 →
        Does (.childLaunchValidate t.id) s fun u => SameMemory s u ∧ u.groups = s.groups
          ∧ findTeam u t.id = some { t with pendLaunch := rest }
          ∧ ∃ gr, u.grids = s.grids ++ [gr] ∧ gr.packet = k ∧ gr.origin = .child ∧ gr.join = e.join ∧ gr.part = t.part
            ∧ gr.total = clustersOf k ∧ gr.next = 0 ∧ gr.root = p.ptroot ∧ gr.trapVec = p.trapVec)
      ∧ (k.kind ≠ 2 → e.join = none → Does (.childLaunchValidate t.id) s fun u => u.grids = s.grids
          ∧ findTeam u t.id = some { t with pendLaunch := rest }
          ∧ Told s u (launchDie p) unitLaunch 0x400 (some p.idx) []))
    ∧ (∀ gr c core, findGrid s gr.id = some gr → findPart s gr.part = some p → p.state = .running →
        clusterWaits gr c = true → isDeferred gr c = false → lowerFirst s p gr c = false →
        ((rectsOf p gr c).find? fun r => (admitRect s p gr c r).isSome
          && !rectTaken s p (goesBefore s gr.part (s.grids.findIdx (·.id == gr.id)) gr c) r) = some [core] →
        ∀ i ∈ (match gr.origin with
          | .records _ => if c = 0 then [Instr.gatheredGroupAdmit gr.id] else []
          | .callback _ => if c = 0 then [.callbackGroupAdmit gr.id] else []
          | _ => [.clusterAdmit gr.id c]),
        (coolEnough s p [core] gr.packet.pde = true → Does i s fun u => ∃ t gs,
          u.teams = s.teams ++ [t] ∧ t.core = core ∧ t.grid = gr.id ∧ t.cluster = c ∧ t.packet = gr.packet
          ∧ u.groups = s.groups ++ gs ∧ gs.length = groupsOf gr.packet
          ∧ ∀ i g, gs[i]? = some g →
            launched gr core i (if gr.records = [] then packetW gr.packet else gr.records.length) g ∧ g.team = t.id)
        ∧ (coolEnough s p [core] gr.packet.pde = false → Does i s fun u => u.teams = s.teams ∧ u.groups = s.groups
            ∧ findGrid u gr.id = some { gr with deferred := gr.deferred ++ [(c, dieOfCore core)] }))
    ∧ (∀ o b rest g, findOp s o.id = some o → findPart s o.part = some p → o.kind = .emit (b :: rest) → o.done = false →
        allEarlier s o = true → launchFree p = true →
        let entry := fieldNat b 0 4
        let die := gatherDie s p (dieOfCore o.core) b
        (entry < p.csrs.entCount.toNat → die < s.dies.length → findGather (dieAt s die) p.idx entry = some g →
          g.records.length + 1 < packetW g.packet →
          Does (.recordGather o.id) s fun u => u.groups = s.groups
            ∧ findGather (dieAt u die) p.idx entry = some { g with records := g.records ++ [b] }
            ∧ (rest = [] → Gone u o.id) ∧ (rest ≠ [] → findOp u o.id = some { o with kind := .emit rest }))
        ∧ (p.csrs.entCount.toNat ≤ entry → Does (.recordGather o.id) s fun u => u.groups = s.groups
            ∧ (rest = [] → Gone u o.id) ∧ Told s u (launchDie p) unitLaunch 0x400 (some p.idx) []))
    ∧ (∀ die entry g, (dieAt s die).gather.find? (fun x => x.entry == entry && recToPassed s x.part die x.first) = some g →
        findPart s g.part = some p → die < s.dies.length →
        Does (.recordGroupTimeout die entry) s fun u => SameMemory s u ∧ u.groups = s.groups
          ∧ findGather (dieAt u die) g.part entry = none
          ∧ ∃ gr, u.grids = s.grids ++ [gr] ∧ gr.packet = g.packet ∧ gr.origin = .records die ∧ gr.records = g.records)

/-! ### What the host writes -/

/-- 00 R5; 19 R292, R293, R295, R320; 21 R336; 25 R374, R385: the registers of a partition as the host writes them. A doorbell past the
ring, an illegal control value and a base change of an enabled queue disable the queue, which a record of code 0x407 tells;
reserved bits of QCTL are stored as 0; a seed of 0 is stored as generator state 1; the pool cannot change while it is in use, nor the
region table under a resident team; every Partition CSR takes the bits it has. (Log entries 26 and 27: the payload of
the records, and the unit that writes those of the management processor.) -/
def Obligations.HostRegisters : Prop :=
  ∀ (s : State) (p : Partition), HostReaches s p.idx p →
    (∀ n q x, p.queues[n]? = some q →
      let q' : HQueue := { q with tail := x }
      (queueEnabled q = true → 2 ^ queueLog q < (x - q.head).toNat →
        Does (.queueDoorbell p.idx n x) s fun u => Told s u (launchDie p) unitLaunch 0x407 (some p.idx) [BitVec.ofNat 64 n]
          ∧ ∃ p' r, findPart u p.idx = some p' ∧ p'.queues[n]? = some r ∧ r.ctl = q.ctl &&& ~~~0x10000 ∧ r.tail = x)
      ∧ (queueEnabled q = false ∨ (x - q.head).toNat ≤ 2 ^ queueLog q →
        Does (.queueDoorbell p.idx n x) s fun u => SameMemory s u ∧ u.funcs = s.funcs
          ∧ findPart u p.idx = some { p with queues := p.queues.set n { q' with lost := if q.head = x then 0 else q.lost } }))
    ∧ (∀ n q x, p.queues[n]? = some q →
        let bad := (x.getLsbD 16 = true ∧ (x.toNat / 256 % 32 < 1 ∨ 16 < x.toNat / 256 % 32 ∨ x &&& ~~~0x11FFF ≠ 0
            ∨ 2 ^ (x.toNat / 256 % 32) < (q.tail - q.head).toNat))
          ∨ (queueEnabled q = true ∧ x.toNat / 256 % 32 ≠ queueLog q)
        (bad → Does (.queueControlWrite p.idx n x) s fun u =>
          Told s u (launchDie p) unitLaunch 0x407 (some p.idx) [BitVec.ofNat 64 n]
            ∧ ∃ p' r, findPart u p.idx = some p' ∧ p'.queues[n]? = some r ∧ r.ctl = x &&& 0x1FFF ∧ r.tail = q.tail)
        ∧ (¬ bad → Does (.queueControlWrite p.idx n x) s fun u => SameMemory s u ∧ u.funcs = s.funcs
            ∧ ∃ p' r, findPart u p.idx = some p' ∧ p'.queues[n]? = some r ∧ r.ctl = x &&& 0x11FFF ∧ r.head = q.head ∧ r.tail = q.tail))
    ∧ (∀ n q x, p.queues[n]? = some q →
        let base := x &&& ~~~0x7F
        (queueEnabled q = true → base ≠ q.base → Does (.queueBaseWrite p.idx n x) s fun u =>
          Told s u (launchDie p) unitLaunch 0x407 (some p.idx) [BitVec.ofNat 64 n]
            ∧ ∃ p' r, findPart u p.idx = some p' ∧ p'.queues[n]? = some r ∧ r.base = base ∧ queueEnabled r = false)
        ∧ (queueEnabled q = false ∨ base = q.base → Does (.queueBaseWrite p.idx n x) s fun u => u.funcs = s.funcs
            ∧ ∃ p' r, findPart u p.idx = some p' ∧ p'.queues[n]? = some r ∧ r.base = base ∧ r.ctl = q.ctl))
    ∧ (∀ x, Does (.prngseedWrite p.idx x) s fun u => u.groups = s.groups ∧ findPart u p.idx
        = some { p with csrs := { p.csrs with prngSeed := x, prngState := if x = 0 then 1 else x } })
    ∧ (∀ x, Does (.prngstateWrite p.idx x) s fun u => u.groups = s.groups ∧ findPart u p.idx
        = some { p with csrs := { p.csrs with prngState := if x = 0 then 1 else x } })
    ∧ (∀ x, p.privAllocs = [] →
        Does (.privpoolWrite p.idx .base x) s (fun u => findPart u p.idx = some { p with privPool := x &&& 0x01FFFFFFFFFF0000 })
        ∧ Does (.privpoolWrite p.idx .size x) s (fun u => findPart u p.idx = some { p with privSize := x &&& 0x0000FFFFFFFF0000 }))
    ∧ (∀ x reg, p.privAllocs ≠ [] → Does (.privpoolWrite p.idx reg x) s fun u =>
        u.parts = s.parts ∧ Told s u 0 unitMgmt 0x409 (some p.idx) [])
    ∧ (∀ n b, (residentTeam s p.idx = false →
        Does (.regionTableWrite p.idx n b) s fun u => findPart u p.idx = some { p with regions := p.regions.set n (parseRegion b) })
      ∧ (residentTeam s p.idx = true → Does (.regionTableWrite p.idx n b) s fun u =>
          u.parts = s.parts ∧ Told s u 0 unitMgmt 0x408 (some p.idx) []))
    ∧ ∀ x, ∀ a ∈ [(HostReg.ptroot, { p with ptroot := x &&& 0x000FFFFFFFFFF000 }), (.trapvec, { p with trapVec := x.setWidth 32 }),
        (.evbase, { p with evbase := x &&& 0x01FFFFFFFFFFFFC0 }),
        (.evctl, { p with even := x.getLsbD 8, evlog2n := x.setWidth 5 }), (.evhead, { p with evhead := x.setWidth 32 }),
        (.evselc, { p with evselc := x }), (.evseld0, { p with evseld0 := x }), (.evseld1, { p with evseld1 := x })]
          ++ (let c := p.csrs
            let w : Word := x.setWidth 32
            let h : BitVec 16 := x.setWidth 16
            let one : Word := if w = 0 then 1 else w
            [(0x200, { c with swapThr := w }), (0x201, { c with regTo := h }), (0x202, { c with rasThr := w }),
             (0x203, { c with tLimit := h }), (0x204, { c with prngSeed := w, prngState := one }), (0x205, { c with prngState := one }),
             (0x206, { c with predl1 := w }), (0x207, { c with predl2 := w }), (0x208, { c with recTo := h }),
             (0x209, { c with recQw := h }), (0x20A, { c with recMw := h }), (0x20B, { c with entTab := x &&& 0x01FFFFFFFFFFFF80 }),
             (0x20C, { c with entCount := h }), (0x20D, { c with tCouple := x })].map
              fun (y : BitVec 12 × PartCsrs) => (HostReg.csr y.1, { p with csrs := y.2 })),
      Does (.registerWrite p.idx a.1 x) s fun u => findPart u p.idx = some a.2 ∧ u.groups = s.groups ∧ SameMemory s u

/-! ### Partitions -/

/-- 19 R294 to R297, R302 to R308, R317; 21 R333 to R335: a draw takes the packet of the first eligible queue that has lost 64 draws, else of the
queue that the generator's next state picks by its tickets; a packet that is taken becomes a grid, makes a graph active
with the counts of its tiles, or is rejected; a released tile is launched; the end of a tile's team retires the tile, counts down its consumers,
which are released at 0, and after the last tile of the last pass completes the graph, told by a record of code 0x401; a job that
overruns its deadline halts its partition; a pre-emption completes once every team is saved, or at PREDL2 by a reset. (Log entries
48, 42 and 26: which queues lose a draw, that a grid keeps the page tables of the time it was queued, and the
payload of records.) -/
def Obligations.PartitionSteps : Prop :=
  ∀ (s : State) (p : Partition), findPart s p.idx = some p →
    (∀ el, el = ((p.queues.mapIdx fun i q => (i, q)).filter fun x => queueEligible s p x.2) →
      p.state = .running → p.launchWait = none → p.taken = none → el ≠ [] →
      Does (.lotteryDraw p.idx) s fun u => ∃ w q p', p.queues[w]? = some q ∧ (w, q) ∈ el ∧ findPart u p.idx = some p'
        ∧ p'.taken = some ⟨w, queueAddr q, s.now⟩ ∧ p'.csrs.prngState = prngStep p.csrs.prngState
        ∧ p'.queues = p.queues.mapIdx (afterDraw [w] (el.map (·.1)))
        ∧ ((∃ x ∈ el, 64 ≤ x.2.lost) → 64 ≤ q.lost ∧ ∀ x ∈ el, 64 ≤ x.2.lost → w ≤ x.1)
        ∧ ((∀ x ∈ el, x.2.lost < 64) →
          let d := (prngStep p.csrs.prngState).toNat % (el.map fun x => queueTickets x.2).sum
          ticketsBelow s p w ≤ d ∧ d < ticketsBelow s p w + queueTickets q))
    ∧ (∀ t, p.taken = some t → launchFree p = true →
        let r := unitRead s (launchReader p) t.addr.toNat 128
        ∀ b, got r.1 = some b →
        let k := parsePacket b
        let Rejected : Prop := Does (.packetValidate p.idx) s fun u => u.groups = s.groups ∧ u.grids = s.grids
          ∧ Told s u (launchDie p) unitLaunch 0x400 (some p.idx) []
          ∧ ∃ p', findPart u p.idx = some p' ∧ p'.taken = none ∧ p'.graph = p.graph
            ∧ p'.queues.map (·.head) = (p.queues.modify t.queue fun q => { q with head := q.head + 1 }).map (·.head)
        (k.kind = 1 → packetLegal p k = true → k.joinAddr = noJoin → k.mapLen = 0 →
          Does (.packetValidate p.idx) s fun u => u.groups = s.groups
            ∧ (∃ gr, u.grids = s.grids ++ [gr] ∧ gr.packet = k ∧ gr.origin = .host t.queue ∧ gr.part = p.idx
              ∧ gr.total = clustersOf k ∧ gr.next = 0 ∧ gr.root = p.ptroot ∧ gr.trapVec = p.trapVec)
            ∧ ∃ p', findPart u p.idx = some p' ∧ p'.taken = none
              ∧ p'.queues.map (·.head) = (p.queues.modify t.queue fun q => { q with head := q.head + 1 }).map (·.head))
        ∧ (k.kind = 1 → packetLegal p k = false → Rejected)
        ∧ (k.kind ≠ 1 → k.kind ≠ 3 → Rejected)
        ∧ (k.kind = 3 →
          let legal := allZero ((b.drop 1).take 7) && allZero ((b.drop 0x10).take 64) && allZero (b.drop 0x58) && fieldNat b 8 8 % 64 == 0
          let x := readGraph r.2 p (fieldNat b 8 8)
          (legal = false → Rejected)
          ∧ (legal = true → p.graph = none → got x.1 = some none → Rejected)
          ∧ (legal = true → p.graph.isSome = true → Does (.packetValidate p.idx) s fun u => u.groups = s.groups
            ∧ u.grids = s.grids ∧ ∃ p', findPart u p.idx = some p' ∧ p'.taken = some t ∧ p'.graph = p.graph)
          ∧ (∀ g, legal = true → p.graph = none → got x.1 = some (some g) →
            Does (.packetValidate p.idx) s fun u => u.groups = s.groups ∧ u.grids = s.grids
              ∧ ∃ p' j, findPart u p.idx = some p' ∧ p'.taken = none ∧ p'.graph = some { g with job := j.id }
                ∧ u.jobs = s.jobs ++ [j] ∧ j.part = p.idx ∧ j.start = t.since ∧ j.queue = t.queue
                ∧ j.deadline = BitVec.ofNat 64 (fieldNat b 0x50 8)
                ∧ (∀ q ∈ g.passes, q.tiles = (List.range (tileCount q)).map fun n =>
                  let c := initialCount g q n
                  ⟨if c = 0 then .released else .pending, c, 0⟩))))
    ∧ (∀ g pass n q, p.graph = some g → p.state = .running → (∀ i, i < pass → launchable g i = none) →
        launchable g pass = some n → g.passes[pass]? = some q →
        Does (.tileLaunch p.idx pass) s fun u => u.groups = s.groups
          ∧ (∃ gr, u.grids = s.grids ++ [gr] ∧ gr.packet = q.packet ∧ gr.origin = .tile pass n ∧ gr.part = p.idx)
          ∧ ∃ p' g' q' t', findPart u p.idx = some p' ∧ p'.graph = some g' ∧ g'.passes[pass]? = some q' ∧ q'.tiles[n]? = some t'
            ∧ t'.state = .launched)
    ∧ (∀ t gr g pass tile, findTeam s t.id = some t → t.part = p.idx → p.state ≠ .halted → teamEnded s t = true → t.rays = [] →
        t.origin = .tile pass tile → findGrid s t.grid = some gr → gr.origin = t.origin → gr.part = p.idx → gr.next = gr.total →
        gr.passed = [] → (∀ x ∈ s.teams, x.grid = gr.id → x.id ≠ t.id → x.ended = true) → p.graph = some g → gr.job = none →
        let g' := retired g pass tile
        (∀ y, tileAt g pass tile = some y → tileAt g' pass tile = some { y with state := .retired })
        ∧ (∀ c q n y, c ≠ pass → g.passes[c]? = some q → tileAt g c n = some y →
            let m := pairsOf g q pass tile n
            tileAt g' c n = some (if y.state = .pending ∧ m ≠ 0 then
              (if y.count ≤ m then { y with count := 0, state := .released, order := g.releases } else { y with count := y.count - m }) else y))
        ∧ (g'.passes.all passRetired = false → Does (.teamEnd t.id) s fun u => (∀ x ∈ u.grids, x.id ≠ gr.id)
            ∧ ∃ p', findPart u p.idx = some p' ∧ p'.graph = some g')
        ∧ (g'.passes.all passRetired = true → Does (.teamEnd t.id) s fun u => (∀ x ∈ u.grids, x.id ≠ gr.id)
            ∧ (∀ j ∈ u.jobs, j.id ≠ g.job) ∧ (g.done = 0 → Told s u (launchDie p) unitGraph 0x401 (some p.idx) [])
            ∧ ∃ p', findPart u p.idx = some p' ∧ p'.graph = none))
    ∧ (∀ j, findJob s j.id = some j → j.part = p.idx → overrun s j = true → overranFirst s j = true →
        Does (.jobDeadline j.id) s fun u => u.groups = s.groups ∧ SameMemory s u
          ∧ (∃ p', findPart u p.idx = some p' ∧ p'.state = .halted) ∧ (∀ k ∈ u.jobs, k.id = j.id → k.acted = true)
          ∧ (j.queue < 64 → Told s u (launchDie p) unitLaunch 0x184 (some p.idx) [BitVec.ofNat 64 j.queue, j.addr]))
    ∧ (∀ fn, p.state = .preempting → p.preemptFn = some fn → resetDue s p = false → allSaved s p.idx = true → fn < s.funcs.length →
        Does (.preemptHalt p.idx) s fun u => Answered s u fn succeeded ∧ u.groups = s.groups
          ∧ ∃ p', findPart u p.idx = some p' ∧ p'.state = .halted ∧ p'.preempt = none)
    ∧ (p.state ≠ .running → resetDue s p = true → exec (.preemptHalt p.idx) s = exec (.preemptReset p.idx) s)
    ∧ (p.state = .preempting → p.csrs.predl2 ≠ 0 → p.csrs.predl2.toNat ≤ preemptClock s p →
        Does (.preemptReset p.idx) s fun u => (∀ t ∈ u.teams, t.part ≠ p.idx) ∧ (∀ g ∈ u.grids, g.part ≠ p.idx)
          ∧ (∀ j ∈ u.jobs, j.part ≠ p.idx) ∧ (∀ o ∈ u.ops, o.part ≠ p.idx) ∧ SameMemory s u
          ∧ (p.preemptFn = none → Told s u (launchDie p) unitLaunch 0x185 (some p.idx) [])
          ∧ ∃ p', findPart u p.idx = some p' ∧ p'.state = .halted ∧ p'.graph = none)

/-- 19 R313, R314; 25 R393: an update of the thermal model reads every sensor of its die, in 1/16 degree, and ends the deferrals of the
die. A sensor at or above 105 degrees drops the die to step 3 and writes THERMAL_TRIP, one at or above 115 halts every
partition on the die, as an overrun does, and one at or above 125 removes package power, without any save. (Which unit writes the
record is log entry 27.) -/
def Obligations.ThermalLimits : Prop :=
  ∀ (s : State) (die : Nat) (temps power : List Nat), s.powered = true → die < 4 → die < s.dies.length →
    Does (.thermalUpdate die temps power) s fun u =>
      ((∀ x ∈ temps, x < 2000) → (dieAt u die).temps = temps ∧ (dieAt u die).power = power ∧ u.powered = true ∧ u.groups = s.groups
        ∧ SameMemory s u)
      ∧ (∀ g ∈ u.grids, ∀ x ∈ g.deferred, x.2 ≠ die)
      ∧ ((∀ x ∈ temps, x < 1680) → (dieAt u die).dvfs = (dieAt s die).dvfs ∧ u.parts = s.parts)
      ∧ ((∃ x ∈ temps, 1680 ≤ x) → (∀ x ∈ temps, x < 2000) → (dieAt u die).dvfs = 3 ∧ Told s u die unitMgmt 0x302 none [])
      ∧ ((∀ x ∈ temps, x < 1840) → u.parts = s.parts)
      ∧ ((∃ x ∈ temps, 1840 ≤ x) → (∀ x ∈ temps, x < 2000) → ∀ p, findPart s p.idx = some p → (partDies p).contains die = true →
        (∃ q, findPart u p.idx = some q ∧ q.state = .halted)
        ∧ (p.state ≠ .halted → ∀ j ∈ u.jobs, j.part = p.idx → j.paused.isSome = true))
      ∧ ((∃ x ∈ temps, 2000 ≤ x) → u.powered = false ∧ u.parts = [] ∧ u.teams = [] ∧ u.groups = [] ∧ u.threads = []
        ∧ ∀ d ∈ u.dies, d.areas = [])

/-! ### Commands and the platform -/

/-- 21 R331, R333, R337, R338, R343, R346; 23 R361, R362; 25 R375, R383, R384: the commands of the mailbox. Each that is legal has its effect and ends
with MSTATUS 2, but for PREEMPT, which stays busy until the pre-emption completes, and a SHOOTDOWN that accesses in flight hold up; a
command that a virtual function may not issue is refused for reason 6 and changes nothing else. (Log entries 57 to 60: reasons of
PATCH_LOAD, what EVICT and RELOAD keep and flush, the mailbox at CREATE and DESTROY, and the layout of a report.) -/
def Obligations.Commands : Prop :=
  ∀ (s : State) (fn : Nat) (a : MArgs),
    (∀ cores, CommandReady s fn 0x01 → fn = 0 → shapeCores a.m0 = some cores → splitOk a.m1 = true →
      findPart s (a.m3.toNat % 16) = none → coresFree s cores = true → Does (.create fn a) s fun u => Answered s u fn succeeded
        ∧ findPart u (a.m3.toNat % 16) = some (newPartition (a.m3.toNat % 16) a.m0 (a.m1.setWidth 12) cores)
        ∧ ∀ n, n ≠ a.m3.toNat % 16 → findPart u n = findPart s n)
    ∧ (CommandReady s fn 0x08 → fn = 0 → ∀ im, parsePatch (readBytes s.hostMem a.m0.toNat a.m1.toNat) = some im →
        s.dies.length = 4 → (∃ d, d < 4 ∧ im.dies / 2 ^ d % 2 = 1) → (∀ d, d < 4 → im.dies / 2 ^ d % 2 = 1 → loadBlocked s d = false) →
        Does (.patchLoad fn a) s fun u =>
          let check (d : Nat) (r : PatchCheck) : Prop := d < 4 ∧ im.dies / 2 ^ d % 2 = 1 ∧ checkPatch (dieAt s d) d im = r
          ((∀ d, ¬ check d .untrusted ∧ ¬ check d .malformed) → Answered s u fn succeeded ∧ ∀ d, d < 4 →
            if im.dies / 2 ^ d % 2 = 1 then (dieAt u d).bezel.version = im.version ∧ (dieAt u d).bezel.micro = im.micro
              ∧ (dieAt u d).bezel.digest = digestLow (sha256 im.body)
            else (dieAt u d).bezel = (dieAt s d).bezel)
          ∧ ((∃ d, check d .untrusted) → Answered s u fn (refusedFor 5) ∧ ∀ d, d < 4 → (dieAt u d).bezel = (dieAt s d).bezel)
          ∧ ((∃ d, check d .malformed) → (∀ d, ¬ check d .untrusted) →
            Answered s u fn (refusedFor 1) ∧ ∀ d, d < 4 → (dieAt u d).bezel = (dieAt s d).bezel))
    ∧ (CommandReady s fn 0x09 → fn = 0 → (∀ d ∈ s.dies, floorOk a d = true) → a.m1.toNat ≤ s.fwVersion.toNat →
        Does (.raiseFloor fn a) s fun u => Answered s u fn succeeded
          ∧ ∀ d, d < s.dies.length → (dieAt u d).patchFloor = a.m0 ∧ (dieAt u d).fwFloor = a.m1)
    ∧ (CommandReady s fn 0x0C → fn = 0 → Does (.flashWrite fn a) s fun u => Answered s u fn succeeded
        ∧ u.flash = writeBytes s.flash 0 (readBytes s.hostMem a.m0.toNat a.m1.toNat) ∧ u.parts = s.parts)
    ∧ (CommandReady s fn 0x0D → Does (.attest fn a) s fun u => Answered s u fn succeeded
        ∧ (u.funcs.getD fn Func.reset).data = attestReport s a ∧ u.parts = s.parts)
    ∧ (∀ p, findPart s (commandPart fn a) = some p →
        (CommandReady s fn 0x02 → fn = 0 → pstateCode p ≠ 2 → graphActive p = false → residentTeam s p.idx = false →
          Does (.destroy fn a) s fun u => Answered s u fn succeeded ∧ findPart u p.idx = none
            ∧ (∀ t ∈ u.teams, t.part ≠ p.idx) ∧ ∀ g ∈ u.grids, g.part ≠ p.idx)
        ∧ (CommandReady s fn 0x03 → p.state = .running → Does (.preempt fn a) s fun u =>
            (u.funcs.getD fn Func.reset).status = 1
            ∧ findPart u p.idx = some { p with state := .preempting, preempt := some s.now, preemptFn := some fn }
            ∧ (∀ j ∈ u.jobs, j.part = p.idx → j.paused.isSome = true) ∧ u.groups = s.groups)
        ∧ (CommandReady s fn 0x04 → pstateCode p = 3 → p.evicted = none → (∀ g ∈ s.groups, g.replays = []) →
            Does (.resume fn a) s fun u => Answered s u fn succeeded
              ∧ findPart u p.idx = some { p with state := .running, preempt := none, halting := false }
              ∧ ∀ j ∈ u.jobs, j.part = p.idx → j.paused = none)
        ∧ (CommandReady s fn 0x04 → pstateCode p ≠ 3 → Does (.resume fn a) s fun u => Answered s u fn (refusedFor 4)
            ∧ u.parts = s.parts ∧ u.teams = s.teams)
        ∧ (CommandReady s fn 0x05 → Does (.shootdown fn a) s fun u => SameMemory s u
            ∧ (holdsRange s p.idx (va57 a.m0) a.m1.toNat = [] → Answered s u fn succeeded)
            ∧ (holdsRange s p.idx (va57 a.m0) a.m1.toNat ≠ [] → (u.funcs.getD fn Func.reset).status = 1
              ∧ ∃ q, findPart u p.idx = some q
                ∧ q.shoots = p.shoots ++ [⟨fn, va57 a.m0, a.m1.toNat, holdsRange s p.idx (va57 a.m0) a.m1.toNat⟩])
            ∧ (∀ c ∈ u.cores, (∀ e ∈ c.tlb, e.part = p.idx → inRange (e.page * 4096) 4096 (va57 a.m0) a.m1.toNat = false)
              ∧ ∀ l ∈ c.icache, l.part = some p.idx → inRange (l.va % 2 ^ 57) 64 (va57 a.m0) a.m1.toNat = true →
                l.retranslate = true)
            ∧ ∀ d ∈ u.dies, ∀ e ∈ d.l2tlb, e.part = p.idx → inRange (e.page * 4096) 4096 (va57 a.m0) a.m1.toNat = false)
        ∧ (CommandReady s fn 0x06 → a.m1.getLsbD 0 = false → Does (.faultAnswer fn a) s fun u => Answered s u fn succeeded
            ∧ (∃ p', findPart u p.idx = some p' ∧ va57 a.m0 / 4096 ∉ p'.faults)
            ∧ ∀ g ∈ u.groups, teamIn s p.idx g.team = true → ∀ l ∈ g.lanes, ∀ pages r, l.park = .host pages r →
              va57 a.m0 / 4096 ∉ pages)
        ∧ (CommandReady s fn 0x07 → ∀ g, findGroup s a.m0.toNat = some g → haltedLanes g ≠ 0 → teamIn s p.idx g.team = true →
            Does (.debugResume fn a) s fun u => Answered s u fn succeeded
              ∧ findGroup u g.id = some { parkLanes g (haltedLanes g) .none with resumed := g.resumed ||| haltedLanes g })
        ∧ (CommandReady s fn 0x0A → fn = 0 → pstateCode p = 3 → p.evicted = none → allSaved s p.idx = true →
            a.m0.toNat + p.cores.length * 4 * 2 ^ 20 ≤ fwBase → Does (.evict fn a) s fun u => Answered s u fn succeeded
              ∧ findPart u p.idx = some { p with cores := [], evicted := some a.m0.toNat } ∧ u.teams = s.teams)
        ∧ (CommandReady s fn 0x0B → fn = 0 → ∀ cores, p.evicted = some a.m0.toNat → shapeCores p.shape = some cores →
            coresFree s cores = true → Does (.reload fn a) s fun u => Answered s u fn succeeded
              ∧ findPart u p.idx = some { p with cores := cores, evicted := none } ∧ u.teams = s.teams))
    ∧ (fn ≠ 0 → s.powered = true → s.linkUp = true → s.booted = true → fn ≤ 16 → fn < s.funcs.length →
        (findPart s (fn - 1)).isSome = true → (s.funcs.getD fn Func.reset).status ≠ 1 →
        ∀ i ∈ [Instr.create fn a, .destroy fn a, .patchLoad fn a, .raiseFloor fn a, .evict fn a, .reload fn a, .flashWrite fn a],
        Does i s fun u => Answered s u fn (refusedFor 6) ∧ u.parts = s.parts ∧ u.teams = s.teams ∧ u.groups = s.groups
          ∧ SameMemory s u)

/-- 01 R17, R25, R34; 15 R248; 25 R376, R379 to R383, R387, R392, R394: what the host and the platform do to the package. A power-on
applies the fused row repairs and keeps the fused identifiers. (Log entries 26, 27, 61, 63, 64 and 92: the payload of
records and the unit that writes them, which links a route uses, host memory while the link is down, the checks of a boot image, and
that an act that does not take place changes nothing.) -/
def Obligations.PlatformSteps : Prop :=
  ∀ (s : State),
    (∀ addr b, s.powered = true → s.linkUp = true → addr + b.length ≤ fwBase →
      Does (.hostGddrAccess addr b.length (some b)) s fun u => u = { s with gddr := writeBytes s.gddr addr b, bad := u.bad })
    ∧ (∀ addr n, Does (.hostGddrAccess addr n none) s fun u => u = s)
    ∧ (∀ addr b, Does (.cxlCacheSnoop addr b) s fun u => u = { s with hostMem := writeBytes s.hostMem addr b })
    ∧ (∀ fn p r rest, fn ≠ 0 → s.powered = true → s.linkUp = true → findPart s (fn - 1) = some p → fn < s.funcs.length →
        eventQueue s fn = r :: rest → ringRoom p = true →
        (∀ d, (dieAt s d).spill = [] ∧ (dieAt s d).kept = [] ∧ (dieAt s d).lost = []) →
        Does (.eventRecordDeliver fn) s fun u =>
          u.hostMem = writeBytes s.hostMem (p.evbase.toNat + 64 * (p.evtail.toNat % 2 ^ p.evlog2n.toNat)) (recordBytes s.fresh r)
          ∧ findPart u (fn - 1) = some { p with evtail := p.evtail + 1 } ∧ eventQueue u fn = rest
          ∧ (u.funcs.getD fn Func.reset).msix0 = (s.funcs.getD fn Func.reset).msix0 + 1 ∧ u.groups = s.groups)
    ∧ (s.powered = true → s.linkUp = true → (s.parts.map (·.idx)).Nodup → Does .hostLinkDown s fun u => u.linkUp = false
        ∧ (∀ p ∈ u.parts, p.state = .halted) ∧ SameMemory s u
        ∧ ∀ o ∈ u.ops, performed o = false → ∀ accs sc rel na, o.kind = .store accs sc rel na →
          ∀ x ∈ accs, isFar x.loc = false)
    ∧ (s.powered = true → Does .hostLinkTrained s fun u => u.linkUp = true ∧ u.parts = s.parts ∧ u.groups = s.groups)
    ∧ (∀ die l, Does (.ucieRetrain die l true) s fun u => u = s)
    ∧ (∀ die l, s.powered = true → die < 4 → s.dies.length = 4 → (s.parts.map (·.idx)).Nodup →
        Does (.ucieRetrain die l false) s fun u => (match l with | .a => (dieAt u die).linkA | .b => (dieAt u die).linkB) = false
          ∧ (∀ p ∈ s.parts, spansLink p die (linkPeer die l) = true → ∃ q, findPart u p.idx = some q ∧ q.state = .halted)
          ∧ ∀ p ∈ s.parts, spansLink p die (linkPeer die l) = false → p ∈ u.parts)
    ∧ (∀ moves, Does (.dvfsSample moves) s fun u => u.groups = s.groups ∧ ∀ d, d < s.dies.length → (dieAt u d).dvfs
        = (match moves.getD d .stay with
          | .stay => (dieAt s d).dvfs
          | .faster => (dieAt s d).dvfs - 1
          | .slower => min 3 ((dieAt s d).dvfs + 1)))
    ∧ (∀ die unit addr, s.powered = true → die < 4 → unit < 86 → Does (.backgroundScrub die unit addr) s fun u =>
        Told s u die unit 0x405 none [addr] ∧ u.groups = s.groups ∧ SameMemory s u)
    ∧ (∀ die column bank row, die < s.dies.length → Does (.rowRepair die column bank row) s fun u =>
        (dieAt u die).repairs = (dieAt s die).repairs ++ [(column, bank, row)] ∧ u.groups = s.groups ∧ SameMemory s u)
    ∧ Does .powerOff s (fun u => u.powered = false ∧ u.parts = [] ∧ u.groups = [] ∧ u.flash = s.flash ∧ u.nvme = s.nvme
        ∧ u.hostMem = s.hostMem ∧ ∀ d, d < s.dies.length → (dieAt u d).patchFloor = (dieAt s d).patchFloor
          ∧ (dieAt u d).fwFloor = (dieAt s d).fwFloor ∧ (dieAt u d).fusedRepairs = (dieAt s d).fusedRepairs ∧ (dieAt u d).repairs = [])
    ∧ (∀ inp : BootInput, Does (.powerOn inp) s fun u => (s.fused = true → u.fused = true ∧ ∀ d, d < s.dies.length →
        (dieAt u d).dieid = (dieAt s d).dieid ∧ (dieAt u d).fusedRepairs = (dieAt s d).fusedRepairs)
        ∧ ∀ d, d < s.dies.length → (dieAt u d).repairs = (dieAt u d).fusedRepairs)
    ∧ (∀ inp : BootInput, inp.exchanged = false → Does (.powerOn inp) s fun u => u.booted = false ∧ u.bootstat = 1)
    ∧ ∀ inp : BootInput, inp.exchanged = true →
        let b := bootState s inp
        let img := flashImage b
        let code := imageCheck (dieAt b (masterDie b)) img
        Does (.powerOn inp) s fun u => (code ≠ 0 → u.booted = false ∧ u.bootstat = BitVec.ofNat 64 code)
          ∧ (code = 0 → inp.failedCopy = none → u.booted = true ∧ u.bootstat = 0 ∧ u.parts = [] ∧ u.groups = []
            ∧ u.fwHash = sha256 img ∧ u.flash = s.flash)
end

