-- ==== Sys2Proof/Laws/Memory.lean ====
section
/-! SUPPORT. Every operation of memory keeps its canonical form, and what one write does to one read (log entry 3). -/

namespace Sys2Proof.Machine

/-! ### Rising cells -/

theorem risingFrom_mono {l : List Host.Cell} {lo hi : Nat} (h : lo ≤ hi) (r : risingFrom hi l = true) : risingFrom lo l = true := by
  cases l with
  | nil => rfl
  | cons c l =>
    simp only [risingFrom, Bool.and_eq_true, decide_eq_true_eq] at r ⊢
    exact ⟨Nat.le_trans h r.1, r.2⟩

theorem risingFrom_ge {l : List Host.Cell} {lo : Nat} (r : risingFrom lo l = true) : ∀ c ∈ l, lo ≤ c.1 := by
  induction l generalizing lo with
  | nil => intro c hc; cases hc
  | cons c l ih =>
    simp only [risingFrom, Bool.and_eq_true, decide_eq_true_eq] at r
    intro d hd
    rcases List.mem_cons.1 hd with rfl | hd
    · exact r.1
    · exact Nat.le_trans (Nat.le_succ_of_le r.1) (ih r.2 d hd)

theorem risingFrom_erase {l : List Host.Cell} {lo : Nat} (x : Nat) (r : risingFrom lo l = true) :
    risingFrom lo (eraseCell l x) = true := by
  induction l generalizing lo with
  | nil => rfl
  | cons c l ih =>
    simp only [risingFrom, Bool.and_eq_true, decide_eq_true_eq] at r
    unfold eraseCell
    split
    · exact risingFrom_mono (Nat.le_succ_of_le r.1) r.2
    · split
      · simp only [risingFrom, Bool.and_eq_true, decide_eq_true_eq]; exact r
      · simp only [risingFrom, Bool.and_eq_true, decide_eq_true_eq]; exact ⟨r.1, ih r.2⟩

theorem risingFrom_insert {l : List Host.Cell} {lo x : Nat} (v : Byte) (h : lo ≤ x) (r : risingFrom lo l = true) :
    risingFrom lo (insertCell l x v) = true := by
  induction l generalizing lo with
  | nil => simp [insertCell, risingFrom, h]
  | cons c l ih =>
    simp only [risingFrom, Bool.and_eq_true, decide_eq_true_eq] at r
    unfold insertCell
    split
    · rename_i he; subst he
      simp only [risingFrom, Bool.and_eq_true, decide_eq_true_eq]; exact r
    · rename_i hne
      split
      · rename_i hlt
        simp only [risingFrom, Bool.and_eq_true, decide_eq_true_eq]; exact ⟨h, hlt, r.2⟩
      · rename_i hle
        simp only [risingFrom, Bool.and_eq_true, decide_eq_true_eq]
        exact ⟨r.1, ih (Nat.lt_of_le_of_ne (Nat.le_of_not_lt hle) hne) r.2⟩

theorem risingFrom_filter {l : List Host.Cell} {lo : Nat} (p : Host.Cell → Bool) (r : risingFrom lo l = true) :
    risingFrom lo (l.filter p) = true := by
  induction l generalizing lo with
  | nil => rfl
  | cons c l ih =>
    simp only [risingFrom, Bool.and_eq_true, decide_eq_true_eq] at r
    rw [List.filter_cons]
    split
    · simp only [risingFrom, Bool.and_eq_true, decide_eq_true_eq]; exact ⟨r.1, ih r.2⟩
    · exact risingFrom_mono (Nat.le_succ_of_le r.1) (ih r.2)

theorem risingFrom_append {l k : List Host.Cell} {lo mid : Nat} (r : risingFrom lo l = true) (h : ∀ c ∈ l, c.1 < mid)
    (hm : lo ≤ mid) (t : risingFrom mid k = true) : risingFrom lo (l ++ k) = true := by
  induction l generalizing lo with
  | nil => exact risingFrom_mono hm t
  | cons c l ih =>
    simp only [risingFrom, Bool.and_eq_true, decide_eq_true_eq] at r
    simp only [List.cons_append, risingFrom, Bool.and_eq_true, decide_eq_true_eq]
    exact ⟨r.1, ih r.2 (fun d hd => h d (List.mem_cons_of_mem _ hd)) (h c List.mem_cons_self)⟩

theorem eraseCell_subset {l : List Host.Cell} {x : Nat} : ∀ c ∈ eraseCell l x, c ∈ l := by
  induction l with
  | nil => intro c hc; exact hc
  | cons d l ih =>
    intro c hc
    unfold eraseCell at hc
    split at hc
    · exact List.mem_cons_of_mem _ hc
    · split at hc
      · exact hc
      · rcases List.mem_cons.1 hc with rfl | hc
        · exact List.mem_cons_self
        · exact List.mem_cons_of_mem _ (ih c hc)

theorem mem_insertCell {l : List Host.Cell} {x : Nat} {v : Byte} : ∀ c ∈ insertCell l x v, c = (x, v) ∨ c ∈ l := by
  induction l with
  | nil => intro c hc; exact .inl (by simpa [insertCell] using hc)
  | cons d l ih =>
    intro c hc
    unfold insertCell at hc
    split at hc
    · rcases List.mem_cons.1 hc with rfl | hc
      · exact .inl rfl
      · exact .inr (List.mem_cons_of_mem _ hc)
    · split at hc
      · rcases List.mem_cons.1 hc with rfl | hc
        · exact .inl rfl
        · exact .inr hc
      · rcases List.mem_cons.1 hc with rfl | hc
        · exact .inr List.mem_cons_self
        · rcases ih c hc with h | h
          · exact .inl h
          · exact .inr (List.mem_cons_of_mem _ h)

/-! ### The canonical form -/

theorem wf_iff (m : Memory) : m.wf = true ↔
    risingFrom 0 m.cells = true ∧ ∀ c ∈ m.cells, c.2 ≠ 0 ∨ (undefAt m.undef c.1).isSome = true := by
  simp only [Memory.wf, Bool.and_eq_true, List.all_eq_true, Bool.or_eq_true, bne_iff_ne]

theorem wf_writeByte {m : Memory} (h : m.wf = true) (x : Nat) (v : Byte) : (writeByte m x v).wf = true := by
  rw [wf_iff] at h ⊢
  unfold writeByte
  split
  · exact ⟨risingFrom_erase x h.1, fun c hc => h.2 c (eraseCell_subset c hc)⟩
  · rename_i hz
    refine ⟨risingFrom_insert v (Nat.zero_le _) h.1, fun c hc => ?_⟩
    rcases mem_insertCell c hc with rfl | hc
    · simp only [Bool.and_eq_true, not_and, beq_iff_eq] at hz
      by_cases hv : v = 0
      · right
        cases hu : undefAt m.undef x with
        | none => exact absurd hv (hz (by simp [hu]))
        | some _ => rfl
      · exact .inl hv
    · exact h.2 c hc

theorem wf_writeBytes {m : Memory} (h : m.wf = true) (x : Nat) (b : List Byte) : (writeBytes m x b).wf = true := by
  induction b generalizing m x with
  | nil => exact h
  | cons v l ih => exact ih (wf_writeByte h x v) (x + 1)

theorem wf_writeMasked {m : Memory} (h : m.wf = true) (base : Nat) (b : List Byte) (mask : Nat → Bool) :
    (writeMasked m base b mask).wf = true := by
  unfold writeMasked
  suffices ∀ (l : List Nat) (m : Memory), m.wf = true →
      (l.foldl (fun m i => if mask i then writeByte m (base + i) (b.getD i 0) else m) m).wf = true from this _ _ h
  intro l
  induction l with
  | nil => exact fun _ h => h
  | cons i l ih =>
    intro m h
    refine ih _ ?_
    dsimp only
    split
    · exact wf_writeByte h _ _
    · exact h

theorem wf_clearRange {m : Memory} (h : m.wf = true) (lo hi seed : Nat) : (clearRange m lo hi seed).wf = true := by
  rw [wf_iff] at h ⊢
  refine ⟨risingFrom_filter _ h.1, fun c hc => ?_⟩
  rcases h.2 c (List.mem_filter.1 hc).1 with h | h
  · exact .inl h
  · right
    show (undefAt (⟨lo, hi, seed⟩ :: m.undef) c.1).isSome = true
    unfold undefAt
    split
    · rfl
    · exact h

theorem wf_empty : Memory.empty.wf = true := rfl
theorem wf_fresh (size seed : Nat) : (Memory.fresh size seed).wf = true := rfl

/-- Nonzero cells for the bytes of a word, at their addresses. -/
theorem rising_word (base : Nat) (l : List Byte) :
    risingFrom base ((l.mapIdx fun i b => (base + i, b)).filter fun c => c.2 != 0) = true
      ∧ ∀ c ∈ (l.mapIdx fun i b => (base + i, b)).filter fun c => c.2 != 0, c.1 < base + l.length ∧ c.2 ≠ 0 := by
  constructor
  · refine risingFrom_filter _ ?_
    induction l generalizing base with
    | nil => rfl
    | cons b l ih =>
      simp only [List.mapIdx_cons, risingFrom, Nat.add_zero, Nat.le_refl, decide_true, Bool.true_and]
      have := ih (base + 1)
      simp only [Nat.add_assoc, Nat.add_comm 1] at this ⊢
      exact this
  · intro c hc
    obtain ⟨h1, h2⟩ := List.mem_filter.1 hc
    obtain ⟨i, hi, rfl⟩ := List.mem_mapIdx.1 h1
    exact ⟨by simpa using hi, by simpa using h2⟩

theorem wf_tileFrom (f : Nat → Nat → DWord) : (tileFrom f).wf = true := by
  have len (n x : Nat) : (natBytes n x).length = n := by
    induction n generalizing x with
    | zero => rfl
    | succ n ih => simp [natBytes, ih]
  let w (k : Nat) : List Byte := natBytes 4 (f (k / 128) (k % 128)).toNat
  let cells (k : Nat) : List Host.Cell := ((w k).mapIdx fun i b => (4 * k + i, b)).filter fun c => c.2 != 0
  have all (n : Nat) : risingFrom 0 ((List.range n).flatMap cells) = true
      ∧ ∀ c ∈ (List.range n).flatMap cells, c.1 < 4 * n ∧ c.2 ≠ 0 := by
    induction n with
    | zero => exact ⟨rfl, fun c hc => by cases hc⟩
    | succ n ih =>
      rw [List.range_succ, List.flatMap_append]
      have hw := rising_word (4 * n) (w n)
      rw [show (w n).length = 4 from len 4 _] at hw
      simp only [List.flatMap_cons, List.flatMap_nil, List.append_nil]
      refine ⟨risingFrom_append ih.1 (fun c hc => (ih.2 c hc).1) (Nat.zero_le _) hw.1, fun c hc => ?_⟩
      rcases List.mem_append.1 hc with hc | hc
      · exact ⟨by have := (ih.2 c hc).1; omega, (ih.2 c hc).2⟩
      · exact ⟨by have := (hw.2 c hc).1; omega, (hw.2 c hc).2⟩
  have h := all 16384
  rw [wf_iff]
  unfold tileFrom
  dsimp only
  simp only [cells, w] at h
  exact ⟨h.1, fun c hc => .inl (h.2 c hc).2⟩

/-- The memories of the package right after reset are in canonical form. -/
theorem reset_canonical : Canonical State.reset := by
  intro m hm
  have hl : State.reset.memories = [Memory.fresh (2 ^ 53) 0, Memory.fresh (2 ^ 53) 1, Memory.fresh (2 ^ 53) 2,
      Memory.fresh (2 ^ 64) 3, Memory.fresh (2 ^ 32) 4] := rfl
  rw [hl] at hm
  simp only [List.mem_cons, List.not_mem_nil, or_false] at hm
  rcases hm with rfl | rfl | rfl | rfl | rfl <;> exact wf_fresh _ _

/-! ### One write and one read -/

theorem cellAt_none {l : List Host.Cell} {lo x : Nat} (r : risingFrom lo l = true) (h : x < lo) : cellAt l x = none := by
  cases l with
  | nil => rfl
  | cons c l =>
    simp only [risingFrom, Bool.and_eq_true, decide_eq_true_eq] at r
    have hc := r.1
    unfold cellAt
    rw [if_neg (by omega), if_pos (by omega)]

theorem cellAt_insert (l : List Host.Cell) (x y : Nat) (v : Byte) :
    cellAt (insertCell l x v) y = if y = x then some v else cellAt l y := by
  induction l with
  | nil =>
    simp only [insertCell, cellAt]
    by_cases h : x = y
    · simp [h]
    · have : ¬ y = x := fun e => h e.symm
      simp [h, this]
  | cons c l ih =>
    obtain ⟨a, b⟩ := c
    unfold insertCell
    by_cases hax : a = x
    · subst hax
      rw [if_pos rfl]
      simp only [cellAt]
      by_cases h : a = y
      · simp [h]
      · have : ¬ y = a := fun e => h e.symm
        simp [h, this]
    · rw [if_neg hax]
      by_cases hxa : x < a
      · rw [if_pos hxa]
        simp only [cellAt]
        by_cases h : x = y
        · simp [h]
        · have : ¬ y = x := fun e => h e.symm
          rw [if_neg h, if_neg this]
          by_cases hy : y < x
          · rw [if_pos hy, if_neg (by omega), if_pos (by omega)]
          · rw [if_neg hy]
      · rw [if_neg hxa]
        simp only [cellAt, ih]
        by_cases hy : a = y
        · have : ¬ y = x := by omega
          simp [hy, this]
        · rw [if_neg hy, if_neg hy]
          by_cases h : y = x
          · subst h; rw [if_neg (by omega), if_pos rfl, if_pos rfl]
          · simp [h]

theorem cellAt_erase {l : List Host.Cell} {lo : Nat} (r : risingFrom lo l = true) (x y : Nat) :
    cellAt (eraseCell l x) y = if y = x then none else cellAt l y := by
  induction l generalizing lo with
  | nil => simp [eraseCell, cellAt]
  | cons c l ih =>
    obtain ⟨a, b⟩ := c
    simp only [risingFrom, Bool.and_eq_true, decide_eq_true_eq] at r
    unfold eraseCell
    by_cases hax : a = x
    · subst hax
      rw [if_pos rfl]
      by_cases h : y = a
      · rw [if_pos h, h]; exact cellAt_none r.2 (Nat.lt_succ_self _)
      · rw [if_neg h]
        simp only [cellAt]
        rw [if_neg (fun e => h e.symm)]
        by_cases hy : y < a
        · rw [if_pos hy]; exact cellAt_none r.2 (by omega)
        · rw [if_neg hy]
    · rw [if_neg hax]
      by_cases hxa : x < a
      · rw [if_pos hxa]
        by_cases h : y = x
        · subst h; rw [if_pos rfl]; simp only [cellAt]; rw [if_neg hax, if_pos hxa]
        · rw [if_neg h]
      · rw [if_neg hxa]
        simp only [cellAt, ih r.2]
        by_cases hy : a = y
        · have : ¬ y = x := by omega
          simp [hy, this]
        · rw [if_neg hy, if_neg hy]
          by_cases h : y = x
          · subst h; rw [if_neg (by omega), if_pos rfl, if_pos rfl]
          · simp [h]

/-- A byte written is read back, and no other byte changes. -/
theorem readByte_writeByte {m : Memory} (h : m.wf = true) (x y : Nat) (v : Byte) :
    readByte (writeByte m x v) y = if y = x then v else readByte m y := by
  rw [wf_iff] at h
  unfold writeByte
  by_cases hz : ((undefAt m.undef x).isNone && v == 0) = true
  · rw [if_pos hz]
    simp only [Bool.and_eq_true, beq_iff_eq, Option.isNone_iff_eq_none] at hz
    unfold readByte
    dsimp only
    rw [cellAt_erase h.1]
    by_cases he : y = x
    · subst he
      simp [unlistedByte, hz.1, hz.2]
    · simp [he, unlistedByte]
  · rw [if_neg hz]
    unfold readByte
    dsimp only
    rw [cellAt_insert]
    by_cases he : y = x
    · simp [he]
    · simp [he, unlistedByte]

end Sys2Proof.Machine
end

