-- ==== Sys2Proof/Laws/Canonical.lean ====
section
/-! SUPPORT. What keeps every memory of the package in its canonical form: the pieces of the proof that each step does. -/

namespace Sys2Proof.Machine

/-- The memories of a team, and those of a partition's ring blocks, are in canonical form. -/
def TeamCanonical (t : Team) : Prop := t.scratch.wf = true ∧ ∀ m ∈ t.tiles, m.wf = true
def PartCanonical (p : Partition) : Prop := ∀ g, p.graph = some g → ∀ t ∈ g.transients, ∀ b ∈ t.blocks, b.mem.wf = true

theorem canonical_iff (s : State) : Canonical s ↔
    (s.gddr.wf = true ∧ s.hostMem.wf = true ∧ s.peerMem.wf = true ∧ s.nvme.wf = true ∧ s.flash.wf = true)
      ∧ (∀ t ∈ s.teams, TeamCanonical t) ∧ ∀ p ∈ s.parts, PartCanonical p := by
  constructor
  · intro h
    refine ⟨⟨?_, ?_, ?_, ?_, ?_⟩, ?_, ?_⟩
    · exact h _ (by simp [State.memories])
    · exact h _ (by simp [State.memories])
    · exact h _ (by simp [State.memories])
    · exact h _ (by simp [State.memories])
    · exact h _ (by simp [State.memories])
    · intro t ht
      refine ⟨h _ ?_, fun m hm => h _ ?_⟩
      · simp only [State.memories, List.mem_append, List.mem_flatMap, List.mem_cons]
        exact .inl (.inr ⟨t, ht, .inl rfl⟩)
      · simp only [State.memories, List.mem_append, List.mem_flatMap, List.mem_cons]
        exact .inl (.inr ⟨t, ht, .inr hm⟩)
    · intro p hp g hg t ht b hb
      refine h _ ?_
      simp only [State.memories, List.mem_append, List.mem_flatMap]
      refine .inr ⟨p, hp, ?_⟩
      rw [hg]
      exact List.mem_flatMap.2 ⟨t, ht, List.mem_map.2 ⟨b, hb, rfl⟩⟩
  · rintro ⟨⟨h1, h2, h3, h4, h5⟩, ht, hp⟩ m hm
    simp only [State.memories, List.mem_append, List.mem_flatMap, List.mem_cons, List.not_mem_nil, or_false] at hm
    rcases hm with (hm | ⟨t, htm, hm⟩) | ⟨p, hpm, hm⟩
    · rcases hm with rfl | rfl | rfl | rfl | rfl <;> assumption
    · rcases hm with rfl | hm
      · exact (ht t htm).1
      · exact (ht t htm).2 m hm
    · cases hg : p.graph with
      | none => rw [hg] at hm; cases hm
      | some g =>
        rw [hg] at hm
        obtain ⟨t, htm, hm⟩ := List.mem_flatMap.1 hm
        obtain ⟨b, hb, rfl⟩ := List.mem_map.1 hm
        exact hp p hpm g hg t htm b hb

/-- What leaves the memories, the teams and the partitions alone keeps the form. -/
theorem canonical_same {s u : State} (h : Canonical s) (hm : SameMemory s u) (ht : u.teams = s.teams) (hp : u.parts = s.parts) :
    Canonical u := by
  rw [canonical_iff] at h ⊢
  obtain ⟨a, b, c, d, e⟩ := hm
  rw [a, b, c, d, e, ht, hp]
  exact h

theorem canonical_backing {s : State} (h : Canonical s) (ty : MemType) : (backing s ty).wf = true := by
  obtain ⟨⟨a, b, c, _⟩, _⟩ := (canonical_iff s).1 h
  cases ty <;> assumption

theorem canonical_setBacking {s : State} (h : Canonical s) {m : Memory} (hm : m.wf = true) (ty : MemType) :
    Canonical (setBacking s ty m) := by
  rw [canonical_iff] at h ⊢
  obtain ⟨⟨a, b, c, d, e⟩, ht, hp⟩ := h
  cases ty
  · exact ⟨⟨hm, b, c, d, e⟩, ht, hp⟩
  · exact ⟨⟨a, hm, c, d, e⟩, ht, hp⟩
  · exact ⟨⟨a, b, hm, d, e⟩, ht, hp⟩
  · exact ⟨⟨hm, b, c, d, e⟩, ht, hp⟩

/-- A write at the home. -/
theorem canonical_homeWrite {s : State} (h : Canonical s) (ty : MemType) (pa : Nat) (b : List Byte) : Canonical (homeWrite s ty pa b) :=
  canonical_setBacking h (wf_writeBytes (canonical_backing h ty) pa b) ty

theorem canonical_homeMasked {s : State} (h : Canonical s) (ty : MemType) (base : Nat) (b : List Byte) (mask : Nat → Bool) :
    Canonical (homeMasked s ty base b mask) :=
  canonical_setBacking h (wf_writeMasked (canonical_backing h ty) base b mask) ty

/-- Teams changed one by one. -/
theorem canonical_teams {s : State} (h : Canonical s) {l : List Team} (hl : ∀ t ∈ l, TeamCanonical t) : Canonical { s with teams := l } := by
  rw [canonical_iff] at h ⊢
  exact ⟨h.1, hl, h.2.2⟩

theorem canonical_parts {s : State} (h : Canonical s) {l : List Partition} (hl : ∀ p ∈ l, PartCanonical p) :
    Canonical { s with parts := l } := by
  rw [canonical_iff] at h ⊢
  exact ⟨h.1, h.2.1, hl⟩

theorem canonical_putTeam {s : State} (h : Canonical s) {t : Team} (ht : TeamCanonical t) : Canonical (putTeam s t) := by
  refine canonical_teams h fun u hu => ?_
  obtain ⟨v, hv, rfl⟩ := List.mem_map.1 hu
  split
  · exact ht
  · exact ((canonical_iff s).1 h).2.1 v hv

theorem canonical_putPart {s : State} (h : Canonical s) {p : Partition} (hp : PartCanonical p) : Canonical (putPart s p) := by
  refine canonical_parts h fun u hu => ?_
  obtain ⟨v, hv, rfl⟩ := List.mem_map.1 hu
  split
  · exact hp
  · exact ((canonical_iff s).1 h).2.2 v hv

theorem canonical_team {s : State} (h : Canonical s) {n : Nat} {t : Team} (ht : findTeam s n = some t) : TeamCanonical t :=
  ((canonical_iff s).1 h).2.1 t (List.mem_of_find?_eq_some ht)

theorem canonical_part {s : State} (h : Canonical s) {n : Nat} {p : Partition} (hp : findPart s n = some p) : PartCanonical p :=
  ((canonical_iff s).1 h).2.2 p (List.mem_of_find?_eq_some hp)

/-- A fold of steps that keep the form keeps it. -/
theorem canonical_foldl {α : Type} {f : State → α → State} (hf : ∀ s a, Canonical s → Canonical (f s a)) (l : List α) {s : State}
    (h : Canonical s) : Canonical (l.foldl f s) := by
  induction l generalizing s with
  | nil => exact h
  | cons a l ih => exact ih (hf s a h)

/-! ### What changes no memory -/

theorem canonical_modCore {s : State} (h : Canonical s) (c : Nat) (f : Core → Core) : Canonical (modCore s c f) :=
  canonical_same h ⟨rfl, rfl, rfl, rfl, rfl⟩ rfl rfl
theorem canonical_modQuad {s : State} (h : Canonical s) (q : Nat) (f : Quad → Quad) : Canonical (modQuad s q f) :=
  canonical_same h ⟨rfl, rfl, rfl, rfl, rfl⟩ rfl rfl
theorem canonical_modDie {s : State} (h : Canonical s) (d : Nat) (f : Die → Die) : Canonical (modDie s d f) :=
  canonical_same h ⟨rfl, rfl, rfl, rfl, rfl⟩ rfl rfl
theorem canonical_putGroup {s : State} (h : Canonical s) (g : Group) : Canonical (putGroup s g) :=
  canonical_same h ⟨rfl, rfl, rfl, rfl, rfl⟩ rfl rfl
theorem canonical_putOp {s : State} (h : Canonical s) (o : Op) : Canonical (putOp s o) :=
  canonical_same h ⟨rfl, rfl, rfl, rfl, rfl⟩ rfl rfl
theorem canonical_owe {s : State} (h : Canonical s) (cores : List Nat) (sig : BitVec 1024) : Canonical (owe s cores sig) :=
  canonical_same h ⟨rfl, rfl, rfl, rfl, rfl⟩ rfl rfl
theorem canonical_publish {s : State} (h : Canonical s) (cores : List Nat) (sig : BitVec 1024) : Canonical (publish s cores sig) :=
  canonical_same h ⟨rfl, rfl, rfl, rfl, rfl⟩ rfl rfl
theorem canonical_tellPart {s : State} (h : Canonical s) (core : Nat) (sig : BitVec 1024) : Canonical (tellPart s core sig) :=
  canonical_publish h _ _

theorem canonical_opDone {s : State} (h : Canonical s) (id : Nat) : Canonical (opDone s id) := by
  unfold opDone
  split
  · exact h
  · exact canonical_same h ⟨rfl, rfl, rfl, rfl, rfl⟩ rfl rfl

theorem canonical_healAt {s : State} (h : Canonical s) (l : Loc) (n : Nat) : Canonical (healAt s l n) := by
  unfold healAt
  split
  · exact h
  · exact canonical_same h ⟨rfl, rfl, rfl, rfl, rfl⟩ rfl rfl

theorem canonical_acceptLines {s : State} (h : Canonical s) (l : List (Nat × Nat)) : Canonical (acceptLines s l) :=
  canonical_foldl (fun _ _ h => canonical_modCore h _ _) l h

theorem canonical_countEvent {s : State} (h : Canonical s) (core code : Nat) : Canonical (countEvent s core code) := by
  unfold countEvent
  split
  · exact h
  · dsimp only
    split
    · exact canonical_modCore h _ _
    · exact canonical_modDie (canonical_modCore h _ _) _ _

theorem canonical_countDieBy {s : State} (h : Canonical s) (die code n : Nat) : Canonical (countDieBy s die code n) := by
  unfold countDieBy
  split
  · exact h
  · exact canonical_modDie h _ _

/-! ### Stacked memory -/

/-- A store to a scratchpad. -/
theorem canonical_writeScratch {s : State} (h : Canonical s) (team off : Nat) (b : List Byte) : Canonical (writeScratch s team off b) := by
  unfold writeScratch
  split
  · rename_i t ht
    have hc := canonical_team h ht
    exact canonical_acceptLines (canonical_putTeam (t := { t with scratch := writeBytes t.scratch off b }) (canonical_healAt h _ _)
      ⟨wf_writeBytes hc.1 off b, hc.2⟩) _
  · exact h

theorem canonical_modTeam {s : State} (h : Canonical s) (n : Nat) {f : Team → Team} (hf : ∀ t, TeamCanonical t → TeamCanonical (f t)) :
    Canonical (modTeam s n f) := by
  refine canonical_teams h fun u hu => ?_
  obtain ⟨v, hv, rfl⟩ := List.mem_map.1 hu
  have := ((canonical_iff s).1 h).2.1 v hv
  split
  · exact hf v this
  · exact this

theorem canonical_clearPresence {s : State} (h : Canonical s) (team line : Nat) : Canonical (clearPresence s team line) :=
  canonical_modTeam h _ fun _ ht => ht
theorem canonical_setPresence {s : State} (h : Canonical s) (team line : Nat) : Canonical (setPresence s team line) :=
  canonical_modTeam h _ fun _ ht => ht

/-! ### Lines that leave an L1 or a slice -/

theorem canonical_cleanSlice {s : State} (h : Canonical s) (q : Nat) (l : SliceLine) : Canonical (cleanSlice s q l) := by
  unfold cleanSlice
  split
  · exact h
  · exact canonical_modQuad (canonical_owe (canonical_homeMasked h _ _ _ _) _ _) _ _

theorem canonical_writeBackLine {s : State} (h : Canonical s) (core : Nat) (l : L1Line) : Canonical (writeBackLine s core l) := by
  unfold writeBackLine
  split
  · exact h
  · dsimp only
    split
    · exact canonical_owe (canonical_homeMasked h _ _ _ _) _ _
    · exact canonical_modQuad h _ _

theorem canonical_cleanLine {s : State} (h : Canonical s) (core : Nat) (l : L1Line) : Canonical (cleanLine s core l) :=
  canonical_modCore (canonical_writeBackLine h core l) _ _
theorem canonical_evictLine {s : State} (h : Canonical s) (core : Nat) (l : L1Line) : Canonical (evictLine s core l) :=
  canonical_modCore (canonical_writeBackLine h core l) _ _

/-- Steps 2 to 4 of a release. -/
theorem canonical_writeBackAll {s : State} (h : Canonical s) (core : Nat) (wide : Bool) : Canonical (writeBackAll s core wide).2 := by
  unfold writeBackAll
  dsimp only
  split
  · exact canonical_modCore (canonical_foldl (fun _ _ h => canonical_cleanSlice h _ _) _
      (canonical_foldl (fun _ _ h => canonical_cleanLine h _ _) _ h)) _ _
  · exact canonical_foldl (fun _ _ h => canonical_cleanSlice h _ _) _ (canonical_foldl (fun _ _ h => canonical_cleanLine h _ _) _ h)

theorem canonical_promote {s : State} (h : Canonical s) (core : Nat) : Canonical (promote s core) :=
  canonical_tellPart (canonical_writeBackAll h core true) _ _

theorem canonical_setOwner {s : State} (h : Canonical s) (ty : MemType) (line core : Nat) : Canonical (setOwner s ty line core) :=
  canonical_same h ⟨rfl, rfl, rfl, rfl, rfl⟩ rfl rfl

theorem canonical_dropOwner {s : State} (h : Canonical s) (ty : MemType) (line : Nat) : Canonical (dropOwner s ty line) := by
  unfold dropOwner
  split
  · exact canonical_same (canonical_foldl (fun _ _ h => canonical_promote h _) _ h) ⟨rfl, rfl, rfl, rfl, rfl⟩ rfl rfl
  · exact h

theorem canonical_evictAbove {s : State} (h : Canonical s) (cores : List Nat) (l : SliceLine) : Canonical (evictAbove s cores l) :=
  canonical_foldl (fun _ _ h => canonical_foldl (fun _ _ h => canonical_evictLine h _ _) _ h) _ h

theorem canonical_evictSliceLine {s : State} (h : Canonical s) (q : Nat) (l : SliceLine) : Canonical (evictSliceLine s q l) := by
  unfold evictSliceLine
  split
  · exact canonical_modQuad (canonical_evictAbove (canonical_dropOwner h _ _) _ _) _ _
  · refine canonical_modQuad ?_ _ _
    split
    · exact canonical_cleanSlice (canonical_evictAbove h _ _) _ _
    · exact canonical_evictAbove h _ _

theorem canonical_makeRoom {s : State} (h : Canonical s) (q : Nat) : Canonical (makeRoom s q) := by
  unfold makeRoom
  split
  · split
    · exact canonical_evictSliceLine h _ _
    · exact h
  · exact h

theorem canonical_holdHome {s : State} (h : Canonical s) (core : Nat) (ty : MemType) (pa va : Nat) : Canonical (holdHome s core ty pa va) := by
  unfold holdHome
  split
  · exact h
  · split
    · exact h
    · exact canonical_modQuad (canonical_countDieBy (canonical_makeRoom h _) _ _ _) _ _

theorem canonical_holdSlice {s : State} (h : Canonical s) (core : Nat) (ty : MemType) (line va : Nat) :
    Canonical (holdSlice s core ty line va) := by
  unfold holdSlice
  dsimp only
  split
  · exact h
  · exact canonical_modQuad (canonical_countDieBy (canonical_makeRoom (canonical_holdHome h _ _ _ _) _) _ _ _) _ _

theorem canonical_dropHinted {s : State} (h : Canonical s) (core : Nat) (ty : MemType) (line : Nat) (ro : Bool) :
    Canonical (dropHinted s core ty line ro) := by
  unfold dropHinted
  split
  · split
    · exact canonical_modCore h _ _
    · exact h
  · exact h

theorem canonical_makeRoomL1 {s : State} (h : Canonical s) (core : Nat) : Canonical (makeRoomL1 s core) := by
  unfold makeRoomL1
  split
  · split
    · exact canonical_evictLine h _ _
    · exact h
  · exact h

theorem canonical_holdLine {s : State} (h : Canonical s) (core : Nat) (ty : MemType) (pa va : Nat) (ro : Bool) :
    Canonical (holdLine s core ty pa va ro) := by
  have h := canonical_dropHinted h core ty (pa / 64) ro
  unfold holdLine
  dsimp only
  split
  · exact h
  · have h := canonical_countEvent (canonical_makeRoomL1 h core) core 4
    split
    · exact canonical_modCore (canonical_holdHome h _ _ _ _) _ _
    · exact canonical_modCore (canonical_holdSlice h _ _ _ _) _ _

theorem canonical_evictL1 {s : State} (h : Canonical s) (core : Nat) (ty : MemType) (line : Nat) : Canonical (evictL1 s core ty line) := by
  unfold evictL1
  split
  · exact canonical_evictLine h _ _
  · exact h

theorem canonical_dropOwn {s : State} (h : Canonical s) (core : Nat) (ty : MemType) (pa : Nat) : Canonical (dropOwn s core ty pa) := by
  have h := canonical_evictL1 h core ty (pa / 64)
  unfold dropOwn
  dsimp only
  split
  · exact canonical_evictSliceLine h _ _
  · exact h

/-! ### Update-only copies -/

theorem canonical_combineLane {s : State} (h : Canonical s) (core : Nat) (op : AtomOp) (t : Ty) (a : AtomAcc) :
    Canonical (combineLane s core op t a) := by
  unfold combineLane
  split
  · exact canonical_owe (canonical_homeWrite (canonical_dropOwn h _ _ _) _ _ _) _ _
  · exact h

theorem canonical_combineOp {s : State} (h : Canonical s) (pick : Loc → Bool) (o : Op) : Canonical (combineOp pick s o) := by
  unfold combineOp
  split
  · rename_i op t accs _ _ _ _ _ _ _
    have h := canonical_foldl (fun _ a h => canonical_combineLane h o.core op t a) (accs.filter fun a => pick a.loc) h
    dsimp only
    split
    · assumption
    · split
      · exact canonical_opDone h _
      · exact canonical_putOp h _
  · exact h

theorem canonical_combineLine {s : State} (h : Canonical s) (core : Nat) (ty : MemType) (line : Nat) :
    Canonical (combineLine s core ty line) := canonical_foldl (fun _ _ h => canonical_combineOp h _ _) _ h
theorem canonical_combineCore {s : State} (h : Canonical s) (core : Nat) : Canonical (combineCore s core) :=
  canonical_foldl (fun _ _ h => canonical_combineOp h _ _) _ h

/-! ### Accesses, releases and acquires -/

/-- A block of a ring written over. -/
theorem canonical_modBlock {s : State} (h : Canonical s) (part tr tile : Nat) {f : Block → Block}
    (hf : ∀ b, b.mem.wf = true → (f b).mem.wf = true) : Canonical (modBlock s part tr tile f) := by
  refine canonical_parts h fun p hp => ?_
  obtain ⟨p0, hp0, rfl⟩ := List.mem_map.1 hp
  have old0 := ((canonical_iff s).1 h).2.2 p0 hp0
  split
  · intro g hg t ht b hb
    obtain ⟨g0, hg0, rfl⟩ := Option.map_eq_some_iff.1 hg
    have old := old0 g0 hg0
    obtain ⟨n, hn, rfl⟩ := List.mem_iff_getElem.1 ht
    simp only [List.getElem_modify] at hb
    simp only [List.length_modify] at hn
    split at hb
    · obtain ⟨b0, hb0, rfl⟩ := List.mem_map.1 hb
      have := old _ (List.getElem_mem hn) b0 hb0
      split
      · exact hf _ this
      · exact this
    · exact old _ (List.getElem_mem hn) b hb
  · exact old0

theorem canonical_loadLoc {s : State} (h : Canonical s) (core : Nat) (l : Loc) (n scope : Nat) (ro : Bool) :
    Canonical (loadLoc s core l n scope ro).2 := by
  unfold loadLoc
  split
  · rename_i ty pa va
    have h := canonical_combineLine h core ty (pa / 64)
    dsimp only
    split
    · exact h
    · split
      · have h := canonical_holdLine h core ty pa va ro
        split <;> exact h
      · exact canonical_holdHome (canonical_dropOwn h _ _ _) _ _ _ _
  · exact h
  · split <;> exact h
  · exact h

theorem canonical_writeLine {s : State} (h : Canonical s) (core : Nat) (ty : MemType) (pa : Nat) (b : List Byte) :
    Canonical (writeLine s core ty pa b) := by
  unfold writeLine
  split
  · exact canonical_homeWrite h _ _ _
  · refine canonical_modCore ?_ _ _
    split
    · exact canonical_setOwner h _ _ _
    · exact h

/-- A store to a place of its own team, ring or memory. -/
theorem canonical_storeLoc {s : State} (h : Canonical s) (core : Nat) (l : Loc) (b : List Byte) (scope : Nat) (na : Bool) :
    Canonical (storeLoc s core l b scope na) := by
  unfold storeLoc
  split
  · rename_i ty pa va
    have h := canonical_combineLine (canonical_healAt h (.page ty pa va) b.length) core ty (pa / 64)
    dsimp only
    split
    · exact canonical_homeWrite h _ _ _
    · split
      · exact canonical_tellPart (canonical_homeWrite (canonical_dropOwn h _ _ _) _ _ _) _ _
      · split
        · exact canonical_writeLine (canonical_holdLine h _ _ _ _ _) _ _ _ _
        · exact canonical_owe (canonical_homeWrite (canonical_holdHome (canonical_dropOwn h _ _ _) _ _ _ _) _ _ _) _ _
  · exact canonical_writeScratch h _ _ _
  · rename_i part tr tile off
    split
    · rename_i blk hb
      refine canonical_acceptLines (canonical_modBlock (canonical_healAt h _ _) _ _ _ fun _ _ => wf_writeBytes ?_ _ _) _
      unfold findBlock at hb
      split at hb
      · rename_i p hp
        split at hb
        · rename_i g hg
          split at hb
          · rename_i t ht
            exact canonical_part h hp g hg t (List.mem_of_getElem? ht) blk (List.mem_of_find?_eq_some hb)
          · cases hb
        · cases hb
      · cases hb
    · exact h
  · exact h

theorem canonical_atomAt {s : State} (h : Canonical s) (core : Nat) (op : AtomOp) (t : Ty) (a : AtomAcc) (near : Bool) :
    Canonical (atomAt s core op t a near).2 := canonical_storeLoc (canonical_loadLoc h _ _ _ _ _) _ _ _ _ _

theorem canonical_releaseFrom {s : State} (h : Canonical s) (core part team scope : Nat) : Canonical (releaseFrom s core part team scope) := by
  have h := canonical_combineCore h core
  unfold releaseFrom
  dsimp only
  split
  · exact h
  · exact canonical_publish (canonical_writeBackAll h _ _) _ _

theorem canonical_acquireAt {s : State} (h : Canonical s) (core scope : Nat) : Canonical (acquireAt s core scope) := by
  unfold acquireAt
  dsimp only
  split
  · exact h
  · refine canonical_foldl (fun _ _ h => canonical_evictSliceLine h _ _) _ ?_
    refine canonical_foldl (fun u l hu => ?_) _ (canonical_modCore h _ _)
    split
    · exact canonical_evictLine hu _ _
    · exact canonical_evictLine (canonical_countEvent hu _ _) _ _

end Sys2Proof.Machine
end

