-- ==== Sys2Proof/Laws/Host.lean ====
section
/-! SUPPORT. What the shared operations of the host's acts come to: a register write that reaches its partition, and a
command that the mailbox takes (25 R375). -/

namespace Sys2Proof.Machine

theorem hostWrite_reaches {s : State} {n : Nat} {p : Partition} (h : HostReaches s n p) (f : Partition → State) : hostWrite s n f = f p := by
  obtain ⟨h1, h2, h3⟩ := h
  simp [hostWrite, h1, h2, h3]

/-- The mailbox of a function with a command written to it. -/
def commandWritten (s : State) (fn code : Nat) (a : MArgs) : State :=
  modFunc s fn fun f => { f with marg := [a.m0, a.m1, a.m2, a.m3], mcmd := BitVec.ofNat 8 code, status := 1 }

/-- A command that is taken does what its own definition says. -/
theorem command_ready {s : State} {fn code : Nat} (a : MArgs) (run : State → CmdResult) (h : CommandReady s fn code) :
    command code fn a s run = match run (commandWritten s fn code a) with
      | .done s => completeCommand s fn succeeded
      | .refused r => completeCommand (commandWritten s fn code a) fn (refusedFor r)
      | .busy s => s := by
  obtain ⟨h1, h2, h3, h4, h5, h6, h7⟩ := h
  unfold command
  rw [if_neg, if_neg h7]
  · dsimp only
    rw [if_neg, if_neg]
    · rfl
    · rcases h6 with h6 | h6
      · simp [h6]
      · simp [h6.2]
    · intro hc
      simp only [Bool.and_eq_true, Bool.not_eq_true'] at hc
      exact absurd (h3.symm.trans hc.1) (by decide)
  · rcases h6 with h6 | h6
    · simp [h1, h2, h6]
    · have hn : (findPart s (fn - 1)).isNone = false := by cases hf : findPart s (fn - 1) <;> simp [hf] at h6 ⊢
      simp [h1, h2, h4, hn]

/-- An instruction that is executed while nothing issues stops. -/
theorem issueBoth_idle {i : Instr} {s : State} (h : s.cur = none) (eff : State → Group → Cur → State)
    (ctl : State → Thread → Cur → State) : issueBoth i s eff ctl = .fault .noIssuer := by
  simp [issueBoth, h]

end Sys2Proof.Machine
end

