-- ==== Sys2Proof/Laws/State.lean ====
section
/-! SUPPORT. Each field of the state, and of a group, after each update of them: what the update leaves alone. -/

namespace Sys2Proof.Machine

/-! ### putGroup -/

@[simp] theorem putGroup_powered (s : State) (g : Group) : (putGroup s g).powered = s.powered := rfl
@[simp] theorem putGroup_booted (s : State) (g : Group) : (putGroup s g).booted = s.booted := rfl
@[simp] theorem putGroup_bootstat (s : State) (g : Group) : (putGroup s g).bootstat = s.bootstat := rfl
@[simp] theorem putGroup_linkUp (s : State) (g : Group) : (putGroup s g).linkUp = s.linkUp := rfl
@[simp] theorem putGroup_fused (s : State) (g : Group) : (putGroup s g).fused = s.fused := rfl
@[simp] theorem putGroup_fwHash (s : State) (g : Group) : (putGroup s g).fwHash = s.fwHash := rfl
@[simp] theorem putGroup_fwVersion (s : State) (g : Group) : (putGroup s g).fwVersion = s.fwVersion := rfl
@[simp] theorem putGroup_now (s : State) (g : Group) : (putGroup s g).now = s.now := rfl
@[simp] theorem putGroup_dies (s : State) (g : Group) : (putGroup s g).dies = s.dies := rfl
@[simp] theorem putGroup_cores (s : State) (g : Group) : (putGroup s g).cores = s.cores := rfl
@[simp] theorem putGroup_quads (s : State) (g : Group) : (putGroup s g).quads = s.quads := rfl
@[simp] theorem putGroup_parts (s : State) (g : Group) : (putGroup s g).parts = s.parts := rfl
@[simp] theorem putGroup_grids (s : State) (g : Group) : (putGroup s g).grids = s.grids := rfl
@[simp] theorem putGroup_jobs (s : State) (g : Group) : (putGroup s g).jobs = s.jobs := rfl
@[simp] theorem putGroup_teams (s : State) (g : Group) : (putGroup s g).teams = s.teams := rfl
@[simp] theorem putGroup_threads (s : State) (g : Group) : (putGroup s g).threads = s.threads := rfl
@[simp] theorem putGroup_ops (s : State) (g : Group) : (putGroup s g).ops = s.ops := rfl
@[simp] theorem putGroup_homes (s : State) (g : Group) : (putGroup s g).homes = s.homes := rfl
@[simp] theorem putGroup_posted (s : State) (g : Group) : (putGroup s g).posted = s.posted := rfl
@[simp] theorem putGroup_bad (s : State) (g : Group) : (putGroup s g).bad = s.bad := rfl
@[simp] theorem putGroup_funcs (s : State) (g : Group) : (putGroup s g).funcs = s.funcs := rfl
@[simp] theorem putGroup_gddr (s : State) (g : Group) : (putGroup s g).gddr = s.gddr := rfl
@[simp] theorem putGroup_hostMem (s : State) (g : Group) : (putGroup s g).hostMem = s.hostMem := rfl
@[simp] theorem putGroup_peerMem (s : State) (g : Group) : (putGroup s g).peerMem = s.peerMem := rfl
@[simp] theorem putGroup_nvme (s : State) (g : Group) : (putGroup s g).nvme = s.nvme := rfl
@[simp] theorem putGroup_nvmePresent (s : State) (g : Group) : (putGroup s g).nvmePresent = s.nvmePresent := rfl
@[simp] theorem putGroup_flash (s : State) (g : Group) : (putGroup s g).flash = s.flash := rfl
@[simp] theorem putGroup_agenda (s : State) (g : Group) : (putGroup s g).agenda = s.agenda := rfl
@[simp] theorem putGroup_cur (s : State) (g : Group) : (putGroup s g).cur = s.cur := rfl
@[simp] theorem putGroup_fresh (s : State) (g : Group) : (putGroup s g).fresh = s.fresh := rfl
@[simp] theorem putGroup_nextId (s : State) (g : Group) : (putGroup s g).nextId = s.nextId := rfl
@[simp] theorem putGroup_turn (s : State) (g : Group) : (putGroup s g).turn = s.turn := rfl

/-! ### putTeam -/

@[simp] theorem putTeam_powered (s : State) (t : Team) : (putTeam s t).powered = s.powered := rfl
@[simp] theorem putTeam_booted (s : State) (t : Team) : (putTeam s t).booted = s.booted := rfl
@[simp] theorem putTeam_bootstat (s : State) (t : Team) : (putTeam s t).bootstat = s.bootstat := rfl
@[simp] theorem putTeam_linkUp (s : State) (t : Team) : (putTeam s t).linkUp = s.linkUp := rfl
@[simp] theorem putTeam_fused (s : State) (t : Team) : (putTeam s t).fused = s.fused := rfl
@[simp] theorem putTeam_fwHash (s : State) (t : Team) : (putTeam s t).fwHash = s.fwHash := rfl
@[simp] theorem putTeam_fwVersion (s : State) (t : Team) : (putTeam s t).fwVersion = s.fwVersion := rfl
@[simp] theorem putTeam_now (s : State) (t : Team) : (putTeam s t).now = s.now := rfl
@[simp] theorem putTeam_dies (s : State) (t : Team) : (putTeam s t).dies = s.dies := rfl
@[simp] theorem putTeam_cores (s : State) (t : Team) : (putTeam s t).cores = s.cores := rfl
@[simp] theorem putTeam_quads (s : State) (t : Team) : (putTeam s t).quads = s.quads := rfl
@[simp] theorem putTeam_parts (s : State) (t : Team) : (putTeam s t).parts = s.parts := rfl
@[simp] theorem putTeam_grids (s : State) (t : Team) : (putTeam s t).grids = s.grids := rfl
@[simp] theorem putTeam_jobs (s : State) (t : Team) : (putTeam s t).jobs = s.jobs := rfl
@[simp] theorem putTeam_groups (s : State) (t : Team) : (putTeam s t).groups = s.groups := rfl
@[simp] theorem putTeam_threads (s : State) (t : Team) : (putTeam s t).threads = s.threads := rfl
@[simp] theorem putTeam_ops (s : State) (t : Team) : (putTeam s t).ops = s.ops := rfl
@[simp] theorem putTeam_homes (s : State) (t : Team) : (putTeam s t).homes = s.homes := rfl
@[simp] theorem putTeam_posted (s : State) (t : Team) : (putTeam s t).posted = s.posted := rfl
@[simp] theorem putTeam_bad (s : State) (t : Team) : (putTeam s t).bad = s.bad := rfl
@[simp] theorem putTeam_funcs (s : State) (t : Team) : (putTeam s t).funcs = s.funcs := rfl
@[simp] theorem putTeam_gddr (s : State) (t : Team) : (putTeam s t).gddr = s.gddr := rfl
@[simp] theorem putTeam_hostMem (s : State) (t : Team) : (putTeam s t).hostMem = s.hostMem := rfl
@[simp] theorem putTeam_peerMem (s : State) (t : Team) : (putTeam s t).peerMem = s.peerMem := rfl
@[simp] theorem putTeam_nvme (s : State) (t : Team) : (putTeam s t).nvme = s.nvme := rfl
@[simp] theorem putTeam_nvmePresent (s : State) (t : Team) : (putTeam s t).nvmePresent = s.nvmePresent := rfl
@[simp] theorem putTeam_flash (s : State) (t : Team) : (putTeam s t).flash = s.flash := rfl
@[simp] theorem putTeam_agenda (s : State) (t : Team) : (putTeam s t).agenda = s.agenda := rfl
@[simp] theorem putTeam_cur (s : State) (t : Team) : (putTeam s t).cur = s.cur := rfl
@[simp] theorem putTeam_fresh (s : State) (t : Team) : (putTeam s t).fresh = s.fresh := rfl
@[simp] theorem putTeam_nextId (s : State) (t : Team) : (putTeam s t).nextId = s.nextId := rfl
@[simp] theorem putTeam_turn (s : State) (t : Team) : (putTeam s t).turn = s.turn := rfl

/-! ### putThread -/

@[simp] theorem putThread_powered (s : State) (t : Thread) : (putThread s t).powered = s.powered := rfl
@[simp] theorem putThread_booted (s : State) (t : Thread) : (putThread s t).booted = s.booted := rfl
@[simp] theorem putThread_bootstat (s : State) (t : Thread) : (putThread s t).bootstat = s.bootstat := rfl
@[simp] theorem putThread_linkUp (s : State) (t : Thread) : (putThread s t).linkUp = s.linkUp := rfl
@[simp] theorem putThread_fused (s : State) (t : Thread) : (putThread s t).fused = s.fused := rfl
@[simp] theorem putThread_fwHash (s : State) (t : Thread) : (putThread s t).fwHash = s.fwHash := rfl
@[simp] theorem putThread_fwVersion (s : State) (t : Thread) : (putThread s t).fwVersion = s.fwVersion := rfl
@[simp] theorem putThread_now (s : State) (t : Thread) : (putThread s t).now = s.now := rfl
@[simp] theorem putThread_dies (s : State) (t : Thread) : (putThread s t).dies = s.dies := rfl
@[simp] theorem putThread_cores (s : State) (t : Thread) : (putThread s t).cores = s.cores := rfl
@[simp] theorem putThread_quads (s : State) (t : Thread) : (putThread s t).quads = s.quads := rfl
@[simp] theorem putThread_parts (s : State) (t : Thread) : (putThread s t).parts = s.parts := rfl
@[simp] theorem putThread_grids (s : State) (t : Thread) : (putThread s t).grids = s.grids := rfl
@[simp] theorem putThread_jobs (s : State) (t : Thread) : (putThread s t).jobs = s.jobs := rfl
@[simp] theorem putThread_teams (s : State) (t : Thread) : (putThread s t).teams = s.teams := rfl
@[simp] theorem putThread_groups (s : State) (t : Thread) : (putThread s t).groups = s.groups := rfl
@[simp] theorem putThread_ops (s : State) (t : Thread) : (putThread s t).ops = s.ops := rfl
@[simp] theorem putThread_homes (s : State) (t : Thread) : (putThread s t).homes = s.homes := rfl
@[simp] theorem putThread_posted (s : State) (t : Thread) : (putThread s t).posted = s.posted := rfl
@[simp] theorem putThread_bad (s : State) (t : Thread) : (putThread s t).bad = s.bad := rfl
@[simp] theorem putThread_funcs (s : State) (t : Thread) : (putThread s t).funcs = s.funcs := rfl
@[simp] theorem putThread_gddr (s : State) (t : Thread) : (putThread s t).gddr = s.gddr := rfl
@[simp] theorem putThread_hostMem (s : State) (t : Thread) : (putThread s t).hostMem = s.hostMem := rfl
@[simp] theorem putThread_peerMem (s : State) (t : Thread) : (putThread s t).peerMem = s.peerMem := rfl
@[simp] theorem putThread_nvme (s : State) (t : Thread) : (putThread s t).nvme = s.nvme := rfl
@[simp] theorem putThread_nvmePresent (s : State) (t : Thread) : (putThread s t).nvmePresent = s.nvmePresent := rfl
@[simp] theorem putThread_flash (s : State) (t : Thread) : (putThread s t).flash = s.flash := rfl
@[simp] theorem putThread_agenda (s : State) (t : Thread) : (putThread s t).agenda = s.agenda := rfl
@[simp] theorem putThread_cur (s : State) (t : Thread) : (putThread s t).cur = s.cur := rfl
@[simp] theorem putThread_fresh (s : State) (t : Thread) : (putThread s t).fresh = s.fresh := rfl
@[simp] theorem putThread_nextId (s : State) (t : Thread) : (putThread s t).nextId = s.nextId := rfl
@[simp] theorem putThread_turn (s : State) (t : Thread) : (putThread s t).turn = s.turn := rfl

/-! ### putPart -/

@[simp] theorem putPart_powered (s : State) (p : Partition) : (putPart s p).powered = s.powered := rfl
@[simp] theorem putPart_booted (s : State) (p : Partition) : (putPart s p).booted = s.booted := rfl
@[simp] theorem putPart_bootstat (s : State) (p : Partition) : (putPart s p).bootstat = s.bootstat := rfl
@[simp] theorem putPart_linkUp (s : State) (p : Partition) : (putPart s p).linkUp = s.linkUp := rfl
@[simp] theorem putPart_fused (s : State) (p : Partition) : (putPart s p).fused = s.fused := rfl
@[simp] theorem putPart_fwHash (s : State) (p : Partition) : (putPart s p).fwHash = s.fwHash := rfl
@[simp] theorem putPart_fwVersion (s : State) (p : Partition) : (putPart s p).fwVersion = s.fwVersion := rfl
@[simp] theorem putPart_now (s : State) (p : Partition) : (putPart s p).now = s.now := rfl
@[simp] theorem putPart_dies (s : State) (p : Partition) : (putPart s p).dies = s.dies := rfl
@[simp] theorem putPart_cores (s : State) (p : Partition) : (putPart s p).cores = s.cores := rfl
@[simp] theorem putPart_quads (s : State) (p : Partition) : (putPart s p).quads = s.quads := rfl
@[simp] theorem putPart_grids (s : State) (p : Partition) : (putPart s p).grids = s.grids := rfl
@[simp] theorem putPart_jobs (s : State) (p : Partition) : (putPart s p).jobs = s.jobs := rfl
@[simp] theorem putPart_teams (s : State) (p : Partition) : (putPart s p).teams = s.teams := rfl
@[simp] theorem putPart_groups (s : State) (p : Partition) : (putPart s p).groups = s.groups := rfl
@[simp] theorem putPart_threads (s : State) (p : Partition) : (putPart s p).threads = s.threads := rfl
@[simp] theorem putPart_ops (s : State) (p : Partition) : (putPart s p).ops = s.ops := rfl
@[simp] theorem putPart_homes (s : State) (p : Partition) : (putPart s p).homes = s.homes := rfl
@[simp] theorem putPart_posted (s : State) (p : Partition) : (putPart s p).posted = s.posted := rfl
@[simp] theorem putPart_bad (s : State) (p : Partition) : (putPart s p).bad = s.bad := rfl
@[simp] theorem putPart_funcs (s : State) (p : Partition) : (putPart s p).funcs = s.funcs := rfl
@[simp] theorem putPart_gddr (s : State) (p : Partition) : (putPart s p).gddr = s.gddr := rfl
@[simp] theorem putPart_hostMem (s : State) (p : Partition) : (putPart s p).hostMem = s.hostMem := rfl
@[simp] theorem putPart_peerMem (s : State) (p : Partition) : (putPart s p).peerMem = s.peerMem := rfl
@[simp] theorem putPart_nvme (s : State) (p : Partition) : (putPart s p).nvme = s.nvme := rfl
@[simp] theorem putPart_nvmePresent (s : State) (p : Partition) : (putPart s p).nvmePresent = s.nvmePresent := rfl
@[simp] theorem putPart_flash (s : State) (p : Partition) : (putPart s p).flash = s.flash := rfl
@[simp] theorem putPart_agenda (s : State) (p : Partition) : (putPart s p).agenda = s.agenda := rfl
@[simp] theorem putPart_cur (s : State) (p : Partition) : (putPart s p).cur = s.cur := rfl
@[simp] theorem putPart_fresh (s : State) (p : Partition) : (putPart s p).fresh = s.fresh := rfl
@[simp] theorem putPart_nextId (s : State) (p : Partition) : (putPart s p).nextId = s.nextId := rfl
@[simp] theorem putPart_turn (s : State) (p : Partition) : (putPart s p).turn = s.turn := rfl

/-! ### putGrid -/

@[simp] theorem putGrid_powered (s : State) (g : Grid) : (putGrid s g).powered = s.powered := rfl
@[simp] theorem putGrid_booted (s : State) (g : Grid) : (putGrid s g).booted = s.booted := rfl
@[simp] theorem putGrid_bootstat (s : State) (g : Grid) : (putGrid s g).bootstat = s.bootstat := rfl
@[simp] theorem putGrid_linkUp (s : State) (g : Grid) : (putGrid s g).linkUp = s.linkUp := rfl
@[simp] theorem putGrid_fused (s : State) (g : Grid) : (putGrid s g).fused = s.fused := rfl
@[simp] theorem putGrid_fwHash (s : State) (g : Grid) : (putGrid s g).fwHash = s.fwHash := rfl
@[simp] theorem putGrid_fwVersion (s : State) (g : Grid) : (putGrid s g).fwVersion = s.fwVersion := rfl
@[simp] theorem putGrid_now (s : State) (g : Grid) : (putGrid s g).now = s.now := rfl
@[simp] theorem putGrid_dies (s : State) (g : Grid) : (putGrid s g).dies = s.dies := rfl
@[simp] theorem putGrid_cores (s : State) (g : Grid) : (putGrid s g).cores = s.cores := rfl
@[simp] theorem putGrid_quads (s : State) (g : Grid) : (putGrid s g).quads = s.quads := rfl
@[simp] theorem putGrid_parts (s : State) (g : Grid) : (putGrid s g).parts = s.parts := rfl
@[simp] theorem putGrid_jobs (s : State) (g : Grid) : (putGrid s g).jobs = s.jobs := rfl
@[simp] theorem putGrid_teams (s : State) (g : Grid) : (putGrid s g).teams = s.teams := rfl
@[simp] theorem putGrid_groups (s : State) (g : Grid) : (putGrid s g).groups = s.groups := rfl
@[simp] theorem putGrid_threads (s : State) (g : Grid) : (putGrid s g).threads = s.threads := rfl
@[simp] theorem putGrid_ops (s : State) (g : Grid) : (putGrid s g).ops = s.ops := rfl
@[simp] theorem putGrid_homes (s : State) (g : Grid) : (putGrid s g).homes = s.homes := rfl
@[simp] theorem putGrid_posted (s : State) (g : Grid) : (putGrid s g).posted = s.posted := rfl
@[simp] theorem putGrid_bad (s : State) (g : Grid) : (putGrid s g).bad = s.bad := rfl
@[simp] theorem putGrid_funcs (s : State) (g : Grid) : (putGrid s g).funcs = s.funcs := rfl
@[simp] theorem putGrid_gddr (s : State) (g : Grid) : (putGrid s g).gddr = s.gddr := rfl
@[simp] theorem putGrid_hostMem (s : State) (g : Grid) : (putGrid s g).hostMem = s.hostMem := rfl
@[simp] theorem putGrid_peerMem (s : State) (g : Grid) : (putGrid s g).peerMem = s.peerMem := rfl
@[simp] theorem putGrid_nvme (s : State) (g : Grid) : (putGrid s g).nvme = s.nvme := rfl
@[simp] theorem putGrid_nvmePresent (s : State) (g : Grid) : (putGrid s g).nvmePresent = s.nvmePresent := rfl
@[simp] theorem putGrid_flash (s : State) (g : Grid) : (putGrid s g).flash = s.flash := rfl
@[simp] theorem putGrid_agenda (s : State) (g : Grid) : (putGrid s g).agenda = s.agenda := rfl
@[simp] theorem putGrid_cur (s : State) (g : Grid) : (putGrid s g).cur = s.cur := rfl
@[simp] theorem putGrid_fresh (s : State) (g : Grid) : (putGrid s g).fresh = s.fresh := rfl
@[simp] theorem putGrid_nextId (s : State) (g : Grid) : (putGrid s g).nextId = s.nextId := rfl
@[simp] theorem putGrid_turn (s : State) (g : Grid) : (putGrid s g).turn = s.turn := rfl

/-! ### putOp -/

@[simp] theorem putOp_powered (s : State) (o : Op) : (putOp s o).powered = s.powered := rfl
@[simp] theorem putOp_booted (s : State) (o : Op) : (putOp s o).booted = s.booted := rfl
@[simp] theorem putOp_bootstat (s : State) (o : Op) : (putOp s o).bootstat = s.bootstat := rfl
@[simp] theorem putOp_linkUp (s : State) (o : Op) : (putOp s o).linkUp = s.linkUp := rfl
@[simp] theorem putOp_fused (s : State) (o : Op) : (putOp s o).fused = s.fused := rfl
@[simp] theorem putOp_fwHash (s : State) (o : Op) : (putOp s o).fwHash = s.fwHash := rfl
@[simp] theorem putOp_fwVersion (s : State) (o : Op) : (putOp s o).fwVersion = s.fwVersion := rfl
@[simp] theorem putOp_now (s : State) (o : Op) : (putOp s o).now = s.now := rfl
@[simp] theorem putOp_dies (s : State) (o : Op) : (putOp s o).dies = s.dies := rfl
@[simp] theorem putOp_cores (s : State) (o : Op) : (putOp s o).cores = s.cores := rfl
@[simp] theorem putOp_quads (s : State) (o : Op) : (putOp s o).quads = s.quads := rfl
@[simp] theorem putOp_parts (s : State) (o : Op) : (putOp s o).parts = s.parts := rfl
@[simp] theorem putOp_grids (s : State) (o : Op) : (putOp s o).grids = s.grids := rfl
@[simp] theorem putOp_jobs (s : State) (o : Op) : (putOp s o).jobs = s.jobs := rfl
@[simp] theorem putOp_teams (s : State) (o : Op) : (putOp s o).teams = s.teams := rfl
@[simp] theorem putOp_groups (s : State) (o : Op) : (putOp s o).groups = s.groups := rfl
@[simp] theorem putOp_threads (s : State) (o : Op) : (putOp s o).threads = s.threads := rfl
@[simp] theorem putOp_homes (s : State) (o : Op) : (putOp s o).homes = s.homes := rfl
@[simp] theorem putOp_posted (s : State) (o : Op) : (putOp s o).posted = s.posted := rfl
@[simp] theorem putOp_bad (s : State) (o : Op) : (putOp s o).bad = s.bad := rfl
@[simp] theorem putOp_funcs (s : State) (o : Op) : (putOp s o).funcs = s.funcs := rfl
@[simp] theorem putOp_gddr (s : State) (o : Op) : (putOp s o).gddr = s.gddr := rfl
@[simp] theorem putOp_hostMem (s : State) (o : Op) : (putOp s o).hostMem = s.hostMem := rfl
@[simp] theorem putOp_peerMem (s : State) (o : Op) : (putOp s o).peerMem = s.peerMem := rfl
@[simp] theorem putOp_nvme (s : State) (o : Op) : (putOp s o).nvme = s.nvme := rfl
@[simp] theorem putOp_nvmePresent (s : State) (o : Op) : (putOp s o).nvmePresent = s.nvmePresent := rfl
@[simp] theorem putOp_flash (s : State) (o : Op) : (putOp s o).flash = s.flash := rfl
@[simp] theorem putOp_agenda (s : State) (o : Op) : (putOp s o).agenda = s.agenda := rfl
@[simp] theorem putOp_cur (s : State) (o : Op) : (putOp s o).cur = s.cur := rfl
@[simp] theorem putOp_fresh (s : State) (o : Op) : (putOp s o).fresh = s.fresh := rfl
@[simp] theorem putOp_nextId (s : State) (o : Op) : (putOp s o).nextId = s.nextId := rfl
@[simp] theorem putOp_turn (s : State) (o : Op) : (putOp s o).turn = s.turn := rfl

/-! ### addOp -/

@[simp] theorem addOp_powered (s : State) (o : Op) : (addOp s o).powered = s.powered := rfl
@[simp] theorem addOp_booted (s : State) (o : Op) : (addOp s o).booted = s.booted := rfl
@[simp] theorem addOp_bootstat (s : State) (o : Op) : (addOp s o).bootstat = s.bootstat := rfl
@[simp] theorem addOp_linkUp (s : State) (o : Op) : (addOp s o).linkUp = s.linkUp := rfl
@[simp] theorem addOp_fused (s : State) (o : Op) : (addOp s o).fused = s.fused := rfl
@[simp] theorem addOp_fwHash (s : State) (o : Op) : (addOp s o).fwHash = s.fwHash := rfl
@[simp] theorem addOp_fwVersion (s : State) (o : Op) : (addOp s o).fwVersion = s.fwVersion := rfl
@[simp] theorem addOp_now (s : State) (o : Op) : (addOp s o).now = s.now := rfl
@[simp] theorem addOp_dies (s : State) (o : Op) : (addOp s o).dies = s.dies := rfl
@[simp] theorem addOp_cores (s : State) (o : Op) : (addOp s o).cores = s.cores := rfl
@[simp] theorem addOp_quads (s : State) (o : Op) : (addOp s o).quads = s.quads := rfl
@[simp] theorem addOp_parts (s : State) (o : Op) : (addOp s o).parts = s.parts := rfl
@[simp] theorem addOp_grids (s : State) (o : Op) : (addOp s o).grids = s.grids := rfl
@[simp] theorem addOp_jobs (s : State) (o : Op) : (addOp s o).jobs = s.jobs := rfl
@[simp] theorem addOp_teams (s : State) (o : Op) : (addOp s o).teams = s.teams := rfl
@[simp] theorem addOp_groups (s : State) (o : Op) : (addOp s o).groups = s.groups := rfl
@[simp] theorem addOp_threads (s : State) (o : Op) : (addOp s o).threads = s.threads := rfl
@[simp] theorem addOp_homes (s : State) (o : Op) : (addOp s o).homes = s.homes := rfl
@[simp] theorem addOp_posted (s : State) (o : Op) : (addOp s o).posted = s.posted := rfl
@[simp] theorem addOp_bad (s : State) (o : Op) : (addOp s o).bad = s.bad := rfl
@[simp] theorem addOp_funcs (s : State) (o : Op) : (addOp s o).funcs = s.funcs := rfl
@[simp] theorem addOp_gddr (s : State) (o : Op) : (addOp s o).gddr = s.gddr := rfl
@[simp] theorem addOp_hostMem (s : State) (o : Op) : (addOp s o).hostMem = s.hostMem := rfl
@[simp] theorem addOp_peerMem (s : State) (o : Op) : (addOp s o).peerMem = s.peerMem := rfl
@[simp] theorem addOp_nvme (s : State) (o : Op) : (addOp s o).nvme = s.nvme := rfl
@[simp] theorem addOp_nvmePresent (s : State) (o : Op) : (addOp s o).nvmePresent = s.nvmePresent := rfl
@[simp] theorem addOp_flash (s : State) (o : Op) : (addOp s o).flash = s.flash := rfl
@[simp] theorem addOp_agenda (s : State) (o : Op) : (addOp s o).agenda = s.agenda := rfl
@[simp] theorem addOp_cur (s : State) (o : Op) : (addOp s o).cur = s.cur := rfl
@[simp] theorem addOp_fresh (s : State) (o : Op) : (addOp s o).fresh = s.fresh := rfl
@[simp] theorem addOp_turn (s : State) (o : Op) : (addOp s o).turn = s.turn := rfl

/-! ### dropOp -/

@[simp] theorem dropOp_powered (s : State) (n : Nat) : (dropOp s n).powered = s.powered := rfl
@[simp] theorem dropOp_booted (s : State) (n : Nat) : (dropOp s n).booted = s.booted := rfl
@[simp] theorem dropOp_bootstat (s : State) (n : Nat) : (dropOp s n).bootstat = s.bootstat := rfl
@[simp] theorem dropOp_linkUp (s : State) (n : Nat) : (dropOp s n).linkUp = s.linkUp := rfl
@[simp] theorem dropOp_fused (s : State) (n : Nat) : (dropOp s n).fused = s.fused := rfl
@[simp] theorem dropOp_fwHash (s : State) (n : Nat) : (dropOp s n).fwHash = s.fwHash := rfl
@[simp] theorem dropOp_fwVersion (s : State) (n : Nat) : (dropOp s n).fwVersion = s.fwVersion := rfl
@[simp] theorem dropOp_now (s : State) (n : Nat) : (dropOp s n).now = s.now := rfl
@[simp] theorem dropOp_dies (s : State) (n : Nat) : (dropOp s n).dies = s.dies := rfl
@[simp] theorem dropOp_cores (s : State) (n : Nat) : (dropOp s n).cores = s.cores := rfl
@[simp] theorem dropOp_quads (s : State) (n : Nat) : (dropOp s n).quads = s.quads := rfl
@[simp] theorem dropOp_parts (s : State) (n : Nat) : (dropOp s n).parts = s.parts := rfl
@[simp] theorem dropOp_grids (s : State) (n : Nat) : (dropOp s n).grids = s.grids := rfl
@[simp] theorem dropOp_jobs (s : State) (n : Nat) : (dropOp s n).jobs = s.jobs := rfl
@[simp] theorem dropOp_teams (s : State) (n : Nat) : (dropOp s n).teams = s.teams := rfl
@[simp] theorem dropOp_groups (s : State) (n : Nat) : (dropOp s n).groups = s.groups := rfl
@[simp] theorem dropOp_threads (s : State) (n : Nat) : (dropOp s n).threads = s.threads := rfl
@[simp] theorem dropOp_homes (s : State) (n : Nat) : (dropOp s n).homes = s.homes := rfl
@[simp] theorem dropOp_posted (s : State) (n : Nat) : (dropOp s n).posted = s.posted := rfl
@[simp] theorem dropOp_bad (s : State) (n : Nat) : (dropOp s n).bad = s.bad := rfl
@[simp] theorem dropOp_funcs (s : State) (n : Nat) : (dropOp s n).funcs = s.funcs := rfl
@[simp] theorem dropOp_gddr (s : State) (n : Nat) : (dropOp s n).gddr = s.gddr := rfl
@[simp] theorem dropOp_hostMem (s : State) (n : Nat) : (dropOp s n).hostMem = s.hostMem := rfl
@[simp] theorem dropOp_peerMem (s : State) (n : Nat) : (dropOp s n).peerMem = s.peerMem := rfl
@[simp] theorem dropOp_nvme (s : State) (n : Nat) : (dropOp s n).nvme = s.nvme := rfl
@[simp] theorem dropOp_nvmePresent (s : State) (n : Nat) : (dropOp s n).nvmePresent = s.nvmePresent := rfl
@[simp] theorem dropOp_flash (s : State) (n : Nat) : (dropOp s n).flash = s.flash := rfl
@[simp] theorem dropOp_agenda (s : State) (n : Nat) : (dropOp s n).agenda = s.agenda := rfl
@[simp] theorem dropOp_cur (s : State) (n : Nat) : (dropOp s n).cur = s.cur := rfl
@[simp] theorem dropOp_fresh (s : State) (n : Nat) : (dropOp s n).fresh = s.fresh := rfl
@[simp] theorem dropOp_nextId (s : State) (n : Nat) : (dropOp s n).nextId = s.nextId := rfl
@[simp] theorem dropOp_turn (s : State) (n : Nat) : (dropOp s n).turn = s.turn := rfl

/-! ### modCore -/

@[simp] theorem modCore_powered (s : State) (c : Nat) (f : Core → Core) : (modCore s c f).powered = s.powered := rfl
@[simp] theorem modCore_booted (s : State) (c : Nat) (f : Core → Core) : (modCore s c f).booted = s.booted := rfl
@[simp] theorem modCore_bootstat (s : State) (c : Nat) (f : Core → Core) : (modCore s c f).bootstat = s.bootstat := rfl
@[simp] theorem modCore_linkUp (s : State) (c : Nat) (f : Core → Core) : (modCore s c f).linkUp = s.linkUp := rfl
@[simp] theorem modCore_fused (s : State) (c : Nat) (f : Core → Core) : (modCore s c f).fused = s.fused := rfl
@[simp] theorem modCore_fwHash (s : State) (c : Nat) (f : Core → Core) : (modCore s c f).fwHash = s.fwHash := rfl
@[simp] theorem modCore_fwVersion (s : State) (c : Nat) (f : Core → Core) : (modCore s c f).fwVersion = s.fwVersion := rfl
@[simp] theorem modCore_now (s : State) (c : Nat) (f : Core → Core) : (modCore s c f).now = s.now := rfl
@[simp] theorem modCore_dies (s : State) (c : Nat) (f : Core → Core) : (modCore s c f).dies = s.dies := rfl
@[simp] theorem modCore_quads (s : State) (c : Nat) (f : Core → Core) : (modCore s c f).quads = s.quads := rfl
@[simp] theorem modCore_parts (s : State) (c : Nat) (f : Core → Core) : (modCore s c f).parts = s.parts := rfl
@[simp] theorem modCore_grids (s : State) (c : Nat) (f : Core → Core) : (modCore s c f).grids = s.grids := rfl
@[simp] theorem modCore_jobs (s : State) (c : Nat) (f : Core → Core) : (modCore s c f).jobs = s.jobs := rfl
@[simp] theorem modCore_teams (s : State) (c : Nat) (f : Core → Core) : (modCore s c f).teams = s.teams := rfl
@[simp] theorem modCore_groups (s : State) (c : Nat) (f : Core → Core) : (modCore s c f).groups = s.groups := rfl
@[simp] theorem modCore_threads (s : State) (c : Nat) (f : Core → Core) : (modCore s c f).threads = s.threads := rfl
@[simp] theorem modCore_ops (s : State) (c : Nat) (f : Core → Core) : (modCore s c f).ops = s.ops := rfl
@[simp] theorem modCore_homes (s : State) (c : Nat) (f : Core → Core) : (modCore s c f).homes = s.homes := rfl
@[simp] theorem modCore_posted (s : State) (c : Nat) (f : Core → Core) : (modCore s c f).posted = s.posted := rfl
@[simp] theorem modCore_bad (s : State) (c : Nat) (f : Core → Core) : (modCore s c f).bad = s.bad := rfl
@[simp] theorem modCore_funcs (s : State) (c : Nat) (f : Core → Core) : (modCore s c f).funcs = s.funcs := rfl
@[simp] theorem modCore_gddr (s : State) (c : Nat) (f : Core → Core) : (modCore s c f).gddr = s.gddr := rfl
@[simp] theorem modCore_hostMem (s : State) (c : Nat) (f : Core → Core) : (modCore s c f).hostMem = s.hostMem := rfl
@[simp] theorem modCore_peerMem (s : State) (c : Nat) (f : Core → Core) : (modCore s c f).peerMem = s.peerMem := rfl
@[simp] theorem modCore_nvme (s : State) (c : Nat) (f : Core → Core) : (modCore s c f).nvme = s.nvme := rfl
@[simp] theorem modCore_nvmePresent (s : State) (c : Nat) (f : Core → Core) : (modCore s c f).nvmePresent = s.nvmePresent := rfl
@[simp] theorem modCore_flash (s : State) (c : Nat) (f : Core → Core) : (modCore s c f).flash = s.flash := rfl
@[simp] theorem modCore_agenda (s : State) (c : Nat) (f : Core → Core) : (modCore s c f).agenda = s.agenda := rfl
@[simp] theorem modCore_cur (s : State) (c : Nat) (f : Core → Core) : (modCore s c f).cur = s.cur := rfl
@[simp] theorem modCore_fresh (s : State) (c : Nat) (f : Core → Core) : (modCore s c f).fresh = s.fresh := rfl
@[simp] theorem modCore_nextId (s : State) (c : Nat) (f : Core → Core) : (modCore s c f).nextId = s.nextId := rfl
@[simp] theorem modCore_turn (s : State) (c : Nat) (f : Core → Core) : (modCore s c f).turn = s.turn := rfl

/-! ### modQuad -/

@[simp] theorem modQuad_powered (s : State) (q : Nat) (f : Quad → Quad) : (modQuad s q f).powered = s.powered := rfl
@[simp] theorem modQuad_booted (s : State) (q : Nat) (f : Quad → Quad) : (modQuad s q f).booted = s.booted := rfl
@[simp] theorem modQuad_bootstat (s : State) (q : Nat) (f : Quad → Quad) : (modQuad s q f).bootstat = s.bootstat := rfl
@[simp] theorem modQuad_linkUp (s : State) (q : Nat) (f : Quad → Quad) : (modQuad s q f).linkUp = s.linkUp := rfl
@[simp] theorem modQuad_fused (s : State) (q : Nat) (f : Quad → Quad) : (modQuad s q f).fused = s.fused := rfl
@[simp] theorem modQuad_fwHash (s : State) (q : Nat) (f : Quad → Quad) : (modQuad s q f).fwHash = s.fwHash := rfl
@[simp] theorem modQuad_fwVersion (s : State) (q : Nat) (f : Quad → Quad) : (modQuad s q f).fwVersion = s.fwVersion := rfl
@[simp] theorem modQuad_now (s : State) (q : Nat) (f : Quad → Quad) : (modQuad s q f).now = s.now := rfl
@[simp] theorem modQuad_dies (s : State) (q : Nat) (f : Quad → Quad) : (modQuad s q f).dies = s.dies := rfl
@[simp] theorem modQuad_cores (s : State) (q : Nat) (f : Quad → Quad) : (modQuad s q f).cores = s.cores := rfl
@[simp] theorem modQuad_parts (s : State) (q : Nat) (f : Quad → Quad) : (modQuad s q f).parts = s.parts := rfl
@[simp] theorem modQuad_grids (s : State) (q : Nat) (f : Quad → Quad) : (modQuad s q f).grids = s.grids := rfl
@[simp] theorem modQuad_jobs (s : State) (q : Nat) (f : Quad → Quad) : (modQuad s q f).jobs = s.jobs := rfl
@[simp] theorem modQuad_teams (s : State) (q : Nat) (f : Quad → Quad) : (modQuad s q f).teams = s.teams := rfl
@[simp] theorem modQuad_groups (s : State) (q : Nat) (f : Quad → Quad) : (modQuad s q f).groups = s.groups := rfl
@[simp] theorem modQuad_threads (s : State) (q : Nat) (f : Quad → Quad) : (modQuad s q f).threads = s.threads := rfl
@[simp] theorem modQuad_ops (s : State) (q : Nat) (f : Quad → Quad) : (modQuad s q f).ops = s.ops := rfl
@[simp] theorem modQuad_homes (s : State) (q : Nat) (f : Quad → Quad) : (modQuad s q f).homes = s.homes := rfl
@[simp] theorem modQuad_posted (s : State) (q : Nat) (f : Quad → Quad) : (modQuad s q f).posted = s.posted := rfl
@[simp] theorem modQuad_bad (s : State) (q : Nat) (f : Quad → Quad) : (modQuad s q f).bad = s.bad := rfl
@[simp] theorem modQuad_funcs (s : State) (q : Nat) (f : Quad → Quad) : (modQuad s q f).funcs = s.funcs := rfl
@[simp] theorem modQuad_gddr (s : State) (q : Nat) (f : Quad → Quad) : (modQuad s q f).gddr = s.gddr := rfl
@[simp] theorem modQuad_hostMem (s : State) (q : Nat) (f : Quad → Quad) : (modQuad s q f).hostMem = s.hostMem := rfl
@[simp] theorem modQuad_peerMem (s : State) (q : Nat) (f : Quad → Quad) : (modQuad s q f).peerMem = s.peerMem := rfl
@[simp] theorem modQuad_nvme (s : State) (q : Nat) (f : Quad → Quad) : (modQuad s q f).nvme = s.nvme := rfl
@[simp] theorem modQuad_nvmePresent (s : State) (q : Nat) (f : Quad → Quad) : (modQuad s q f).nvmePresent = s.nvmePresent := rfl
@[simp] theorem modQuad_flash (s : State) (q : Nat) (f : Quad → Quad) : (modQuad s q f).flash = s.flash := rfl
@[simp] theorem modQuad_agenda (s : State) (q : Nat) (f : Quad → Quad) : (modQuad s q f).agenda = s.agenda := rfl
@[simp] theorem modQuad_cur (s : State) (q : Nat) (f : Quad → Quad) : (modQuad s q f).cur = s.cur := rfl
@[simp] theorem modQuad_fresh (s : State) (q : Nat) (f : Quad → Quad) : (modQuad s q f).fresh = s.fresh := rfl
@[simp] theorem modQuad_nextId (s : State) (q : Nat) (f : Quad → Quad) : (modQuad s q f).nextId = s.nextId := rfl
@[simp] theorem modQuad_turn (s : State) (q : Nat) (f : Quad → Quad) : (modQuad s q f).turn = s.turn := rfl

/-! ### modDie -/

@[simp] theorem modDie_powered (s : State) (d : Nat) (f : Die → Die) : (modDie s d f).powered = s.powered := rfl
@[simp] theorem modDie_booted (s : State) (d : Nat) (f : Die → Die) : (modDie s d f).booted = s.booted := rfl
@[simp] theorem modDie_bootstat (s : State) (d : Nat) (f : Die → Die) : (modDie s d f).bootstat = s.bootstat := rfl
@[simp] theorem modDie_linkUp (s : State) (d : Nat) (f : Die → Die) : (modDie s d f).linkUp = s.linkUp := rfl
@[simp] theorem modDie_fused (s : State) (d : Nat) (f : Die → Die) : (modDie s d f).fused = s.fused := rfl
@[simp] theorem modDie_fwHash (s : State) (d : Nat) (f : Die → Die) : (modDie s d f).fwHash = s.fwHash := rfl
@[simp] theorem modDie_fwVersion (s : State) (d : Nat) (f : Die → Die) : (modDie s d f).fwVersion = s.fwVersion := rfl
@[simp] theorem modDie_now (s : State) (d : Nat) (f : Die → Die) : (modDie s d f).now = s.now := rfl
@[simp] theorem modDie_cores (s : State) (d : Nat) (f : Die → Die) : (modDie s d f).cores = s.cores := rfl
@[simp] theorem modDie_quads (s : State) (d : Nat) (f : Die → Die) : (modDie s d f).quads = s.quads := rfl
@[simp] theorem modDie_parts (s : State) (d : Nat) (f : Die → Die) : (modDie s d f).parts = s.parts := rfl
@[simp] theorem modDie_grids (s : State) (d : Nat) (f : Die → Die) : (modDie s d f).grids = s.grids := rfl
@[simp] theorem modDie_jobs (s : State) (d : Nat) (f : Die → Die) : (modDie s d f).jobs = s.jobs := rfl
@[simp] theorem modDie_teams (s : State) (d : Nat) (f : Die → Die) : (modDie s d f).teams = s.teams := rfl
@[simp] theorem modDie_groups (s : State) (d : Nat) (f : Die → Die) : (modDie s d f).groups = s.groups := rfl
@[simp] theorem modDie_threads (s : State) (d : Nat) (f : Die → Die) : (modDie s d f).threads = s.threads := rfl
@[simp] theorem modDie_ops (s : State) (d : Nat) (f : Die → Die) : (modDie s d f).ops = s.ops := rfl
@[simp] theorem modDie_homes (s : State) (d : Nat) (f : Die → Die) : (modDie s d f).homes = s.homes := rfl
@[simp] theorem modDie_posted (s : State) (d : Nat) (f : Die → Die) : (modDie s d f).posted = s.posted := rfl
@[simp] theorem modDie_bad (s : State) (d : Nat) (f : Die → Die) : (modDie s d f).bad = s.bad := rfl
@[simp] theorem modDie_funcs (s : State) (d : Nat) (f : Die → Die) : (modDie s d f).funcs = s.funcs := rfl
@[simp] theorem modDie_gddr (s : State) (d : Nat) (f : Die → Die) : (modDie s d f).gddr = s.gddr := rfl
@[simp] theorem modDie_hostMem (s : State) (d : Nat) (f : Die → Die) : (modDie s d f).hostMem = s.hostMem := rfl
@[simp] theorem modDie_peerMem (s : State) (d : Nat) (f : Die → Die) : (modDie s d f).peerMem = s.peerMem := rfl
@[simp] theorem modDie_nvme (s : State) (d : Nat) (f : Die → Die) : (modDie s d f).nvme = s.nvme := rfl
@[simp] theorem modDie_nvmePresent (s : State) (d : Nat) (f : Die → Die) : (modDie s d f).nvmePresent = s.nvmePresent := rfl
@[simp] theorem modDie_flash (s : State) (d : Nat) (f : Die → Die) : (modDie s d f).flash = s.flash := rfl
@[simp] theorem modDie_agenda (s : State) (d : Nat) (f : Die → Die) : (modDie s d f).agenda = s.agenda := rfl
@[simp] theorem modDie_cur (s : State) (d : Nat) (f : Die → Die) : (modDie s d f).cur = s.cur := rfl
@[simp] theorem modDie_fresh (s : State) (d : Nat) (f : Die → Die) : (modDie s d f).fresh = s.fresh := rfl
@[simp] theorem modDie_nextId (s : State) (d : Nat) (f : Die → Die) : (modDie s d f).nextId = s.nextId := rfl
@[simp] theorem modDie_turn (s : State) (d : Nat) (f : Die → Die) : (modDie s d f).turn = s.turn := rfl

/-! ### modFunc -/

@[simp] theorem modFunc_powered (s : State) (n : Nat) (f : Func → Func) : (modFunc s n f).powered = s.powered := rfl
@[simp] theorem modFunc_booted (s : State) (n : Nat) (f : Func → Func) : (modFunc s n f).booted = s.booted := rfl
@[simp] theorem modFunc_bootstat (s : State) (n : Nat) (f : Func → Func) : (modFunc s n f).bootstat = s.bootstat := rfl
@[simp] theorem modFunc_linkUp (s : State) (n : Nat) (f : Func → Func) : (modFunc s n f).linkUp = s.linkUp := rfl
@[simp] theorem modFunc_fused (s : State) (n : Nat) (f : Func → Func) : (modFunc s n f).fused = s.fused := rfl
@[simp] theorem modFunc_fwHash (s : State) (n : Nat) (f : Func → Func) : (modFunc s n f).fwHash = s.fwHash := rfl
@[simp] theorem modFunc_fwVersion (s : State) (n : Nat) (f : Func → Func) : (modFunc s n f).fwVersion = s.fwVersion := rfl
@[simp] theorem modFunc_now (s : State) (n : Nat) (f : Func → Func) : (modFunc s n f).now = s.now := rfl
@[simp] theorem modFunc_dies (s : State) (n : Nat) (f : Func → Func) : (modFunc s n f).dies = s.dies := rfl
@[simp] theorem modFunc_cores (s : State) (n : Nat) (f : Func → Func) : (modFunc s n f).cores = s.cores := rfl
@[simp] theorem modFunc_quads (s : State) (n : Nat) (f : Func → Func) : (modFunc s n f).quads = s.quads := rfl
@[simp] theorem modFunc_parts (s : State) (n : Nat) (f : Func → Func) : (modFunc s n f).parts = s.parts := rfl
@[simp] theorem modFunc_grids (s : State) (n : Nat) (f : Func → Func) : (modFunc s n f).grids = s.grids := rfl
@[simp] theorem modFunc_jobs (s : State) (n : Nat) (f : Func → Func) : (modFunc s n f).jobs = s.jobs := rfl
@[simp] theorem modFunc_teams (s : State) (n : Nat) (f : Func → Func) : (modFunc s n f).teams = s.teams := rfl
@[simp] theorem modFunc_groups (s : State) (n : Nat) (f : Func → Func) : (modFunc s n f).groups = s.groups := rfl
@[simp] theorem modFunc_threads (s : State) (n : Nat) (f : Func → Func) : (modFunc s n f).threads = s.threads := rfl
@[simp] theorem modFunc_ops (s : State) (n : Nat) (f : Func → Func) : (modFunc s n f).ops = s.ops := rfl
@[simp] theorem modFunc_homes (s : State) (n : Nat) (f : Func → Func) : (modFunc s n f).homes = s.homes := rfl
@[simp] theorem modFunc_posted (s : State) (n : Nat) (f : Func → Func) : (modFunc s n f).posted = s.posted := rfl
@[simp] theorem modFunc_bad (s : State) (n : Nat) (f : Func → Func) : (modFunc s n f).bad = s.bad := rfl
@[simp] theorem modFunc_gddr (s : State) (n : Nat) (f : Func → Func) : (modFunc s n f).gddr = s.gddr := rfl
@[simp] theorem modFunc_hostMem (s : State) (n : Nat) (f : Func → Func) : (modFunc s n f).hostMem = s.hostMem := rfl
@[simp] theorem modFunc_peerMem (s : State) (n : Nat) (f : Func → Func) : (modFunc s n f).peerMem = s.peerMem := rfl
@[simp] theorem modFunc_nvme (s : State) (n : Nat) (f : Func → Func) : (modFunc s n f).nvme = s.nvme := rfl
@[simp] theorem modFunc_nvmePresent (s : State) (n : Nat) (f : Func → Func) : (modFunc s n f).nvmePresent = s.nvmePresent := rfl
@[simp] theorem modFunc_flash (s : State) (n : Nat) (f : Func → Func) : (modFunc s n f).flash = s.flash := rfl
@[simp] theorem modFunc_agenda (s : State) (n : Nat) (f : Func → Func) : (modFunc s n f).agenda = s.agenda := rfl
@[simp] theorem modFunc_cur (s : State) (n : Nat) (f : Func → Func) : (modFunc s n f).cur = s.cur := rfl
@[simp] theorem modFunc_fresh (s : State) (n : Nat) (f : Func → Func) : (modFunc s n f).fresh = s.fresh := rfl
@[simp] theorem modFunc_nextId (s : State) (n : Nat) (f : Func → Func) : (modFunc s n f).nextId = s.nextId := rfl
@[simp] theorem modFunc_turn (s : State) (n : Nat) (f : Func → Func) : (modFunc s n f).turn = s.turn := rfl

/-! ### modPart -/

@[simp] theorem modPart_powered (s : State) (n : Nat) (f : Partition → Partition) : (modPart s n f).powered = s.powered := rfl
@[simp] theorem modPart_booted (s : State) (n : Nat) (f : Partition → Partition) : (modPart s n f).booted = s.booted := rfl
@[simp] theorem modPart_bootstat (s : State) (n : Nat) (f : Partition → Partition) : (modPart s n f).bootstat = s.bootstat := rfl
@[simp] theorem modPart_linkUp (s : State) (n : Nat) (f : Partition → Partition) : (modPart s n f).linkUp = s.linkUp := rfl
@[simp] theorem modPart_fused (s : State) (n : Nat) (f : Partition → Partition) : (modPart s n f).fused = s.fused := rfl
@[simp] theorem modPart_fwHash (s : State) (n : Nat) (f : Partition → Partition) : (modPart s n f).fwHash = s.fwHash := rfl
@[simp] theorem modPart_fwVersion (s : State) (n : Nat) (f : Partition → Partition) : (modPart s n f).fwVersion = s.fwVersion := rfl
@[simp] theorem modPart_now (s : State) (n : Nat) (f : Partition → Partition) : (modPart s n f).now = s.now := rfl
@[simp] theorem modPart_dies (s : State) (n : Nat) (f : Partition → Partition) : (modPart s n f).dies = s.dies := rfl
@[simp] theorem modPart_cores (s : State) (n : Nat) (f : Partition → Partition) : (modPart s n f).cores = s.cores := rfl
@[simp] theorem modPart_quads (s : State) (n : Nat) (f : Partition → Partition) : (modPart s n f).quads = s.quads := rfl
@[simp] theorem modPart_grids (s : State) (n : Nat) (f : Partition → Partition) : (modPart s n f).grids = s.grids := rfl
@[simp] theorem modPart_jobs (s : State) (n : Nat) (f : Partition → Partition) : (modPart s n f).jobs = s.jobs := rfl
@[simp] theorem modPart_teams (s : State) (n : Nat) (f : Partition → Partition) : (modPart s n f).teams = s.teams := rfl
@[simp] theorem modPart_groups (s : State) (n : Nat) (f : Partition → Partition) : (modPart s n f).groups = s.groups := rfl
@[simp] theorem modPart_threads (s : State) (n : Nat) (f : Partition → Partition) : (modPart s n f).threads = s.threads := rfl
@[simp] theorem modPart_ops (s : State) (n : Nat) (f : Partition → Partition) : (modPart s n f).ops = s.ops := rfl
@[simp] theorem modPart_homes (s : State) (n : Nat) (f : Partition → Partition) : (modPart s n f).homes = s.homes := rfl
@[simp] theorem modPart_posted (s : State) (n : Nat) (f : Partition → Partition) : (modPart s n f).posted = s.posted := rfl
@[simp] theorem modPart_bad (s : State) (n : Nat) (f : Partition → Partition) : (modPart s n f).bad = s.bad := rfl
@[simp] theorem modPart_funcs (s : State) (n : Nat) (f : Partition → Partition) : (modPart s n f).funcs = s.funcs := rfl
@[simp] theorem modPart_gddr (s : State) (n : Nat) (f : Partition → Partition) : (modPart s n f).gddr = s.gddr := rfl
@[simp] theorem modPart_hostMem (s : State) (n : Nat) (f : Partition → Partition) : (modPart s n f).hostMem = s.hostMem := rfl
@[simp] theorem modPart_peerMem (s : State) (n : Nat) (f : Partition → Partition) : (modPart s n f).peerMem = s.peerMem := rfl
@[simp] theorem modPart_nvme (s : State) (n : Nat) (f : Partition → Partition) : (modPart s n f).nvme = s.nvme := rfl
@[simp] theorem modPart_nvmePresent (s : State) (n : Nat) (f : Partition → Partition) : (modPart s n f).nvmePresent = s.nvmePresent := rfl
@[simp] theorem modPart_flash (s : State) (n : Nat) (f : Partition → Partition) : (modPart s n f).flash = s.flash := rfl
@[simp] theorem modPart_agenda (s : State) (n : Nat) (f : Partition → Partition) : (modPart s n f).agenda = s.agenda := rfl
@[simp] theorem modPart_cur (s : State) (n : Nat) (f : Partition → Partition) : (modPart s n f).cur = s.cur := rfl
@[simp] theorem modPart_fresh (s : State) (n : Nat) (f : Partition → Partition) : (modPart s n f).fresh = s.fresh := rfl
@[simp] theorem modPart_nextId (s : State) (n : Nat) (f : Partition → Partition) : (modPart s n f).nextId = s.nextId := rfl
@[simp] theorem modPart_turn (s : State) (n : Nat) (f : Partition → Partition) : (modPart s n f).turn = s.turn := rfl

/-! ### modGroup -/

@[simp] theorem modGroup_powered (s : State) (n : Nat) (f : Group → Group) : (modGroup s n f).powered = s.powered := rfl
@[simp] theorem modGroup_booted (s : State) (n : Nat) (f : Group → Group) : (modGroup s n f).booted = s.booted := rfl
@[simp] theorem modGroup_bootstat (s : State) (n : Nat) (f : Group → Group) : (modGroup s n f).bootstat = s.bootstat := rfl
@[simp] theorem modGroup_linkUp (s : State) (n : Nat) (f : Group → Group) : (modGroup s n f).linkUp = s.linkUp := rfl
@[simp] theorem modGroup_fused (s : State) (n : Nat) (f : Group → Group) : (modGroup s n f).fused = s.fused := rfl
@[simp] theorem modGroup_fwHash (s : State) (n : Nat) (f : Group → Group) : (modGroup s n f).fwHash = s.fwHash := rfl
@[simp] theorem modGroup_fwVersion (s : State) (n : Nat) (f : Group → Group) : (modGroup s n f).fwVersion = s.fwVersion := rfl
@[simp] theorem modGroup_now (s : State) (n : Nat) (f : Group → Group) : (modGroup s n f).now = s.now := rfl
@[simp] theorem modGroup_dies (s : State) (n : Nat) (f : Group → Group) : (modGroup s n f).dies = s.dies := rfl
@[simp] theorem modGroup_cores (s : State) (n : Nat) (f : Group → Group) : (modGroup s n f).cores = s.cores := rfl
@[simp] theorem modGroup_quads (s : State) (n : Nat) (f : Group → Group) : (modGroup s n f).quads = s.quads := rfl
@[simp] theorem modGroup_parts (s : State) (n : Nat) (f : Group → Group) : (modGroup s n f).parts = s.parts := rfl
@[simp] theorem modGroup_grids (s : State) (n : Nat) (f : Group → Group) : (modGroup s n f).grids = s.grids := rfl
@[simp] theorem modGroup_jobs (s : State) (n : Nat) (f : Group → Group) : (modGroup s n f).jobs = s.jobs := rfl
@[simp] theorem modGroup_teams (s : State) (n : Nat) (f : Group → Group) : (modGroup s n f).teams = s.teams := rfl
@[simp] theorem modGroup_threads (s : State) (n : Nat) (f : Group → Group) : (modGroup s n f).threads = s.threads := rfl
@[simp] theorem modGroup_ops (s : State) (n : Nat) (f : Group → Group) : (modGroup s n f).ops = s.ops := rfl
@[simp] theorem modGroup_homes (s : State) (n : Nat) (f : Group → Group) : (modGroup s n f).homes = s.homes := rfl
@[simp] theorem modGroup_posted (s : State) (n : Nat) (f : Group → Group) : (modGroup s n f).posted = s.posted := rfl
@[simp] theorem modGroup_bad (s : State) (n : Nat) (f : Group → Group) : (modGroup s n f).bad = s.bad := rfl
@[simp] theorem modGroup_funcs (s : State) (n : Nat) (f : Group → Group) : (modGroup s n f).funcs = s.funcs := rfl
@[simp] theorem modGroup_gddr (s : State) (n : Nat) (f : Group → Group) : (modGroup s n f).gddr = s.gddr := rfl
@[simp] theorem modGroup_hostMem (s : State) (n : Nat) (f : Group → Group) : (modGroup s n f).hostMem = s.hostMem := rfl
@[simp] theorem modGroup_peerMem (s : State) (n : Nat) (f : Group → Group) : (modGroup s n f).peerMem = s.peerMem := rfl
@[simp] theorem modGroup_nvme (s : State) (n : Nat) (f : Group → Group) : (modGroup s n f).nvme = s.nvme := rfl
@[simp] theorem modGroup_nvmePresent (s : State) (n : Nat) (f : Group → Group) : (modGroup s n f).nvmePresent = s.nvmePresent := rfl
@[simp] theorem modGroup_flash (s : State) (n : Nat) (f : Group → Group) : (modGroup s n f).flash = s.flash := rfl
@[simp] theorem modGroup_agenda (s : State) (n : Nat) (f : Group → Group) : (modGroup s n f).agenda = s.agenda := rfl
@[simp] theorem modGroup_cur (s : State) (n : Nat) (f : Group → Group) : (modGroup s n f).cur = s.cur := rfl
@[simp] theorem modGroup_fresh (s : State) (n : Nat) (f : Group → Group) : (modGroup s n f).fresh = s.fresh := rfl
@[simp] theorem modGroup_nextId (s : State) (n : Nat) (f : Group → Group) : (modGroup s n f).nextId = s.nextId := rfl
@[simp] theorem modGroup_turn (s : State) (n : Nat) (f : Group → Group) : (modGroup s n f).turn = s.turn := rfl

/-! ### modTeam -/

@[simp] theorem modTeam_powered (s : State) (n : Nat) (f : Team → Team) : (modTeam s n f).powered = s.powered := rfl
@[simp] theorem modTeam_booted (s : State) (n : Nat) (f : Team → Team) : (modTeam s n f).booted = s.booted := rfl
@[simp] theorem modTeam_bootstat (s : State) (n : Nat) (f : Team → Team) : (modTeam s n f).bootstat = s.bootstat := rfl
@[simp] theorem modTeam_linkUp (s : State) (n : Nat) (f : Team → Team) : (modTeam s n f).linkUp = s.linkUp := rfl
@[simp] theorem modTeam_fused (s : State) (n : Nat) (f : Team → Team) : (modTeam s n f).fused = s.fused := rfl
@[simp] theorem modTeam_fwHash (s : State) (n : Nat) (f : Team → Team) : (modTeam s n f).fwHash = s.fwHash := rfl
@[simp] theorem modTeam_fwVersion (s : State) (n : Nat) (f : Team → Team) : (modTeam s n f).fwVersion = s.fwVersion := rfl
@[simp] theorem modTeam_now (s : State) (n : Nat) (f : Team → Team) : (modTeam s n f).now = s.now := rfl
@[simp] theorem modTeam_dies (s : State) (n : Nat) (f : Team → Team) : (modTeam s n f).dies = s.dies := rfl
@[simp] theorem modTeam_cores (s : State) (n : Nat) (f : Team → Team) : (modTeam s n f).cores = s.cores := rfl
@[simp] theorem modTeam_quads (s : State) (n : Nat) (f : Team → Team) : (modTeam s n f).quads = s.quads := rfl
@[simp] theorem modTeam_parts (s : State) (n : Nat) (f : Team → Team) : (modTeam s n f).parts = s.parts := rfl
@[simp] theorem modTeam_grids (s : State) (n : Nat) (f : Team → Team) : (modTeam s n f).grids = s.grids := rfl
@[simp] theorem modTeam_jobs (s : State) (n : Nat) (f : Team → Team) : (modTeam s n f).jobs = s.jobs := rfl
@[simp] theorem modTeam_groups (s : State) (n : Nat) (f : Team → Team) : (modTeam s n f).groups = s.groups := rfl
@[simp] theorem modTeam_threads (s : State) (n : Nat) (f : Team → Team) : (modTeam s n f).threads = s.threads := rfl
@[simp] theorem modTeam_ops (s : State) (n : Nat) (f : Team → Team) : (modTeam s n f).ops = s.ops := rfl
@[simp] theorem modTeam_homes (s : State) (n : Nat) (f : Team → Team) : (modTeam s n f).homes = s.homes := rfl
@[simp] theorem modTeam_posted (s : State) (n : Nat) (f : Team → Team) : (modTeam s n f).posted = s.posted := rfl
@[simp] theorem modTeam_bad (s : State) (n : Nat) (f : Team → Team) : (modTeam s n f).bad = s.bad := rfl
@[simp] theorem modTeam_funcs (s : State) (n : Nat) (f : Team → Team) : (modTeam s n f).funcs = s.funcs := rfl
@[simp] theorem modTeam_gddr (s : State) (n : Nat) (f : Team → Team) : (modTeam s n f).gddr = s.gddr := rfl
@[simp] theorem modTeam_hostMem (s : State) (n : Nat) (f : Team → Team) : (modTeam s n f).hostMem = s.hostMem := rfl
@[simp] theorem modTeam_peerMem (s : State) (n : Nat) (f : Team → Team) : (modTeam s n f).peerMem = s.peerMem := rfl
@[simp] theorem modTeam_nvme (s : State) (n : Nat) (f : Team → Team) : (modTeam s n f).nvme = s.nvme := rfl
@[simp] theorem modTeam_nvmePresent (s : State) (n : Nat) (f : Team → Team) : (modTeam s n f).nvmePresent = s.nvmePresent := rfl
@[simp] theorem modTeam_flash (s : State) (n : Nat) (f : Team → Team) : (modTeam s n f).flash = s.flash := rfl
@[simp] theorem modTeam_agenda (s : State) (n : Nat) (f : Team → Team) : (modTeam s n f).agenda = s.agenda := rfl
@[simp] theorem modTeam_cur (s : State) (n : Nat) (f : Team → Team) : (modTeam s n f).cur = s.cur := rfl
@[simp] theorem modTeam_fresh (s : State) (n : Nat) (f : Team → Team) : (modTeam s n f).fresh = s.fresh := rfl
@[simp] theorem modTeam_nextId (s : State) (n : Nat) (f : Team → Team) : (modTeam s n f).nextId = s.nextId := rfl
@[simp] theorem modTeam_turn (s : State) (n : Nat) (f : Team → Team) : (modTeam s n f).turn = s.turn := rfl

/-! ### modThread -/

@[simp] theorem modThread_powered (s : State) (n : Nat) (f : Thread → Thread) : (modThread s n f).powered = s.powered := rfl
@[simp] theorem modThread_booted (s : State) (n : Nat) (f : Thread → Thread) : (modThread s n f).booted = s.booted := rfl
@[simp] theorem modThread_bootstat (s : State) (n : Nat) (f : Thread → Thread) : (modThread s n f).bootstat = s.bootstat := rfl
@[simp] theorem modThread_linkUp (s : State) (n : Nat) (f : Thread → Thread) : (modThread s n f).linkUp = s.linkUp := rfl
@[simp] theorem modThread_fused (s : State) (n : Nat) (f : Thread → Thread) : (modThread s n f).fused = s.fused := rfl
@[simp] theorem modThread_fwHash (s : State) (n : Nat) (f : Thread → Thread) : (modThread s n f).fwHash = s.fwHash := rfl
@[simp] theorem modThread_fwVersion (s : State) (n : Nat) (f : Thread → Thread) : (modThread s n f).fwVersion = s.fwVersion := rfl
@[simp] theorem modThread_now (s : State) (n : Nat) (f : Thread → Thread) : (modThread s n f).now = s.now := rfl
@[simp] theorem modThread_dies (s : State) (n : Nat) (f : Thread → Thread) : (modThread s n f).dies = s.dies := rfl
@[simp] theorem modThread_cores (s : State) (n : Nat) (f : Thread → Thread) : (modThread s n f).cores = s.cores := rfl
@[simp] theorem modThread_quads (s : State) (n : Nat) (f : Thread → Thread) : (modThread s n f).quads = s.quads := rfl
@[simp] theorem modThread_parts (s : State) (n : Nat) (f : Thread → Thread) : (modThread s n f).parts = s.parts := rfl
@[simp] theorem modThread_grids (s : State) (n : Nat) (f : Thread → Thread) : (modThread s n f).grids = s.grids := rfl
@[simp] theorem modThread_jobs (s : State) (n : Nat) (f : Thread → Thread) : (modThread s n f).jobs = s.jobs := rfl
@[simp] theorem modThread_teams (s : State) (n : Nat) (f : Thread → Thread) : (modThread s n f).teams = s.teams := rfl
@[simp] theorem modThread_groups (s : State) (n : Nat) (f : Thread → Thread) : (modThread s n f).groups = s.groups := rfl
@[simp] theorem modThread_ops (s : State) (n : Nat) (f : Thread → Thread) : (modThread s n f).ops = s.ops := rfl
@[simp] theorem modThread_homes (s : State) (n : Nat) (f : Thread → Thread) : (modThread s n f).homes = s.homes := rfl
@[simp] theorem modThread_posted (s : State) (n : Nat) (f : Thread → Thread) : (modThread s n f).posted = s.posted := rfl
@[simp] theorem modThread_bad (s : State) (n : Nat) (f : Thread → Thread) : (modThread s n f).bad = s.bad := rfl
@[simp] theorem modThread_funcs (s : State) (n : Nat) (f : Thread → Thread) : (modThread s n f).funcs = s.funcs := rfl
@[simp] theorem modThread_gddr (s : State) (n : Nat) (f : Thread → Thread) : (modThread s n f).gddr = s.gddr := rfl
@[simp] theorem modThread_hostMem (s : State) (n : Nat) (f : Thread → Thread) : (modThread s n f).hostMem = s.hostMem := rfl
@[simp] theorem modThread_peerMem (s : State) (n : Nat) (f : Thread → Thread) : (modThread s n f).peerMem = s.peerMem := rfl
@[simp] theorem modThread_nvme (s : State) (n : Nat) (f : Thread → Thread) : (modThread s n f).nvme = s.nvme := rfl
@[simp] theorem modThread_nvmePresent (s : State) (n : Nat) (f : Thread → Thread) : (modThread s n f).nvmePresent = s.nvmePresent := rfl
@[simp] theorem modThread_flash (s : State) (n : Nat) (f : Thread → Thread) : (modThread s n f).flash = s.flash := rfl
@[simp] theorem modThread_agenda (s : State) (n : Nat) (f : Thread → Thread) : (modThread s n f).agenda = s.agenda := rfl
@[simp] theorem modThread_cur (s : State) (n : Nat) (f : Thread → Thread) : (modThread s n f).cur = s.cur := rfl
@[simp] theorem modThread_fresh (s : State) (n : Nat) (f : Thread → Thread) : (modThread s n f).fresh = s.fresh := rfl
@[simp] theorem modThread_nextId (s : State) (n : Nat) (f : Thread → Thread) : (modThread s n f).nextId = s.nextId := rfl
@[simp] theorem modThread_turn (s : State) (n : Nat) (f : Thread → Thread) : (modThread s n f).turn = s.turn := rfl

/-! ### noteIssued -/

@[simp] theorem noteIssued_powered (s : State) (n : Nat) : (noteIssued s n).powered = s.powered := rfl
@[simp] theorem noteIssued_booted (s : State) (n : Nat) : (noteIssued s n).booted = s.booted := rfl
@[simp] theorem noteIssued_bootstat (s : State) (n : Nat) : (noteIssued s n).bootstat = s.bootstat := rfl
@[simp] theorem noteIssued_linkUp (s : State) (n : Nat) : (noteIssued s n).linkUp = s.linkUp := rfl
@[simp] theorem noteIssued_fused (s : State) (n : Nat) : (noteIssued s n).fused = s.fused := rfl
@[simp] theorem noteIssued_fwHash (s : State) (n : Nat) : (noteIssued s n).fwHash = s.fwHash := rfl
@[simp] theorem noteIssued_fwVersion (s : State) (n : Nat) : (noteIssued s n).fwVersion = s.fwVersion := rfl
@[simp] theorem noteIssued_now (s : State) (n : Nat) : (noteIssued s n).now = s.now := rfl
@[simp] theorem noteIssued_dies (s : State) (n : Nat) : (noteIssued s n).dies = s.dies := rfl
@[simp] theorem noteIssued_cores (s : State) (n : Nat) : (noteIssued s n).cores = s.cores := rfl
@[simp] theorem noteIssued_quads (s : State) (n : Nat) : (noteIssued s n).quads = s.quads := rfl
@[simp] theorem noteIssued_parts (s : State) (n : Nat) : (noteIssued s n).parts = s.parts := rfl
@[simp] theorem noteIssued_grids (s : State) (n : Nat) : (noteIssued s n).grids = s.grids := rfl
@[simp] theorem noteIssued_jobs (s : State) (n : Nat) : (noteIssued s n).jobs = s.jobs := rfl
@[simp] theorem noteIssued_teams (s : State) (n : Nat) : (noteIssued s n).teams = s.teams := rfl
@[simp] theorem noteIssued_threads (s : State) (n : Nat) : (noteIssued s n).threads = s.threads := rfl
@[simp] theorem noteIssued_ops (s : State) (n : Nat) : (noteIssued s n).ops = s.ops := rfl
@[simp] theorem noteIssued_homes (s : State) (n : Nat) : (noteIssued s n).homes = s.homes := rfl
@[simp] theorem noteIssued_posted (s : State) (n : Nat) : (noteIssued s n).posted = s.posted := rfl
@[simp] theorem noteIssued_bad (s : State) (n : Nat) : (noteIssued s n).bad = s.bad := rfl
@[simp] theorem noteIssued_funcs (s : State) (n : Nat) : (noteIssued s n).funcs = s.funcs := rfl
@[simp] theorem noteIssued_gddr (s : State) (n : Nat) : (noteIssued s n).gddr = s.gddr := rfl
@[simp] theorem noteIssued_hostMem (s : State) (n : Nat) : (noteIssued s n).hostMem = s.hostMem := rfl
@[simp] theorem noteIssued_peerMem (s : State) (n : Nat) : (noteIssued s n).peerMem = s.peerMem := rfl
@[simp] theorem noteIssued_nvme (s : State) (n : Nat) : (noteIssued s n).nvme = s.nvme := rfl
@[simp] theorem noteIssued_nvmePresent (s : State) (n : Nat) : (noteIssued s n).nvmePresent = s.nvmePresent := rfl
@[simp] theorem noteIssued_flash (s : State) (n : Nat) : (noteIssued s n).flash = s.flash := rfl
@[simp] theorem noteIssued_agenda (s : State) (n : Nat) : (noteIssued s n).agenda = s.agenda := rfl
@[simp] theorem noteIssued_cur (s : State) (n : Nat) : (noteIssued s n).cur = s.cur := rfl
@[simp] theorem noteIssued_fresh (s : State) (n : Nat) : (noteIssued s n).fresh = s.fresh := rfl
@[simp] theorem noteIssued_nextId (s : State) (n : Nat) : (noteIssued s n).nextId = s.nextId := rfl
@[simp] theorem noteIssued_turn (s : State) (n : Nat) : (noteIssued s n).turn = s.turn := rfl

/-! ### ackOps -/

@[simp] theorem ackOps_powered (s : State) (n : Nat) : (ackOps s n).powered = s.powered := rfl
@[simp] theorem ackOps_booted (s : State) (n : Nat) : (ackOps s n).booted = s.booted := rfl
@[simp] theorem ackOps_bootstat (s : State) (n : Nat) : (ackOps s n).bootstat = s.bootstat := rfl
@[simp] theorem ackOps_linkUp (s : State) (n : Nat) : (ackOps s n).linkUp = s.linkUp := rfl
@[simp] theorem ackOps_fused (s : State) (n : Nat) : (ackOps s n).fused = s.fused := rfl
@[simp] theorem ackOps_fwHash (s : State) (n : Nat) : (ackOps s n).fwHash = s.fwHash := rfl
@[simp] theorem ackOps_fwVersion (s : State) (n : Nat) : (ackOps s n).fwVersion = s.fwVersion := rfl
@[simp] theorem ackOps_now (s : State) (n : Nat) : (ackOps s n).now = s.now := rfl
@[simp] theorem ackOps_dies (s : State) (n : Nat) : (ackOps s n).dies = s.dies := rfl
@[simp] theorem ackOps_cores (s : State) (n : Nat) : (ackOps s n).cores = s.cores := rfl
@[simp] theorem ackOps_quads (s : State) (n : Nat) : (ackOps s n).quads = s.quads := rfl
@[simp] theorem ackOps_parts (s : State) (n : Nat) : (ackOps s n).parts = s.parts := rfl
@[simp] theorem ackOps_grids (s : State) (n : Nat) : (ackOps s n).grids = s.grids := rfl
@[simp] theorem ackOps_jobs (s : State) (n : Nat) : (ackOps s n).jobs = s.jobs := rfl
@[simp] theorem ackOps_teams (s : State) (n : Nat) : (ackOps s n).teams = s.teams := rfl
@[simp] theorem ackOps_groups (s : State) (n : Nat) : (ackOps s n).groups = s.groups := rfl
@[simp] theorem ackOps_threads (s : State) (n : Nat) : (ackOps s n).threads = s.threads := rfl
@[simp] theorem ackOps_homes (s : State) (n : Nat) : (ackOps s n).homes = s.homes := rfl
@[simp] theorem ackOps_posted (s : State) (n : Nat) : (ackOps s n).posted = s.posted := rfl
@[simp] theorem ackOps_bad (s : State) (n : Nat) : (ackOps s n).bad = s.bad := rfl
@[simp] theorem ackOps_funcs (s : State) (n : Nat) : (ackOps s n).funcs = s.funcs := rfl
@[simp] theorem ackOps_gddr (s : State) (n : Nat) : (ackOps s n).gddr = s.gddr := rfl
@[simp] theorem ackOps_hostMem (s : State) (n : Nat) : (ackOps s n).hostMem = s.hostMem := rfl
@[simp] theorem ackOps_peerMem (s : State) (n : Nat) : (ackOps s n).peerMem = s.peerMem := rfl
@[simp] theorem ackOps_nvme (s : State) (n : Nat) : (ackOps s n).nvme = s.nvme := rfl
@[simp] theorem ackOps_nvmePresent (s : State) (n : Nat) : (ackOps s n).nvmePresent = s.nvmePresent := rfl
@[simp] theorem ackOps_flash (s : State) (n : Nat) : (ackOps s n).flash = s.flash := rfl
@[simp] theorem ackOps_agenda (s : State) (n : Nat) : (ackOps s n).agenda = s.agenda := rfl
@[simp] theorem ackOps_cur (s : State) (n : Nat) : (ackOps s n).cur = s.cur := rfl
@[simp] theorem ackOps_fresh (s : State) (n : Nat) : (ackOps s n).fresh = s.fresh := rfl
@[simp] theorem ackOps_nextId (s : State) (n : Nat) : (ackOps s n).nextId = s.nextId := rfl
@[simp] theorem ackOps_turn (s : State) (n : Nat) : (ackOps s n).turn = s.turn := rfl

/-! ### countEvent -/

@[simp] theorem countEvent_powered (s : State) (c k : Nat) : (countEvent s c k).powered = s.powered := by
  unfold countEvent; split <;> (try split) <;> rfl
@[simp] theorem countEvent_booted (s : State) (c k : Nat) : (countEvent s c k).booted = s.booted := by
  unfold countEvent; split <;> (try split) <;> rfl
@[simp] theorem countEvent_bootstat (s : State) (c k : Nat) : (countEvent s c k).bootstat = s.bootstat := by
  unfold countEvent; split <;> (try split) <;> rfl
@[simp] theorem countEvent_linkUp (s : State) (c k : Nat) : (countEvent s c k).linkUp = s.linkUp := by
  unfold countEvent; split <;> (try split) <;> rfl
@[simp] theorem countEvent_fused (s : State) (c k : Nat) : (countEvent s c k).fused = s.fused := by
  unfold countEvent; split <;> (try split) <;> rfl
@[simp] theorem countEvent_fwHash (s : State) (c k : Nat) : (countEvent s c k).fwHash = s.fwHash := by
  unfold countEvent; split <;> (try split) <;> rfl
@[simp] theorem countEvent_fwVersion (s : State) (c k : Nat) : (countEvent s c k).fwVersion = s.fwVersion := by
  unfold countEvent; split <;> (try split) <;> rfl
@[simp] theorem countEvent_now (s : State) (c k : Nat) : (countEvent s c k).now = s.now := by
  unfold countEvent; split <;> (try split) <;> rfl
@[simp] theorem countEvent_quads (s : State) (c k : Nat) : (countEvent s c k).quads = s.quads := by
  unfold countEvent; split <;> (try split) <;> rfl
@[simp] theorem countEvent_parts (s : State) (c k : Nat) : (countEvent s c k).parts = s.parts := by
  unfold countEvent; split <;> (try split) <;> rfl
@[simp] theorem countEvent_grids (s : State) (c k : Nat) : (countEvent s c k).grids = s.grids := by
  unfold countEvent; split <;> (try split) <;> rfl
@[simp] theorem countEvent_jobs (s : State) (c k : Nat) : (countEvent s c k).jobs = s.jobs := by
  unfold countEvent; split <;> (try split) <;> rfl
@[simp] theorem countEvent_teams (s : State) (c k : Nat) : (countEvent s c k).teams = s.teams := by
  unfold countEvent; split <;> (try split) <;> rfl
@[simp] theorem countEvent_groups (s : State) (c k : Nat) : (countEvent s c k).groups = s.groups := by
  unfold countEvent; split <;> (try split) <;> rfl
@[simp] theorem countEvent_threads (s : State) (c k : Nat) : (countEvent s c k).threads = s.threads := by
  unfold countEvent; split <;> (try split) <;> rfl
@[simp] theorem countEvent_ops (s : State) (c k : Nat) : (countEvent s c k).ops = s.ops := by
  unfold countEvent; split <;> (try split) <;> rfl
@[simp] theorem countEvent_homes (s : State) (c k : Nat) : (countEvent s c k).homes = s.homes := by
  unfold countEvent; split <;> (try split) <;> rfl
@[simp] theorem countEvent_posted (s : State) (c k : Nat) : (countEvent s c k).posted = s.posted := by
  unfold countEvent; split <;> (try split) <;> rfl
@[simp] theorem countEvent_bad (s : State) (c k : Nat) : (countEvent s c k).bad = s.bad := by
  unfold countEvent; split <;> (try split) <;> rfl
@[simp] theorem countEvent_funcs (s : State) (c k : Nat) : (countEvent s c k).funcs = s.funcs := by
  unfold countEvent; split <;> (try split) <;> rfl
@[simp] theorem countEvent_gddr (s : State) (c k : Nat) : (countEvent s c k).gddr = s.gddr := by
  unfold countEvent; split <;> (try split) <;> rfl
@[simp] theorem countEvent_hostMem (s : State) (c k : Nat) : (countEvent s c k).hostMem = s.hostMem := by
  unfold countEvent; split <;> (try split) <;> rfl
@[simp] theorem countEvent_peerMem (s : State) (c k : Nat) : (countEvent s c k).peerMem = s.peerMem := by
  unfold countEvent; split <;> (try split) <;> rfl
@[simp] theorem countEvent_nvme (s : State) (c k : Nat) : (countEvent s c k).nvme = s.nvme := by
  unfold countEvent; split <;> (try split) <;> rfl
@[simp] theorem countEvent_nvmePresent (s : State) (c k : Nat) : (countEvent s c k).nvmePresent = s.nvmePresent := by
  unfold countEvent; split <;> (try split) <;> rfl
@[simp] theorem countEvent_flash (s : State) (c k : Nat) : (countEvent s c k).flash = s.flash := by
  unfold countEvent; split <;> (try split) <;> rfl
@[simp] theorem countEvent_agenda (s : State) (c k : Nat) : (countEvent s c k).agenda = s.agenda := by
  unfold countEvent; split <;> (try split) <;> rfl
@[simp] theorem countEvent_cur (s : State) (c k : Nat) : (countEvent s c k).cur = s.cur := by
  unfold countEvent; split <;> (try split) <;> rfl
@[simp] theorem countEvent_fresh (s : State) (c k : Nat) : (countEvent s c k).fresh = s.fresh := by
  unfold countEvent; split <;> (try split) <;> rfl
@[simp] theorem countEvent_nextId (s : State) (c k : Nat) : (countEvent s c k).nextId = s.nextId := by
  unfold countEvent; split <;> (try split) <;> rfl
@[simp] theorem countEvent_turn (s : State) (c k : Nat) : (countEvent s c k).turn = s.turn := by
  unfold countEvent; split <;> (try split) <;> rfl

/-! ### modLane -/

@[simp] theorem modLane_id (g : Group) (i : Nat) (f : Lane → Lane) : (modLane g i f).id = g.id := rfl
@[simp] theorem modLane_team (g : Group) (i : Nat) (f : Lane → Lane) : (modLane g i f).team = g.team := rfl
@[simp] theorem modLane_idx (g : Group) (i : Nat) (f : Lane → Lane) : (modLane g i f).idx = g.idx := rfl
@[simp] theorem modLane_w (g : Group) (i : Nat) (f : Lane → Lane) : (modLane g i f).w = g.w := rfl
@[simp] theorem modLane_vn (g : Group) (i : Nat) (f : Lane → Lane) : (modLane g i f).vn = g.vn := rfl
@[simp] theorem modLane_core (g : Group) (i : Nat) (f : Lane → Lane) : (modLane g i f).core = g.core := rfl
@[simp] theorem modLane_quarter (g : Group) (i : Nat) (f : Lane → Lane) : (modLane g i f).quarter = g.quarter := rfl
@[simp] theorem modLane_landed (g : Group) (i : Nat) (f : Lane → Lane) : (modLane g i f).landed = g.landed := rfl
@[simp] theorem modLane_shipping (g : Group) (i : Nat) (f : Lane → Lane) : (modLane g i f).shipping = g.shipping := rfl
@[simp] theorem modLane_age (g : Group) (i : Nat) (f : Lane → Lane) : (modLane g i f).age = g.age := rfl
@[simp] theorem modLane_s (g : Group) (i : Nat) (f : Lane → Lane) : (modLane g i f).s = g.s := rfl
@[simp] theorem modLane_k (g : Group) (i : Nat) (f : Lane → Lane) : (modLane g i f).k = g.k := rfl
@[simp] theorem modLane_fst (g : Group) (i : Nat) (f : Lane → Lane) : (modLane g i f).fst = g.fst := rfl
@[simp] theorem modLane_ften (g : Group) (i : Nat) (f : Lane → Lane) : (modLane g i f).ften = g.ften := rfl
@[simp] theorem modLane_fmode (g : Group) (i : Nat) (f : Lane → Lane) : (modLane g i f).fmode = g.fmode := rfl
@[simp] theorem modLane_splim (g : Group) (i : Nat) (f : Lane → Lane) : (modLane g i f).splim = g.splim := rfl
@[simp] theorem modLane_privb (g : Group) (i : Nat) (f : Lane → Lane) : (modLane g i f).privb = g.privb := rfl
@[simp] theorem modLane_trap (g : Group) (i : Nat) (f : Lane → Lane) : (modLane g i f).trap = g.trap := rfl
@[simp] theorem modLane_emu (g : Group) (i : Nat) (f : Lane → Lane) : (modLane g i f).emu = g.emu := rfl
@[simp] theorem modLane_emuRec (g : Group) (i : Nat) (f : Lane → Lane) : (modLane g i f).emuRec = g.emuRec := rfl
@[simp] theorem modLane_area (g : Group) (i : Nat) (f : Lane → Lane) : (modLane g i f).area = g.area := rfl
@[simp] theorem modLane_run (g : Group) (i : Nat) (f : Lane → Lane) : (modLane g i f).run = g.run := rfl
@[simp] theorem modLane_lastLow (g : Group) (i : Nat) (f : Lane → Lane) : (modLane g i f).lastLow = g.lastLow := rfl
@[simp] theorem modLane_traps (g : Group) (i : Nat) (f : Lane → Lane) : (modLane g i f).traps = g.traps := rfl
@[simp] theorem modLane_after (g : Group) (i : Nat) (f : Lane → Lane) : (modLane g i f).after = g.after := rfl
@[simp] theorem modLane_yield (g : Group) (i : Nat) (f : Lane → Lane) : (modLane g i f).yield = g.yield := rfl
@[simp] theorem modLane_latches (g : Group) (i : Nat) (f : Lane → Lane) : (modLane g i f).latches = g.latches := rfl
@[simp] theorem modLane_copyFaults (g : Group) (i : Nat) (f : Lane → Lane) : (modLane g i f).copyFaults = g.copyFaults := rfl
@[simp] theorem modLane_stepping (g : Group) (i : Nat) (f : Lane → Lane) : (modLane g i f).stepping = g.stepping := rfl
@[simp] theorem modLane_resumed (g : Group) (i : Nat) (f : Lane → Lane) : (modLane g i f).resumed = g.resumed := rfl
@[simp] theorem modLane_skips (g : Group) (i : Nat) (f : Lane → Lane) : (modLane g i f).skips = g.skips := rfl
@[simp] theorem modLane_sets (g : Group) (i : Nat) (f : Lane → Lane) : (modLane g i f).sets = g.sets := rfl
@[simp] theorem modLane_bad (g : Group) (i : Nat) (f : Lane → Lane) : (modLane g i f).bad = g.bad := rfl
@[simp] theorem modLane_replays (g : Group) (i : Nat) (f : Lane → Lane) : (modLane g i f).replays = g.replays := rfl

/-! ### modLanes -/

@[simp] theorem modLanes_id (g : Group) (m : DWord) (f : Nat → Lane → Lane) : (modLanes g m f).id = g.id := rfl
@[simp] theorem modLanes_team (g : Group) (m : DWord) (f : Nat → Lane → Lane) : (modLanes g m f).team = g.team := rfl
@[simp] theorem modLanes_idx (g : Group) (m : DWord) (f : Nat → Lane → Lane) : (modLanes g m f).idx = g.idx := rfl
@[simp] theorem modLanes_w (g : Group) (m : DWord) (f : Nat → Lane → Lane) : (modLanes g m f).w = g.w := rfl
@[simp] theorem modLanes_vn (g : Group) (m : DWord) (f : Nat → Lane → Lane) : (modLanes g m f).vn = g.vn := rfl
@[simp] theorem modLanes_core (g : Group) (m : DWord) (f : Nat → Lane → Lane) : (modLanes g m f).core = g.core := rfl
@[simp] theorem modLanes_quarter (g : Group) (m : DWord) (f : Nat → Lane → Lane) : (modLanes g m f).quarter = g.quarter := rfl
@[simp] theorem modLanes_landed (g : Group) (m : DWord) (f : Nat → Lane → Lane) : (modLanes g m f).landed = g.landed := rfl
@[simp] theorem modLanes_shipping (g : Group) (m : DWord) (f : Nat → Lane → Lane) : (modLanes g m f).shipping = g.shipping := rfl
@[simp] theorem modLanes_age (g : Group) (m : DWord) (f : Nat → Lane → Lane) : (modLanes g m f).age = g.age := rfl
@[simp] theorem modLanes_s (g : Group) (m : DWord) (f : Nat → Lane → Lane) : (modLanes g m f).s = g.s := rfl
@[simp] theorem modLanes_k (g : Group) (m : DWord) (f : Nat → Lane → Lane) : (modLanes g m f).k = g.k := rfl
@[simp] theorem modLanes_fst (g : Group) (m : DWord) (f : Nat → Lane → Lane) : (modLanes g m f).fst = g.fst := rfl
@[simp] theorem modLanes_ften (g : Group) (m : DWord) (f : Nat → Lane → Lane) : (modLanes g m f).ften = g.ften := rfl
@[simp] theorem modLanes_fmode (g : Group) (m : DWord) (f : Nat → Lane → Lane) : (modLanes g m f).fmode = g.fmode := rfl
@[simp] theorem modLanes_splim (g : Group) (m : DWord) (f : Nat → Lane → Lane) : (modLanes g m f).splim = g.splim := rfl
@[simp] theorem modLanes_privb (g : Group) (m : DWord) (f : Nat → Lane → Lane) : (modLanes g m f).privb = g.privb := rfl
@[simp] theorem modLanes_trap (g : Group) (m : DWord) (f : Nat → Lane → Lane) : (modLanes g m f).trap = g.trap := rfl
@[simp] theorem modLanes_emu (g : Group) (m : DWord) (f : Nat → Lane → Lane) : (modLanes g m f).emu = g.emu := rfl
@[simp] theorem modLanes_emuRec (g : Group) (m : DWord) (f : Nat → Lane → Lane) : (modLanes g m f).emuRec = g.emuRec := rfl
@[simp] theorem modLanes_area (g : Group) (m : DWord) (f : Nat → Lane → Lane) : (modLanes g m f).area = g.area := rfl
@[simp] theorem modLanes_run (g : Group) (m : DWord) (f : Nat → Lane → Lane) : (modLanes g m f).run = g.run := rfl
@[simp] theorem modLanes_lastLow (g : Group) (m : DWord) (f : Nat → Lane → Lane) : (modLanes g m f).lastLow = g.lastLow := rfl
@[simp] theorem modLanes_traps (g : Group) (m : DWord) (f : Nat → Lane → Lane) : (modLanes g m f).traps = g.traps := rfl
@[simp] theorem modLanes_after (g : Group) (m : DWord) (f : Nat → Lane → Lane) : (modLanes g m f).after = g.after := rfl
@[simp] theorem modLanes_yield (g : Group) (m : DWord) (f : Nat → Lane → Lane) : (modLanes g m f).yield = g.yield := rfl
@[simp] theorem modLanes_latches (g : Group) (m : DWord) (f : Nat → Lane → Lane) : (modLanes g m f).latches = g.latches := rfl
@[simp] theorem modLanes_copyFaults (g : Group) (m : DWord) (f : Nat → Lane → Lane) : (modLanes g m f).copyFaults = g.copyFaults := rfl
@[simp] theorem modLanes_stepping (g : Group) (m : DWord) (f : Nat → Lane → Lane) : (modLanes g m f).stepping = g.stepping := rfl
@[simp] theorem modLanes_resumed (g : Group) (m : DWord) (f : Nat → Lane → Lane) : (modLanes g m f).resumed = g.resumed := rfl
@[simp] theorem modLanes_skips (g : Group) (m : DWord) (f : Nat → Lane → Lane) : (modLanes g m f).skips = g.skips := rfl
@[simp] theorem modLanes_sets (g : Group) (m : DWord) (f : Nat → Lane → Lane) : (modLanes g m f).sets = g.sets := rfl
@[simp] theorem modLanes_bad (g : Group) (m : DWord) (f : Nat → Lane → Lane) : (modLanes g m f).bad = g.bad := rfl
@[simp] theorem modLanes_replays (g : Group) (m : DWord) (f : Nat → Lane → Lane) : (modLanes g m f).replays = g.replays := rfl

/-! ### setVreg -/

@[simp] theorem setVreg_id (g : Group) (i r : Nat) (x : Word) : (setVreg g i r x).id = g.id := rfl
@[simp] theorem setVreg_team (g : Group) (i r : Nat) (x : Word) : (setVreg g i r x).team = g.team := rfl
@[simp] theorem setVreg_idx (g : Group) (i r : Nat) (x : Word) : (setVreg g i r x).idx = g.idx := rfl
@[simp] theorem setVreg_w (g : Group) (i r : Nat) (x : Word) : (setVreg g i r x).w = g.w := rfl
@[simp] theorem setVreg_vn (g : Group) (i r : Nat) (x : Word) : (setVreg g i r x).vn = g.vn := rfl
@[simp] theorem setVreg_core (g : Group) (i r : Nat) (x : Word) : (setVreg g i r x).core = g.core := rfl
@[simp] theorem setVreg_quarter (g : Group) (i r : Nat) (x : Word) : (setVreg g i r x).quarter = g.quarter := rfl
@[simp] theorem setVreg_landed (g : Group) (i r : Nat) (x : Word) : (setVreg g i r x).landed = g.landed := rfl
@[simp] theorem setVreg_shipping (g : Group) (i r : Nat) (x : Word) : (setVreg g i r x).shipping = g.shipping := rfl
@[simp] theorem setVreg_age (g : Group) (i r : Nat) (x : Word) : (setVreg g i r x).age = g.age := rfl
@[simp] theorem setVreg_s (g : Group) (i r : Nat) (x : Word) : (setVreg g i r x).s = g.s := rfl
@[simp] theorem setVreg_k (g : Group) (i r : Nat) (x : Word) : (setVreg g i r x).k = g.k := rfl
@[simp] theorem setVreg_fst (g : Group) (i r : Nat) (x : Word) : (setVreg g i r x).fst = g.fst := rfl
@[simp] theorem setVreg_ften (g : Group) (i r : Nat) (x : Word) : (setVreg g i r x).ften = g.ften := rfl
@[simp] theorem setVreg_fmode (g : Group) (i r : Nat) (x : Word) : (setVreg g i r x).fmode = g.fmode := rfl
@[simp] theorem setVreg_splim (g : Group) (i r : Nat) (x : Word) : (setVreg g i r x).splim = g.splim := rfl
@[simp] theorem setVreg_privb (g : Group) (i r : Nat) (x : Word) : (setVreg g i r x).privb = g.privb := rfl
@[simp] theorem setVreg_trap (g : Group) (i r : Nat) (x : Word) : (setVreg g i r x).trap = g.trap := rfl
@[simp] theorem setVreg_emu (g : Group) (i r : Nat) (x : Word) : (setVreg g i r x).emu = g.emu := rfl
@[simp] theorem setVreg_emuRec (g : Group) (i r : Nat) (x : Word) : (setVreg g i r x).emuRec = g.emuRec := rfl
@[simp] theorem setVreg_area (g : Group) (i r : Nat) (x : Word) : (setVreg g i r x).area = g.area := rfl
@[simp] theorem setVreg_run (g : Group) (i r : Nat) (x : Word) : (setVreg g i r x).run = g.run := rfl
@[simp] theorem setVreg_lastLow (g : Group) (i r : Nat) (x : Word) : (setVreg g i r x).lastLow = g.lastLow := rfl
@[simp] theorem setVreg_traps (g : Group) (i r : Nat) (x : Word) : (setVreg g i r x).traps = g.traps := rfl
@[simp] theorem setVreg_after (g : Group) (i r : Nat) (x : Word) : (setVreg g i r x).after = g.after := rfl
@[simp] theorem setVreg_yield (g : Group) (i r : Nat) (x : Word) : (setVreg g i r x).yield = g.yield := rfl
@[simp] theorem setVreg_latches (g : Group) (i r : Nat) (x : Word) : (setVreg g i r x).latches = g.latches := rfl
@[simp] theorem setVreg_copyFaults (g : Group) (i r : Nat) (x : Word) : (setVreg g i r x).copyFaults = g.copyFaults := rfl
@[simp] theorem setVreg_stepping (g : Group) (i r : Nat) (x : Word) : (setVreg g i r x).stepping = g.stepping := rfl
@[simp] theorem setVreg_resumed (g : Group) (i r : Nat) (x : Word) : (setVreg g i r x).resumed = g.resumed := rfl
@[simp] theorem setVreg_skips (g : Group) (i r : Nat) (x : Word) : (setVreg g i r x).skips = g.skips := rfl
@[simp] theorem setVreg_sets (g : Group) (i r : Nat) (x : Word) : (setVreg g i r x).sets = g.sets := rfl
@[simp] theorem setVreg_replays (g : Group) (i r : Nat) (x : Word) : (setVreg g i r x).replays = g.replays := rfl

/-! ### setSreg -/

@[simp] theorem setSreg_id (g : Group) (r : Nat) (x : DWord) : (setSreg g r x).id = g.id := rfl
@[simp] theorem setSreg_team (g : Group) (r : Nat) (x : DWord) : (setSreg g r x).team = g.team := rfl
@[simp] theorem setSreg_idx (g : Group) (r : Nat) (x : DWord) : (setSreg g r x).idx = g.idx := rfl
@[simp] theorem setSreg_w (g : Group) (r : Nat) (x : DWord) : (setSreg g r x).w = g.w := rfl
@[simp] theorem setSreg_vn (g : Group) (r : Nat) (x : DWord) : (setSreg g r x).vn = g.vn := rfl
@[simp] theorem setSreg_core (g : Group) (r : Nat) (x : DWord) : (setSreg g r x).core = g.core := rfl
@[simp] theorem setSreg_quarter (g : Group) (r : Nat) (x : DWord) : (setSreg g r x).quarter = g.quarter := rfl
@[simp] theorem setSreg_landed (g : Group) (r : Nat) (x : DWord) : (setSreg g r x).landed = g.landed := rfl
@[simp] theorem setSreg_shipping (g : Group) (r : Nat) (x : DWord) : (setSreg g r x).shipping = g.shipping := rfl
@[simp] theorem setSreg_age (g : Group) (r : Nat) (x : DWord) : (setSreg g r x).age = g.age := rfl
@[simp] theorem setSreg_lanes (g : Group) (r : Nat) (x : DWord) : (setSreg g r x).lanes = g.lanes := rfl
@[simp] theorem setSreg_k (g : Group) (r : Nat) (x : DWord) : (setSreg g r x).k = g.k := rfl
@[simp] theorem setSreg_fst (g : Group) (r : Nat) (x : DWord) : (setSreg g r x).fst = g.fst := rfl
@[simp] theorem setSreg_ften (g : Group) (r : Nat) (x : DWord) : (setSreg g r x).ften = g.ften := rfl
@[simp] theorem setSreg_fmode (g : Group) (r : Nat) (x : DWord) : (setSreg g r x).fmode = g.fmode := rfl
@[simp] theorem setSreg_splim (g : Group) (r : Nat) (x : DWord) : (setSreg g r x).splim = g.splim := rfl
@[simp] theorem setSreg_privb (g : Group) (r : Nat) (x : DWord) : (setSreg g r x).privb = g.privb := rfl
@[simp] theorem setSreg_trap (g : Group) (r : Nat) (x : DWord) : (setSreg g r x).trap = g.trap := rfl
@[simp] theorem setSreg_emu (g : Group) (r : Nat) (x : DWord) : (setSreg g r x).emu = g.emu := rfl
@[simp] theorem setSreg_emuRec (g : Group) (r : Nat) (x : DWord) : (setSreg g r x).emuRec = g.emuRec := rfl
@[simp] theorem setSreg_area (g : Group) (r : Nat) (x : DWord) : (setSreg g r x).area = g.area := rfl
@[simp] theorem setSreg_run (g : Group) (r : Nat) (x : DWord) : (setSreg g r x).run = g.run := rfl
@[simp] theorem setSreg_lastLow (g : Group) (r : Nat) (x : DWord) : (setSreg g r x).lastLow = g.lastLow := rfl
@[simp] theorem setSreg_traps (g : Group) (r : Nat) (x : DWord) : (setSreg g r x).traps = g.traps := rfl
@[simp] theorem setSreg_after (g : Group) (r : Nat) (x : DWord) : (setSreg g r x).after = g.after := rfl
@[simp] theorem setSreg_yield (g : Group) (r : Nat) (x : DWord) : (setSreg g r x).yield = g.yield := rfl
@[simp] theorem setSreg_latches (g : Group) (r : Nat) (x : DWord) : (setSreg g r x).latches = g.latches := rfl
@[simp] theorem setSreg_copyFaults (g : Group) (r : Nat) (x : DWord) : (setSreg g r x).copyFaults = g.copyFaults := rfl
@[simp] theorem setSreg_stepping (g : Group) (r : Nat) (x : DWord) : (setSreg g r x).stepping = g.stepping := rfl
@[simp] theorem setSreg_resumed (g : Group) (r : Nat) (x : DWord) : (setSreg g r x).resumed = g.resumed := rfl
@[simp] theorem setSreg_skips (g : Group) (r : Nat) (x : DWord) : (setSreg g r x).skips = g.skips := rfl
@[simp] theorem setSreg_sets (g : Group) (r : Nat) (x : DWord) : (setSreg g r x).sets = g.sets := rfl
@[simp] theorem setSreg_replays (g : Group) (r : Nat) (x : DWord) : (setSreg g r x).replays = g.replays := rfl

/-! ### setPcs -/

@[simp] theorem setPcs_id (g : Group) (m : DWord) (pc : Word) : (setPcs g m pc).id = g.id := rfl
@[simp] theorem setPcs_team (g : Group) (m : DWord) (pc : Word) : (setPcs g m pc).team = g.team := rfl
@[simp] theorem setPcs_idx (g : Group) (m : DWord) (pc : Word) : (setPcs g m pc).idx = g.idx := rfl
@[simp] theorem setPcs_w (g : Group) (m : DWord) (pc : Word) : (setPcs g m pc).w = g.w := rfl
@[simp] theorem setPcs_vn (g : Group) (m : DWord) (pc : Word) : (setPcs g m pc).vn = g.vn := rfl
@[simp] theorem setPcs_core (g : Group) (m : DWord) (pc : Word) : (setPcs g m pc).core = g.core := rfl
@[simp] theorem setPcs_quarter (g : Group) (m : DWord) (pc : Word) : (setPcs g m pc).quarter = g.quarter := rfl
@[simp] theorem setPcs_landed (g : Group) (m : DWord) (pc : Word) : (setPcs g m pc).landed = g.landed := rfl
@[simp] theorem setPcs_shipping (g : Group) (m : DWord) (pc : Word) : (setPcs g m pc).shipping = g.shipping := rfl
@[simp] theorem setPcs_age (g : Group) (m : DWord) (pc : Word) : (setPcs g m pc).age = g.age := rfl
@[simp] theorem setPcs_s (g : Group) (m : DWord) (pc : Word) : (setPcs g m pc).s = g.s := rfl
@[simp] theorem setPcs_k (g : Group) (m : DWord) (pc : Word) : (setPcs g m pc).k = g.k := rfl
@[simp] theorem setPcs_fst (g : Group) (m : DWord) (pc : Word) : (setPcs g m pc).fst = g.fst := rfl
@[simp] theorem setPcs_ften (g : Group) (m : DWord) (pc : Word) : (setPcs g m pc).ften = g.ften := rfl
@[simp] theorem setPcs_fmode (g : Group) (m : DWord) (pc : Word) : (setPcs g m pc).fmode = g.fmode := rfl
@[simp] theorem setPcs_splim (g : Group) (m : DWord) (pc : Word) : (setPcs g m pc).splim = g.splim := rfl
@[simp] theorem setPcs_privb (g : Group) (m : DWord) (pc : Word) : (setPcs g m pc).privb = g.privb := rfl
@[simp] theorem setPcs_trap (g : Group) (m : DWord) (pc : Word) : (setPcs g m pc).trap = g.trap := rfl
@[simp] theorem setPcs_emu (g : Group) (m : DWord) (pc : Word) : (setPcs g m pc).emu = g.emu := rfl
@[simp] theorem setPcs_emuRec (g : Group) (m : DWord) (pc : Word) : (setPcs g m pc).emuRec = g.emuRec := rfl
@[simp] theorem setPcs_area (g : Group) (m : DWord) (pc : Word) : (setPcs g m pc).area = g.area := rfl
@[simp] theorem setPcs_run (g : Group) (m : DWord) (pc : Word) : (setPcs g m pc).run = g.run := rfl
@[simp] theorem setPcs_lastLow (g : Group) (m : DWord) (pc : Word) : (setPcs g m pc).lastLow = g.lastLow := rfl
@[simp] theorem setPcs_traps (g : Group) (m : DWord) (pc : Word) : (setPcs g m pc).traps = g.traps := rfl
@[simp] theorem setPcs_after (g : Group) (m : DWord) (pc : Word) : (setPcs g m pc).after = g.after := rfl
@[simp] theorem setPcs_yield (g : Group) (m : DWord) (pc : Word) : (setPcs g m pc).yield = g.yield := rfl
@[simp] theorem setPcs_latches (g : Group) (m : DWord) (pc : Word) : (setPcs g m pc).latches = g.latches := rfl
@[simp] theorem setPcs_copyFaults (g : Group) (m : DWord) (pc : Word) : (setPcs g m pc).copyFaults = g.copyFaults := rfl
@[simp] theorem setPcs_stepping (g : Group) (m : DWord) (pc : Word) : (setPcs g m pc).stepping = g.stepping := rfl
@[simp] theorem setPcs_resumed (g : Group) (m : DWord) (pc : Word) : (setPcs g m pc).resumed = g.resumed := rfl
@[simp] theorem setPcs_skips (g : Group) (m : DWord) (pc : Word) : (setPcs g m pc).skips = g.skips := rfl
@[simp] theorem setPcs_sets (g : Group) (m : DWord) (pc : Word) : (setPcs g m pc).sets = g.sets := rfl
@[simp] theorem setPcs_bad (g : Group) (m : DWord) (pc : Word) : (setPcs g m pc).bad = g.bad := rfl
@[simp] theorem setPcs_replays (g : Group) (m : DWord) (pc : Word) : (setPcs g m pc).replays = g.replays := rfl

/-! ### parkLanes -/

@[simp] theorem parkLanes_id (g : Group) (m : DWord) (p : Park) : (parkLanes g m p).id = g.id := rfl
@[simp] theorem parkLanes_team (g : Group) (m : DWord) (p : Park) : (parkLanes g m p).team = g.team := rfl
@[simp] theorem parkLanes_idx (g : Group) (m : DWord) (p : Park) : (parkLanes g m p).idx = g.idx := rfl
@[simp] theorem parkLanes_w (g : Group) (m : DWord) (p : Park) : (parkLanes g m p).w = g.w := rfl
@[simp] theorem parkLanes_vn (g : Group) (m : DWord) (p : Park) : (parkLanes g m p).vn = g.vn := rfl
@[simp] theorem parkLanes_core (g : Group) (m : DWord) (p : Park) : (parkLanes g m p).core = g.core := rfl
@[simp] theorem parkLanes_quarter (g : Group) (m : DWord) (p : Park) : (parkLanes g m p).quarter = g.quarter := rfl
@[simp] theorem parkLanes_landed (g : Group) (m : DWord) (p : Park) : (parkLanes g m p).landed = g.landed := rfl
@[simp] theorem parkLanes_shipping (g : Group) (m : DWord) (p : Park) : (parkLanes g m p).shipping = g.shipping := rfl
@[simp] theorem parkLanes_age (g : Group) (m : DWord) (p : Park) : (parkLanes g m p).age = g.age := rfl
@[simp] theorem parkLanes_s (g : Group) (m : DWord) (p : Park) : (parkLanes g m p).s = g.s := rfl
@[simp] theorem parkLanes_k (g : Group) (m : DWord) (p : Park) : (parkLanes g m p).k = g.k := rfl
@[simp] theorem parkLanes_fst (g : Group) (m : DWord) (p : Park) : (parkLanes g m p).fst = g.fst := rfl
@[simp] theorem parkLanes_ften (g : Group) (m : DWord) (p : Park) : (parkLanes g m p).ften = g.ften := rfl
@[simp] theorem parkLanes_fmode (g : Group) (m : DWord) (p : Park) : (parkLanes g m p).fmode = g.fmode := rfl
@[simp] theorem parkLanes_splim (g : Group) (m : DWord) (p : Park) : (parkLanes g m p).splim = g.splim := rfl
@[simp] theorem parkLanes_privb (g : Group) (m : DWord) (p : Park) : (parkLanes g m p).privb = g.privb := rfl
@[simp] theorem parkLanes_trap (g : Group) (m : DWord) (p : Park) : (parkLanes g m p).trap = g.trap := rfl
@[simp] theorem parkLanes_emu (g : Group) (m : DWord) (p : Park) : (parkLanes g m p).emu = g.emu := rfl
@[simp] theorem parkLanes_emuRec (g : Group) (m : DWord) (p : Park) : (parkLanes g m p).emuRec = g.emuRec := rfl
@[simp] theorem parkLanes_area (g : Group) (m : DWord) (p : Park) : (parkLanes g m p).area = g.area := rfl
@[simp] theorem parkLanes_run (g : Group) (m : DWord) (p : Park) : (parkLanes g m p).run = g.run := rfl
@[simp] theorem parkLanes_lastLow (g : Group) (m : DWord) (p : Park) : (parkLanes g m p).lastLow = g.lastLow := rfl
@[simp] theorem parkLanes_traps (g : Group) (m : DWord) (p : Park) : (parkLanes g m p).traps = g.traps := rfl
@[simp] theorem parkLanes_after (g : Group) (m : DWord) (p : Park) : (parkLanes g m p).after = g.after := rfl
@[simp] theorem parkLanes_yield (g : Group) (m : DWord) (p : Park) : (parkLanes g m p).yield = g.yield := rfl
@[simp] theorem parkLanes_latches (g : Group) (m : DWord) (p : Park) : (parkLanes g m p).latches = g.latches := rfl
@[simp] theorem parkLanes_copyFaults (g : Group) (m : DWord) (p : Park) : (parkLanes g m p).copyFaults = g.copyFaults := rfl
@[simp] theorem parkLanes_stepping (g : Group) (m : DWord) (p : Park) : (parkLanes g m p).stepping = g.stepping := rfl
@[simp] theorem parkLanes_resumed (g : Group) (m : DWord) (p : Park) : (parkLanes g m p).resumed = g.resumed := rfl
@[simp] theorem parkLanes_skips (g : Group) (m : DWord) (p : Park) : (parkLanes g m p).skips = g.skips := rfl
@[simp] theorem parkLanes_sets (g : Group) (m : DWord) (p : Park) : (parkLanes g m p).sets = g.sets := rfl
@[simp] theorem parkLanes_bad (g : Group) (m : DWord) (p : Park) : (parkLanes g m p).bad = g.bad := rfl
@[simp] theorem parkLanes_replays (g : Group) (m : DWord) (p : Park) : (parkLanes g m p).replays = g.replays := rfl

/-! ### splitSet -/

@[simp] theorem splitSet_id (g : Group) (m : DWord) : (splitSet g m).id = g.id := rfl
@[simp] theorem splitSet_team (g : Group) (m : DWord) : (splitSet g m).team = g.team := rfl
@[simp] theorem splitSet_idx (g : Group) (m : DWord) : (splitSet g m).idx = g.idx := rfl
@[simp] theorem splitSet_w (g : Group) (m : DWord) : (splitSet g m).w = g.w := rfl
@[simp] theorem splitSet_vn (g : Group) (m : DWord) : (splitSet g m).vn = g.vn := rfl
@[simp] theorem splitSet_core (g : Group) (m : DWord) : (splitSet g m).core = g.core := rfl
@[simp] theorem splitSet_quarter (g : Group) (m : DWord) : (splitSet g m).quarter = g.quarter := rfl
@[simp] theorem splitSet_landed (g : Group) (m : DWord) : (splitSet g m).landed = g.landed := rfl
@[simp] theorem splitSet_shipping (g : Group) (m : DWord) : (splitSet g m).shipping = g.shipping := rfl
@[simp] theorem splitSet_age (g : Group) (m : DWord) : (splitSet g m).age = g.age := rfl
@[simp] theorem splitSet_s (g : Group) (m : DWord) : (splitSet g m).s = g.s := rfl
@[simp] theorem splitSet_k (g : Group) (m : DWord) : (splitSet g m).k = g.k := rfl
@[simp] theorem splitSet_fst (g : Group) (m : DWord) : (splitSet g m).fst = g.fst := rfl
@[simp] theorem splitSet_ften (g : Group) (m : DWord) : (splitSet g m).ften = g.ften := rfl
@[simp] theorem splitSet_fmode (g : Group) (m : DWord) : (splitSet g m).fmode = g.fmode := rfl
@[simp] theorem splitSet_splim (g : Group) (m : DWord) : (splitSet g m).splim = g.splim := rfl
@[simp] theorem splitSet_privb (g : Group) (m : DWord) : (splitSet g m).privb = g.privb := rfl
@[simp] theorem splitSet_trap (g : Group) (m : DWord) : (splitSet g m).trap = g.trap := rfl
@[simp] theorem splitSet_emu (g : Group) (m : DWord) : (splitSet g m).emu = g.emu := rfl
@[simp] theorem splitSet_emuRec (g : Group) (m : DWord) : (splitSet g m).emuRec = g.emuRec := rfl
@[simp] theorem splitSet_area (g : Group) (m : DWord) : (splitSet g m).area = g.area := rfl
@[simp] theorem splitSet_run (g : Group) (m : DWord) : (splitSet g m).run = g.run := rfl
@[simp] theorem splitSet_lastLow (g : Group) (m : DWord) : (splitSet g m).lastLow = g.lastLow := rfl
@[simp] theorem splitSet_traps (g : Group) (m : DWord) : (splitSet g m).traps = g.traps := rfl
@[simp] theorem splitSet_after (g : Group) (m : DWord) : (splitSet g m).after = g.after := rfl
@[simp] theorem splitSet_yield (g : Group) (m : DWord) : (splitSet g m).yield = g.yield := rfl
@[simp] theorem splitSet_latches (g : Group) (m : DWord) : (splitSet g m).latches = g.latches := rfl
@[simp] theorem splitSet_copyFaults (g : Group) (m : DWord) : (splitSet g m).copyFaults = g.copyFaults := rfl
@[simp] theorem splitSet_stepping (g : Group) (m : DWord) : (splitSet g m).stepping = g.stepping := rfl
@[simp] theorem splitSet_resumed (g : Group) (m : DWord) : (splitSet g m).resumed = g.resumed := rfl
@[simp] theorem splitSet_skips (g : Group) (m : DWord) : (splitSet g m).skips = g.skips := rfl
@[simp] theorem splitSet_bad (g : Group) (m : DWord) : (splitSet g m).bad = g.bad := rfl
@[simp] theorem splitSet_replays (g : Group) (m : DWord) : (splitSet g m).replays = g.replays := rfl

/-! ### endRun -/

@[simp] theorem endRun_id (g : Group) : (endRun g).id = g.id := rfl
@[simp] theorem endRun_team (g : Group) : (endRun g).team = g.team := rfl
@[simp] theorem endRun_idx (g : Group) : (endRun g).idx = g.idx := rfl
@[simp] theorem endRun_w (g : Group) : (endRun g).w = g.w := rfl
@[simp] theorem endRun_vn (g : Group) : (endRun g).vn = g.vn := rfl
@[simp] theorem endRun_core (g : Group) : (endRun g).core = g.core := rfl
@[simp] theorem endRun_quarter (g : Group) : (endRun g).quarter = g.quarter := rfl
@[simp] theorem endRun_landed (g : Group) : (endRun g).landed = g.landed := rfl
@[simp] theorem endRun_shipping (g : Group) : (endRun g).shipping = g.shipping := rfl
@[simp] theorem endRun_age (g : Group) : (endRun g).age = g.age := rfl
@[simp] theorem endRun_lanes (g : Group) : (endRun g).lanes = g.lanes := rfl
@[simp] theorem endRun_s (g : Group) : (endRun g).s = g.s := rfl
@[simp] theorem endRun_k (g : Group) : (endRun g).k = g.k := rfl
@[simp] theorem endRun_fst (g : Group) : (endRun g).fst = g.fst := rfl
@[simp] theorem endRun_ften (g : Group) : (endRun g).ften = g.ften := rfl
@[simp] theorem endRun_fmode (g : Group) : (endRun g).fmode = g.fmode := rfl
@[simp] theorem endRun_splim (g : Group) : (endRun g).splim = g.splim := rfl
@[simp] theorem endRun_privb (g : Group) : (endRun g).privb = g.privb := rfl
@[simp] theorem endRun_trap (g : Group) : (endRun g).trap = g.trap := rfl
@[simp] theorem endRun_emu (g : Group) : (endRun g).emu = g.emu := rfl
@[simp] theorem endRun_emuRec (g : Group) : (endRun g).emuRec = g.emuRec := rfl
@[simp] theorem endRun_area (g : Group) : (endRun g).area = g.area := rfl
@[simp] theorem endRun_lastLow (g : Group) : (endRun g).lastLow = g.lastLow := rfl
@[simp] theorem endRun_traps (g : Group) : (endRun g).traps = g.traps := rfl
@[simp] theorem endRun_after (g : Group) : (endRun g).after = g.after := rfl
@[simp] theorem endRun_yield (g : Group) : (endRun g).yield = g.yield := rfl
@[simp] theorem endRun_copyFaults (g : Group) : (endRun g).copyFaults = g.copyFaults := rfl
@[simp] theorem endRun_stepping (g : Group) : (endRun g).stepping = g.stepping := rfl
@[simp] theorem endRun_resumed (g : Group) : (endRun g).resumed = g.resumed := rfl
@[simp] theorem endRun_skips (g : Group) : (endRun g).skips = g.skips := rfl
@[simp] theorem endRun_sets (g : Group) : (endRun g).sets = g.sets := rfl
@[simp] theorem endRun_bad (g : Group) : (endRun g).bad = g.bad := rfl
@[simp] theorem endRun_replays (g : Group) : (endRun g).replays = g.replays := rfl

/-! ### latchAfter -/

@[simp] theorem latchAfter_id (g : Group) (i : Instr) (ws : List RegWrite) : (latchAfter g i ws).id = g.id := rfl
@[simp] theorem latchAfter_team (g : Group) (i : Instr) (ws : List RegWrite) : (latchAfter g i ws).team = g.team := rfl
@[simp] theorem latchAfter_idx (g : Group) (i : Instr) (ws : List RegWrite) : (latchAfter g i ws).idx = g.idx := rfl
@[simp] theorem latchAfter_w (g : Group) (i : Instr) (ws : List RegWrite) : (latchAfter g i ws).w = g.w := rfl
@[simp] theorem latchAfter_vn (g : Group) (i : Instr) (ws : List RegWrite) : (latchAfter g i ws).vn = g.vn := rfl
@[simp] theorem latchAfter_core (g : Group) (i : Instr) (ws : List RegWrite) : (latchAfter g i ws).core = g.core := rfl
@[simp] theorem latchAfter_quarter (g : Group) (i : Instr) (ws : List RegWrite) : (latchAfter g i ws).quarter = g.quarter := rfl
@[simp] theorem latchAfter_landed (g : Group) (i : Instr) (ws : List RegWrite) : (latchAfter g i ws).landed = g.landed := rfl
@[simp] theorem latchAfter_shipping (g : Group) (i : Instr) (ws : List RegWrite) : (latchAfter g i ws).shipping = g.shipping := rfl
@[simp] theorem latchAfter_age (g : Group) (i : Instr) (ws : List RegWrite) : (latchAfter g i ws).age = g.age := rfl
@[simp] theorem latchAfter_lanes (g : Group) (i : Instr) (ws : List RegWrite) : (latchAfter g i ws).lanes = g.lanes := rfl
@[simp] theorem latchAfter_s (g : Group) (i : Instr) (ws : List RegWrite) : (latchAfter g i ws).s = g.s := rfl
@[simp] theorem latchAfter_k (g : Group) (i : Instr) (ws : List RegWrite) : (latchAfter g i ws).k = g.k := rfl
@[simp] theorem latchAfter_fst (g : Group) (i : Instr) (ws : List RegWrite) : (latchAfter g i ws).fst = g.fst := rfl
@[simp] theorem latchAfter_ften (g : Group) (i : Instr) (ws : List RegWrite) : (latchAfter g i ws).ften = g.ften := rfl
@[simp] theorem latchAfter_fmode (g : Group) (i : Instr) (ws : List RegWrite) : (latchAfter g i ws).fmode = g.fmode := rfl
@[simp] theorem latchAfter_splim (g : Group) (i : Instr) (ws : List RegWrite) : (latchAfter g i ws).splim = g.splim := rfl
@[simp] theorem latchAfter_privb (g : Group) (i : Instr) (ws : List RegWrite) : (latchAfter g i ws).privb = g.privb := rfl
@[simp] theorem latchAfter_trap (g : Group) (i : Instr) (ws : List RegWrite) : (latchAfter g i ws).trap = g.trap := rfl
@[simp] theorem latchAfter_emu (g : Group) (i : Instr) (ws : List RegWrite) : (latchAfter g i ws).emu = g.emu := rfl
@[simp] theorem latchAfter_emuRec (g : Group) (i : Instr) (ws : List RegWrite) : (latchAfter g i ws).emuRec = g.emuRec := rfl
@[simp] theorem latchAfter_area (g : Group) (i : Instr) (ws : List RegWrite) : (latchAfter g i ws).area = g.area := rfl
@[simp] theorem latchAfter_run (g : Group) (i : Instr) (ws : List RegWrite) : (latchAfter g i ws).run = g.run := rfl
@[simp] theorem latchAfter_lastLow (g : Group) (i : Instr) (ws : List RegWrite) : (latchAfter g i ws).lastLow = g.lastLow := rfl
@[simp] theorem latchAfter_traps (g : Group) (i : Instr) (ws : List RegWrite) : (latchAfter g i ws).traps = g.traps := rfl
@[simp] theorem latchAfter_after (g : Group) (i : Instr) (ws : List RegWrite) : (latchAfter g i ws).after = g.after := rfl
@[simp] theorem latchAfter_yield (g : Group) (i : Instr) (ws : List RegWrite) : (latchAfter g i ws).yield = g.yield := rfl
@[simp] theorem latchAfter_copyFaults (g : Group) (i : Instr) (ws : List RegWrite) : (latchAfter g i ws).copyFaults = g.copyFaults := rfl
@[simp] theorem latchAfter_stepping (g : Group) (i : Instr) (ws : List RegWrite) : (latchAfter g i ws).stepping = g.stepping := rfl
@[simp] theorem latchAfter_resumed (g : Group) (i : Instr) (ws : List RegWrite) : (latchAfter g i ws).resumed = g.resumed := rfl
@[simp] theorem latchAfter_skips (g : Group) (i : Instr) (ws : List RegWrite) : (latchAfter g i ws).skips = g.skips := rfl
@[simp] theorem latchAfter_sets (g : Group) (i : Instr) (ws : List RegWrite) : (latchAfter g i ws).sets = g.sets := rfl
@[simp] theorem latchAfter_bad (g : Group) (i : Instr) (ws : List RegWrite) : (latchAfter g i ws).bad = g.bad := rfl
@[simp] theorem latchAfter_replays (g : Group) (i : Instr) (ws : List RegWrite) : (latchAfter g i ws).replays = g.replays := rfl

/-! ### setKbit -/

@[simp] theorem setKbit_id (g : Group) (r i : Nat) (b : Bool) : (setKbit g r i b).id = g.id := by
  unfold setKbit; split <;> rfl
@[simp] theorem setKbit_team (g : Group) (r i : Nat) (b : Bool) : (setKbit g r i b).team = g.team := by
  unfold setKbit; split <;> rfl
@[simp] theorem setKbit_idx (g : Group) (r i : Nat) (b : Bool) : (setKbit g r i b).idx = g.idx := by
  unfold setKbit; split <;> rfl
@[simp] theorem setKbit_w (g : Group) (r i : Nat) (b : Bool) : (setKbit g r i b).w = g.w := by
  unfold setKbit; split <;> rfl
@[simp] theorem setKbit_vn (g : Group) (r i : Nat) (b : Bool) : (setKbit g r i b).vn = g.vn := by
  unfold setKbit; split <;> rfl
@[simp] theorem setKbit_core (g : Group) (r i : Nat) (b : Bool) : (setKbit g r i b).core = g.core := by
  unfold setKbit; split <;> rfl
@[simp] theorem setKbit_quarter (g : Group) (r i : Nat) (b : Bool) : (setKbit g r i b).quarter = g.quarter := by
  unfold setKbit; split <;> rfl
@[simp] theorem setKbit_landed (g : Group) (r i : Nat) (b : Bool) : (setKbit g r i b).landed = g.landed := by
  unfold setKbit; split <;> rfl
@[simp] theorem setKbit_shipping (g : Group) (r i : Nat) (b : Bool) : (setKbit g r i b).shipping = g.shipping := by
  unfold setKbit; split <;> rfl
@[simp] theorem setKbit_age (g : Group) (r i : Nat) (b : Bool) : (setKbit g r i b).age = g.age := by
  unfold setKbit; split <;> rfl
@[simp] theorem setKbit_lanes (g : Group) (r i : Nat) (b : Bool) : (setKbit g r i b).lanes = g.lanes := by
  unfold setKbit; split <;> rfl
@[simp] theorem setKbit_s (g : Group) (r i : Nat) (b : Bool) : (setKbit g r i b).s = g.s := by
  unfold setKbit; split <;> rfl
@[simp] theorem setKbit_fst (g : Group) (r i : Nat) (b : Bool) : (setKbit g r i b).fst = g.fst := by
  unfold setKbit; split <;> rfl
@[simp] theorem setKbit_ften (g : Group) (r i : Nat) (b : Bool) : (setKbit g r i b).ften = g.ften := by
  unfold setKbit; split <;> rfl
@[simp] theorem setKbit_fmode (g : Group) (r i : Nat) (b : Bool) : (setKbit g r i b).fmode = g.fmode := by
  unfold setKbit; split <;> rfl
@[simp] theorem setKbit_splim (g : Group) (r i : Nat) (b : Bool) : (setKbit g r i b).splim = g.splim := by
  unfold setKbit; split <;> rfl
@[simp] theorem setKbit_privb (g : Group) (r i : Nat) (b : Bool) : (setKbit g r i b).privb = g.privb := by
  unfold setKbit; split <;> rfl
@[simp] theorem setKbit_trap (g : Group) (r i : Nat) (b : Bool) : (setKbit g r i b).trap = g.trap := by
  unfold setKbit; split <;> rfl
@[simp] theorem setKbit_emu (g : Group) (r i : Nat) (b : Bool) : (setKbit g r i b).emu = g.emu := by
  unfold setKbit; split <;> rfl
@[simp] theorem setKbit_emuRec (g : Group) (r i : Nat) (b : Bool) : (setKbit g r i b).emuRec = g.emuRec := by
  unfold setKbit; split <;> rfl
@[simp] theorem setKbit_area (g : Group) (r i : Nat) (b : Bool) : (setKbit g r i b).area = g.area := by
  unfold setKbit; split <;> rfl
@[simp] theorem setKbit_run (g : Group) (r i : Nat) (b : Bool) : (setKbit g r i b).run = g.run := by
  unfold setKbit; split <;> rfl
@[simp] theorem setKbit_lastLow (g : Group) (r i : Nat) (b : Bool) : (setKbit g r i b).lastLow = g.lastLow := by
  unfold setKbit; split <;> rfl
@[simp] theorem setKbit_traps (g : Group) (r i : Nat) (b : Bool) : (setKbit g r i b).traps = g.traps := by
  unfold setKbit; split <;> rfl
@[simp] theorem setKbit_after (g : Group) (r i : Nat) (b : Bool) : (setKbit g r i b).after = g.after := by
  unfold setKbit; split <;> rfl
@[simp] theorem setKbit_yield (g : Group) (r i : Nat) (b : Bool) : (setKbit g r i b).yield = g.yield := by
  unfold setKbit; split <;> rfl
@[simp] theorem setKbit_latches (g : Group) (r i : Nat) (b : Bool) : (setKbit g r i b).latches = g.latches := by
  unfold setKbit; split <;> rfl
@[simp] theorem setKbit_copyFaults (g : Group) (r i : Nat) (b : Bool) : (setKbit g r i b).copyFaults = g.copyFaults := by
  unfold setKbit; split <;> rfl
@[simp] theorem setKbit_stepping (g : Group) (r i : Nat) (b : Bool) : (setKbit g r i b).stepping = g.stepping := by
  unfold setKbit; split <;> rfl
@[simp] theorem setKbit_resumed (g : Group) (r i : Nat) (b : Bool) : (setKbit g r i b).resumed = g.resumed := by
  unfold setKbit; split <;> rfl
@[simp] theorem setKbit_skips (g : Group) (r i : Nat) (b : Bool) : (setKbit g r i b).skips = g.skips := by
  unfold setKbit; split <;> rfl
@[simp] theorem setKbit_sets (g : Group) (r i : Nat) (b : Bool) : (setKbit g r i b).sets = g.sets := by
  unfold setKbit; split <;> rfl
@[simp] theorem setKbit_replays (g : Group) (r i : Nat) (b : Bool) : (setKbit g r i b).replays = g.replays := by
  unfold setKbit; split <;> rfl

/-! ### applyWrite -/

@[simp] theorem applyWrite_id (g : Group) (w : RegWrite) : (applyWrite g w).id = g.id := by
  cases w <;> simp [applyWrite]
@[simp] theorem applyWrite_team (g : Group) (w : RegWrite) : (applyWrite g w).team = g.team := by
  cases w <;> simp [applyWrite]
@[simp] theorem applyWrite_idx (g : Group) (w : RegWrite) : (applyWrite g w).idx = g.idx := by
  cases w <;> simp [applyWrite]
@[simp] theorem applyWrite_w (g : Group) (w : RegWrite) : (applyWrite g w).w = g.w := by
  cases w <;> simp [applyWrite]
@[simp] theorem applyWrite_vn (g : Group) (w : RegWrite) : (applyWrite g w).vn = g.vn := by
  cases w <;> simp [applyWrite]
@[simp] theorem applyWrite_core (g : Group) (w : RegWrite) : (applyWrite g w).core = g.core := by
  cases w <;> simp [applyWrite]
@[simp] theorem applyWrite_quarter (g : Group) (w : RegWrite) : (applyWrite g w).quarter = g.quarter := by
  cases w <;> simp [applyWrite]
@[simp] theorem applyWrite_landed (g : Group) (w : RegWrite) : (applyWrite g w).landed = g.landed := by
  cases w <;> simp [applyWrite]
@[simp] theorem applyWrite_shipping (g : Group) (w : RegWrite) : (applyWrite g w).shipping = g.shipping := by
  cases w <;> simp [applyWrite]
@[simp] theorem applyWrite_age (g : Group) (w : RegWrite) : (applyWrite g w).age = g.age := by
  cases w <;> simp [applyWrite]
@[simp] theorem applyWrite_fst (g : Group) (w : RegWrite) : (applyWrite g w).fst = g.fst := by
  cases w <;> simp [applyWrite]
@[simp] theorem applyWrite_ften (g : Group) (w : RegWrite) : (applyWrite g w).ften = g.ften := by
  cases w <;> simp [applyWrite]
@[simp] theorem applyWrite_fmode (g : Group) (w : RegWrite) : (applyWrite g w).fmode = g.fmode := by
  cases w <;> simp [applyWrite]
@[simp] theorem applyWrite_splim (g : Group) (w : RegWrite) : (applyWrite g w).splim = g.splim := by
  cases w <;> simp [applyWrite]
@[simp] theorem applyWrite_privb (g : Group) (w : RegWrite) : (applyWrite g w).privb = g.privb := by
  cases w <;> simp [applyWrite]
@[simp] theorem applyWrite_trap (g : Group) (w : RegWrite) : (applyWrite g w).trap = g.trap := by
  cases w <;> simp [applyWrite]
@[simp] theorem applyWrite_emu (g : Group) (w : RegWrite) : (applyWrite g w).emu = g.emu := by
  cases w <;> simp [applyWrite]
@[simp] theorem applyWrite_emuRec (g : Group) (w : RegWrite) : (applyWrite g w).emuRec = g.emuRec := by
  cases w <;> simp [applyWrite]
@[simp] theorem applyWrite_area (g : Group) (w : RegWrite) : (applyWrite g w).area = g.area := by
  cases w <;> simp [applyWrite]
@[simp] theorem applyWrite_run (g : Group) (w : RegWrite) : (applyWrite g w).run = g.run := by
  cases w <;> simp [applyWrite]
@[simp] theorem applyWrite_lastLow (g : Group) (w : RegWrite) : (applyWrite g w).lastLow = g.lastLow := by
  cases w <;> simp [applyWrite]
@[simp] theorem applyWrite_traps (g : Group) (w : RegWrite) : (applyWrite g w).traps = g.traps := by
  cases w <;> simp [applyWrite]
@[simp] theorem applyWrite_after (g : Group) (w : RegWrite) : (applyWrite g w).after = g.after := by
  cases w <;> simp [applyWrite]
@[simp] theorem applyWrite_yield (g : Group) (w : RegWrite) : (applyWrite g w).yield = g.yield := by
  cases w <;> simp [applyWrite]
@[simp] theorem applyWrite_latches (g : Group) (w : RegWrite) : (applyWrite g w).latches = g.latches := by
  cases w <;> simp [applyWrite]
@[simp] theorem applyWrite_copyFaults (g : Group) (w : RegWrite) : (applyWrite g w).copyFaults = g.copyFaults := by
  cases w <;> simp [applyWrite]
@[simp] theorem applyWrite_stepping (g : Group) (w : RegWrite) : (applyWrite g w).stepping = g.stepping := by
  cases w <;> simp [applyWrite]
@[simp] theorem applyWrite_resumed (g : Group) (w : RegWrite) : (applyWrite g w).resumed = g.resumed := by
  cases w <;> simp [applyWrite]
@[simp] theorem applyWrite_skips (g : Group) (w : RegWrite) : (applyWrite g w).skips = g.skips := by
  cases w <;> simp [applyWrite]
@[simp] theorem applyWrite_sets (g : Group) (w : RegWrite) : (applyWrite g w).sets = g.sets := by
  cases w <;> simp [applyWrite]
@[simp] theorem applyWrite_replays (g : Group) (w : RegWrite) : (applyWrite g w).replays = g.replays := by
  cases w <;> simp [applyWrite]

/-! ### countRun -/

@[simp] theorem countRun_id (g : Group) : (countRun g).id = g.id := by
  unfold countRun; split <;> rfl
@[simp] theorem countRun_team (g : Group) : (countRun g).team = g.team := by
  unfold countRun; split <;> rfl
@[simp] theorem countRun_idx (g : Group) : (countRun g).idx = g.idx := by
  unfold countRun; split <;> rfl
@[simp] theorem countRun_w (g : Group) : (countRun g).w = g.w := by
  unfold countRun; split <;> rfl
@[simp] theorem countRun_vn (g : Group) : (countRun g).vn = g.vn := by
  unfold countRun; split <;> rfl
@[simp] theorem countRun_core (g : Group) : (countRun g).core = g.core := by
  unfold countRun; split <;> rfl
@[simp] theorem countRun_quarter (g : Group) : (countRun g).quarter = g.quarter := by
  unfold countRun; split <;> rfl
@[simp] theorem countRun_landed (g : Group) : (countRun g).landed = g.landed := by
  unfold countRun; split <;> rfl
@[simp] theorem countRun_shipping (g : Group) : (countRun g).shipping = g.shipping := by
  unfold countRun; split <;> rfl
@[simp] theorem countRun_age (g : Group) : (countRun g).age = g.age := by
  unfold countRun; split <;> rfl
@[simp] theorem countRun_lanes (g : Group) : (countRun g).lanes = g.lanes := by
  unfold countRun; split <;> rfl
@[simp] theorem countRun_s (g : Group) : (countRun g).s = g.s := by
  unfold countRun; split <;> rfl
@[simp] theorem countRun_k (g : Group) : (countRun g).k = g.k := by
  unfold countRun; split <;> rfl
@[simp] theorem countRun_fst (g : Group) : (countRun g).fst = g.fst := by
  unfold countRun; split <;> rfl
@[simp] theorem countRun_ften (g : Group) : (countRun g).ften = g.ften := by
  unfold countRun; split <;> rfl
@[simp] theorem countRun_fmode (g : Group) : (countRun g).fmode = g.fmode := by
  unfold countRun; split <;> rfl
@[simp] theorem countRun_splim (g : Group) : (countRun g).splim = g.splim := by
  unfold countRun; split <;> rfl
@[simp] theorem countRun_privb (g : Group) : (countRun g).privb = g.privb := by
  unfold countRun; split <;> rfl
@[simp] theorem countRun_trap (g : Group) : (countRun g).trap = g.trap := by
  unfold countRun; split <;> rfl
@[simp] theorem countRun_emu (g : Group) : (countRun g).emu = g.emu := by
  unfold countRun; split <;> rfl
@[simp] theorem countRun_emuRec (g : Group) : (countRun g).emuRec = g.emuRec := by
  unfold countRun; split <;> rfl
@[simp] theorem countRun_area (g : Group) : (countRun g).area = g.area := by
  unfold countRun; split <;> rfl
@[simp] theorem countRun_lastLow (g : Group) : (countRun g).lastLow = g.lastLow := by
  unfold countRun; split <;> rfl
@[simp] theorem countRun_traps (g : Group) : (countRun g).traps = g.traps := by
  unfold countRun; split <;> rfl
@[simp] theorem countRun_after (g : Group) : (countRun g).after = g.after := by
  unfold countRun; split <;> rfl
@[simp] theorem countRun_yield (g : Group) : (countRun g).yield = g.yield := by
  unfold countRun; split <;> rfl
@[simp] theorem countRun_latches (g : Group) : (countRun g).latches = g.latches := by
  unfold countRun; split <;> rfl
@[simp] theorem countRun_copyFaults (g : Group) : (countRun g).copyFaults = g.copyFaults := by
  unfold countRun; split <;> rfl
@[simp] theorem countRun_stepping (g : Group) : (countRun g).stepping = g.stepping := by
  unfold countRun; split <;> rfl
@[simp] theorem countRun_resumed (g : Group) : (countRun g).resumed = g.resumed := by
  unfold countRun; split <;> rfl
@[simp] theorem countRun_skips (g : Group) : (countRun g).skips = g.skips := by
  unfold countRun; split <;> rfl
@[simp] theorem countRun_sets (g : Group) : (countRun g).sets = g.sets := by
  unfold countRun; split <;> rfl
@[simp] theorem countRun_bad (g : Group) : (countRun g).bad = g.bad := by
  unfold countRun; split <;> rfl
@[simp] theorem countRun_replays (g : Group) : (countRun g).replays = g.replays := by
  unfold countRun; split <;> rfl

/-! ### markHeavy -/

@[simp] theorem markHeavy_id (g : Group) (i : Instr) : (markHeavy g i).id = g.id := by
  unfold markHeavy; split <;> (try split) <;> rfl
@[simp] theorem markHeavy_team (g : Group) (i : Instr) : (markHeavy g i).team = g.team := by
  unfold markHeavy; split <;> (try split) <;> rfl
@[simp] theorem markHeavy_idx (g : Group) (i : Instr) : (markHeavy g i).idx = g.idx := by
  unfold markHeavy; split <;> (try split) <;> rfl
@[simp] theorem markHeavy_w (g : Group) (i : Instr) : (markHeavy g i).w = g.w := by
  unfold markHeavy; split <;> (try split) <;> rfl
@[simp] theorem markHeavy_vn (g : Group) (i : Instr) : (markHeavy g i).vn = g.vn := by
  unfold markHeavy; split <;> (try split) <;> rfl
@[simp] theorem markHeavy_core (g : Group) (i : Instr) : (markHeavy g i).core = g.core := by
  unfold markHeavy; split <;> (try split) <;> rfl
@[simp] theorem markHeavy_quarter (g : Group) (i : Instr) : (markHeavy g i).quarter = g.quarter := by
  unfold markHeavy; split <;> (try split) <;> rfl
@[simp] theorem markHeavy_landed (g : Group) (i : Instr) : (markHeavy g i).landed = g.landed := by
  unfold markHeavy; split <;> (try split) <;> rfl
@[simp] theorem markHeavy_shipping (g : Group) (i : Instr) : (markHeavy g i).shipping = g.shipping := by
  unfold markHeavy; split <;> (try split) <;> rfl
@[simp] theorem markHeavy_age (g : Group) (i : Instr) : (markHeavy g i).age = g.age := by
  unfold markHeavy; split <;> (try split) <;> rfl
@[simp] theorem markHeavy_lanes (g : Group) (i : Instr) : (markHeavy g i).lanes = g.lanes := by
  unfold markHeavy; split <;> (try split) <;> rfl
@[simp] theorem markHeavy_s (g : Group) (i : Instr) : (markHeavy g i).s = g.s := by
  unfold markHeavy; split <;> (try split) <;> rfl
@[simp] theorem markHeavy_k (g : Group) (i : Instr) : (markHeavy g i).k = g.k := by
  unfold markHeavy; split <;> (try split) <;> rfl
@[simp] theorem markHeavy_fst (g : Group) (i : Instr) : (markHeavy g i).fst = g.fst := by
  unfold markHeavy; split <;> (try split) <;> rfl
@[simp] theorem markHeavy_ften (g : Group) (i : Instr) : (markHeavy g i).ften = g.ften := by
  unfold markHeavy; split <;> (try split) <;> rfl
@[simp] theorem markHeavy_fmode (g : Group) (i : Instr) : (markHeavy g i).fmode = g.fmode := by
  unfold markHeavy; split <;> (try split) <;> rfl
@[simp] theorem markHeavy_splim (g : Group) (i : Instr) : (markHeavy g i).splim = g.splim := by
  unfold markHeavy; split <;> (try split) <;> rfl
@[simp] theorem markHeavy_privb (g : Group) (i : Instr) : (markHeavy g i).privb = g.privb := by
  unfold markHeavy; split <;> (try split) <;> rfl
@[simp] theorem markHeavy_trap (g : Group) (i : Instr) : (markHeavy g i).trap = g.trap := by
  unfold markHeavy; split <;> (try split) <;> rfl
@[simp] theorem markHeavy_emu (g : Group) (i : Instr) : (markHeavy g i).emu = g.emu := by
  unfold markHeavy; split <;> (try split) <;> rfl
@[simp] theorem markHeavy_emuRec (g : Group) (i : Instr) : (markHeavy g i).emuRec = g.emuRec := by
  unfold markHeavy; split <;> (try split) <;> rfl
@[simp] theorem markHeavy_area (g : Group) (i : Instr) : (markHeavy g i).area = g.area := by
  unfold markHeavy; split <;> (try split) <;> rfl
@[simp] theorem markHeavy_lastLow (g : Group) (i : Instr) : (markHeavy g i).lastLow = g.lastLow := by
  unfold markHeavy; split <;> (try split) <;> rfl
@[simp] theorem markHeavy_traps (g : Group) (i : Instr) : (markHeavy g i).traps = g.traps := by
  unfold markHeavy; split <;> (try split) <;> rfl
@[simp] theorem markHeavy_after (g : Group) (i : Instr) : (markHeavy g i).after = g.after := by
  unfold markHeavy; split <;> (try split) <;> rfl
@[simp] theorem markHeavy_yield (g : Group) (i : Instr) : (markHeavy g i).yield = g.yield := by
  unfold markHeavy; split <;> (try split) <;> rfl
@[simp] theorem markHeavy_latches (g : Group) (i : Instr) : (markHeavy g i).latches = g.latches := by
  unfold markHeavy; split <;> (try split) <;> rfl
@[simp] theorem markHeavy_copyFaults (g : Group) (i : Instr) : (markHeavy g i).copyFaults = g.copyFaults := by
  unfold markHeavy; split <;> (try split) <;> rfl
@[simp] theorem markHeavy_stepping (g : Group) (i : Instr) : (markHeavy g i).stepping = g.stepping := by
  unfold markHeavy; split <;> (try split) <;> rfl
@[simp] theorem markHeavy_resumed (g : Group) (i : Instr) : (markHeavy g i).resumed = g.resumed := by
  unfold markHeavy; split <;> (try split) <;> rfl
@[simp] theorem markHeavy_skips (g : Group) (i : Instr) : (markHeavy g i).skips = g.skips := by
  unfold markHeavy; split <;> (try split) <;> rfl
@[simp] theorem markHeavy_sets (g : Group) (i : Instr) : (markHeavy g i).sets = g.sets := by
  unfold markHeavy; split <;> (try split) <;> rfl
@[simp] theorem markHeavy_bad (g : Group) (i : Instr) : (markHeavy g i).bad = g.bad := by
  unfold markHeavy; split <;> (try split) <;> rfl
@[simp] theorem markHeavy_replays (g : Group) (i : Instr) : (markHeavy g i).replays = g.replays := by
  unfold markHeavy; split <;> (try split) <;> rfl

/-! ### useSkips -/

@[simp] theorem useSkips_id (g : Group) (cur : Cur) : (useSkips g cur).id = g.id := by
  unfold useSkips; split <;> rfl
@[simp] theorem useSkips_team (g : Group) (cur : Cur) : (useSkips g cur).team = g.team := by
  unfold useSkips; split <;> rfl
@[simp] theorem useSkips_idx (g : Group) (cur : Cur) : (useSkips g cur).idx = g.idx := by
  unfold useSkips; split <;> rfl
@[simp] theorem useSkips_w (g : Group) (cur : Cur) : (useSkips g cur).w = g.w := by
  unfold useSkips; split <;> rfl
@[simp] theorem useSkips_vn (g : Group) (cur : Cur) : (useSkips g cur).vn = g.vn := by
  unfold useSkips; split <;> rfl
@[simp] theorem useSkips_core (g : Group) (cur : Cur) : (useSkips g cur).core = g.core := by
  unfold useSkips; split <;> rfl
@[simp] theorem useSkips_quarter (g : Group) (cur : Cur) : (useSkips g cur).quarter = g.quarter := by
  unfold useSkips; split <;> rfl
@[simp] theorem useSkips_landed (g : Group) (cur : Cur) : (useSkips g cur).landed = g.landed := by
  unfold useSkips; split <;> rfl
@[simp] theorem useSkips_shipping (g : Group) (cur : Cur) : (useSkips g cur).shipping = g.shipping := by
  unfold useSkips; split <;> rfl
@[simp] theorem useSkips_age (g : Group) (cur : Cur) : (useSkips g cur).age = g.age := by
  unfold useSkips; split <;> rfl
@[simp] theorem useSkips_lanes (g : Group) (cur : Cur) : (useSkips g cur).lanes = g.lanes := by
  unfold useSkips; split <;> rfl
@[simp] theorem useSkips_s (g : Group) (cur : Cur) : (useSkips g cur).s = g.s := by
  unfold useSkips; split <;> rfl
@[simp] theorem useSkips_k (g : Group) (cur : Cur) : (useSkips g cur).k = g.k := by
  unfold useSkips; split <;> rfl
@[simp] theorem useSkips_fst (g : Group) (cur : Cur) : (useSkips g cur).fst = g.fst := by
  unfold useSkips; split <;> rfl
@[simp] theorem useSkips_ften (g : Group) (cur : Cur) : (useSkips g cur).ften = g.ften := by
  unfold useSkips; split <;> rfl
@[simp] theorem useSkips_fmode (g : Group) (cur : Cur) : (useSkips g cur).fmode = g.fmode := by
  unfold useSkips; split <;> rfl
@[simp] theorem useSkips_splim (g : Group) (cur : Cur) : (useSkips g cur).splim = g.splim := by
  unfold useSkips; split <;> rfl
@[simp] theorem useSkips_privb (g : Group) (cur : Cur) : (useSkips g cur).privb = g.privb := by
  unfold useSkips; split <;> rfl
@[simp] theorem useSkips_emu (g : Group) (cur : Cur) : (useSkips g cur).emu = g.emu := by
  unfold useSkips; split <;> rfl
@[simp] theorem useSkips_emuRec (g : Group) (cur : Cur) : (useSkips g cur).emuRec = g.emuRec := by
  unfold useSkips; split <;> rfl
@[simp] theorem useSkips_area (g : Group) (cur : Cur) : (useSkips g cur).area = g.area := by
  unfold useSkips; split <;> rfl
@[simp] theorem useSkips_run (g : Group) (cur : Cur) : (useSkips g cur).run = g.run := by
  unfold useSkips; split <;> rfl
@[simp] theorem useSkips_lastLow (g : Group) (cur : Cur) : (useSkips g cur).lastLow = g.lastLow := by
  unfold useSkips; split <;> rfl
@[simp] theorem useSkips_traps (g : Group) (cur : Cur) : (useSkips g cur).traps = g.traps := by
  unfold useSkips; split <;> rfl
@[simp] theorem useSkips_after (g : Group) (cur : Cur) : (useSkips g cur).after = g.after := by
  unfold useSkips; split <;> rfl
@[simp] theorem useSkips_yield (g : Group) (cur : Cur) : (useSkips g cur).yield = g.yield := by
  unfold useSkips; split <;> rfl
@[simp] theorem useSkips_latches (g : Group) (cur : Cur) : (useSkips g cur).latches = g.latches := by
  unfold useSkips; split <;> rfl
@[simp] theorem useSkips_copyFaults (g : Group) (cur : Cur) : (useSkips g cur).copyFaults = g.copyFaults := by
  unfold useSkips; split <;> rfl
@[simp] theorem useSkips_stepping (g : Group) (cur : Cur) : (useSkips g cur).stepping = g.stepping := by
  unfold useSkips; split <;> rfl
@[simp] theorem useSkips_sets (g : Group) (cur : Cur) : (useSkips g cur).sets = g.sets := by
  unfold useSkips; split <;> rfl
@[simp] theorem useSkips_bad (g : Group) (cur : Cur) : (useSkips g cur).bad = g.bad := by
  unfold useSkips; split <;> rfl
@[simp] theorem useSkips_replays (g : Group) (cur : Cur) : (useSkips g cur).replays = g.replays := by
  unfold useSkips; split <;> rfl

/-! ### advance -/

@[simp] theorem advance_id (g : Group) (m : DWord) (cur : Cur) : (advance g m cur).id = g.id := by
  unfold advance; split <;> rfl
@[simp] theorem advance_team (g : Group) (m : DWord) (cur : Cur) : (advance g m cur).team = g.team := by
  unfold advance; split <;> rfl
@[simp] theorem advance_idx (g : Group) (m : DWord) (cur : Cur) : (advance g m cur).idx = g.idx := by
  unfold advance; split <;> rfl
@[simp] theorem advance_w (g : Group) (m : DWord) (cur : Cur) : (advance g m cur).w = g.w := by
  unfold advance; split <;> rfl
@[simp] theorem advance_vn (g : Group) (m : DWord) (cur : Cur) : (advance g m cur).vn = g.vn := by
  unfold advance; split <;> rfl
@[simp] theorem advance_core (g : Group) (m : DWord) (cur : Cur) : (advance g m cur).core = g.core := by
  unfold advance; split <;> rfl
@[simp] theorem advance_quarter (g : Group) (m : DWord) (cur : Cur) : (advance g m cur).quarter = g.quarter := by
  unfold advance; split <;> rfl
@[simp] theorem advance_landed (g : Group) (m : DWord) (cur : Cur) : (advance g m cur).landed = g.landed := by
  unfold advance; split <;> rfl
@[simp] theorem advance_shipping (g : Group) (m : DWord) (cur : Cur) : (advance g m cur).shipping = g.shipping := by
  unfold advance; split <;> rfl
@[simp] theorem advance_age (g : Group) (m : DWord) (cur : Cur) : (advance g m cur).age = g.age := by
  unfold advance; split <;> rfl
@[simp] theorem advance_s (g : Group) (m : DWord) (cur : Cur) : (advance g m cur).s = g.s := by
  unfold advance; split <;> rfl
@[simp] theorem advance_k (g : Group) (m : DWord) (cur : Cur) : (advance g m cur).k = g.k := by
  unfold advance; split <;> rfl
@[simp] theorem advance_fst (g : Group) (m : DWord) (cur : Cur) : (advance g m cur).fst = g.fst := by
  unfold advance; split <;> rfl
@[simp] theorem advance_ften (g : Group) (m : DWord) (cur : Cur) : (advance g m cur).ften = g.ften := by
  unfold advance; split <;> rfl
@[simp] theorem advance_fmode (g : Group) (m : DWord) (cur : Cur) : (advance g m cur).fmode = g.fmode := by
  unfold advance; split <;> rfl
@[simp] theorem advance_splim (g : Group) (m : DWord) (cur : Cur) : (advance g m cur).splim = g.splim := by
  unfold advance; split <;> rfl
@[simp] theorem advance_privb (g : Group) (m : DWord) (cur : Cur) : (advance g m cur).privb = g.privb := by
  unfold advance; split <;> rfl
@[simp] theorem advance_trap (g : Group) (m : DWord) (cur : Cur) : (advance g m cur).trap = g.trap := by
  unfold advance; split <;> rfl
@[simp] theorem advance_emu (g : Group) (m : DWord) (cur : Cur) : (advance g m cur).emu = g.emu := by
  unfold advance; split <;> rfl
@[simp] theorem advance_emuRec (g : Group) (m : DWord) (cur : Cur) : (advance g m cur).emuRec = g.emuRec := by
  unfold advance; split <;> rfl
@[simp] theorem advance_area (g : Group) (m : DWord) (cur : Cur) : (advance g m cur).area = g.area := by
  unfold advance; split <;> rfl
@[simp] theorem advance_run (g : Group) (m : DWord) (cur : Cur) : (advance g m cur).run = g.run := by
  unfold advance; split <;> rfl
@[simp] theorem advance_lastLow (g : Group) (m : DWord) (cur : Cur) : (advance g m cur).lastLow = g.lastLow := by
  unfold advance; split <;> rfl
@[simp] theorem advance_traps (g : Group) (m : DWord) (cur : Cur) : (advance g m cur).traps = g.traps := by
  unfold advance; split <;> rfl
@[simp] theorem advance_after (g : Group) (m : DWord) (cur : Cur) : (advance g m cur).after = g.after := by
  unfold advance; split <;> rfl
@[simp] theorem advance_yield (g : Group) (m : DWord) (cur : Cur) : (advance g m cur).yield = g.yield := by
  unfold advance; split <;> rfl
@[simp] theorem advance_latches (g : Group) (m : DWord) (cur : Cur) : (advance g m cur).latches = g.latches := by
  unfold advance; split <;> rfl
@[simp] theorem advance_copyFaults (g : Group) (m : DWord) (cur : Cur) : (advance g m cur).copyFaults = g.copyFaults := by
  unfold advance; split <;> rfl
@[simp] theorem advance_stepping (g : Group) (m : DWord) (cur : Cur) : (advance g m cur).stepping = g.stepping := by
  unfold advance; split <;> rfl
@[simp] theorem advance_resumed (g : Group) (m : DWord) (cur : Cur) : (advance g m cur).resumed = g.resumed := by
  unfold advance; split <;> rfl
@[simp] theorem advance_skips (g : Group) (m : DWord) (cur : Cur) : (advance g m cur).skips = g.skips := by
  unfold advance; split <;> rfl
@[simp] theorem advance_sets (g : Group) (m : DWord) (cur : Cur) : (advance g m cur).sets = g.sets := by
  unfold advance; split <;> rfl
@[simp] theorem advance_bad (g : Group) (m : DWord) (cur : Cur) : (advance g m cur).bad = g.bad := by
  unfold advance; split <;> rfl
@[simp] theorem advance_replays (g : Group) (m : DWord) (cur : Cur) : (advance g m cur).replays = g.replays := by
  unfold advance; split <;> rfl

/-! ### raiseFlags -/

@[simp] theorem raiseFlags_id (g : Group) (fl : List (Nat × FlagSet)) (pc : Word) (id : Nat) (sub : Bool) : (raiseFlags g fl pc id sub).id = g.id := by
  unfold raiseFlags; split
  · rfl
  · dsimp only; split <;> rfl
@[simp] theorem raiseFlags_team (g : Group) (fl : List (Nat × FlagSet)) (pc : Word) (id : Nat) (sub : Bool) : (raiseFlags g fl pc id sub).team = g.team := by
  unfold raiseFlags; split
  · rfl
  · dsimp only; split <;> rfl
@[simp] theorem raiseFlags_idx (g : Group) (fl : List (Nat × FlagSet)) (pc : Word) (id : Nat) (sub : Bool) : (raiseFlags g fl pc id sub).idx = g.idx := by
  unfold raiseFlags; split
  · rfl
  · dsimp only; split <;> rfl
@[simp] theorem raiseFlags_w (g : Group) (fl : List (Nat × FlagSet)) (pc : Word) (id : Nat) (sub : Bool) : (raiseFlags g fl pc id sub).w = g.w := by
  unfold raiseFlags; split
  · rfl
  · dsimp only; split <;> rfl
@[simp] theorem raiseFlags_vn (g : Group) (fl : List (Nat × FlagSet)) (pc : Word) (id : Nat) (sub : Bool) : (raiseFlags g fl pc id sub).vn = g.vn := by
  unfold raiseFlags; split
  · rfl
  · dsimp only; split <;> rfl
@[simp] theorem raiseFlags_core (g : Group) (fl : List (Nat × FlagSet)) (pc : Word) (id : Nat) (sub : Bool) : (raiseFlags g fl pc id sub).core = g.core := by
  unfold raiseFlags; split
  · rfl
  · dsimp only; split <;> rfl
@[simp] theorem raiseFlags_quarter (g : Group) (fl : List (Nat × FlagSet)) (pc : Word) (id : Nat) (sub : Bool) : (raiseFlags g fl pc id sub).quarter = g.quarter := by
  unfold raiseFlags; split
  · rfl
  · dsimp only; split <;> rfl
@[simp] theorem raiseFlags_landed (g : Group) (fl : List (Nat × FlagSet)) (pc : Word) (id : Nat) (sub : Bool) : (raiseFlags g fl pc id sub).landed = g.landed := by
  unfold raiseFlags; split
  · rfl
  · dsimp only; split <;> rfl
@[simp] theorem raiseFlags_shipping (g : Group) (fl : List (Nat × FlagSet)) (pc : Word) (id : Nat) (sub : Bool) : (raiseFlags g fl pc id sub).shipping = g.shipping := by
  unfold raiseFlags; split
  · rfl
  · dsimp only; split <;> rfl
@[simp] theorem raiseFlags_age (g : Group) (fl : List (Nat × FlagSet)) (pc : Word) (id : Nat) (sub : Bool) : (raiseFlags g fl pc id sub).age = g.age := by
  unfold raiseFlags; split
  · rfl
  · dsimp only; split <;> rfl
@[simp] theorem raiseFlags_lanes (g : Group) (fl : List (Nat × FlagSet)) (pc : Word) (id : Nat) (sub : Bool) : (raiseFlags g fl pc id sub).lanes = g.lanes := by
  unfold raiseFlags; split
  · rfl
  · dsimp only; split <;> rfl
@[simp] theorem raiseFlags_s (g : Group) (fl : List (Nat × FlagSet)) (pc : Word) (id : Nat) (sub : Bool) : (raiseFlags g fl pc id sub).s = g.s := by
  unfold raiseFlags; split
  · rfl
  · dsimp only; split <;> rfl
@[simp] theorem raiseFlags_k (g : Group) (fl : List (Nat × FlagSet)) (pc : Word) (id : Nat) (sub : Bool) : (raiseFlags g fl pc id sub).k = g.k := by
  unfold raiseFlags; split
  · rfl
  · dsimp only; split <;> rfl
@[simp] theorem raiseFlags_ften (g : Group) (fl : List (Nat × FlagSet)) (pc : Word) (id : Nat) (sub : Bool) : (raiseFlags g fl pc id sub).ften = g.ften := by
  unfold raiseFlags; split
  · rfl
  · dsimp only; split <;> rfl
@[simp] theorem raiseFlags_fmode (g : Group) (fl : List (Nat × FlagSet)) (pc : Word) (id : Nat) (sub : Bool) : (raiseFlags g fl pc id sub).fmode = g.fmode := by
  unfold raiseFlags; split
  · rfl
  · dsimp only; split <;> rfl
@[simp] theorem raiseFlags_splim (g : Group) (fl : List (Nat × FlagSet)) (pc : Word) (id : Nat) (sub : Bool) : (raiseFlags g fl pc id sub).splim = g.splim := by
  unfold raiseFlags; split
  · rfl
  · dsimp only; split <;> rfl
@[simp] theorem raiseFlags_privb (g : Group) (fl : List (Nat × FlagSet)) (pc : Word) (id : Nat) (sub : Bool) : (raiseFlags g fl pc id sub).privb = g.privb := by
  unfold raiseFlags; split
  · rfl
  · dsimp only; split <;> rfl
@[simp] theorem raiseFlags_trap (g : Group) (fl : List (Nat × FlagSet)) (pc : Word) (id : Nat) (sub : Bool) : (raiseFlags g fl pc id sub).trap = g.trap := by
  unfold raiseFlags; split
  · rfl
  · dsimp only; split <;> rfl
@[simp] theorem raiseFlags_emu (g : Group) (fl : List (Nat × FlagSet)) (pc : Word) (id : Nat) (sub : Bool) : (raiseFlags g fl pc id sub).emu = g.emu := by
  unfold raiseFlags; split
  · rfl
  · dsimp only; split <;> rfl
@[simp] theorem raiseFlags_emuRec (g : Group) (fl : List (Nat × FlagSet)) (pc : Word) (id : Nat) (sub : Bool) : (raiseFlags g fl pc id sub).emuRec = g.emuRec := by
  unfold raiseFlags; split
  · rfl
  · dsimp only; split <;> rfl
@[simp] theorem raiseFlags_area (g : Group) (fl : List (Nat × FlagSet)) (pc : Word) (id : Nat) (sub : Bool) : (raiseFlags g fl pc id sub).area = g.area := by
  unfold raiseFlags; split
  · rfl
  · dsimp only; split <;> rfl
@[simp] theorem raiseFlags_run (g : Group) (fl : List (Nat × FlagSet)) (pc : Word) (id : Nat) (sub : Bool) : (raiseFlags g fl pc id sub).run = g.run := by
  unfold raiseFlags; split
  · rfl
  · dsimp only; split <;> rfl
@[simp] theorem raiseFlags_lastLow (g : Group) (fl : List (Nat × FlagSet)) (pc : Word) (id : Nat) (sub : Bool) : (raiseFlags g fl pc id sub).lastLow = g.lastLow := by
  unfold raiseFlags; split
  · rfl
  · dsimp only; split <;> rfl
@[simp] theorem raiseFlags_traps (g : Group) (fl : List (Nat × FlagSet)) (pc : Word) (id : Nat) (sub : Bool) : (raiseFlags g fl pc id sub).traps = g.traps := by
  unfold raiseFlags; split
  · rfl
  · dsimp only; split <;> rfl
@[simp] theorem raiseFlags_yield (g : Group) (fl : List (Nat × FlagSet)) (pc : Word) (id : Nat) (sub : Bool) : (raiseFlags g fl pc id sub).yield = g.yield := by
  unfold raiseFlags; split
  · rfl
  · dsimp only; split <;> rfl
@[simp] theorem raiseFlags_latches (g : Group) (fl : List (Nat × FlagSet)) (pc : Word) (id : Nat) (sub : Bool) : (raiseFlags g fl pc id sub).latches = g.latches := by
  unfold raiseFlags; split
  · rfl
  · dsimp only; split <;> rfl
@[simp] theorem raiseFlags_copyFaults (g : Group) (fl : List (Nat × FlagSet)) (pc : Word) (id : Nat) (sub : Bool) : (raiseFlags g fl pc id sub).copyFaults = g.copyFaults := by
  unfold raiseFlags; split
  · rfl
  · dsimp only; split <;> rfl
@[simp] theorem raiseFlags_stepping (g : Group) (fl : List (Nat × FlagSet)) (pc : Word) (id : Nat) (sub : Bool) : (raiseFlags g fl pc id sub).stepping = g.stepping := by
  unfold raiseFlags; split
  · rfl
  · dsimp only; split <;> rfl
@[simp] theorem raiseFlags_resumed (g : Group) (fl : List (Nat × FlagSet)) (pc : Word) (id : Nat) (sub : Bool) : (raiseFlags g fl pc id sub).resumed = g.resumed := by
  unfold raiseFlags; split
  · rfl
  · dsimp only; split <;> rfl
@[simp] theorem raiseFlags_skips (g : Group) (fl : List (Nat × FlagSet)) (pc : Word) (id : Nat) (sub : Bool) : (raiseFlags g fl pc id sub).skips = g.skips := by
  unfold raiseFlags; split
  · rfl
  · dsimp only; split <;> rfl
@[simp] theorem raiseFlags_sets (g : Group) (fl : List (Nat × FlagSet)) (pc : Word) (id : Nat) (sub : Bool) : (raiseFlags g fl pc id sub).sets = g.sets := by
  unfold raiseFlags; split
  · rfl
  · dsimp only; split <;> rfl
@[simp] theorem raiseFlags_bad (g : Group) (fl : List (Nat × FlagSet)) (pc : Word) (id : Nat) (sub : Bool) : (raiseFlags g fl pc id sub).bad = g.bad := by
  unfold raiseFlags; split
  · rfl
  · dsimp only; split <;> rfl
@[simp] theorem raiseFlags_replays (g : Group) (fl : List (Nat × FlagSet)) (pc : Word) (id : Nat) (sub : Bool) : (raiseFlags g fl pc id sub).replays = g.replays := by
  unfold raiseFlags; split
  · rfl
  · dsimp only; split <;> rfl

/-! ### stepDone -/

@[simp] theorem stepDone_id (g : Group) (m : DWord) (pc : Word) : (stepDone g m pc).id = g.id := by
  unfold stepDone; split <;> (try split) <;> rfl
@[simp] theorem stepDone_team (g : Group) (m : DWord) (pc : Word) : (stepDone g m pc).team = g.team := by
  unfold stepDone; split <;> (try split) <;> rfl
@[simp] theorem stepDone_idx (g : Group) (m : DWord) (pc : Word) : (stepDone g m pc).idx = g.idx := by
  unfold stepDone; split <;> (try split) <;> rfl
@[simp] theorem stepDone_w (g : Group) (m : DWord) (pc : Word) : (stepDone g m pc).w = g.w := by
  unfold stepDone; split <;> (try split) <;> rfl
@[simp] theorem stepDone_vn (g : Group) (m : DWord) (pc : Word) : (stepDone g m pc).vn = g.vn := by
  unfold stepDone; split <;> (try split) <;> rfl
@[simp] theorem stepDone_core (g : Group) (m : DWord) (pc : Word) : (stepDone g m pc).core = g.core := by
  unfold stepDone; split <;> (try split) <;> rfl
@[simp] theorem stepDone_quarter (g : Group) (m : DWord) (pc : Word) : (stepDone g m pc).quarter = g.quarter := by
  unfold stepDone; split <;> (try split) <;> rfl
@[simp] theorem stepDone_landed (g : Group) (m : DWord) (pc : Word) : (stepDone g m pc).landed = g.landed := by
  unfold stepDone; split <;> (try split) <;> rfl
@[simp] theorem stepDone_shipping (g : Group) (m : DWord) (pc : Word) : (stepDone g m pc).shipping = g.shipping := by
  unfold stepDone; split <;> (try split) <;> rfl
@[simp] theorem stepDone_age (g : Group) (m : DWord) (pc : Word) : (stepDone g m pc).age = g.age := by
  unfold stepDone; split <;> (try split) <;> rfl
@[simp] theorem stepDone_lanes (g : Group) (m : DWord) (pc : Word) : (stepDone g m pc).lanes = g.lanes := by
  unfold stepDone; split <;> (try split) <;> rfl
@[simp] theorem stepDone_s (g : Group) (m : DWord) (pc : Word) : (stepDone g m pc).s = g.s := by
  unfold stepDone; split <;> (try split) <;> rfl
@[simp] theorem stepDone_k (g : Group) (m : DWord) (pc : Word) : (stepDone g m pc).k = g.k := by
  unfold stepDone; split <;> (try split) <;> rfl
@[simp] theorem stepDone_fst (g : Group) (m : DWord) (pc : Word) : (stepDone g m pc).fst = g.fst := by
  unfold stepDone; split <;> (try split) <;> rfl
@[simp] theorem stepDone_ften (g : Group) (m : DWord) (pc : Word) : (stepDone g m pc).ften = g.ften := by
  unfold stepDone; split <;> (try split) <;> rfl
@[simp] theorem stepDone_fmode (g : Group) (m : DWord) (pc : Word) : (stepDone g m pc).fmode = g.fmode := by
  unfold stepDone; split <;> (try split) <;> rfl
@[simp] theorem stepDone_splim (g : Group) (m : DWord) (pc : Word) : (stepDone g m pc).splim = g.splim := by
  unfold stepDone; split <;> (try split) <;> rfl
@[simp] theorem stepDone_privb (g : Group) (m : DWord) (pc : Word) : (stepDone g m pc).privb = g.privb := by
  unfold stepDone; split <;> (try split) <;> rfl
@[simp] theorem stepDone_trap (g : Group) (m : DWord) (pc : Word) : (stepDone g m pc).trap = g.trap := by
  unfold stepDone; split <;> (try split) <;> rfl
@[simp] theorem stepDone_emu (g : Group) (m : DWord) (pc : Word) : (stepDone g m pc).emu = g.emu := by
  unfold stepDone; split <;> (try split) <;> rfl
@[simp] theorem stepDone_emuRec (g : Group) (m : DWord) (pc : Word) : (stepDone g m pc).emuRec = g.emuRec := by
  unfold stepDone; split <;> (try split) <;> rfl
@[simp] theorem stepDone_area (g : Group) (m : DWord) (pc : Word) : (stepDone g m pc).area = g.area := by
  unfold stepDone; split <;> (try split) <;> rfl
@[simp] theorem stepDone_run (g : Group) (m : DWord) (pc : Word) : (stepDone g m pc).run = g.run := by
  unfold stepDone; split <;> (try split) <;> rfl
@[simp] theorem stepDone_lastLow (g : Group) (m : DWord) (pc : Word) : (stepDone g m pc).lastLow = g.lastLow := by
  unfold stepDone; split <;> (try split) <;> rfl
@[simp] theorem stepDone_traps (g : Group) (m : DWord) (pc : Word) : (stepDone g m pc).traps = g.traps := by
  unfold stepDone; split <;> (try split) <;> rfl
@[simp] theorem stepDone_yield (g : Group) (m : DWord) (pc : Word) : (stepDone g m pc).yield = g.yield := by
  unfold stepDone; split <;> (try split) <;> rfl
@[simp] theorem stepDone_latches (g : Group) (m : DWord) (pc : Word) : (stepDone g m pc).latches = g.latches := by
  unfold stepDone; split <;> (try split) <;> rfl
@[simp] theorem stepDone_copyFaults (g : Group) (m : DWord) (pc : Word) : (stepDone g m pc).copyFaults = g.copyFaults := by
  unfold stepDone; split <;> (try split) <;> rfl
@[simp] theorem stepDone_resumed (g : Group) (m : DWord) (pc : Word) : (stepDone g m pc).resumed = g.resumed := by
  unfold stepDone; split <;> (try split) <;> rfl
@[simp] theorem stepDone_skips (g : Group) (m : DWord) (pc : Word) : (stepDone g m pc).skips = g.skips := by
  unfold stepDone; split <;> (try split) <;> rfl
@[simp] theorem stepDone_sets (g : Group) (m : DWord) (pc : Word) : (stepDone g m pc).sets = g.sets := by
  unfold stepDone; split <;> (try split) <;> rfl
@[simp] theorem stepDone_bad (g : Group) (m : DWord) (pc : Word) : (stepDone g m pc).bad = g.bad := by
  unfold stepDone; split <;> (try split) <;> rfl
@[simp] theorem stepDone_replays (g : Group) (m : DWord) (pc : Word) : (stepDone g m pc).replays = g.replays := by
  unfold stepDone; split <;> (try split) <;> rfl

/-! ### applyWrites -/

@[simp] theorem applyWrites_id (g : Group) (ws : List RegWrite) : (applyWrites g ws).id = g.id := by
  unfold applyWrites; induction ws generalizing g <;> simp_all [List.foldl]
@[simp] theorem applyWrites_team (g : Group) (ws : List RegWrite) : (applyWrites g ws).team = g.team := by
  unfold applyWrites; induction ws generalizing g <;> simp_all [List.foldl]
@[simp] theorem applyWrites_idx (g : Group) (ws : List RegWrite) : (applyWrites g ws).idx = g.idx := by
  unfold applyWrites; induction ws generalizing g <;> simp_all [List.foldl]
@[simp] theorem applyWrites_w (g : Group) (ws : List RegWrite) : (applyWrites g ws).w = g.w := by
  unfold applyWrites; induction ws generalizing g <;> simp_all [List.foldl]
@[simp] theorem applyWrites_vn (g : Group) (ws : List RegWrite) : (applyWrites g ws).vn = g.vn := by
  unfold applyWrites; induction ws generalizing g <;> simp_all [List.foldl]
@[simp] theorem applyWrites_core (g : Group) (ws : List RegWrite) : (applyWrites g ws).core = g.core := by
  unfold applyWrites; induction ws generalizing g <;> simp_all [List.foldl]
@[simp] theorem applyWrites_quarter (g : Group) (ws : List RegWrite) : (applyWrites g ws).quarter = g.quarter := by
  unfold applyWrites; induction ws generalizing g <;> simp_all [List.foldl]
@[simp] theorem applyWrites_landed (g : Group) (ws : List RegWrite) : (applyWrites g ws).landed = g.landed := by
  unfold applyWrites; induction ws generalizing g <;> simp_all [List.foldl]
@[simp] theorem applyWrites_shipping (g : Group) (ws : List RegWrite) : (applyWrites g ws).shipping = g.shipping := by
  unfold applyWrites; induction ws generalizing g <;> simp_all [List.foldl]
@[simp] theorem applyWrites_age (g : Group) (ws : List RegWrite) : (applyWrites g ws).age = g.age := by
  unfold applyWrites; induction ws generalizing g <;> simp_all [List.foldl]
@[simp] theorem applyWrites_fst (g : Group) (ws : List RegWrite) : (applyWrites g ws).fst = g.fst := by
  unfold applyWrites; induction ws generalizing g <;> simp_all [List.foldl]
@[simp] theorem applyWrites_ften (g : Group) (ws : List RegWrite) : (applyWrites g ws).ften = g.ften := by
  unfold applyWrites; induction ws generalizing g <;> simp_all [List.foldl]
@[simp] theorem applyWrites_fmode (g : Group) (ws : List RegWrite) : (applyWrites g ws).fmode = g.fmode := by
  unfold applyWrites; induction ws generalizing g <;> simp_all [List.foldl]
@[simp] theorem applyWrites_splim (g : Group) (ws : List RegWrite) : (applyWrites g ws).splim = g.splim := by
  unfold applyWrites; induction ws generalizing g <;> simp_all [List.foldl]
@[simp] theorem applyWrites_privb (g : Group) (ws : List RegWrite) : (applyWrites g ws).privb = g.privb := by
  unfold applyWrites; induction ws generalizing g <;> simp_all [List.foldl]
@[simp] theorem applyWrites_trap (g : Group) (ws : List RegWrite) : (applyWrites g ws).trap = g.trap := by
  unfold applyWrites; induction ws generalizing g <;> simp_all [List.foldl]
@[simp] theorem applyWrites_emu (g : Group) (ws : List RegWrite) : (applyWrites g ws).emu = g.emu := by
  unfold applyWrites; induction ws generalizing g <;> simp_all [List.foldl]
@[simp] theorem applyWrites_emuRec (g : Group) (ws : List RegWrite) : (applyWrites g ws).emuRec = g.emuRec := by
  unfold applyWrites; induction ws generalizing g <;> simp_all [List.foldl]
@[simp] theorem applyWrites_area (g : Group) (ws : List RegWrite) : (applyWrites g ws).area = g.area := by
  unfold applyWrites; induction ws generalizing g <;> simp_all [List.foldl]
@[simp] theorem applyWrites_run (g : Group) (ws : List RegWrite) : (applyWrites g ws).run = g.run := by
  unfold applyWrites; induction ws generalizing g <;> simp_all [List.foldl]
@[simp] theorem applyWrites_lastLow (g : Group) (ws : List RegWrite) : (applyWrites g ws).lastLow = g.lastLow := by
  unfold applyWrites; induction ws generalizing g <;> simp_all [List.foldl]
@[simp] theorem applyWrites_traps (g : Group) (ws : List RegWrite) : (applyWrites g ws).traps = g.traps := by
  unfold applyWrites; induction ws generalizing g <;> simp_all [List.foldl]
@[simp] theorem applyWrites_after (g : Group) (ws : List RegWrite) : (applyWrites g ws).after = g.after := by
  unfold applyWrites; induction ws generalizing g <;> simp_all [List.foldl]
@[simp] theorem applyWrites_yield (g : Group) (ws : List RegWrite) : (applyWrites g ws).yield = g.yield := by
  unfold applyWrites; induction ws generalizing g <;> simp_all [List.foldl]
@[simp] theorem applyWrites_latches (g : Group) (ws : List RegWrite) : (applyWrites g ws).latches = g.latches := by
  unfold applyWrites; induction ws generalizing g <;> simp_all [List.foldl]
@[simp] theorem applyWrites_copyFaults (g : Group) (ws : List RegWrite) : (applyWrites g ws).copyFaults = g.copyFaults := by
  unfold applyWrites; induction ws generalizing g <;> simp_all [List.foldl]
@[simp] theorem applyWrites_stepping (g : Group) (ws : List RegWrite) : (applyWrites g ws).stepping = g.stepping := by
  unfold applyWrites; induction ws generalizing g <;> simp_all [List.foldl]
@[simp] theorem applyWrites_resumed (g : Group) (ws : List RegWrite) : (applyWrites g ws).resumed = g.resumed := by
  unfold applyWrites; induction ws generalizing g <;> simp_all [List.foldl]
@[simp] theorem applyWrites_skips (g : Group) (ws : List RegWrite) : (applyWrites g ws).skips = g.skips := by
  unfold applyWrites; induction ws generalizing g <;> simp_all [List.foldl]
@[simp] theorem applyWrites_sets (g : Group) (ws : List RegWrite) : (applyWrites g ws).sets = g.sets := by
  unfold applyWrites; induction ws generalizing g <;> simp_all [List.foldl]
@[simp] theorem applyWrites_replays (g : Group) (ws : List RegWrite) : (applyWrites g ws).replays = g.replays := by
  unfold applyWrites; induction ws generalizing g <;> simp_all [List.foldl]

end Sys2Proof.Machine
end

