-- ==== Sys2Proof/Laws/Issue.lean ====
section
/-! SUPPORT. What issuing an instruction does around its effect: the run, the pcs, the records of the group. -/

namespace Sys2Proof.Machine

/-! ### Records by number -/

theorem find_map_same {α : Type} (p : α → Bool) (f : α → α) (hf : ∀ a, p (f a) = p a) (l : List α) :
    (l.map f).find? p = (l.find? p).map f := by
  induction l with
  | nil => rfl
  | cons a l ih =>
    simp only [List.map_cons, List.find?_cons, hf]
    cases p a <;> simp [ih]

theorem findGroup_id {s : State} {n : Nat} {g : Group} (h : findGroup s n = some g) : g.id = n := by
  have := List.find?_some h
  simpa using this

theorem findGroup_putGroup {s : State} {g h : Group} (hf : findGroup s g.id = some h) :
    findGroup (putGroup s g) g.id = some g := by
  have hid : h.id = g.id := findGroup_id hf
  unfold findGroup putGroup at *
  rw [show (fun x : Group => if x.id == g.id then g else x) = (fun x => if x.id == g.id then g else x) from rfl]
  rw [find_map_same (fun x : Group => x.id == g.id) (fun x => if x.id == g.id then g else x)
    (by intro a; by_cases h : a.id = g.id <;> simp [h])]
  simp [hf, hid]

theorem findGroup_putGroup_ne {s : State} {g : Group} {n : Nat} (h : n ≠ g.id) :
    findGroup (putGroup s g) n = findGroup s n := by
  unfold findGroup putGroup
  rw [find_map_same (fun x : Group => x.id == n) (fun x => if x.id == g.id then g else x)
    (by intro a; by_cases h' : a.id = g.id <;> simp [h'])]
  cases hf : s.groups.find? (fun x => x.id == n) with
  | none => rfl
  | some x =>
    have : x.id = n := by simpa using List.find?_some hf
    simp [this, h]

/-- What `noteIssued` does to one group. -/
def noteYield (n : Nat) (g : Group) : Group :=
  match g.yield with
  | some y =>
    let others := y.others.filter (· != n)
    { g with yield := if others.isEmpty then none else some { y with others := others } }
  | none => g

theorem noteYield_id (n : Nat) (g : Group) : (noteYield n g).id = g.id := by
  unfold noteYield; split <;> rfl

theorem noteYield_bare (n : Nat) (g : Group) : (noteYield n g).bare = g.bare := by
  unfold noteYield; split <;> rfl

theorem noteYield_eq (n : Nat) (g : Group) : noteYield n g = { g with yield := (noteYield n g).yield } := by
  unfold noteYield; split <;> rfl

theorem findGroup_noteIssued (s : State) (n k : Nat) : findGroup (noteIssued s n) k = (findGroup s k).map (noteYield n) := by
  unfold findGroup noteIssued
  exact find_map_same (fun x : Group => x.id == k) (noteYield n) (by intro a; simp [noteYield_id]) s.groups

@[simp] theorem findGroup_countEvent (s : State) (c k n : Nat) : findGroup (countEvent s c k) n = findGroup s n := by
  simp [findGroup]

/-! ### Event counters -/

theorem map_bare_modify (l : List Core) (i : Nat) (f : Core → Core) (hf : ∀ c, (f c).bare = c.bare) :
    (l.modify i f).map Core.bare = l.map Core.bare := by
  apply List.ext_getElem?
  intro j
  simp only [List.getElem?_map, List.getElem?_modify]
  split
  · cases l[j]? <;> simp [hf]
  · simp

theorem map_bare_modify_die (l : List Die) (i : Nat) (f : Die → Die) (hf : ∀ c, (f c).bare = c.bare) :
    (l.modify i f).map Die.bare = l.map Die.bare := by
  apply List.ext_getElem?
  intro j
  simp only [List.getElem?_map, List.getElem?_modify]
  split
  · cases l[j]? <;> simp [hf]
  · simp

theorem countEvent_cores (s : State) (c k : Nat) : (countEvent s c k).cores.map Core.bare = s.cores.map Core.bare := by
  unfold countEvent
  split
  · rfl
  · dsimp only
    split <;> exact map_bare_modify _ _ _ fun _ => rfl

theorem countEvent_dies (s : State) (c k : Nat) : (countEvent s c k).dies.map Die.bare = s.dies.map Die.bare := by
  unfold countEvent
  split
  · rfl
  · dsimp only
    split
    · rfl
    · exact map_bare_modify_die _ _ _ fun _ => rfl

/-! ### The end of an instruction within a run -/

/-- The state after an instruction that neither ends its run nor is a substitute. -/
theorem closeIssue_midRun {s : State} {g : Group} {cur : Cur} (hs : cur.subst = false) (hw : cur.sw = false)
    (ha : g.after = []) (hp : g.stepping = none) :
    closeIssue s g cur false
      = noteIssued (putGroup (countEvent s g.core 1) (useSkips (countRun g) cur)) g.id := by
  unfold closeIssue
  have h1 : (useSkips (countRun g) cur).stepping = none := by simpa using hp
  have h3 : stepDone (useSkips (countRun g) cur) (cur.active &&& ~~~trappedLanes (useSkips (countRun g) cur)) cur.pc
      = useSkips (countRun g) cur := by
    unfold stepDone; rw [h1]
  simp [hs, hw, ha, h3]

theorem useSkips_countRun_bookkept (g : Group) (cur : Cur) :
    useSkips (countRun g) cur = bookkept g (useSkips (countRun g) cur) := by
  unfold useSkips countRun bookkept
  split <;> split <;> rfl

theorem bookkept_trans {a b c : Group} (h : b = bookkept a b) (k : c = bookkept b c) : c = bookkept a c := by
  rw [h] at k; exact k

theorem noteYield_bookkept (n : Nat) (g : Group) : noteYield n g = bookkept g (noteYield n g) := by
  unfold noteYield; split <;> rfl

/-- Outside the group that issued nothing changes but what is counted. -/
theorem apart_issued (s : State) (c : Nat) (g : Group) (n : Nat) (hn : g.id = n) :
    Apart s (noteIssued (putGroup (countEvent s c 1) g) n) n := by
  refine ⟨by simp [SameMemory], by simp, by simp, by simp, by simp, by simp, by simp, by simp, by simp, ?_, ?_, ?_⟩
  · simpa using countEvent_cores s c 1
  · simpa using countEvent_dies s c 1
  · intro k hk
    rw [findGroup_noteIssued, findGroup_putGroup_ne (by rw [hn]; exact hk), findGroup_countEvent]
    cases findGroup s k <;> simp [noteYield_bare]

/-- An instruction whose effect ends in `closeIssue` within a run, on a group `r`, completes with `r`. -/
theorem completes_of_close {i : Instr} {s : State} {g r : Group} {cur : Cur}
    (hx : exec i s = .next (closeIssue s r cur false)) (hg : findGroup s g.id = some g) (hi : r.id = g.id)
    (hs : cur.subst = false) (hw : cur.sw = false) (ha : r.after = []) (hp : r.stepping = none) :
    Completes i s g r := by
  have hc := closeIssue_midRun (s := s) (g := r) (cur := cur) hs hw ha hp
  refine ⟨_, noteYield r.id (useSkips (countRun r) cur), by rw [hx, hc], by simp, ?_, ?_, ?_⟩
  · rw [hi]; exact apart_issued _ _ _ _ (by simp [hi])
  · rw [findGroup_noteIssued, ← hi]
    have : (useSkips (countRun r) cur).id = r.id := by simp
    rw [show r.id = (useSkips (countRun r) cur).id from this.symm]
    rw [findGroup_putGroup (h := g) (by simp [hi, hg])]
    rfl
  · exact bookkept_trans (useSkips_countRun_bookkept r cur) (noteYield_bookkept _ _)

/-! ### Register writes of lanes -/

theorem applyWrites_append (g : Group) (a b : List RegWrite) : applyWrites g (a ++ b) = applyWrites (applyWrites g a) b := by
  simp [applyWrites, List.foldl_append]

/-- The writes of one lane, in order; which of its registers hold an uncorrectable error may change. -/
theorem applyWrites_lane (g : Group) (i : Nat) (ws : List (Nat × Word)) :
    ∃ b, applyWrites g (ws.map fun w => .vec i w.1 w.2)
      = { g with lanes := g.lanes.modify i fun x => { x with v := writeRegs x.v ws }, bad := b } := by
  induction ws generalizing g with
  | nil =>
    have : g.lanes.modify i (fun x => x) = g.lanes := by
      apply List.ext_getElem?; intro j; rw [List.getElem?_modify]; split <;> simp
    exact ⟨g.bad, by simp [applyWrites, writeRegs, this]⟩
  | cons w ws ih =>
    obtain ⟨b, hb⟩ := ih (applyWrites g [.vec i w.1 w.2])
    refine ⟨b, ?_⟩
    rw [List.map_cons, show RegWrite.vec i w.1 w.2 :: ws.map (fun w => RegWrite.vec i w.1 w.2)
      = [RegWrite.vec i w.1 w.2] ++ ws.map (fun w => RegWrite.vec i w.1 w.2) from rfl, applyWrites_append, hb]
    simp only [applyWrites, applyWrite, setVreg, modLane, healReg, List.foldl, writeRegs]
    congr 1
    apply List.ext_getElem?
    intro j
    simp only [List.getElem?_modify]
    split
    · cases g.lanes[j]? <;> simp
    · cases g.lanes[j]? <;> simp

/-- The writes of several lanes, each lane once. -/
theorem applyWrites_lanes (g : Group) (l : List Nat) (hl : l.Nodup) (ws : Nat → List (Nat × Word)) :
    ∃ b, applyWrites g (l.flatMap fun i => (ws i).map fun w => .vec i w.1 w.2)
      = { g with lanes := g.lanes.mapIdx fun i x => if i ∈ l then { x with v := writeRegs x.v (ws i) } else x, bad := b } := by
  induction l generalizing g with
  | nil =>
    have : (g.lanes.mapIdx fun _ x => x) = g.lanes := by apply List.ext_getElem? ; intro j; simp
    exact ⟨g.bad, by simp [applyWrites, this]⟩
  | cons a l ih =>
    have hn := List.nodup_cons.mp hl
    obtain ⟨b1, h1⟩ := applyWrites_lane g a (ws a)
    obtain ⟨b, hb⟩ := ih (applyWrites g ((ws a).map fun w => .vec a w.1 w.2)) hn.2
    refine ⟨b, ?_⟩
    rw [List.flatMap_cons, applyWrites_append, hb, h1]
    congr 1
    apply List.ext_getElem?
    intro j
    simp only [List.getElem?_mapIdx, List.getElem?_modify]
    by_cases h : a = j
    · subst h
      cases g.lanes[a]? <;> simp [hn.1]
    · have h' : ¬ j = a := fun e => h e.symm
      cases g.lanes[j]? <;> simp [h, h']

theorem laneList_nodup (w : Nat) (m : DWord) : (laneList w m).Nodup := (List.nodup_range).filter _

theorem mem_laneList (w : Nat) (m : DWord) (i : Nat) : i ∈ laneList w m ↔ i < w ∧ m.getLsbD i = true := by
  simp [laneList]

/-- The writes of the lanes of a set. -/
theorem applyWrites_laneList (g : Group) (m : DWord) (ws : Nat → List (Nat × Word)) :
    ∃ b, applyWrites g ((laneList g.w m).flatMap fun i => (ws i).map fun w => .vec i w.1 w.2)
      = { g with lanes := g.lanes.mapIdx fun i x => if inLanes g m i then { x with v := writeRegs x.v (ws i) } else x
                 bad := b } := by
  obtain ⟨b, hb⟩ := applyWrites_lanes g (laneList g.w m) (laneList_nodup _ _) ws
  refine ⟨b, ?_⟩
  rw [hb]
  simp only [mem_laneList, inLanes, Bool.and_eq_true, decide_eq_true_eq]

/-- The writes of a value of a type at a lane. -/
theorem writesOf_eq (t : Ty) (d i : Nat) (x : DWord) : writesOf t d i x = (wordsOf t d x).map fun w => .vec i w.1 w.2 := by
  unfold writesOf wordsOf; split <;> rfl

/-! ### From the issue to the effect -/

/-- A group in the state after `markHeavy`, which only notes that its run is heavy. -/
theorem markHeavy_eq (g : Group) (i : Instr) : markHeavy g i = { g with run := (markHeavy g i).run } := by
  unfold markHeavy; split <;> (try split) <;> rfl

/-- An instruction of either stream, issued by a group, has its effect. -/
theorem issueBoth_group {i : Instr} {s : State} {g : Group} {cur : Cur} (h : Issuing s g cur i)
    (eff : State → Group → Cur → State) (ctl : State → Thread → Cur → State) :
    issueBoth i s eff ctl = .next (eff s (markHeavy g i) cur) := by
  obtain ⟨h1, h2, h3, h4, h5, h6, h7, h8⟩ := h
  have e : eccReads s (markHeavy g i) i cur.active = [] := by rw [← h8, markHeavy_eq g i]; rfl
  simp [issueBoth, h1, h2, h3, beginGroup, h4, h5, h6, h7, withSound, e]

/-- An instruction of either stream, issued by a control thread, has its effect. -/
theorem issueBoth_thread {i : Instr} {s : State} {t : Thread} {cur : Cur} (h : IssuingCtl s t cur i)
    (eff : State → Group → Cur → State) (ctl : State → Thread → Cur → State) :
    issueBoth i s eff ctl = .next (ctl s t cur) := by
  obtain ⟨h1, h2, h3, h4, _, h5⟩ := h
  simp only [issueBoth, h1, h2, h3, beginThread, h4, h5]

theorem raiseFlags_quiet {g : Group} {m : DWord} {fl : Nat → FlagSet} (h : noTrap g m fl) (pc : Word) (seq : Nat) (g' : Group)
    (hf : g'.ften = g.ften) :
    raiseFlags g' ((laneList g.w m).map fun l => (l, fl l)) pc seq false
      = { g' with fst := fstAfter g'.fst (raised g m fl) } := by
  have hl : enabledLanes g'.ften ((laneList g.w m).map fun l => (l, fl l)) = 0 := by
    have : ((laneList g.w m).map fun l => (l, fl l)).filter (fun x => enabledBits g'.ften x.2 != 0) = [] := by
      rw [List.filter_eq_nil_iff]
      intro x hx
      obtain ⟨l, hl, rfl⟩ := List.mem_map.mp hx
      have := h l (by simpa [inLanes] using (mem_laneList _ _ _).mp hl)
      simp [hf, this]
    rw [enabledLanes, this]; rfl
  unfold raiseFlags
  simp only [Bool.false_eq_true, if_false, hl, if_true]
  simp [raised, List.map_map, Function.comp_def]

theorem setPcs_eq (g : Group) (cur : Cur) :
    setPcs g cur.active (pcNext cur.pc) = { g with lanes := g.lanes.mapIdx (goOn cur) } := rfl

theorem advance_eq {g : Group} {cur : Cur} (h : cur.subst = false) : advance g cur.active cur = moved g cur := by
  simp [advance, h, setPcs_eq, moved]

theorem completes_bookkept {i : Instr} {s : State} {g r r' : Group} (h : Completes i s g r') (e : r' = bookkept r r') :
    Completes i s g r := by
  obtain ⟨u, g', h1, h2, h3, h4, h5⟩ := h
  exact ⟨u, g', h1, h2, h3, h4, bookkept_trans e h5⟩

/-- Only a write to a mask register lets JOINs go on. -/
theorem afterMasks_quiet {ws : List RegWrite} (h : ∀ w ∈ ws, ∀ r l b, w ≠ .mask r l b) (g : Group) (subst : Bool) :
    afterMasks g subst ws = g := by
  unfold afterMasks
  rw [if_neg]
  simp only [Bool.and_eq_true, List.any_eq_true, not_and, not_exists]
  rintro - w hw
  cases w with
  | mask r l b => exact absurd rfl (h _ hw r l b)
  | _ => simp

/-- The end of a fixed-latency instruction whose writes leave lanes `L`, scalars `S` and masks `K`. -/
theorem finishFixed_completes {i : Instr} {s : State} {g : Group} {cur : Cur} {r : Option Run} {lt : List Latch}
    {ws : List RegWrite} {m : DWord} {fl : Nat → FlagSet} {L : List Lane} {S K : List DWord} {B : List BadReg}
    (hx : exec i s = .next (finishFixed s { g with run := r, latches := lt } cur ⟨ws, (laneList g.w m).map fun l => (l, fl l)⟩))
    (h : Issuing s g cur i) (hm : MidRun g cur) (ht : noTrap g m fl) (hk : ∀ w ∈ ws, ∀ r l b, w ≠ .mask r l b)
    (hw : applyWrites { g with run := r, latches := lt } ws
      = { g with run := r, latches := lt, lanes := L, s := S, k := K, bad := B }) :
    Completes i s g { g with lanes := L.mapIdx (goOn cur), s := S, k := K, fst := fstAfter g.fst (raised g m fl) } := by
  obtain ⟨_, _, h3, h4, _⟩ := h
  obtain ⟨h5, h6, h7⟩ := hm
  unfold finishFixed at hx
  dsimp only at hx
  rw [hw, h4, raiseFlags_quiet ht cur.pc s.nextId { g with run := r, latches := lt, lanes := L, s := S, k := K, bad := B } rfl,
    advance_eq h4, afterMasks_quiet hk] at hx
  exact completes_bookkept (completes_of_close hx h3 rfl h4 h5 h6 h7) rfl

/-- An instruction of vector streams that is issued has its effect on the group. -/
theorem issueFixed_next {i : Instr} {f : VF} {s : State} {g : Group} {cur : Cur} (eff : Group → DWord → Effect)
    (h : Issuing s g cur i) :
    ∃ r, ∀ e, eff { g with run := r } (guardV g cur f) = e →
      issueFixed i f s eff = .next (finishFixed s { g with run := r, latches := (latchAfter g i e.writes).latches } cur e) := by
  refine ⟨(markHeavy g i).run, ?_⟩
  intro e he
  unfold issueFixed issueGroup
  rw [issueBoth_group h]
  have hmh := markHeavy_eq g i
  generalize (markHeavy g i).run = r at hmh he
  rw [hmh]
  have hg : guardSet { g with run := r } cur.active f.gk f.gn = guardV g cur f := rfl
  simp only [hg, he]
  rfl

/-- A fixed-latency instruction of vector results. -/
theorem issueFixed_lanes {i : Instr} {f : VF} {s : State} {g : Group} {cur : Cur} {eff : Group → DWord → Effect}
    (ws : Nat → List (Nat × Word)) (fl : Nat → FlagSet)
    (hx : exec i s = issueFixed i f s eff) (h : Issuing s g cur i) (hm : MidRun g cur)
    (ht : noTrap g (guardV g cur f) fl)
    (he : ∀ r, eff { g with run := r } (guardV g cur f)
      = ⟨(laneList g.w (guardV g cur f)).flatMap fun l => (ws l).map fun w => .vec l w.1 w.2,
         (laneList g.w (guardV g cur f)).map fun l => (l, fl l)⟩) :
    Completes i s g (laneResult g cur (guardV g cur f) ws (raised g (guardV g cur f) fl)) := by
  obtain ⟨r, hr⟩ := issueFixed_next (f := f) eff h
  have hx' := hx.trans (hr _ (he r))
  obtain ⟨b, hb⟩ := applyWrites_laneList { g with run := r, latches := _ } (guardV g cur f) ws
  have := finishFixed_completes (K := g.k) (S := g.s) hx' h hm ht (by
    intro w hw
    obtain ⟨l, -, hl⟩ := List.mem_flatMap.1 hw
    obtain ⟨x, -, rfl⟩ := List.mem_map.1 hl
    exact fun _ _ _ e => by cases e) hb
  simp only [List.mapIdx_mapIdx] at this
  exact this

end Sys2Proof.Machine
end

