-- ==== Sys2Proof/Machine/Bar.lean ====
section
/-! DEFINITION. What the host reads in BAR0 of a function (25 R373): the registers of its partition (25 R374), the host queues
(19 R292), the mailbox (25 R375), the region table (25 R385) and the capability table (23 R370). Reads change nothing (log entries 97 and 99). -/

namespace Sys2Proof.Machine

/-! ### The capability table (23 R370) -/

/-- A value of the table: one 64-bit number, a string, or an array of 32-bit or of 64-bit numbers. -/
inductive CapValue where
  | n64 (x : Nat)
  | str (b : List Byte)
  | words (l : List Nat)
  | longs (l : List Nat)
  deriving DecidableEq, Repr

/-- The depths that 19 R316 fixes. -/
def queueDepths : List Nat := [queueSize, tableSize, pendingMax, counterMax, wakeSize, landingSlots, 16384, stackSize]

/-- "yuron", with a closing zero byte. -/
def familyName : List Byte := [0x79, 0x75, 0x72, 0x6F, 0x6E, 0]

/-- The keys in ascending order (01 R33, 19 R316, 23 R363, R364, R370). -/
def capabilities (s : State) : List (Nat × CapValue) :=
  [(0x01, .n64 256), (0x02, .n64 4), (0x03, .words [16, 32, 64]), (0x04, .n64 256), (0x05, .words [3670016, 2097152]),
   (0x06, .words [3670016, 1310720]), (0x07, .words [128, 128, 24]), (0x08, .n64 0x76C0), (0x09, .words [6, 8, 12, 16]),
   (0x0A, .n64 8), (0x0B, .words queueDepths), (0x0C, .str familyName), (0x0D, .n64 1)]
  ++ [(0x0E, .longs ((List.range 4).map fun d => (dieAt s d).bezel.digest.toNat)), (0x0F, .n64 1),
   (0x10, .n64 (if Config.clamshell then 137438953472 else 68719476736)), (0x11, .n64 (if s.nvmePresent then 3 else 1)),
   (0x12, .n64 1200000), (0x13, .words [131072, 524288]), (0x14, .n64 16), (0x15, .words [262144, 64]),
   (0x16, .words [2097152, 16, 256]), (0x17, .n64 4194304), (0x18, .n64 32), (0x19, .n64 1), (0x1A, .words [4, 144])]

def capValue (s : State) (key : Nat) : Option CapValue := ((capabilities s).find? (·.1 == key)).map (·.2)

/-- The elements of a value that is a number or an array. -/
def capElems : CapValue → List Nat
  | .n64 x => [x]
  | .str _ => []
  | .words l => l
  | .longs l => l

/-- TYPE, CNT, and the bytes of VAL itself or of what it points to. -/
def capFields : CapValue → Nat × Nat × Bool × List Byte
  | .n64 x => (0, 1, true, natBytes 8 x)
  | .str b => (1, 1, false, b)
  | .words l => (2, l.length, decide (l.length ≤ 2), l.flatMap (natBytes 4))
  | .longs l => (3, l.length, false, l.flatMap (natBytes 8))

/-- The entries and, after them, the strings and arrays in the order of their keys, each at a multiple of 8 bytes. -/
def capEntries (l : List (Nat × CapValue)) (base : Nat) : List Byte × List Byte :=
  l.foldl (fun r x =>
    let c := capFields x.2
    let head := natBytes 4 x.1 ++ natBytes 1 c.1 ++ natBytes 1 c.2.1 ++ natBytes 2 0
    if c.2.2.1 then (r.1 ++ head ++ (c.2.2.2 ++ natBytes 8 0).take 8, r.2)
    else (r.1 ++ head ++ natBytes 8 (base + r.2.length),
      r.2 ++ c.2.2.2 ++ natBytes ((8 - c.2.2.2.length % 8) % 8) 0)) ([], [])

/-- The table; it reads 0 where the boot has stopped (25 R383). -/
def capTable (s : State) : List Byte :=
  if !s.booted then []
  else
    let l := capabilities s
    let e := capEntries l (16 + 16 * l.length)
    natBytes 4 0x54434D4B ++ natBytes 2 1 ++ natBytes 2 l.length ++ natBytes 8 0 ++ e.1 ++ e.2

/-! ### Registers -/


/-- The partition register block: offset, size and value. -/
def partRegs (p : Partition) : List (Nat × Nat × Nat) :=
  [(0x00, 8, pstateCode p), (0x08, 8, p.ptroot.toNat), (0x10, 8, p.trapVec.toNat), (0x18, 8, p.evbase.toNat),
   (0x20, 8, p.evlog2n.toNat + if p.even then 256 else 0), (0x28, 4, p.evtail.toNat), (0x2C, 4, p.evhead.toNat),
   (0x30, 8, p.evselc.toNat), (0x38, 8, p.evseld0.toNat), (0x40, 8, p.evseld1.toNat), (0x48, 8, p.shape.toNat % 2 ^ 32),
   (0x50, 8, p.split.toNat), (0x58, 8, p.privPool.toNat), (0x60, 8, p.privSize.toNat)]

/-- The 64 bytes of a host queue. -/
def queueBytes (q : HQueue) : List Byte :=
  natBytes 8 q.base.toNat ++ natBytes 8 q.ctl.toNat ++ natBytes 4 q.tail.toNat ++ natBytes 4 q.head.toNat ++ natBytes 40 0

/-- The 32 bytes of a region-table entry; its reserved bits read 0, as they were not written (00 R5). -/
def regionBytes (r : Region) : List Byte :=
  natBytes 8 r.base.toNat ++ natBytes 8 r.size.toNat ++ [r.dies &&& 0xF, r.chans &&& 0xF, r.lstride, r.flags &&& 1] ++ natBytes 12 0

/-- The mailbox: MCMD, the arguments, MSTATUS, BOOTSTAT in PF0, and the data area at 0x100. -/
def mailboxBytes (s : State) (fn : Nat) : List Byte :=
  let f := s.funcs.getD fn Func.reset
  natBytes 8 f.mcmd.toNat ++ f.marg.flatMap (fun x => natBytes 8 x.toNat) ++ natBytes 8 f.status.toNat
    ++ natBytes 8 (if fn = 0 then s.bootstat.toNat else 0) ++ natBytes 0xC8 0 ++ f.data

/-- A byte of a block of registers; what no register covers reads 0. -/
def regsByte (regs : List (Nat × Nat × Nat)) (off : Nat) : Byte :=
  match regs.find? fun r => r.1 ≤ off && off < r.1 + r.2.1 with
  | some r => BitVec.ofNat 8 (r.2.2 / 256 ^ (off - r.1))
  | none => 0

/-- A byte of BAR0 (25 R373). -/
def barByte (s : State) (fn off : Nat) : Byte :=
  let part := if fn = 0 then none else findPart s (fn - 1)
  if off < 0x1000 then match part with | some p => regsByte (partRegs p) off | none => 0
  else if off < 0x2000 then
    match part with
    | some p => match p.queues[(off - 0x1000) / 64]? with | some q => (queueBytes q).getD (off % 64) 0 | none => 0
    | none => 0
  else if off < 0x3000 then (mailboxBytes s fn).getD (off - 0x2000) 0
  else if off < 0x3800 then
    match part with
    | some p => match p.regions[(off - 0x3000) / 32]? with | some r => (regionBytes r).getD (off % 32) 0 | none => 0
    | none => 0
  else if 0x10000 ≤ off && off < 0x11000 then (capTable s).getD (off - 0x10000) 0
  else 0

/-- What a configuration request to a function comes to. -/
inductive ConfigAnswer where
  /-- No such function, or no link. -/
  | none
  /-- Configuration Request Retry Status. -/
  | retry
  | answers
  deriving DecidableEq, Repr

/-- A configuration request (25 R372, R380, R383): PF0 and the sixteen virtual functions answer, that of a partition that
does not exist too; a package whose boot has stopped has PF0 alone (log entry 129). -/
def configRequest (s : State) (fn : Nat) : ConfigAnswer :=
  if !s.powered || !s.linkUp || 16 < fn then .none
  else if s.booted || (fn == 0 && s.bootstat != 0) then .answers
  else if s.bootstat != 0 then .none
  else .retry

/-- Whether a function answers a memory read: PF0, and the virtual function of a partition that exists (25 R372, R383). -/
def functionAnswers (s : State) (fn : Nat) : Bool :=
  s.powered && s.linkUp && (fn == 0 || (s.booted && (findPart s (fn - 1)).isSome))

/-- A read of BAR0 by the host, none where the function refuses it. -/
def barRead (s : State) (fn off n : Nat) : Option (List Byte) :=
  if functionAnswers s fn then some ((List.range n).map fun i => barByte s fn (off + i)) else none

end Sys2Proof.Machine
end

