-- ==== Sys2Proof/Machine/Module.lean ====
section
/-! DEFINITION. Ubken modules and what the loader makes of one (23 R365 to R369), and the key of a native cache entry
(23 R371). The loader is a program of the host; these are the functions it computes (log entry 98). -/

namespace Sys2Proof.Machine

/-! ### The container (23 R365) -/

/-- A string of the module, without its NUL. -/
abbrev Name := List Byte

/-- The bytes of one UTF-8 character still to come, and the range of the next one; none where no character goes so. -/
def utf8Next (st : Option (Nat × Nat × Nat)) (b : Byte) : Option (Nat × Nat × Nat) :=
  let x := b.toNat
  match st with
  | none => none
  | some (n + 1, lo, hi) => if lo ≤ x ∧ x ≤ hi then some (n, 0x80, 0xBF) else none
  | some (0, _, _) =>
    if x < 0x80 then some (0, 0, 0)
    else if 0xC2 ≤ x ∧ x ≤ 0xDF then some (1, 0x80, 0xBF)
    else if x = 0xE0 then some (2, 0xA0, 0xBF)
    else if x = 0xED then some (2, 0x80, 0x9F)
    else if 0xE1 ≤ x ∧ x ≤ 0xEF then some (2, 0x80, 0xBF)
    else if x = 0xF0 then some (3, 0x90, 0xBF)
    else if x = 0xF4 then some (3, 0x80, 0x8F)
    else if 0xF1 ≤ x ∧ x ≤ 0xF3 then some (3, 0x80, 0xBF)
    else none

def isUtf8 (l : List Byte) : Bool := match l.foldl utf8Next (some (0, 0, 0)) with | some (0, _, _) => true | _ => false

/-- The NUL-terminated UTF-8 string at an offset of the strings. -/
def nameAt (strings : List Byte) (ofs : Nat) : Option Name :=
  let l := strings.drop ofs
  let n := l.takeWhile (· != 0)
  if n.length < l.length && isUtf8 n then some n else none

/-- A specialisation slot: name, pc, type, source, element and key (23 R367). -/
structure SpecSlot where
  name : Name
  pc : Word
  ty : Nat
  source : Nat
  elem : Nat
  key : Nat
  deriving DecidableEq, Repr

/-- A capability requirement (23 R369). -/
structure CapReq where
  key : Nat
  op : Nat
  elem : Nat
  value : Nat
  deriving DecidableEq, Repr

/-- A module: its kernels by name with their launch-packet templates, its code and data, and its tables. A resource symbol
is a name, an index and a kind. -/
structure Module where
  kernels : List (Name × List Byte)
  code : List Byte
  data : List Byte
  slots : List SpecSlot
  res : List (Name × Nat × Nat)
  reqs : List CapReq
  deriving DecidableEq, Repr

/-- `count` entries of `size` bytes from an offset. -/
def tableAt (b : List Byte) (ofs size count : Nat) : List (List Byte) :=
  (List.range count).map fun i => (b.drop (ofs + size * i)).take size

/-- Every entry of a table, if each is one. -/
def parseAll {α : Type} (f : List Byte → Option α) (l : List (List Byte)) : Option (List α) := l.mapM f

def parseSpecSlot (strings b : List Byte) : Option SpecSlot :=
  (nameAt strings (fieldNat b 0 4)).map fun n =>
    ⟨n, BitVec.ofNat 32 (fieldNat b 4 4), fieldNat b 8 1, fieldNat b 9 1, fieldNat b 10 2, fieldNat b 12 4⟩

/-- A resource symbol; its last byte is 0 (23 R368). -/
def parseResSym (strings b : List Byte) : Option (Name × Nat × Nat) :=
  if fieldNat b 7 1 = 0 then (nameAt strings (fieldNat b 0 4)).map fun n => (n, fieldNat b 4 2, fieldNat b 6 1) else none

def parseCapReq (b : List Byte) : Option CapReq :=
  if fieldNat b 6 2 = 0 then some ⟨fieldNat b 0 4, fieldNat b 4 1, fieldNat b 5 1, fieldNat b 8 8⟩ else none

/-- A template: no address filled in. -/
def templateForm (t : List Byte) : Bool :=
  let k := parsePacket t
  k.codeBase == 0 && k.resBase == 0 && k.args == 0 && k.place == 0 && k.specBase == 0

/-- A kernel entry: name, template, and bytes that are 0. -/
def parseKernel (strings b : List Byte) : Option (Name × List Byte) :=
  let t := (b.drop 8).take 128
  if fieldNat b 4 4 = 0 && allZero (b.drop 136) && templateForm t then (nameAt strings (fieldNat b 0 4)).map fun n => (n, t)
  else none

/-- The header of a module and the places of its parts. -/
def moduleForm (b : List Byte) : Bool :=
  let w (o : Nat) : Nat := fieldNat b o 4
  let h (o : Nat) : Nat := fieldNat b o 2
  let inside (ofs len : Nat) : Bool := ofs + len ≤ b.length
  w 0 == 0x4E4B4255 && h 4 == 1 && h 0x22 == 0 && fieldNat b 0x38 8 == 0 && w 0x0C % 64 == 0 && w 0x10 % 64 == 0
  && inside (w 8) (160 * h 6) && inside (w 0x0C) (w 0x10) && inside (w 0x18) (16 * h 0x14) && inside (w 0x1C) (8 * h 0x16)
  && inside (w 0x24) (16 * h 0x20) && inside (w 0x28) (w 0x2C) && inside (w 0x30) (w 0x34)

/-- The module that a byte string holds, if it is one. -/
def parseModule (b : List Byte) : Option Module :=
  let w (o : Nat) : Nat := fieldNat b o 4
  let h (o : Nat) : Nat := fieldNat b o 2
  let strings := (b.drop (w 0x28)).take (w 0x2C)
  if !moduleForm b then none
  else
    match parseAll (parseKernel strings) (tableAt b (w 8) 160 (h 6)), parseAll (parseSpecSlot strings) (tableAt b (w 0x18) 16 (h 0x14)),
        parseAll (parseResSym strings) (tableAt b (w 0x1C) 8 (h 0x16)), parseAll parseCapReq (tableAt b (w 0x24) 16 (h 0x20)) with
    | some ks, some slots, some res, some reqs =>
      some ⟨ks, (b.drop (w 0x0C)).take (w 0x10), (b.drop (w 0x30)).take (w 0x34), slots, res, reqs⟩
    | _, _, _, _ => none

/-! ### Requirements (23 R369) -/

def capElem (s : State) (key elem : Nat) : Option Nat := (capValue s key).bind fun v => (capElems v)[elem]?

def reqHolds (s : State) (r : CapReq) : Bool :=
  match r.op, capElem s r.key r.elem with
  | 0, _ => (capValue s r.key).isSome
  | 1, some x => x == r.value
  | 2, some x => r.value ≤ x
  | 3, some x => x ≤ r.value
  | 4, some x => x &&& r.value == r.value
  | _, _ => false

/-! ### The code rule (03 R51, 23 R366) -/

/-- The slots of the code with their pcs and TGT bits. -/
def codeSlots (code : List Byte) : List (Word × SlotBits × Bool) :=
  (List.range (code.length / 64)).flatMap fun i =>
    let line := (code.drop (64 * i)).take 64
    (List.range 5).map fun j => (BitVec.ofNat 32 (64 * i + j), slotOf line j, tgtBit line j)

/-- What module code may not contain; majors 0x7C to 0x7F only under a requirement of `bezel.digest`. -/
def moduleForbids (emulated : Bool) (w : SlotBits) : Bool :=
  match decode w with
  | .ok i =>
    match i with
    | .bra _ | .brx _ | .call _ | .callx _ | .ret _ | .meet _ | .join _ | .migrate _ | .tret _ => true
    | .csrw f | .csrs f | .csrc f => 2 < f.csr.toNat
    | _ => false
  | .error .reservedMajor => !emulated
  | .error _ => false

/-- The segment end a slot is, if it is one. -/
def segmentEnd (w : SlotBits) : Option Instr :=
  match decode w with
  | .ok (.succ f) => some (.succ f)
  | .ok (.succ2 f) => some (.succ2 f)
  | .ok (.exit f) => if f.gk = 0 ∧ f.gn = false then some (.exit f) else none
  | _ => none

/-- Segments from a list of slots: the starts, and whether the last one has ended. All-zero slots between segments only
fill a line. -/
def segmentStarts : List (Word × SlotBits × Bool) → Bool → List (Word × Bool) → List (Word × Bool) × Bool
  | [], inside, acc => (acc, inside)
  | x :: rest, false, acc =>
    if x.2.1 = 0 then segmentStarts rest false acc
    else segmentStarts rest (segmentEnd x.2.1).isNone (acc ++ [(x.1, x.2.2)])
  | x :: rest, true, acc => segmentStarts rest (segmentEnd x.2.1).isNone acc

/-- Where the ends of segments lead: the targets of SUCC and SUCC2, and the slot after a SUCC2. -/
def segmentGoals (x : Word × SlotBits × Bool) : List Word :=
  match segmentEnd x.2.1 with
  | some (.succ f) => [dispTarget x.1 f.disp]
  | some (.succ2 f) => [dispTarget x.1 f.disp, pcNext x.1]
  | _ => []

/-- The code of a module keeps the rule: whole segments, TGT on every start, every successor a start, no forbidden
instruction, every line word complete. -/
def codeLegal (m : Module) : Bool :=
  let slots := codeSlots m.code
  let starts := segmentStarts slots false []
  let emulated := m.reqs.any fun r => r.key == 0x0E
  !starts.2 && starts.1.all (·.2)
  && slots.all (fun x => !moduleForbids emulated x.2.1)
  && (slots.flatMap segmentGoals).all (fun pc => starts.1.any (·.1 == pc))
  && (List.range (m.code.length / 64)).all fun i => (lineFault ((m.code.drop (64 * i)).take 64)).isNone

/-! ### Specialisation (23 R367) -/

/-- A value fits the type of its slot, coded as TY is: i32, n32, f32 or b32 (05 R95). -/
def fitsSlot (ty : Nat) (v : DWord) : Bool :=
  match tyOfCode (BitVec.ofNat 4 ty) with
  | .i32 => ty < 16 && (v.extractLsb' 0 32).signExtend 64 == v
  | .n32 | .f32 | .b32 => ty < 16 && v.toNat < 2 ^ 32
  | _ => false

/-- The value of a slot: a loader argument by name, or an element of a capability key. -/
def slotValue (s : State) (args : List (Name × DWord)) (x : SpecSlot) : Option DWord :=
  match x.source with
  | 0 => (args.find? (·.1 == x.name)).map (·.2)
  | 1 => (capElem s x.key x.elem).map (BitVec.ofNat 64)
  | _ => none

/-- A line with its parity byte computed anew (05 R76, R77). -/
def withParity (line : List Byte) : List Byte := line.take 63 ++ [lineParity line]

/-- Bits [95:64] of the instruction at a pc replaced, and the parity of its line. -/
def patchSlot (code : List Byte) (pc : Word) (v : DWord) : List Byte :=
  let base := (pcLine pc).toNat
  let line := (code.drop base).take 64
  let at' := 12 * pcSlot pc + 8
  code.take base ++ withParity (line.take at' ++ natBytes 4 v.toNat ++ line.drop (at' + 4)) ++ code.drop (base + 64)

/-! ### Loading -/

/-- A loaded module: its code with the slots filled in, the block at SPECBASE, the resource entries by index, its data and
its kernels. -/
structure Loaded where
  code : List Byte
  spec : List Byte
  entries : List (Nat × List Byte)
  data : List Byte
  kernels : List (Name × List Byte)
  deriving DecidableEq, Repr

/-- The values of the slots, in the order of the table, if each has one that fits and a pc in the code. -/
def slotValues (s : State) (args : List (Name × DWord)) (m : Module) : Option (List DWord) :=
  let vs := m.slots.map fun x => (slotValue s args x).filter fun v =>
    fitsSlot x.ty v && pcFormOk x.pc && (pcLine x.pc).toNat + 64 ≤ m.code.length
  if vs.all (·.isSome) then some (vs.filterMap id) else none

/-- The entry of each resource symbol, from the resources named by the program (23 R368). -/
def resEntries (named : List (Name × List Byte)) (m : Module) : Option (List (Nat × List Byte)) :=
  let es := m.res.map fun r => ((named.find? (·.1 == r.1)).filter fun e => fieldNat e.2 0x10 1 == r.2.2).map fun e => (r.2.1, e.2)
  if es.all (·.isSome) && decide ((m.res.map (·.2.1)).Nodup) then some (es.filterMap id) else none

/-- The template of a kernel is otherwise legal for the partition that is to run it (03 R70): a place stands for the map that
the loader fills in. -/
def templateLegal (p : Partition) (t : List Byte) : Bool :=
  let k := parsePacket t
  packetLegal p { k with place := if k.mapLen = 0 then 0 else 1 }
  && match k.kind with
    | 1 => k.joinAddr == noJoin
    | 2 => k.joinAddr == noJoin || (k.joinAddr.toNat < 2 ^ 26 && k.joinAddr.toNat % 64 == 0)
    | _ => false

/-- Loading a module for a partition, with arguments for its slots and resource entries for its symbols, both by name. -/
def loadModule (s : State) (p : Partition) (b : List Byte) (args : List (Name × DWord)) (named : List (Name × List Byte)) :
    Option Loaded :=
  (parseModule b).bind fun m =>
    if m.reqs.all (reqHolds s) && codeLegal m && m.kernels.all (fun k => templateLegal p k.2) then
      match slotValues s args m, resEntries named m with
      | some vs, some es =>
        some {
          code := (m.slots.zip vs).foldl (fun c x => patchSlot c x.1.pc x.2) m.code
          spec := vs.flatMap fun v => natBytes 8 v.toNat
          entries := es
          data := m.data
          kernels := m.kernels }
      | _, _ => none
    else none

/-- A kernel's launch packet: its template with the addresses filled in (23 R365). -/
def kernelPacket (template : List Byte) (codeBase resBase args place specBase : DWord) : List Byte :=
  template.take 8 ++ natBytes 8 codeBase.toNat ++ natBytes 8 resBase.toNat ++ natBytes 8 args.toNat
    ++ (template.drop 0x20).take 0x20 ++ natBytes 8 place.toNat ++ (template.drop 0x48).take 0x18
    ++ natBytes 8 specBase.toNat ++ template.drop 0x68

/-! ### Native cache entries (23 R371) -/

/-- The three parts of a key: `isa.frozen`, the capability digest over the keys that a module reads, and the digests of
the dies that run it where its code holds a major from 0x7C to 0x7F. -/
structure CacheKey where
  frozen : Nat
  caps : DWord
  bezel : List DWord
  deriving DecidableEq, Repr

/-- An entry of the table with the bytes that its VAL points to in place of an offset. -/
def capEntryBytes (x : Nat × CapValue) : List Byte :=
  let c := capFields x.2
  natBytes 4 x.1 ++ natBytes 1 c.1 ++ natBytes 1 c.2.1 ++ natBytes 2 0
    ++ if c.2.2.1 then (c.2.2.2 ++ natBytes 8 0).take 8 else c.2.2.2

def readsKey (m : Module) (key : Nat) : Bool :=
  (m.reqs.any fun r => r.key == key) || m.slots.any fun x => x.source == 1 && x.key == key

def cacheKey (s : State) (m : Module) (dies : List Nat) : CacheKey where
  frozen := (capElem s 0x0D 0).getD 0
  caps := digestLow (sha256 (((capabilities s).filter fun x => readsKey m x.1).flatMap capEntryBytes))
  bezel := if (codeSlots m.code).any fun x => 0x7C ≤ majorOf x.2.1 then dies.map fun d => (dieAt s d).bezel.digest else []

end Sys2Proof.Machine
end

