-- ==== Sys2Proof/Tests/Slice0.lean ====
section
/-! SUPPORT. Tests: words written out from the spec's encodings, ill-formed terms, worked examples of the spec, and
witnesses of the statements' hypotheses. -/

namespace Sys2Proof.Tests

open Sys2Proof Sys2Proof.Machine

set_option maxRecDepth 100000
set_option Elab.async false

/-! ### Decoding -/

/-! Every word below is put together field by field from the tables of 05 R84 and R88 to R93 with the operand values of
`opV`, `opM`, `opB`, `opX` or `opC`, the major and the FN of 05 R103 and 11 R183. -/

def opV : VF := ⟨0x12345678, true, .rup, .negAbs, .scalar, .imm, false, true, false, 0xA5, 0x3C, 0x5A, 0xC3, true, 9, .e4m3⟩
def opM : MF := ⟨0x89ABCDEF, true, false, 2, true, .release, 3, 1, 0x3C, 0x5A, 0xC3, false, 6, .n64⟩
def opB : BF := ⟨0xFEDCBA98, 0xA5, 0x3C, 0x5A, true, true, 9⟩
def opX : XF := ⟨2, 0x1234, true, false, 5, 0x1A, 0x0D, 0x13, 0x2B, 3, 5, 6, .n8, .f16⟩
def opC : CF := ⟨0x9AB, 0x5A, 0xC3, false, 6⟩

/-- Each word decodes to its instruction, and the instruction's encoding is the word. -/
def decodesTo (l : List (SlotBits × Instr)) : Bool :=
  l.all fun x => (decode x.1).toOption == some x.2 && encode x.2 == some x.1

theorem test_decode_major_00 : decodesTo
    [(0xFEDCBA98000A53C5A01C8000, .nop opB),
     (0xFEDCBA98000A53C5A01C8080, .exit opB),
     (0xFEDCBA98000A53C5A01C8100, .yield opB)] = true := by decide +kernel
theorem test_decode_major_01 : decodesTo
    [(0x12345678DB2A53C5AC3CE001, .sadd opV),
     (0x12345678DB2A53C5AC3CE081, .ssub opV),
     (0x12345678DB2A53C5AC3CE101, .smul opV),
     (0x12345678DB2A53C5AC3CE181, .smulh opV),
     (0x12345678DB2A53C5AC3CE201, .smulhn opV),
     (0x12345678DB2A53C5AC3CE281, .sand opV),
     (0x12345678DB2A53C5AC3CE301, .sor opV),
     (0x12345678DB2A53C5AC3CE381, .sxor opV),
     (0x12345678DB2A53C5AC3CE401, .sandn opV),
     (0x12345678DB2A53C5AC3CE481, .sshl opV),
     (0x12345678DB2A53C5AC3CE501, .sshr opV),
     (0x12345678DB2A53C5AC3CE581, .ssra opV),
     (0x12345678DB2A53C5AC3CE601, .smin opV),
     (0x12345678DB2A53C5AC3CE681, .smax opV),
     (0x12345678DB2A53C5AC3CE701, .sminn opV),
     (0x12345678DB2A53C5AC3CE781, .smaxn opV)] = true := by decide +kernel
theorem test_decode_major_02 : decodesTo
    [(0x12345678DB2A53C5AC3CE002, .smov opV),
     (0x12345678DB2A53C5AC3CE082, .sli opV),
     (0x12345678DB2A53C5AC3CE102, .slih opV),
     (0x12345678DB2A53C5AC3CE182, .ssel opV),
     (0x12345678DB2A53C5AC3CE202, .sbfe opV),
     (0x12345678DB2A53C5AC3CE282, .sbfi opV),
     (0x12345678DB2A53C5AC3CE302, .spopc opV),
     (0x12345678DB2A53C5AC3CE382, .sclz opV),
     (0x12345678DB2A53C5AC3CE402, .sbrev opV)] = true := by decide +kernel
theorem test_decode_major_03 : decodesTo
    [(0x12345678DB2A53C5AC3CE003, .scmp .eq opV),
     (0x12345678DB2A53C5AC3CE083, .scmp .ne opV),
     (0x12345678DB2A53C5AC3CE103, .scmp .lt opV),
     (0x12345678DB2A53C5AC3CE183, .scmp .le opV),
     (0x12345678DB2A53C5AC3CE203, .scmp .gt opV),
     (0x12345678DB2A53C5AC3CE283, .scmp .ge opV),
     (0x12345678DB2A53C5AC3CE303, .scmp .ltn opV),
     (0x12345678DB2A53C5AC3CE383, .scmp .len opV),
     (0x12345678DB2A53C5AC3CE403, .scmp .gtn opV),
     (0x12345678DB2A53C5AC3CE483, .scmp .gen opV)] = true := by decide +kernel
theorem test_decode_major_04 : decodesTo
    [(0x12345678DB2A53C5AC3CE004, .sdiv opV),
     (0x12345678DB2A53C5AC3CE084, .sdivn opV),
     (0x12345678DB2A53C5AC3CE104, .srem opV),
     (0x12345678DB2A53C5AC3CE184, .sremn opV)] = true := by decide +kernel
theorem test_decode_major_10 : decodesTo
    [(0x12345678DB2A53C5AC3CE010, .vadd opV),
     (0x12345678DB2A53C5AC3CE090, .vsub opV),
     (0x12345678DB2A53C5AC3CE110, .vrsub opV),
     (0x12345678DB2A53C5AC3CE190, .vmul opV),
     (0x12345678DB2A53C5AC3CE210, .vmulh opV),
     (0x12345678DB2A53C5AC3CE290, .vmulhn opV),
     (0x12345678DB2A53C5AC3CE310, .vand opV),
     (0x12345678DB2A53C5AC3CE390, .vor opV),
     (0x12345678DB2A53C5AC3CE410, .vxor opV),
     (0x12345678DB2A53C5AC3CE490, .vandn opV),
     (0x12345678DB2A53C5AC3CE510, .vshl opV),
     (0x12345678DB2A53C5AC3CE590, .vshr opV),
     (0x12345678DB2A53C5AC3CE610, .vsra opV),
     (0x12345678DB2A53C5AC3CE690, .vmin opV),
     (0x12345678DB2A53C5AC3CE710, .vmax opV),
     (0x12345678DB2A53C5AC3CE790, .vabsd opV)] = true := by decide +kernel
theorem test_decode_major_11 : decodesTo
    [(0x12345678DB2A53C5AC3CE011, .vmad opV),
     (0x12345678DB2A53C5AC3CE091, .vmov opV),
     (0x12345678DB2A53C5AC3CE111, .vsel opV),
     (0x12345678DB2A53C5AC3CE191, .vbfe opV),
     (0x12345678DB2A53C5AC3CE211, .vbfi opV),
     (0x12345678DB2A53C5AC3CE291, .vpopc opV),
     (0x12345678DB2A53C5AC3CE311, .vclz opV),
     (0x12345678DB2A53C5AC3CE391, .vbrev opV),
     (0x12345678DB2A53C5AC3CE411, .vdot4 opV),
     (0x12345678DB2A53C5AC3CE491, .vdot2 opV),
     (0x12345678DB2A53C5AC3CE511, .vmadw opV)] = true := by decide +kernel
theorem test_decode_major_12 : decodesTo
    [(0x12345678DB2A53C5AC3CE012, .vicmp .eq opV),
     (0x12345678DB2A53C5AC3CE092, .vicmp .ne opV),
     (0x12345678DB2A53C5AC3CE112, .vicmp .lt opV),
     (0x12345678DB2A53C5AC3CE192, .vicmp .le opV),
     (0x12345678DB2A53C5AC3CE212, .vicmp .gt opV),
     (0x12345678DB2A53C5AC3CE292, .vicmp .ge opV),
     (0x12345678DB2A53C5AC3CE312, .vicmp .ltn opV),
     (0x12345678DB2A53C5AC3CE392, .vicmp .len opV),
     (0x12345678DB2A53C5AC3CE412, .vicmp .gtn opV),
     (0x12345678DB2A53C5AC3CE492, .vicmp .gen opV)] = true := by decide +kernel
theorem test_decode_major_13 : decodesTo
    [(0x12345678DB2A53C5AC3CE013, .vdiv opV),
     (0x12345678DB2A53C5AC3CE093, .vdivn opV),
     (0x12345678DB2A53C5AC3CE113, .vrem opV),
     (0x12345678DB2A53C5AC3CE193, .vremn opV)] = true := by decide +kernel
theorem test_decode_major_20 : decodesTo
    [(0x12345678DB2A53C5AC3CE020, .vfadd opV),
     (0x12345678DB2A53C5AC3CE0A0, .vfsub opV),
     (0x12345678DB2A53C5AC3CE120, .vfmul opV),
     (0x12345678DB2A53C5AC3CE1A0, .vfma opV),
     (0x12345678DB2A53C5AC3CE220, .vfms opV),
     (0x12345678DB2A53C5AC3CE2A0, .vfnma opV),
     (0x12345678DB2A53C5AC3CE320, .vfnms opV),
     (0x12345678DB2A53C5AC3CE3A0, .vfmin opV),
     (0x12345678DB2A53C5AC3CE420, .vfmax opV),
     (0x12345678DB2A53C5AC3CE4A0, .vfminn opV),
     (0x12345678DB2A53C5AC3CE520, .vfmaxn opV),
     (0x12345678DB2A53C5AC3CE5A0, .vfcpys opV)] = true := by decide +kernel
theorem test_decode_major_21 : decodesTo
    [(0x12345678DB2A53C5AC3CE021, .vfcmp .eq opV),
     (0x12345678DB2A53C5AC3CE0A1, .vfcmp .ne opV),
     (0x12345678DB2A53C5AC3CE121, .vfcmp .lt opV),
     (0x12345678DB2A53C5AC3CE1A1, .vfcmp .le opV),
     (0x12345678DB2A53C5AC3CE221, .vfcmp .gt opV),
     (0x12345678DB2A53C5AC3CE2A1, .vfcmp .ge opV),
     (0x12345678DB2A53C5AC3CE321, .vfcmp .uno opV),
     (0x12345678DB2A53C5AC3CE3A1, .vfcmp .ord opV)] = true := by decide +kernel
theorem test_decode_major_22 : decodesTo
    [(0x12345678DB2A53C5AC3CE022, .vfrcp opV),
     (0x12345678DB2A53C5AC3CE0A2, .vfrsq opV),
     (0x12345678DB2A53C5AC3CE122, .vfsqrt opV),
     (0x12345678DB2A53C5AC3CE1A2, .vfexp2 opV),
     (0x12345678DB2A53C5AC3CE222, .vflog2 opV),
     (0x12345678DB2A53C5AC3CE2A2, .vfsinp opV),
     (0x12345678DB2A53C5AC3CE322, .vfcosp opV),
     (0x12345678DB2A53C5AC3CE3A2, .vftanh opV)] = true := by decide +kernel
theorem test_decode_major_23 : decodesTo
    [(0x12345678DB2A53C5AC3CE023, .vfdiv opV),
     (0x12345678DB2A53C5AC3CE0A3, .vfsqrtc opV)] = true := by decide +kernel
theorem test_decode_major_24 : decodesTo
    [(0x12345678DB2A53C5AC3CE024, .vfcvt opV),
     (0x12345678DB2A53C5AC3CE0A4, .vftoi opV),
     (0x12345678DB2A53C5AC3CE124, .vitof opV),
     (0x12345678DB2A53C5AC3CE1A4, .vfrint opV),
     (0x12345678DB2A53C5AC3CE224, .vfclass opV),
     (0x12345678DB2A53C5AC3CE2A4, .vfgetx opV),
     (0x12345678DB2A53C5AC3CE324, .vfldx opV)] = true := by decide +kernel
theorem test_decode_major_30 : decodesTo
    [(0x12345678DB2A53C5AC3CE030, .vpadd opV),
     (0x12345678DB2A53C5AC3CE0B0, .vpsub opV),
     (0x12345678DB2A53C5AC3CE130, .vpmul opV),
     (0x12345678DB2A53C5AC3CE1B0, .vpfma opV),
     (0x12345678DB2A53C5AC3CE230, .vpmin opV),
     (0x12345678DB2A53C5AC3CE2B0, .vpmax opV)] = true := by decide +kernel
theorem test_decode_major_31 : decodesTo
    [(0x12345678DB2A53C5AC3CE031, .vpack2 opV),
     (0x12345678DB2A53C5AC3CE0B1, .vunpk2 opV),
     (0x12345678DB2A53C5AC3CE131, .vpack4 opV),
     (0x12345678DB2A53C5AC3CE1B1, .vunpk4 opV)] = true := by decide +kernel
theorem test_decode_major_32 : decodesTo
    [(0x12345678DB2A53C5AC3CE032, .vscl opV)] = true := by decide +kernel
theorem test_decode_major_38 : decodesTo
    [(0x12345678DB2A53C5AC3CE038, .vfaddx opV),
     (0x12345678DB2A53C5AC3CE0B8, .vfsubx opV),
     (0x12345678DB2A53C5AC3CE138, .vfmulx opV),
     (0x12345678DB2A53C5AC3CE1B8, .vfnorm opV)] = true := by decide +kernel
theorem test_decode_major_39 : decodesTo
    [(0x12345678DB2A53C5AC3CE039, .dwadd opV),
     (0x12345678DB2A53C5AC3CE0B9, .dwsub opV),
     (0x12345678DB2A53C5AC3CE139, .dwmul opV),
     (0x12345678DB2A53C5AC3CE1B9, .dwadds opV),
     (0x12345678DB2A53C5AC3CE239, .dwmuls opV)] = true := by decide +kernel
theorem test_decode_major_3a : decodesTo
    [(0x12345678DB2A53C5AC3CE03A, .vredx opV),
     (0x12345678DB2A53C5AC3CE0BA, .vreddw opV),
     (0x12345678DB2A53C5AC3CE13A, .vdotx opV)] = true := by decide +kernel
theorem test_decode_major_40 : decodesTo
    [(0x12345678DB2A53C5AC3CE040, .vshfi opV),
     (0x12345678DB2A53C5AC3CE0C0, .vshfu opV),
     (0x12345678DB2A53C5AC3CE140, .vshfd opV),
     (0x12345678DB2A53C5AC3CE1C0, .vshfx opV),
     (0x12345678DB2A53C5AC3CE240, .vbcast opV)] = true := by decide +kernel
theorem test_decode_major_41 : decodesTo
    [(0x12345678DB2A53C5AC3CE041, .vredadd opV),
     (0x12345678DB2A53C5AC3CE0C1, .vredmin opV),
     (0x12345678DB2A53C5AC3CE141, .vredmax opV),
     (0x12345678DB2A53C5AC3CE1C1, .vredand opV),
     (0x12345678DB2A53C5AC3CE241, .vredor opV),
     (0x12345678DB2A53C5AC3CE2C1, .vredxor opV),
     (0x12345678DB2A53C5AC3CE341, .vredfadd opV),
     (0x12345678DB2A53C5AC3CE3C1, .vredfmin opV),
     (0x12345678DB2A53C5AC3CE441, .vredfmax opV)] = true := by decide +kernel
theorem test_decode_major_42 : decodesTo
    [(0x12345678DB2A53C5AC3CE042, .vscani opV),
     (0x12345678DB2A53C5AC3CE0C2, .vscane opV)] = true := by decide +kernel
theorem test_decode_major_43 : decodesTo
    [(0x12345678DB2A53C5AC3CE043, .vballot opV),
     (0x12345678DB2A53C5AC3CE0C3, .vany opV),
     (0x12345678DB2A53C5AC3CE143, .vall opV),
     (0x12345678DB2A53C5AC3CE1C3, .vmatch opV)] = true := by decide +kernel
theorem test_decode_major_44 : decodesTo
    [(0x12345678DB2A53C5AC3CE044, .ddx opV),
     (0x12345678DB2A53C5AC3CE0C4, .ddy opV),
     (0x12345678DB2A53C5AC3CE144, .ddxf opV),
     (0x12345678DB2A53C5AC3CE1C4, .ddyf opV)] = true := by decide +kernel
theorem test_decode_major_45 : decodesTo
    [(0x12345678DB2A53C5AC3CE045, .vqswx opV),
     (0x12345678DB2A53C5AC3CE0C5, .vqswy opV),
     (0x12345678DB2A53C5AC3CE145, .vqswd opV)] = true := by decide +kernel
theorem test_decode_major_46 : decodesTo
    [(0x12345678DB2A53C5AC3CE046, .mstat opV)] = true := by decide +kernel
theorem test_decode_major_48 : decodesTo
    [(0x12345678DB2A53C5AC3CE048, .kand opV),
     (0x12345678DB2A53C5AC3CE0C8, .kor opV),
     (0x12345678DB2A53C5AC3CE148, .kxor opV),
     (0x12345678DB2A53C5AC3CE1C8, .kandn opV),
     (0x12345678DB2A53C5AC3CE248, .knot opV),
     (0x12345678DB2A53C5AC3CE2C8, .kmov opV)] = true := by decide +kernel
theorem test_decode_major_49 : decodesTo
    [(0x12345678DB2A53C5AC3CE049, .kpopc opV),
     (0x12345678DB2A53C5AC3CE0C9, .kffs opV),
     (0x12345678DB2A53C5AC3CE149, .kset opV),
     (0x12345678DB2A53C5AC3CE1C9, .kget opV),
     (0x12345678DB2A53C5AC3CE249, .ktov opV),
     (0x12345678DB2A53C5AC3CE2C9, .vtok opV)] = true := by decide +kernel
theorem test_decode_major_50 : decodesTo
    [(0xFEDCBA98000A53C5A01C8050, .bra opB),
     (0xFEDCBA98000A53C5A01C80D0, .brx opB)] = true := by decide +kernel
theorem test_decode_major_51 : decodesTo
    [(0xFEDCBA98000A53C5A01C8051, .call opB),
     (0xFEDCBA98000A53C5A01C80D1, .callx opB),
     (0xFEDCBA98000A53C5A01C8151, .ret opB)] = true := by decide +kernel
theorem test_decode_major_52 : decodesTo
    [(0xFEDCBA98000A53C5A01C8052, .meet opB),
     (0xFEDCBA98000A53C5A01C80D2, .join opB)] = true := by decide +kernel
theorem test_decode_major_53 : decodesTo
    [(0xFEDCBA98000A53C5A01C8053, .succ opB),
     (0xFEDCBA98000A53C5A01C80D3, .succ2 opB)] = true := by decide +kernel
theorem test_decode_major_54 : decodesTo
    [(0xFEDCBA98000A53C5A01C8054, .enter opB),
     (0xFEDCBA98000A53C5A01C80D4, .leave opB)] = true := by decide +kernel
theorem test_decode_major_55 : decodesTo
    [(0xFEDCBA98000A53C5A01C8055, .trap opB),
     (0xFEDCBA98000A53C5A01C80D5, .bkpt opB),
     (0xFEDCBA98000A53C5A01C8155, .tret opB)] = true := by decide +kernel
theorem test_decode_major_56 : decodesTo
    [(0xFEDCBA98000A53C5A01C8056, .migrate opB)] = true := by decide +kernel
theorem test_decode_major_58 : decodesTo
    [(0x89ABCDEF00ACD3C5AC331858, .ld opM),
     (0x89ABCDEF00ACD3C5AC3318D8, .ldnc opM),
     (0x89ABCDEF00ACD3C5AC331958, .ldr opM)] = true := by decide +kernel
theorem test_decode_major_59 : decodesTo
    [(0x89ABCDEF00ACD3C5AC331859, .st opM),
     (0x89ABCDEF00ACD3C5AC3318D9, .stnc opM),
     (0x89ABCDEF00ACD3C5AC331959, .str opM)] = true := by decide +kernel
theorem test_decode_major_5a : decodesTo
    [(0x89ABCDEF00ACD3C5AC33185A, .lds opM),
     (0x89ABCDEF00ACD3C5AC3318DA, .sts opM)] = true := by decide +kernel
theorem test_decode_major_5b : decodesTo
    [(0x89ABCDEF00ACD3C5AC33185B, .ldp opM),
     (0x89ABCDEF00ACD3C5AC3318DB, .stp opM)] = true := by decide +kernel
theorem test_decode_major_5c : decodesTo
    [(0x89ABCDEF00ACD3C5AC33185C, .atom .add opM),
     (0x89ABCDEF00ACD3C5AC3318DC, .atom .fadd opM),
     (0x89ABCDEF00ACD3C5AC33195C, .atom .min opM),
     (0x89ABCDEF00ACD3C5AC3319DC, .atom .max opM),
     (0x89ABCDEF00ACD3C5AC331A5C, .atom .and opM),
     (0x89ABCDEF00ACD3C5AC331ADC, .atom .or opM),
     (0x89ABCDEF00ACD3C5AC331B5C, .atom .xor opM),
     (0x89ABCDEF00ACD3C5AC331BDC, .atom .exch opM),
     (0x89ABCDEF00ACD3C5AC331C5C, .atom .cas opM),
     (0x89ABCDEF00ACD3C5AC331CDC, .atom .max64 opM),
     (0x89ABCDEF00ACD3C5AC331D5C, .atomClasp opM)] = true := by decide +kernel
theorem test_decode_major_5d : decodesTo
    [(0x89ABCDEF00ACD3C5AC33185D, .red .add opM),
     (0x89ABCDEF00ACD3C5AC3318DD, .red .fadd opM),
     (0x89ABCDEF00ACD3C5AC33195D, .red .min opM),
     (0x89ABCDEF00ACD3C5AC3319DD, .red .max opM),
     (0x89ABCDEF00ACD3C5AC331A5D, .red .and opM),
     (0x89ABCDEF00ACD3C5AC331ADD, .red .or opM),
     (0x89ABCDEF00ACD3C5AC331B5D, .red .xor opM),
     (0x89ABCDEF00ACD3C5AC331CDD, .red .max64 opM)] = true := by decide +kernel
theorem test_decode_major_5e : decodesTo
    [(0x89ABCDEF00ACD3C5AC33185E, .fence opM),
     (0x89ABCDEF00ACD3C5AC3318DE, .lfence opM),
     (0x89ABCDEF00ACD3C5AC33195E, .icinv opM),
     (0x89ABCDEF00ACD3C5AC3319DE, .cinv opM),
     (0x89ABCDEF00ACD3C5AC331A5E, .cwb opM),
     (0x89ABCDEF00ACD3C5AC331ADE, .pref opM)] = true := by decide +kernel
theorem test_decode_major_5f : decodesTo
    [(0x89ABCDEF00ACD3C5AC33185F, .cpy opM),
     (0x89ABCDEF00ACD3C5AC3318DF, .waitc opM)] = true := by decide +kernel
theorem test_decode_major_68 : decodesTo
    [(0x89ABCDEF00ACD3C5AC331868, .emit opM)] = true := by decide +kernel
theorem test_decode_major_69 : decodesTo
    [(0x89ABCDEF00ACD3C5AC331869, .launch opM)] = true := by decide +kernel
theorem test_decode_major_6a : decodesTo
    [(0x000009AB00000005AC33006A, .getid opC),
     (0x000009AB00000005AC3300EA, .clock opC)] = true := by decide +kernel
theorem test_decode_major_6c : decodesTo
    [(0x89ABCDEF00ACD3C5AC33186C, .tex opM),
     (0x89ABCDEF00ACD3C5AC3318EC, .texl opM),
     (0x89ABCDEF00ACD3C5AC33196C, .texg opM),
     (0x89ABCDEF00ACD3C5AC3319EC, .texq opM)] = true := by decide +kernel
theorem test_decode_major_6d : decodesTo
    [(0x89ABCDEF00ACD3C5AC33186D, .rastq opM)] = true := by decide +kernel
theorem test_decode_major_6e : decodesTo
    [(0x89ABCDEF00ACD3C5AC33186E, .trace opM),
     (0x89ABCDEF00ACD3C5AC3318EE, .verdict opM)] = true := by decide +kernel
theorem test_decode_major_6f : decodesTo
    [(0x89ABCDEF00ACD3C5AC33186F, .boxt opM),
     (0x89ABCDEF00ACD3C5AC3318EF, .trit opM)] = true := by decide +kernel
theorem test_decode_major_70 : decodesTo
    [(0x0002123401568D4EB773C870, .mma opX),
     (0x0002123401568D4EB773C8F0, .mmas opX)] = true := by decide +kernel
theorem test_decode_major_71 : decodesTo
    [(0x0002123401568D4EB773C871, .mscl opX)] = true := by decide +kernel
theorem test_decode_major_72 : decodesTo
    [(0x0002123401568D4EB773C872, .mzero opX),
     (0x0002123401568D4EB773C8F2, .mcpyo opX),
     (0x0002123401568D4EB773C972, .mcpyi opX)] = true := by decide +kernel
theorem test_decode_major_73 : decodesTo
    [(0x0002123401568D4EB773C873, .mwait opX),
     (0x0002123401568D4EB773C8F3, .ppoint opX)] = true := by decide +kernel
theorem test_decode_major_78 : decodesTo
    [(0x000009AB00000005AC330078, .csrr opC),
     (0x000009AB00000005AC3300F8, .csrw opC),
     (0x000009AB00000005AC330178, .csrs opC),
     (0x000009AB00000005AC3301F8, .csrc opC)] = true := by decide +kernel
theorem test_decode_major_79 : decodesTo
    [(0x000009AB00000005AC330079, .evrd opC)] = true := by decide +kernel

/-- Why a slot value is no instruction. -/
def rejectOf (w : SlotBits) : Option Reject := match decode w with | .error e => some e | .ok _ => none

/-- 05 R83, R100, R103: a reserved major, an unassigned major, an unassigned member, and reserved bits of each format. -/
theorem test_decode_rejects :
    [0x7C, 0x7F].map rejectOf = [some .reservedMajor, some .reservedMajor]
      ∧ [0x05, 0x512, 0x180].map rejectOf = List.replicate 3 (some .unassigned)
      ∧ [0x000000000100000000000058, 0x000000000000000000000850, 0x000400000000000000000070, 0x000010000000000000000078].map rejectOf
        = List.replicate 4 (some .reservedBits) := by decide +kernel

/-- The host's numbering of the bits: the 12 bytes of a slot, the first the least significant (00 R4). -/
theorem test_decode_table_word :
    decodeTableWord 96 0x3FC000002C90005020A9C1A0 = (decode 0x3FC000002C90005020A9C1A0).toOption
      ∧ decodeTableWord 8 0x7C = none := by decide +kernel

/-! ### Ill-formed terms (05 R101) -/

def f0 : VF := ⟨0, false, .rne, .none, .vec, .vec, false, false, false, 0, 0, 0, 0, false, 0, .i32⟩
def m0 : MF := ⟨0, false, false, 0, false, .relaxed, 0, 0, 0xFF, 0, 0, false, 0, .b32⟩
def b0 : BF := ⟨0, 0, 0, 0, false, false, 0⟩
def c0 : CF := ⟨0, 0, 0, false, 0⟩
def x0 : XF := ⟨0, 0, true, false, 0, 0, 0, 0, 0, 0, 0, 0, .i32, .i32⟩

theorem test_well_formed :
    wellFormed fullVector (.vadd { f0 with d := 255, a := 254, b := 253 }) = true
      ∧ wellFormed fullVector (.ld m0) = true ∧ wellFormed fullVector (.bra b0) = true
      ∧ wellFormed fullControl (.mma { x0 with ta := .f16, tb := .f16 }) = true
      ∧ wellFormed fullVector (.csrr c0) = true := by decide +kernel

/-- A step of the device, and a value that is no instruction, stand in no slot. -/
theorem test_ill_not_in_slot :
    wellFormed fullVector (.teamEnd 0) = false ∧ wellFormed fullVector (.illegalOpcode 0x7C) = false := by decide +kernel

/-- Check 4: the X format in a vector stream, a vector member on the control core, a derivative outside quads. -/
theorem test_ill_context :
    checkInstr fullVector (.mma { x0 with ta := .f16, tb := .f16 }) = some 0x006 ∧ checkInstr fullControl (.vadd f0) = some 0x006
      ∧ checkInstr { fullVector with quadBound := false } (.ddx { f0 with ty := .f32 }) = some 0x006
      ∧ checkInstr fullControl (.meet b0) = some 0x006 := by decide +kernel

/-- Check 5: a type, SAT, a rounding mode, an immediate without its kind, a reserved kind, two immediates, a reuse bit of a
scalar, a scope, an ORD, a target slot, an unused field, a CSR that does not exist, a write of an Identity CSR. -/
theorem test_ill_field :
    (∀ i ∈ [Instr.vfadd f0, .vand { f0 with sat := true }, .vadd { f0 with rm := .rtz }, .vadd { f0 with imm := 1 },
        .vadd { f0 with bk := .reserved }, .vmad { f0 with bk := .imm, ck := .imm }, .vadd { f0 with rb := true, bk := .scalar },
        .ld { m0 with sc := 5 }, .st { m0 with ord := .acquire }, .bra { b0 with disp := 5 }, .nop { b0 with a := 1 },
        .csrr { c0 with csr := 0x555 }, .csrw { c0 with csr := 0x010 }, .vbcast { f0 with ty := .b32 }],
      checkInstr fullVector i = some 0x003) := by decide +kernel

/-- Check 6: a vector register past V, alone and through its pair, a scalar register past s63, a mask register past k15, a
range of masks that passes k15, a tile past ACCT. -/
theorem test_ill_register :
    checkInstr { fullVector with v := 32 } (.vadd { f0 with d := 32 }) = some 0x004
      ∧ checkInstr { fullVector with v := 33 } (.vadd { f0 with d := 32, ty := .i64 }) = some 0x004
      ∧ (∀ i ∈ [Instr.sadd { f0 with d := 64 }, .kand { f0 with d := 16 },
          .ktov { f0 with bk := .imm, imm := 2, a := 15 }, .mstat { f0 with bk := .imm, a := 8, ty := .f32 }],
        checkInstr fullVector i = some 0x004) := by decide +kernel

/-- Check 7: an odd pair. -/
theorem test_ill_pair_align : checkInstr fullVector (.vadd { f0 with d := 1, ty := .i64 }) = some 0x005 := by decide +kernel

/-- Check 8: TRET, a Trap CSR, and a write of a Stack CSR at user privilege. -/
theorem test_ill_privilege :
    (∀ i ∈ [Instr.tret b0, .csrr { c0 with csr := 0x102 }, .csrw { c0 with csr := 0x020 }, .csrw { c0 with csr := 0x200 }],
      checkInstr fullVector i = some 0x00A ∧ checkInstr { fullVector with priv := true } i = none)
      ∧ checkInstr fullVector (.csrr { c0 with csr := 0x020 }) = none := by decide +kernel

/-! ### Witnesses: states and operands that meet the hypotheses of the statements -/

/-- A group of 16 lanes at pc 0, in its run; its trap vector is 0x100. -/
def wGroup : Group := { launchGroup installPacket 1 0 0 0 0 (0, 0) 0 0x100 16 with run := some ⟨0xFFFF, 0, none, false⟩ }
/-- A control thread with the same trap vector. -/
def wThread : Thread := { launchThread installPacket 0 0 0 0 0 0x100 with started := true }
/-- The issue of the group's 16 lanes, and one of the control thread. -/
def wCur : Cur := ⟨.group 1, 0xFFFF, 0, false, 0, false⟩
def tCur : Cur := ⟨.thread 0, 1, 0, false, 0, false⟩
/-- A package with a group in its run: a quad-bound team of its own, mapped memory at the code base. -/
def wState : State := { State.reset.withFetchWord 96 0 with groups := [wGroup], threads := [wThread], cur := some wCur, agenda := [] }
def tState : State := { wState with cur := some tCur }
/-- The same package with another group and another team. -/
def withGroup (g : Group) : State := { wState with groups := [g] }
def withTeam (t : Team) : State := { wState with teams := [t] }

theorem lanes64 {m : DWord} {P : Nat → Prop} (h : ∀ l < 64, m.getLsbD l = true → P l) : ∀ l, m.getLsbD l = true → P l :=
  fun l hl => h l (BitVec.lt_of_getLsbD hl) hl

theorem lanesIn {g : Group} {m : DWord} {P : Nat → Prop} (h : ∀ l < g.w, m.getLsbD l = true → P l) :
    ∀ l, inLanes g m l = true → P l := fun l hl => by
  simp only [inLanes, Bool.and_eq_true, decide_eq_true_eq] at hl
  exact h l hl.1 hl.2

theorem wit_active : ActiveAt wGroup wCur := ⟨by decide +kernel, by decide +kernel, by decide +kernel, lanes64 (by decide +kernel)⟩

theorem wit_midRun : MidRun wGroup wCur ∧ Settled wState wGroup ∧ HandlerFree wState wGroup 0xFFFF 0x003 := by decide +kernel

theorem wit_scalar : (∀ p ∈ scalarTwo { f0 with d := 63, a := 63 }, Issuing wState wGroup wCur p.1)
    ∧ Issuing wState wGroup wCur (.sli { f0 with bk := .imm, imm := 0xFFFFFFFF }) ∧ Issuing wState wGroup wCur (.sbrev f0) := by decide +kernel

theorem wit_scalarCtl : (∀ p ∈ scalarTwo { f0 with d := 31, a := 31 }, IssuingCtl tState wThread tCur p.1)
    ∧ IssuingCtl tState wThread tCur (.smov f0) := by decide +kernel

/-- The lanes of a member whose status bits no trap enables. -/
theorem quiet_of_ften {g : Group} {m : DWord} {fl : Nat → FlagSet} (h : g.ften = 0) : noTrap g m fl := fun l _ => by
  rw [h]; unfold enabledBits; simp

theorem wit_vector (f : VF) (h : LaneFn) : quietV wGroup wCur f h := quiet_of_ften rfl

theorem wit_vectorIntegers : (∀ i ∈ [Instr.vadd { f0 with d := 255 }, .vmadw { f0 with d := 254 }],
    Issuing wState wGroup wCur i) := by decide +kernel
theorem wit_vectorFloats : Issuing wState wGroup wCur (.vfma { f0 with ty := .f32, gk := 15, gn := true })
    ∧ Issuing wState wGroup wCur (.vfclass { f0 with ty := .f64 }) := by decide +kernel
/-- Lane 3 adds a signalling NaN; FTEN enables NV. -/
def aGroup : Group :=
  { wGroup with ften := 1, lanes := wGroup.lanes.mapIdx fun i l => if i = 3 then { l with v := l.v.set 1 0x7F800001 } else l }
def fArith : VF := { f0 with ty := .f32, a := 1, b := 2, d := 3 }
/-- The statement's hypotheses for the VFADD of the list. -/
def arithOk : Bool :=
  match (vectorFloats aGroup fArith)[0]? with
  | none => false
  | some p =>
    let m := guardV aGroup wCur fArith
    let hot := laneSet ((laneList aGroup.w m).filter fun l => enabledBits aGroup.ften (p.2 l).2 != 0)
    decide (Issuing (withGroup aGroup) aGroup wCur p.1 ∧ MidRun aGroup wCur ∧ Settled (withGroup aGroup) aGroup ∧ hot = 8
      ∧ lowestBit (enabledBits aGroup.ften (raised aGroup m fun l => (p.2 l).2)) = some 0)
    && decide (HandlerFree (withGroup aGroup) aGroup hot 0x080)
theorem wit_vectorFloats_trap : arithOk = true := by decide +kernel
theorem wit_vectorFloats_active : ActiveAt aGroup wCur := ⟨by decide +kernel, by decide +kernel, by decide +kernel, lanes64 (by decide +kernel)⟩
theorem wit_vectorPacked : Issuing wState wGroup wCur (.vpfma { f0 with ty := .e4m3 })
    ∧ Issuing wState wGroup wCur (.dwmul { f0 with ty := .f64, d := 252 }) := by decide +kernel
theorem wit_crossLane : Issuing wState wGroup wCur (.vshfu { f0 with ty := .b32 })
    ∧ Issuing wState wGroup wCur (.vscani { f0 with ty := .f32, bk := .imm, imm := 6 })
    ∧ Issuing wState wGroup wCur (.vmatch { f0 with ty := .n64 }) := by decide +kernel
theorem wit_maskResults : Issuing wState wGroup wCur (.kand { f0 with d := 0 }) ∧ Issuing wState wGroup wCur (.kset { f0 with d := 15, bk := .imm })
    ∧ Issuing wState wGroup wCur (.vicmp .gen { f0 with d := 1 }) ∧ Issuing wState wGroup wCur (.vfcmp .uno { f0 with ty := .f32 }) := by
  decide +kernel
theorem wit_selections : Issuing wState wGroup wCur (.kget f0) ∧ Issuing wState wGroup wCur (.vballot { f0 with ty := .b32 })
    ∧ Issuing wState wGroup wCur (.ktov { f0 with bk := .imm, imm := 16 }) ∧ Issuing wState wGroup wCur (.vtok { f0 with bk := .imm, imm := 1 })
    ∧ Issuing wState wGroup wCur (.vsel { f0 with ty := .b32 }) := by decide +kernel

/-- A team that is not quad-bound. -/
def plainTeam : Team := { installTeam 0 with packet := { installPacket with flags := 0x08 } }
theorem wit_quadSwaps : findTeam (withTeam plainTeam) wGroup.team = some plainTeam ∧ isQuadBound plainTeam = false
    ∧ Issuing (withTeam plainTeam) wGroup wCur (.vqswx { f0 with ty := .b32 }) := by decide +kernel
theorem wit_scmp : Issuing wState wGroup wCur (.scmp .ltn f0) ∧ IssuingCtl tState wThread tCur (.scmp .ge { f0 with d := 0x27 })
    ∧ IssuingCtl tState wThread tCur (.scmp .ge { f0 with d := 31 }) := by decide +kernel
theorem wit_divisions : (∀ p ∈ scalarDivisions f0, Issuing wState wGroup wCur p.1 ∧ IssuingCtl tState wThread tCur p.1)
    ∧ guardV wGroup wCur f0 ≠ 0 ∧ guardV wGroup wCur { f0 with gk := 1 } = 0 := by decide +kernel
theorem wit_slowLanes : Issuing wState wGroup wCur (.vdiv f0) ∧ Issuing wState wGroup wCur (.vfsqrtc { f0 with ty := .f64 })
    ∧ Issuing wState wGroup wCur (.vfrcp { f0 with ty := .f16, gk := 1 }) := by decide +kernel
theorem wit_reductions : wGroup.w ∈ [16, 32, 64] ∧ Issuing wState wGroup wCur (.vredadd f0)
    ∧ Issuing wState wGroup wCur (.vredfmin { f0 with ty := .f32 }) ∧ Issuing wState wGroup wCur (.vdotx { f0 with ty := .f32 }) := by decide +kernel

/-- The last row of the tile that lane 15 may name. -/
def fRow : VF := { f0 with ty := .f32, bk := .imm, imm := 112 }
theorem wit_rowStatistics : Issuing wState wGroup wCur (.mstat fRow) ∧ findTeam wState wGroup.team = some (installTeam 0)
    ∧ guardV wGroup wCur fRow ≠ 0 ∧ guardV wGroup wCur { fRow with gk := 1 } = 0 := by decide +kernel
theorem wit_rowStatistics_rows : ∀ l, inLanes wGroup (guardV wGroup wCur fRow) l = true → rowOperand wGroup fRow + l ≤ 127 :=
  lanesIn (by decide +kernel)

/-- An addition that is owed: one vector register, one scalar register, one status bit. -/
def wOwed : Op := newOp wState wGroup wCur none (.result [.vec 15 255 7, .scalar 63 9] [(15, flagNV)]) true
def sOwed : State := { wState with groups := [{ wGroup with run := none }], ops := [wOwed], nextId := 9 }
theorem wit_resultLands : findGroup sOwed 1 = some { wGroup with run := none } ∧ owing sOwed 1 = [wOwed] ∧ wOwed.writes = none
    ∧ wOwed.done = false ∧ wGroup.after = [] ∧ wGroup.traps = [] ∧ wGroup.stepping = none ∧ groupEnded wGroup = false
    ∧ (∀ x ∈ [(15, flagNV)], enabledBits wGroup.ften x.2 = 0) ∧ ∀ q ∈ sOwed.ops, q.id = wOwed.id → q = wOwed := by decide +kernel
/-- The same status bit, enabled. -/
def eGroup : Group := { wGroup with run := none, ften := 1 }
theorem wit_resultTraps : lowestBit (enabledBits eGroup.ften (flagUnion ([(15, flagNV)].map (·.2)))) = some 0
    ∧ enabledLanes eGroup.ften [(15, flagNV)] = 0x8000 ∧ HandlerFree { sOwed with groups := [eGroup] } eGroup 0x8000 0x080 := by decide +kernel
theorem wit_resultTraps_lanes : LanesAt eGroup 0x8000 0 := ⟨by decide +kernel, by decide +kernel, by decide +kernel, lanes64 (by decide +kernel)⟩
/-- Loads that are owed: of the scratchpad; of line 0x800 at the home, which the core's L1 does not hold. -/
def ldOp (l : Loc) : Op := newOp wState wGroup wCur (some .load) (.load [⟨0, l, []⟩] .b32 4 3 0 false false false false) true
def ldState (l : Loc) : State := { sOwed with ops := [ldOp l] }
def loadOk (l : Loc) : Bool :=
  decide (owing (ldState l) 1 = [ldOp l] ∧ (ldOp l).writes = none ∧ (ldOp l).done = false ∧ landable (ldState l) (ldOp l) = true)
  && decide (meshBefore (ldState l) (ldOp l) = [] ∧ Clean (ldState l) ∧ ∀ w ∈ (ldState l).posted, w.group ≠ 1)
theorem wit_loadLands : loadOk (.scratch 0 4092) = true ∧ loadOk (.page .dev 0x20000 0x20000) = true := by decide +kernel
theorem wit_loadLands_plain : ReadsPlain (ldState (.scratch 0 4092)) 0 0 false (.scratch 0 4092) := trivial
theorem wit_loadLands_miss : (0 : Nat) < (ldState (.page .dev 0x20000 0x20000)).cores.length
    ∧ l1At (coreAt (ldState (.page .dev 0x20000 0x20000)) 0) .dev (0x20000 / 64) = none
    ∧ homeDirect (ldState (.page .dev 0x20000 0x20000)) 0 .dev 0x20000 = true := by decide +kernel

theorem wit_identifiers : Issuing wState wGroup wCur (.getid { c0 with csr := 4 }) ∧ Issuing wState wGroup wCur (.clock c0)
    ∧ Issuing wState wGroup wCur (.evrd { c0 with csr := 23 }) ∧ findPart wState (partOfGroup wState wGroup) = some installPart := by decide +kernel

/-- The group in its handler, privileged. -/
def pGroup : Group := { wGroup with lanes := wGroup.lanes.map fun l => { l with priv := true } }
theorem wit_csr : Issuing wState wGroup wCur (.csrr c0) ∧ guardC wGroup wCur c0 ≠ 0 ∧ guardC wGroup wCur { c0 with gk := 1 } = 0
    ∧ counterOf wState 1 .load < 63 ∧ Issuing wState wGroup wCur (.csrw c0)
    ∧ Issuing (withGroup pGroup) pGroup wCur (.csrs { c0 with csr := 0x105 })
    ∧ Issuing (withGroup pGroup) pGroup wCur (.csrc { c0 with csr := 0x110 })
    ∧ Issuing (withGroup pGroup) pGroup wCur (.csrw { c0 with csr := 0x200 }) ∧ pGroup.core < wState.cores.length := by decide +kernel

/-! Control flow. -/

theorem wit_runEnds : Issuing wState wGroup wCur (.nop b0) ∧ Issuing wState wGroup wCur (.yield b0)
    ∧ Issuing wState wGroup wCur (.exit b0) ∧ guardB wGroup wCur b0 ≠ 0 ∧ guardB wGroup wCur { b0 with gk := 1 } = 0
    ∧ Issuing { wState with groups := [{ wGroup with idx := 1 }], cur := some { wCur with sw := true } } { wGroup with idx := 1 }
      { wCur with sw := true } (.nop b0) := by decide +kernel
theorem wit_runEnds_gate : wGroup.idx = 0 ∧ wGroup.stepping = none ∧ wGroup.after = [] ∧ Settled wState wGroup
    ∧ findTeam wState wGroup.team = some (installTeam 0) ∧ nextGathering wState (installTeam 0) (packetW (installTeam 0).packet) = none
    ∧ Issuing { wState with cur := some { wCur with sw := true } } wGroup { wCur with sw := true } (.nop b0) := by decide +kernel
theorem wit_transfers : (∀ p ∈ transfers { b0 with disp := 1 }, p.2.1 = none → Issuing wState wGroup wCur p.1)
    ∧ uniform wGroup wCur none (guardB wGroup wCur b0) ∧ TargetsPass wState wGroup 0xFFFF (targetOf wGroup wCur { b0 with disp := 1 } none) := by
  exact ⟨by decide +kernel, .inr (by decide +kernel), by decide +kernel⟩
/-- Half of the lanes in mask register 1. -/
def hGroup : Group := { wGroup with k := wGroup.k.set 1 0x00FF }
theorem wit_uniformity : ¬ uniform hGroup wCur none (guardB hGroup wCur { b0 with gk := 1, uni := true })
    ∧ Issuing (withGroup hGroup) hGroup wCur (.bra { b0 with gk := 1, uni := true }) ∧ HandlerFree (withGroup hGroup) hGroup 0xFFFF 0x180
    ∧ lowLane hGroup.w wCur.active = some 0 := by
  exact ⟨by unfold uniform; decide, by decide +kernel, by decide +kernel, by decide +kernel⟩

/-- Lanes 0 to 7 issue a JOIN that awaits all 16, of which 8 to 15 are held there; their `mr` is the JOIN's pc. -/
def jCur : Cur := { wCur with active := 0xFF }
def jGroup (held : Bool) : Group :=
  { wGroup with
    run := some ⟨0xFF, 0, none, false⟩
    k := wGroup.k.set 1 0xFFFF
    lanes := wGroup.lanes.mapIdx fun i l =>
      { l with mr := 0, park := if held && 8 ≤ i then .join 1 0xFF else .none, pc := if held || i < 8 then 0 else 64 } }
def jState (held : Bool) : State := { wState with groups := [jGroup held], cur := some jCur }
def fJoin : BF := { b0 with b := 1, c := 0xFF }
theorem wit_join (held : Bool) : Issuing (jState held) (jGroup held) jCur (.join fJoin) ∧ MidRun (jGroup held) jCur ∧ (jGroup held).traps = [] := by
  cases held <;> decide +kernel
theorem wit_join_active (held : Bool) : ActiveAt (jGroup held) jCur := by
  cases held <;> exact ⟨by decide +kernel, by decide +kernel, by decide +kernel, lanes64 (by decide +kernel)⟩
theorem park_out (g : Group) (l : Nat) (h : g.lanes.length ≤ l) : (laneAt g l).park = .none := by
  simp [laneAt, List.getD, List.getElem?_eq_none h, noLane]
theorem wit_join_one (held : Bool) : OneJoin (jGroup held) jCur fJoin := by
  intro l b c _ hp
  by_cases hl : l < 16
  · have h : ∀ held, ∀ l < 16, (laneAt (jGroup held) l).park = .none
        ∨ (laneAt (jGroup held) l).park = .join 1 0xFF ∧ (laneAt (jGroup held) l).pc = 0 := by decide +kernel
    rcases h held l hl with h | h
    · rw [h] at hp; cases hp
    · rw [h.1] at hp; cases hp; exact ⟨h.2, rfl, rfl⟩
  · rw [park_out _ _ (by cases held <;> exact Nat.le_of_not_lt hl)] at hp; cases hp
theorem wit_join_mr (held : Bool) : ∀ l, jCur.active.getLsbD l = true → (laneAt (jGroup held) l).mr = jCur.pc := by
  cases held <;> exact lanes64 (by decide +kernel)
theorem wit_join_held : allHeld (jGroup true) jCur fJoin.b ∧ ¬ allHeld (jGroup false) jCur fJoin.b :=
  ⟨lanesIn (by decide +kernel), fun h => absurd (h 8 (by decide +kernel)) (by decide +kernel)⟩
/-- Every lane's `mr` is all ones. -/
theorem wit_join_mismatch : Issuing wState wGroup wCur (.join fJoin) ∧ HandlerFree wState wGroup 0xFFFF 0x181
    ∧ owing wState 1 = [] ∧ lowLane wGroup.w 0xFFFF = some 0 := by decide +kernel
theorem wit_join_mismatch_mr : ∀ l, wCur.active.getLsbD l = true → (laneAt wGroup l).mr ≠ wCur.pc := lanes64 (by decide +kernel)
theorem wit_no_park : ∀ l, (laneAt wGroup l).park = .none := by
  intro l
  by_cases hl : l < 16
  · exact (by decide +kernel : ∀ l < 16, (laneAt wGroup l).park = .none) l hl
  · exact park_out _ _ (Nat.le_of_not_lt hl)
theorem wit_meet : Issuing wState wGroup wCur (.meet { b0 with b := 15, a := 255 }) := by decide +kernel

theorem wit_succ : findTeam wState wGroup.team = some (installTeam 0) ∧ isRegroupable (installTeam 0) = false ∧ (installTeam 0).gatherings = []
    ∧ Issuing wState wGroup wCur (.succ b0) ∧ Issuing wState wGroup wCur (.succ2 { b0 with b := 15 })
    ∧ wCur.active &&& kreg wGroup 15 = 0 := by decide +kernel
theorem wit_succ_target : (checkFor wState wGroup 0xFFFF (dispTarget 0 0)).1 = .ok := by decide +kernel
theorem wit_succ_next : (checkFor wState wGroup 0xFFFF (pcNext 0)).1 = .ok := by decide +kernel
theorem wit_succ_mr : ∀ l, wCur.active.getLsbD l = true → (laneAt wGroup l).mr = 0xFFFFFFFF := lanes64 (by decide +kernel)

/-- A stack of 32 bytes: one step down is within it, two are not, nor is one up. -/
def kGroup : Group := { wGroup with splim := 16, privb := 48, s := wGroup.s.set 63 32 }
theorem wit_stack : wCur.active = liveLanes kGroup
    ∧ (∀ n, n = 16 ∨ n = 32 → Issuing (withGroup kGroup) kGroup wCur (.enter { b0 with disp := n }))
    ∧ Issuing (withGroup kGroup) kGroup wCur (.leave { b0 with disp := 16 })
    ∧ (sreg kGroup 63 - 16).slt kGroup.splim = false ∧ (sreg kGroup 63 - 32).slt kGroup.splim = true
    ∧ kGroup.privb.slt (sreg kGroup 63 + 16) = false ∧ kGroup.privb.slt (sreg kGroup 63 + 32) = true
    ∧ HandlerFree (withGroup kGroup) kGroup 0xFFFF 0x182 := by
  exact ⟨by decide +kernel, by rintro n (rfl | rfl) <;> decide +kernel, by decide +kernel, by decide +kernel, by decide +kernel, by decide +kernel, by decide +kernel, by decide +kernel⟩
theorem wit_stack_part : jCur.active ≠ liveLanes (jGroup false)
    ∧ Issuing (jState false) (jGroup false) jCur (.leave { b0 with disp := 16 }) ∧ HandlerFree (jState false) (jGroup false) 0xFF 0x183 := by
  decide +kernel

theorem wit_rejects : (rejectCause (groupEnv wState wGroup 0xFFFF) 0x7C = 0x002 ∧ rejectCause (groupEnv wState wGroup 0xFFFF) 0x05 = 0x001
      ∧ rejectCause (groupEnv wState wGroup 0xFFFF) 0x0100000000000058 = 0x003)
    ∧ HandlerFree wState wGroup 0xFFFF 0x001 ∧ HandlerFree wState wGroup 0xFFFF 0x002 ∧ HandlerFree wState wGroup 0xFFFF 0x003 :=
  ⟨by decide +kernel, by decide +kernel, by decide +kernel, by decide +kernel⟩
theorem wit_traps : Issuing wState wGroup wCur (.trap { b0 with disp := 63 }) ∧ Issuing wState wGroup wCur (.bkpt b0)
    ∧ HandlerFree wState wGroup 0xFFFF 0x37F ∧ HandlerFree wState wGroup 0xFFFF 0x283 := by decide +kernel
/-- No handler is named; the lanes are privileged already. -/
def nhGroup : Group := { wGroup with trap := { wGroup.trap with tvec := 0xFFFFFFFF } }
theorem wit_traps_none : Issuing (withGroup nhGroup) nhGroup wCur (.trap b0) ∧ guardB nhGroup wCur b0 ≠ 0 ∧ Settled (withGroup nhGroup) nhGroup
    ∧ faultSlot (dieAt wState 0) 0x340 = none ∧ faultSlot (dieAt wState 0) 0x283 = none ∧ anyPrivileged nhGroup (guardB nhGroup wCur b0) = false
    ∧ RoomFor wState 0 (unitCore 0) 1 := by decide +kernel
theorem wit_traps_double : Issuing (withGroup pGroup) pGroup wCur (.bkpt b0) ∧ anyPrivileged pGroup (guardB pGroup wCur b0) = true
    ∧ Settled (withGroup pGroup) pGroup ∧ findPart (withGroup pGroup) (partOfGroup (withGroup pGroup) pGroup) = some installPart := by decide +kernel
theorem wit_checks : checkInstr (groupEnv wState wGroup wCur.active) (.tret b0) = some 0x00A ∧ HandlerFree wState wGroup 0xFFFF 0x00A
    ∧ checkInstr { fullVector with priv := true } (.tret b0) = none := by decide +kernel
theorem wit_checks_class : csrClass 0x100 = some .trap ∧ csrClass 0x11A = some .trap ∧ csrClass 0x020 = some .stack
    ∧ csrClass 0x20D = some .partition ∧ csrClass 0x010 = some .identity ∧ csrClass 0x002 = some .user := by decide +kernel
theorem wit_checks_csr : checkInstr { fullVector with priv := true } (.csrr { c0 with csr := 0x100 }) = none
    ∧ checkInstr { fullVector with priv := true } (.csrw { c0 with csr := 0x020 }) = none
    ∧ checkInstr { fullVector with priv := true } (.csrs { c0 with csr := 0x002 }) = none := by decide +kernel

/-- A group in its handler, all of whose lanes trapped at pc 64. -/
def rGroup : Group := { pGroup with trap := { pGroup.trap with tpc := 64, tmask := 0xFFFF, inh := true } }
theorem wit_tret : Issuing (withGroup rGroup) rGroup wCur (.tret b0) ∧ wCur.active = rGroup.trap.tmask &&& liveLanes rGroup
    ∧ rGroup.emu = false ∧ rGroup.trap.ss = false ∧ rGroup.traps = [] := by decide +kernel
theorem wit_tret_active : ActiveAt rGroup wCur := ⟨by decide +kernel, by decide +kernel, by decide +kernel, lanes64 (by decide +kernel)⟩
theorem wit_tret_mask : Issuing (withGroup { rGroup with trap := { rGroup.trap with tmask := 1 } })
      { rGroup with trap := { rGroup.trap with tmask := 1 } } wCur (.tret b0)
    ∧ wCur.active ≠ 1 &&& liveLanes rGroup
    ∧ (findPart (withGroup rGroup) (partOfGroup (withGroup rGroup) rGroup)).isSome = true := by decide +kernel
/-- R347: SS arms a step for the lanes that return; TRET itself raises none. -/
theorem test_tret_arms_step : (match execTret b0 (withGroup { rGroup with trap := { rGroup.trap with ss := true } }) with
    | .next u => (findGroup u 1).map fun g => (g.stepping, g.traps.length, (laneAt g 0).pc, g.trap.inh)
    | _ => none) = some (some 0xFFFF, 0, 64, false) := by decide +kernel

/-! Memory instructions. One lane issues them, at address 0 plus OFS. -/

def mGroup : Group := { wGroup with k := wGroup.k.set 1 1, privb := 64, ften := 0 }
/-- Operands under the guard k1. -/
def m1 : MF := { m0 with gk := 1 }
def n1 : MF := { m1 with ty := .i32 }
def mState : State := withGroup mGroup
/-- Member `k` of the list with operands `f` meets the hypotheses of the statement. -/
def memOk (k : Nat) (f : MF) : Bool :=
  match (memoryMembers mState mGroup (installTeam 0) installPart f (guardM mGroup wCur f) .cas .max64)[k]? with
  | none => false
  | some a =>
    let r := placeLanes mState a.2.lanes a.2.place
    decide (Issuing mState mGroup wCur a.1 ∧ MemReady mState mGroup (guardM mGroup wCur f) (some a.2.cls) (installTeam 0) installPart
      ∧ breakData mState mGroup wCur a.2.reads a.2.writes (a.2.lanes.map fun l => (l, laneEa mGroup f l, a.2.size)) = none
      ∧ NoArrivals mState mGroup ∧ placeFaults r.1 = [] ∧ absentLines mState (placed r.1) = [])
theorem wit_ld : memOk 0 { m1 with ofs := 4 } = true := by decide +kernel
theorem wit_ldnc : memOk 1 m1 = true := by decide +kernel
theorem wit_st : memOk 2 { m1 with cnt := 3, d := 252 } = true := by decide +kernel
theorem wit_lds : memOk 4 { m1 with ofs := 4092, space := true } = true := by decide +kernel
theorem wit_sts : memOk 5 { m1 with space := true } = true := by decide +kernel
theorem wit_ldp : memOk 6 { m1 with ofs := 60 } = true := by decide +kernel
theorem wit_atom : memOk 8 { m1 with space := true, ty := .n64, d := 252 } = true := by decide +kernel
theorem wit_red : memOk 9 { m1 with ty := .n64 } = true := by decide +kernel

/-- CLASP at the last line of the scratchpad. -/
def fClasp : MF := { m1 with ofs := 4032, space := true, d := 0xFF }
theorem wit_clasp : Issuing mState mGroup wCur (.atomClasp fClasp)
    ∧ MemReady mState mGroup (guardM mGroup wCur fClasp) (some .store) (installTeam 0) installPart
    ∧ breakData mState mGroup wCur true true ((acting mGroup 1).map fun l => (l, laneEa mGroup fClasp l, 4)) = none
    ∧ placeFaults (placeLanes mState (acting mGroup 1) fun st l => placeScratch st (installTeam 0) l (laneEa mGroup fClasp l) 4 64 .atomic).1 = []
    := by decide +kernel

/-- Page tables that map the first GiB onto itself, and at 0x20000 a table of three entries: a writable buffer of 256 bytes
at 0x30000, a 2D texture of one f32 texel, a sampler. -/
def rMem : Memory :=
  ⟨[(0x1000, 0x01), (0x1001, 0x20), (0x2000, 0x0F), (0x20002, 3), (0x20009, 1), (0x20010, 1), (0x20011, 1),
    (0x20042, 3), (0x20048, 64), (0x20050, 2), (0x20052, 5), (0x20053, 1), (0x2005A, 1), (0x20090, 3)], []⟩
def rState : State := { mState with gddr := rMem }
def fRes : MF := { m1 with ofs := 252 }
/-- LDR and STR at the last word of the buffer. -/
def resourceOk (i : Instr) (c : OpClass) (u : Use) (lanes : List Nat) : Bool :=
  let rd := groupReader rState mGroup installPart 1
  let r := readOwn rState mGroup rd (entryEa mGroup fRes.a) 64
  let h := refresh r.2 mGroup
  match (bytesRead r.1).bind bufferEntry with
  | some e =>
    decide (Issuing rState mGroup wCur i ∧ MemReady rState mGroup (guardM mGroup wCur fRes) (some c) (installTeam 0) installPart
      ∧ (ownPlaces rState mGroup rd (entryEa mGroup fRes.a) 64).1 = none
      ∧ breakData r.2 h wCur (u == .read) (u == .write) (lanes.map fun l => (l, resourceEa h fRes e.1 l, 4)) = none
      ∧ placeFaults (placeLanes r.2 lanes fun st l => placeResource st h fRes rd e l 4 4 u).1 = [])
  | none => false
theorem wit_ldr : resourceOk (.ldr fRes) .load .read (laneList 16 1) = true := by decide +kernel
theorem wit_str : resourceOk (.str fRes) .store .write (acting mGroup 1) = true := by decide +kernel

theorem wit_misaligned : (∀ i ∈ [Instr.ld { m1 with ofs := 1 }, .st { m1 with ofs := 1 }], Issuing mState mGroup wCur i)
    ∧ MemReady mState mGroup 1 (some .load) (installTeam 0) installPart ∧ MemReady mState mGroup 1 (some .store) (installTeam 0) installPart
    ∧ breakData mState mGroup wCur true false ((laneList 16 1).map fun l => (l, laneEa mGroup { m1 with ofs := 1 } l, 4)) = none
    ∧ HandlerFree mState mGroup 1 0x102 ∧ lowLane mGroup.w 1 = some 0 ∧ guardM mGroup wCur m1 = 1 := by decide +kernel
theorem wit_misaligned_lanes : ∀ l, inLanes mGroup 1 l = true → (laneAt mGroup l).helper = false
    ∧ canonical (laneEa mGroup { m1 with ofs := 1 } l) = true ∧ isTransient (laneEa mGroup { m1 with ofs := 1 } l) = false
    ∧ (laneEa mGroup { m1 with ofs := 1 } l).toNat % accessAlign .b32 0 ≠ 0 := lanesIn (by decide +kernel)

/-- Member `k` of the list, whose lanes all fault with a cause. -/
def memFaults (s : State) (k : Nat) (f : MF) (c : Cause) : Bool :=
  match (memoryMembers s mGroup (installTeam 0) installPart f (guardM mGroup wCur f) .cas .max64)[k]? with
  | none => false
  | some a =>
    let r := placeLanes s a.2.lanes a.2.place
    decide (Issuing s mGroup wCur a.1 ∧ Settled s mGroup
      ∧ MemReady s mGroup (guardM mGroup wCur f) (some a.2.cls) (installTeam 0) installPart
      ∧ breakData s mGroup wCur a.2.reads a.2.writes (a.2.lanes.map fun l => (l, laneEa mGroup f l, a.2.size)) = none
      ∧ placed r.1 = [] ∧ (placeFaults r.1).map (·.cause) = [c] ∧ laneSet a.2.lanes = 1)
/-- A page that may be read and not written. -/
def roState : State := { mState with gddr := ⟨[(0x1000, 0x01), (0x1001, 0x20), (0x2000, 0x09)], []⟩ }
theorem wit_memoryFaults : memFaults mState 5 { m1 with ofs := 4093, space := true } 0x104 = true
    ∧ memFaults mState 6 { m1 with ofs := 64 } 0x103 = true ∧ memFaults roState 2 m1 0x101 = true
    ∧ HandlerFree mState mGroup 1 0x104 ∧ HandlerFree mState mGroup 1 0x103 ∧ HandlerFree roState mGroup 1 0x101 :=
  ⟨by decide +kernel, by decide +kernel, by decide +kernel, by decide +kernel, by decide +kernel, by decide +kernel⟩
/-- The same package without page tables: address 0 is of no page that is present. -/
def npState : State := { mState with gddr := Memory.empty }
theorem wit_notPresent : memFaults npState 0 m1 0x100 = true ∧ TeamQuiet npState mGroup ∧ faultSlot (dieAt npState 0) 0x100 = none
    ∧ installPart.faults = [] ∧ RoomFor npState 0 (unitCore 0) 1 :=
  ⟨by decide +kernel, by decide +kernel, by decide +kernel, by decide +kernel, by decide +kernel⟩
theorem wit_notPresent_active : ActiveAt mGroup wCur := ⟨by decide +kernel, by decide +kernel, by decide +kernel, lanes64 (by decide +kernel)⟩
/-- The bounds of the scratchpad (4096 bytes) and of private memory (64), and the walks that fault. -/
theorem wit_placeFaults : (installTeam 0).packet.scratch < 4093 + 4 ∧ ¬ (installTeam 0).packet.scratch < 4092 + 4
    ∧ mGroup.privb.toInt < 61 + 4 ∧ ¬ mGroup.privb.toInt < 60 + 4
    ∧ (translate npState 0 installPart 0).1 = .notPresent
    ∧ canonical 0x0100000000000000 = false ∧ canonical 0 = true ∧ isTransient 0 = false ∧ isFirmware false 0 = false := by decide +kernel
theorem wit_readOnlyPage : ∃ x, (translate roState 0 installPart 0).1 = .page .dev 0 false x := ⟨false, by decide +kernel⟩

/-- A range of two lines at address 0: s1 holds its length. -/
def nGroup : Group := { mGroup with s := mGroup.s.set 1 128 }
theorem wit_fences : Issuing mState mGroup wCur (.fence { n1 with a := 0xFF, ord := .acqRel, sc := 4, ofs := 1 })
    ∧ Issuing mState mGroup wCur (.lfence { n1 with a := 0xFF }) ∧ MemReady mState mGroup (guardM mGroup wCur m1) none (installTeam 0) installPart
    ∧ Issuing mState mGroup wCur (.pref n1) ∧ Issuing mState mGroup wCur (.icinv { n1 with d := 0xFF, sc := 3 })
    ∧ isTransient (uniformEa mGroup m1) = false ∧ canonical (uniformEa mGroup m1) = true ∧ groupOps mState 1 = [] := by decide +kernel
def maintainOk (s : State) (g : Group) (f : MF) : Bool :=
  match maintainPlaces s (groupReader s g installPart (guardM g wCur f)) (uniformEa g f) (rangeLength g f) with
  | (.inl locs, _) => locs.length == 2
  | _ => false
theorem wit_maintain : Issuing (withGroup nGroup) nGroup wCur (.cinv { n1 with d := 1, sc := 3 })
    ∧ Issuing (withGroup nGroup) nGroup wCur (.cwb { n1 with d := 1, sc := 4 })
    ∧ maintainOk (withGroup nGroup) nGroup { n1 with d := 1, sc := 4 } = true := by decide +kernel

/-- A scratchpad with a region record at 0: one row of 64 bytes from global 0x100 to scratchpad 64. -/
def cTeam : Team :=
  { installTeam 0 with
    scratch := writeBytes Memory.empty 0 (natBytes 8 0x100 ++ natBytes 8 64 ++ natBytes 4 64 ++ natBytes 4 64 ++ natBytes 4 64 ++ natBytes 4 1) }
def cState : State := { mState with teams := [cTeam] }
def fCopy : MF := { m1 with space := true }
/-- The hypotheses of the statement, for a record in scratchpad or in global memory. -/
def cpyOk (s : State) (t : Team) (f : MF) (l : Loc) (c : CopyRec) : Bool :=
  let q := copyPlace s mGroup (groupReader s mGroup installPart (guardM mGroup wCur f)) t f
  let o := ownLocs q.2 1 32 [l]
  let b := loadLoc o.2 0 l 32 0 false
  decide (Issuing s mGroup wCur (.cpy f) ∧ MemReady s mGroup (guardM mGroup wCur f) (some .copy) t installPart ∧ NoArrivals s mGroup
    ∧ breakData s mGroup wCur true false (wideRange mGroup (guardM mGroup wCur f) (uniformEa mGroup f) 32) = none)
  && decide (NoArrivals b.2 mGroup ∧ q.1 = some l ∧ isStream l = false ∧ o.1 = none ∧ absentLines s [(0, l)] = [] ∧ badAt o.2 l 32 = false)
  && decide (copyRecord b.1 = some c ∧ badRow b.2 t c = none ∧ (∀ x ∈ copyLines b.2 t c, linePresent b.2 x.1 x.2 = true))
theorem wit_copy : cpyOk cState cTeam fCopy (.scratch 0 0) ⟨0x100, 64, 64, 64, 64, 1, true⟩ = true := by decide +kernel
/-- The same record at global address 0x20000, to copy out. -/
def cgState : State :=
  { mState with gddr := ⟨[(0x1000, 0x01), (0x1001, 0x20), (0x2000, 0x0F), (0x20001, 1), (0x20008, 64), (0x20010, 64), (0x20014, 64), (0x20018, 64),
      (0x2001C, 1), (0x2001E, 1)], []⟩ }
theorem wit_copy_global : cpyOk cgState (installTeam 0) { m1 with ofs := 0x20000 } (.page .dev 0x20000 0x20000) ⟨0x100, 64, 64, 64, 64, 1, false⟩ = true := by
  decide +kernel

/-- A load of the group is in flight. -/
def iOp : Op := newOp mState mGroup wCur (some .load) (.load [⟨0, .page .dev 0 0, []⟩] .b32 4 0 0 false false false false) true
theorem wit_waitc : Issuing mState mGroup wCur (.waitc { n1 with a := 0xFF }) ∧ classOfCode 0 = .load ∧ counterOf mState 1 .load ≤ 0
    ∧ Issuing { mState with ops := [iOp] } mGroup wCur (.waitc { n1 with a := 0xFF }) ∧ 0 < counterOf { mState with ops := [iOp] } 1 .load := by
  decide +kernel
/-- A copy of the group has met a fault and is complete. -/
def fGroup : Group := { mGroup with copyFaults := [(7, 0x1234)] }
theorem wit_waitc_copy : Issuing (withGroup fGroup) fGroup wCur (.waitc { n1 with a := 0xFF, d := 2 })
    ∧ classOfCode 2 = .copy ∧ guardM fGroup wCur n1 ≠ 0 ∧ counterOf (withGroup fGroup) 1 .copy ≤ 0 ∧ findOp (withGroup fGroup) 7 = none
    ∧ Settled (withGroup fGroup) fGroup ∧ HandlerFree (withGroup fGroup) fGroup (guardM fGroup wCur n1) 0x106 ∧ MidRun fGroup wCur
    ∧ Issuing mState mGroup wCur (.waitc { n1 with a := 0xFF, d := 4 }) ∧ classOfCode 4 = .vq ∧ counterOf mState 1 .vq = 0
    ∧ mGroup.core < mState.cores.length := by decide +kernel
theorem wit_waitc_copy_active : ActiveAt fGroup wCur := ⟨by decide +kernel, by decide +kernel, by decide +kernel, lanes64 (by decide +kernel)⟩
/-- R191: the wait over, COPY_FAULT with the first faulting address. -/
theorem test_waitc_copy_fault : (match execWaitc { n1 with a := 0xFF, d := 2 } (withGroup fGroup) with
    | .next u => (findGroup u 1).map fun g => (g.trap.cause, g.trap.tval, g.trap.tmask, g.copyFaults)
    | _ => none) = some (0x106, 0x1234, 1, []) := by decide +kernel


/-- The record of lane 0, at its private places, none of which a write of the group awaits. -/
def emitOk : Bool :=
  let r := placeLanes mState (acting mGroup 1) fun st l =>
    placePrivate st mGroup (groupReader mState mGroup installPart 1) l (laneEa mGroup m1 l) 64 4 .read
  placeFaults r.1 == [] && (ownLocs r.2 1 4 ((placed r.1).map (·.2))).1 == none
theorem wit_emit : Issuing mState mGroup wCur (.emit m1) ∧ MemReady mState mGroup (guardM mGroup wCur m1) (some .store) (installTeam 0) installPart
    ∧ breakData mState mGroup wCur true false ((acting mGroup 1).map fun l => (l, laneEa mGroup m1 l, 64)) = none
    ∧ emitOk = true := by decide +kernel
/-- A packet whose child names the join line at 128. -/
def lTeam : Team := { installTeam 0 with scratch := writeBytes Memory.empty 0x58 (natBytes 4 128) }
def lState : State := { mState with teams := [lTeam] }
theorem wit_launch : Issuing lState mGroup wCur (.launch n1) ∧ MemReady lState mGroup (guardM mGroup wCur m1) none lTeam installPart
    ∧ resolveScratch lState lTeam (uniformEa mGroup m1) 128 128 = .at (.scratch 0 0) ∧ linePresent lState 0 0 = true ∧ linePresent lState 0 1 = true
    ∧ lTeam.pendLaunch.length < 4 ∧ joinPlace lState lTeam 128 = some (0, 128) ∧ NoArrivals lState mGroup
    ∧ breakData lState mGroup wCur true false (wideRange mGroup (guardM mGroup wCur n1) (uniformEa mGroup n1) 128) = none := by decide +kernel
theorem wit_launch_release : releaseWaits (performAll lState 1) 1 = none ∧ badAt (performAll lState 1) (.scratch 0 0) 128 = false := by decide +kernel

/-- The lanes of quads 0 and 1 and lanes 8 and 9 come to a derivative of the quad-bound kernel. -/
def qCur : Cur := { wCur with active := 0x3FF }
theorem wit_quads : Issuing { wState with cur := some qCur } wGroup qCur (.ddxf { f0 with ty := .f32 })
    ∧ Issuing { wState with cur := some qCur } wGroup qCur (.vqswd { f0 with ty := .n64 }) ∧ wGroup.w % 4 = 0
    ∧ isQuadBound (installTeam 0) = true := by decide +kernel
theorem wit_quads_whole : quadWhole wGroup qCur 7 ∧ ¬ quadWhole wGroup qCur 8 :=
  ⟨fun j _ h => .inl ((by decide +kernel : ∀ j < 16, j / 4 = 7 / 4 → (0x3FF : DWord).getLsbD j = true) j (by simpa [wGroup] using ‹_›) h),
    fun h => absurd (h 10 (by decide +kernel) (by decide +kernel)) (by decide +kernel)⟩
theorem wit_no_quad_park : ∀ l i b n, (laneAt wGroup l).park ≠ .quad i b n := fun l i b n h => by rw [wit_no_park] at h; cases h

/-! The quad control core. -/

theorem wit_ctlFlow : (∀ i ∈ [Instr.nop b0, .yield b0, .exit b0, .trap b0, .bkpt b0], IssuingCtl tState wThread tCur i)
    ∧ (∀ a ∈ transfers { b0 with disp := 1 }, a.2.1 = none → IssuingCtl tState wThread tCur a.1)
    ∧ wThread.faults = [] ∧ threadGuard wThread 0 false = true ∧ threadGuard wThread 0 true = false
    ∧ teamPartition tState wThread.team = some installPart ∧ ThreadHandlerFree tState wThread 0x340 := by decide +kernel
theorem wit_ctlTarget : (checkTarget tState (leadCore 0) installPart (codeBaseOf tState 0) false (dispTarget 0 0)).1 = .ok := by decide +kernel
def pThread : Thread := { wThread with priv := true, trap := { wThread.trap with tpc := 64, inh := true } }
def ptState : State := { tState with threads := [pThread] }
theorem wit_ctlTret : IssuingCtl ptState pThread tCur (.tret b0) ∧ pThread.emu = false := by decide +kernel
theorem wit_ctlCsr : IssuingCtl tState wThread tCur (.csrr { c0 with csr := 0x012 })
    ∧ IssuingCtl ptState pThread tCur (.csrw { c0 with csr := 0x105 }) ∧ IssuingCtl ptState pThread tCur (.csrs { c0 with csr := 0x200 }) := by
  decide +kernel

def x1 : XF := { x0 with ta := .f16, tb := .f16, ovw := true }
theorem wit_engine : IssuingCtl tState wThread tCur (.mma x1) ∧ (quadAt tState 0).table.length < 32 ∧ tableBehind tState wThread = false
    ∧ wThread.quad < tState.quads.length := by decide +kernel

/-- An operation of the thread stands in the table of quad 0. -/
def wEntry : Entry := ⟨5, 0, 0, .mma x1, 0, 0, 0, 0, 0, .posted, none, none, [], [], none⟩
def withQuad (s : State) (f : Quad → Quad) : State := { s with quads := s.quads.modify 0 f }
def eState : State := withQuad tState fun q => { q with table := [wEntry] }
/-- The line at scratchpad 0 is absent. -/
def absentState : State := { tState with teams := [{ installTeam 0 with absent := [0] }] }
def xWait : XF := { x0 with ovw := false }
theorem wit_mwait : IssuingCtl tState wThread tCur (.mwait xWait) ∧ findTeam tState wThread.team = some (installTeam 0)
    ∧ waitFault tState (installTeam 0) { xWait with kb := 1 } wThread = none ∧ (∀ e ∈ postedBy tState wThread, tagCovers 0 e.tag = false)
    ∧ waitLine tState (installTeam 0) (threadReg wThread 0) = .at (.scratch 0 0) ∧ linePresent tState 0 0 = true
    ∧ IssuingCtl eState wThread tCur (.mwait xWait) ∧ (∃ e ∈ postedBy eState wThread, tagCovers 0 e.tag = true)
    ∧ IssuingCtl absentState wThread tCur (.mwait { xWait with kb := 1 }) ∧ linePresent absentState 0 0 = false := by decide +kernel
/-- Its partition is under pre-emption. -/
def preemptState : State := { tState with parts := [{ installPart with state := .preempting }] }
theorem wit_ppoint : IssuingCtl tState wThread tCur (.ppoint xWait) ∧ preempting tState 0 = false
    ∧ IssuingCtl preemptState wThread tCur (.ppoint xWait) ∧ preempting preemptState 0 = true ∧ postedBy preemptState wThread = [] := by
  decide +kernel

/-! Vertical queues. -/

theorem wit_rastq : Issuing mState mGroup wCur (.rastq { m1 with ofs := 64 }) ∧ QueueReady mState mGroup wCur 1 .raster (installTeam 0) installPart
    ∧ canonical (uniformEa mGroup { m1 with ofs := 64 }) = true ∧ (uniformEa mGroup { m1 with ofs := 64 }).toNat % 64 = 0 := by decide +kernel
theorem wit_trace : Issuing mState mGroup wCur (.trace { m1 with ofs := 64 }) ∧ QueueReady mState mGroup wCur 1 .traversal (installTeam 0) installPart
    ∧ (∀ l ∈ laneList 16 1, canonical (laneEa mGroup { m1 with ofs := 64 } l) = true ∧ (laneEa mGroup { m1 with ofs := 64 } l).toNat % 64 = 0)
    ∧ laneList 16 1 ≠ [] := by decide +kernel
def fVerdict : MF := { m1 with cnt := 2, a := 0xFF }
theorem wit_verdict : Issuing mState mGroup wCur (.verdict fVerdict) ∧ ∀ l ∈ laneList 16 1, (vreg mGroup l 1).toNat ≤ 3 := by decide +kernel

/-- The texture is entry 1, the sampler entry 2. -/
def tGroup : Group := { mGroup with s := mGroup.s.set 2 0x200000001 }
def tsState : State := { rState with groups := [tGroup] }
def fTex : MF := { m1 with ty := .f32, a := 2, b := 4 }
def texOk (i : Instr) (f : MF) (m : TexMember) : Bool :=
  let rd := groupReader tsState tGroup installPart 1
  match readEntry tsState tGroup rd ((sreg tGroup f.a.toNat).toNat % 2 ^ 32) with
  | (.bytes tb, s1) =>
    match readEntry s1 tGroup rd ((sreg tGroup f.a.toNat).toNat / 2 ^ 32) with
    | (.bytes sb, s2) =>
      match parseTexture tb, parseSampler sb with
      | some T, some S =>
        let r := (laneList 16 1).foldl (fun (r : List SampleLane × List LaneFault × State) l =>
          match sampleLane tGroup f true m rd T S s2.fresh r.2.2 l with
          | (.ok x, st) => (r.1 ++ [x], r.2.1, st)
          | (.fault y, st) => (r.1, r.2.1 ++ [y], st)) ([], [], { s2 with fresh := s2.fresh + 64 })
        decide (Issuing tsState tGroup wCur i ∧ QueueReady tsState tGroup wCur 1 .texture (installTeam 0) installPart ∧ T.dim < 3 ∧ r.1 ≠ []
          ∧ r.2.1 = [] ∧ groupOps tsState 1 = [])
      | _, _ => false
    | _ => false
  | _ => false
theorem wit_texl : texOk (.texl fTex) fTex .level = true := by decide +kernel
theorem wit_texg : texOk (.texg fTex) fTex .gradient = true := by decide +kernel
def fTexq : MF := { m1 with a := 2 }
def texqOk : Bool :=
  match readEntry tsState tGroup (groupReader tsState tGroup installPart 1) ((sreg tGroup 2).toNat % 2 ^ 32) with
  | (.bytes tb, _) => (parseTexture tb).isSome
  | _ => false
theorem wit_texq_entry : texqOk = true := by decide +kernel
theorem wit_texq : Issuing tsState tGroup wCur (.texq fTexq) ∧ QueueReady tsState tGroup wCur 1 .texture (installTeam 0) installPart := by decide +kernel
def fBox : MF := { m1 with cnt := 3, b := 8 }
def testOk (i : Instr) (n al : Nat) : Bool :=
  let rd := groupReader mState mGroup installPart 1
  match placeRecord mState rd 0 (baseReg mGroup fBox.a + fBox.ofs.signExtend 64 + (vreg mGroup 0 fBox.d.toNat).zeroExtend 64) n al with
  | (.inl _, _) => decide (Issuing mState mGroup wCur i ∧ QueueReady mState mGroup wCur 1 .test (installTeam 0) installPart)
  | _ => false
theorem wit_boxt : testOk (.boxt fBox) 64 64 = true := by decide +kernel
theorem wit_trit : testOk (.trit fBox) 48 16 = true := by decide +kernel

/-! Operations in flight. -/

/-- An operation of the group, of a kind, in a package where its run has ended. -/
def opOf (k : OpKind) : Op := { newOp wState wGroup wCur none k false with id := 7 }
def opState (k : OpKind) : State := { wState with ops := [opOf k], cur := none, nextId := 9 }
def kStore : OpKind := .store [⟨0, .scratch 0 4092, [1, 2, 3, 4]⟩] 0 false false
def kFar : OpKind := .store [⟨0, .page .dev 64 64, [1, 2, 3, 4]⟩] 3 false false
def kAtom (owes : Bool) : OpKind := .atom .add .i32 [⟨0, .scratch 0 0, 5, 0⟩] 0 false false false false (if owes then some 3 else none)
theorem wit_performed (k : OpKind) : findOp (opState k) (opOf k).id = some (opOf k) := rfl
def kPeer : OpKind := .store [⟨0, .page .peer 64 64, [1, 2]⟩] 0 false false
theorem wit_stores : storeReady (opState kStore) (opOf kStore) = true ∧ meshBefore (opState kStore) (opOf kStore) = []
    ∧ storeReady (opState kPeer) (opOf kPeer) = true ∧ Clean (opState kFar) ∧ findTeam (opState kStore) 0 = some (installTeam 0)
    ∧ (installTeam 0).scratch.wf = true ∧ storeReady (opState kFar) (opOf kFar) = true
 := by decide +kernel
theorem wit_atomics : atomReady (opState (kAtom false)) (opOf (kAtom false)) = true ∧ meshBefore (opState (kAtom false)) (opOf (kAtom false)) = []
    ∧ heldRed (opOf (kAtom false)) = false
    ∧ atomReady { opState (kAtom true) with ops := [{ opOf (kAtom true) with owes := true }] } { opOf (kAtom true) with owes := true } = true := by
  decide +kernel
/-- A clasp line at scratchpad 64 that awaits one arrival. -/
def claspTeam : Team := { installTeam 0 with scratch := ⟨[(68, 1)], []⟩, absent := [1] }
def kClasp : OpKind := .clasp [⟨0, .scratch 0 64, 0, 0⟩] 2 false false none
def claspState : State := { opState kClasp with teams := [claspTeam] }
theorem wit_clasps : meshBefore claspState (opOf kClasp) = [] ∧ atomReady claspState (opOf kClasp) = true ∧ claspTeam.scratch.wf = true ∧ findTeam claspState 0 = some claspTeam
    ∧ bytesNat (readScratch claspState 0 64 4) + 1 = bytesNat (readScratch claspState 0 68 4) := by decide +kernel
theorem wit_fenceOps : (opOf (.fence 4 true true true)).done = false ∧ allEarlier (opState (.fence 4 true true true)) (opOf (.fence 4 true true true)) = true
    ∧ (∀ w ∈ (opState (.fence 4 true true true)).posted, w.group ≠ 1)
    ∧ (∃ w ∈ ({ opState (.fence 4 true true true) with posted := [⟨1, 0, [1]⟩] } : State).posted, w.group = 1)
    ∧ (∀ q ∈ earlier (opState .lfence) (opOf .lfence), performed q = true ∨ usesStacked q = false) := by decide +kernel
/-- A copy of 64 bytes from global 0x100 into scratchpad line 1. -/
def wCopy : CopyRec := ⟨0x100, 64, 64, 64, 64, 1, true⟩
def wCopyOut : CopyRec := { wCopy with toScratch := false }
def wSeg : CopySeg := ⟨0x100, 64, 64⟩
def copyState (c : CopyRec) : State := { opState (.copy c 0 false []) with teams := [{ installTeam 0 with absent := [1] }], gddr := rMem }
/-- A copy whose one piece can go on, whose place is global 0x100. -/
def copyOk (c : CopyRec) : Bool :=
  let s := copyState c
  let o := opOf (.copy c 0 false [])
  let rd := engineReader 0 installPart (installTeam 0).origin
  let k := checkSeg s rd (installTeam 0) o c wSeg
  performed o == false && teamPartition s 0 == some installPart && (moveSegs s rd (installTeam 0) o c []).1.2 == false
  && copySegs c == [wSeg] && scratchPlace s (installTeam 0) 64 64 == some (0, 64) && k.1 == .ok
  && (resolveGlobal k.2 rd.core rd.part rd.origin rd.emu 0x100 64 1 (if c.toScratch then .read else .write) true).1 == .at (.page .dev 0x100 0x100)
theorem wit_copyOp : copyOk wCopy = true ∧ copyOk wCopyOut = true ∧ (0x100 % 64 + 64 ≤ 64) ∧ (installTeam 0).scratch.wf = true := by decide +kernel
theorem wit_copyOp_clean : Clean (copyState wCopy) ∧ Clean (copyState wCopyOut) := by decide +kernel
/-- Its global side is not canonical. -/
theorem wit_copyOp_fault : (∀ c ∈ [wCopy, wCopyOut],
    copySegs { c with gaddr := 0x0100000000000000 } = [⟨0x0100000000000000, 64, 64⟩]
    ∧ (checkSeg (copyState c) (engineReader 0 installPart (installTeam 0).origin) (installTeam 0) (opOf (.copy c 0 false [])) c
        ⟨0x0100000000000000, 64, 64⟩).1 = .fault) := by decide +kernel


/-- A core with a dirty line that owes another: what a releasing fence of device scope tells core 1 of. -/
def fenceState : State :=
  { opState (.fence 3 false true false) with cores := wState.cores.modify 0 fun c =>
      { c with l1 := [⟨.dev, 0, 0, List.replicate 64 7, 1, false⟩], owed := sigOf 0x4000 } }
theorem wit_fenceTells : (∀ q ∈ fenceState.ops, q.core = 0 → heldRed q = false) ∧ 1 ∈ scopeCores fenceState 0 0 3 ∧ 1 < fenceState.cores.length
    ∧ sigMatches (coreAt fenceState (opOf (.fence 3 false true false)).core).owed 0x4000 = true := by decide +kernel
/-- 15 R240: a store written through is in the signature of the core's next release. -/
theorem test_write_through_told :
    let u := releaseFrom (storeLoc fenceState 0 (.page .dev 0x30000 0x30000) [1] 3 false) 0 0 0 3
    sigMatches (coreAt u 1).sig 0x30000 = true ∧ (coreAt u 0).owed = 0 := by decide +kernel
/-- 11 R177: a plain load does not read a copy that LDNC filled. -/
theorem test_ldnc_copy :
    let s := { fenceState with cores := wState.cores.modify 0 fun c => { c with l1 := [⟨.dev, 0x800, 0x20000, List.replicate 64 7, 0, true⟩] } }
    (loadLoc s 0 (.page .dev 0x20000 0x20000) 1 0 true).1 = [7] 
    ∧ (l1At (coreAt (loadLoc s 0 (.page .dev 0x20000 0x20000) 1 0 false).2 0) .dev 0x800).map (·.readOnly) = some false := by decide +kernel

/-- 21 R332: a rejected page reaches no lane of a swapped team, whose wait is over. -/
theorem test_swapped_replays :
    let s := { wState with
      teams := [{ installTeam 0 with place := .swapped }]
      groups := [{ wGroup with lanes := wGroup.lanes.map fun l => { l with park := .host [7] ⟨0x100, 1, 64, 0x7000, [], [], false⟩ } }] }
    (rejectGroup 7 0 s wGroup.id).groups.map (fun g => ((laneAt g 0).park, g.traps)) = [(.none, wGroup.traps)] := by decide +kernel

/-! Caches, walks, the streaming engine. -/

/-- A dirty line of core 1 that a remote load of core 0 waits to hear of. -/
def dirtyState : State :=
  let o : Op := opOf (.load [⟨0, .page .dev 0 0, []⟩] .b32 4 0 3 true true false false)
  { opState .lfence with ops := [o], cores := wState.cores.modify 1 fun c => { c with l1 := [⟨.dev, 0, 0, List.replicate 64 7, 1, false⟩] } }
theorem wit_promotion : ∃ o ∈ dirtyState.ops, performed o = false ∧ 1 ∈ awaitedPromotions dirtyState o := by decide +kernel
/-- A queued walk of page 0 by core 0, over page tables that map it. -/
def walkState : State :=
  { rState with dies := rState.dies.modify 0 fun d => { d with missQ := [⟨0, 0, 0x1000, 0⟩] } }
theorem wit_walk : (dieAt walkState 0).missQ = [⟨0, 0, 0x1000, 0⟩] ∧ findPart walkState 0 = some installPart ∧ 0 < walkState.cores.length
    ∧ walk walkState { installPart with ptroot := 0x1000 } 0 walkState.fresh = (.page .dev 0 true true, false)
    ∧ 0 < walkState.dies.length := by decide +kernel
/-- The sixteen entries of stream page 0 stand at 0x4000, each a locator of 16 bytes in host memory. -/
def streamReq : StreamReq := ⟨0, 0x1000, 0, 0x0000400000000136, false⟩
def streamState : State :=
  { wState with
    hostMem := ⟨[(0, 0x28), (1, 0xB5), (2, 0x2F), (3, 0xFD), (4, 0x60), (6, 0xFF), (7, 3), (9, 8), (10, 0x5A)], []⟩
    gddr := writeBytes ⟨[(0x1000, 0x01), (0x1001, 0x20), (0x2000, 0x01), (0x2001, 0x30), (0x3000, 0x01), (0x3001, 0x40)], []⟩ 0x4000
      ((List.range 16).flatMap fun _ => natBytes 8 0x0000400000000136)
    dies := wState.dies.modify 0 fun d => { d with streamQ := [streamReq], pagePool := [0x10000] } }
theorem wit_stream : (dieAt streamState 0).streamQ = [streamReq] ∧ streamState.linkUp = true
    ∧ leafTable streamState streamReq.root.toNat 0 = some 0x4000 ∧ stillAsked streamState 0x4000 streamReq = true
    ∧ streamState.gddr.wf = true := by decide +kernel
theorem wit_stream_pool : ∃ pool, (dieAt streamState 0).pagePool ++ (Config.poolSupply streamState.fresh).map poolPage = 0x10000 :: pool := ⟨_, rfl⟩
/-- A frame whose one block repeats a byte (RFC 8878). -/
theorem rleBlock (lim : ZLimits) (fuel n : Nat) (z : ZState) (b : List Byte) (hx : bytesNat (b.take 3) = 8 * n + 3)
    (hl : 4 ≤ b.length) (hb : n ≤ lim.block) (hz : z.out = []) (hn : n ≤ 65536) :
    ∃ y r, readBlocks lim (fuel + 1) z b = some ({ z with out := List.replicate n y }, r) := by
  have h1 : (8 * n + 3) / 8 = n := by omega
  have h2 : bitsField (8 * n + 3) 1 2 = 1 := by unfold bitsField; omega
  have h3 : (8 * n + 3) % 2 = 1 := by omega
  refine ⟨((b.drop 3).take 1).getD 0 0, b.drop 4, ?_⟩
  unfold readBlocks
  simp only [hx, h1, h2, h3, hz]
  have : ¬ b.length < 4 := by omega
  simp [this, Nat.not_lt.2 hb, Nat.not_lt.2 hn]
theorem rleFrame (n fuel : Nat) (f : List Byte) (hf : f.length = fuel + 1) (hh : frameHeader f = some ⟨n, some n, false, 7⟩)
    (hx : bytesNat ((f.drop 7).take 3) = 8 * n + 3) (hl : 4 ≤ (f.drop 7).length) (hn : n ≤ 65536) :
    ∃ b, zstdDecode f = some b ∧ b.length = n := by
  obtain ⟨y, r, h⟩ := rleBlock ⟨n, n⟩ fuel n ⟨none, none, none, none, (1, 4, 8), []⟩ (f.drop 7) hx hl (Nat.le_refl _) rfl hn
  refine ⟨(List.replicate n y).reverse, ?_, by simp only [List.length_reverse, List.length_replicate]⟩
  unfold zstdDecode
  simp only [hh, Option.bind_some, hf, h]
  simp
def wFrame : List Byte := [0x28, 0xB5, 0x2F, 0xFD, 0x60, 0, 0xFF, 3, 0, 8, 0x5A, 0, 0, 0, 0, 0]
theorem streamBytes_of {s : State} {q : StreamReq} {f b : List Byte} (hf : frameOf s q.locator = some f)
    (hd : zstdDecode f = some b) (hl : b.length = 65536) : streamBytes s q = some b := by
  simp [streamBytes, hf, hd, hl]
theorem wit_frameOf : frameOf streamState streamReq.locator = some wFrame := by decide +kernel
theorem wit_streamBytes : ∃ b, streamBytes streamState streamReq = some b := by
  obtain ⟨b, hd, hl⟩ := rleFrame 65536 15 wFrame (by decide +kernel) (by decide +kernel) (by decide +kernel) (by decide +kernel) (by decide +kernel)
  exact ⟨b, streamBytes_of wit_frameOf hd hl⟩

/-! Units that serve queues. -/

def queueOp (c : VqClass) (k : OpKind) : Op := { opOf k with cls := some .vq, queue := some c, owes := true }
def queueState (c : VqClass) (k : OpKind) : State := { opState k with ops := [queueOp c k], gddr := rMem }
def kSample : OpKind := .sample 5 1 1 [0, 0, 0, 0] 4 8 2 [⟨0, [], 0, false, true⟩] 3
def kTest : OpKind := .test false 8 [⟨0, [(.page .dev 0x30000 0x30000, 64)], [0, 0, 0, 0x3F800000, 0x3F800000, 0x3F800000, 0, 0x7F800000]⟩] 3
theorem wit_services : queueHead (queueState .texture (.query [.vec 0 8 1])) 0 .texture = some (queueOp .texture (.query [.vec 0 8 1]))
    ∧ queueHead (queueState .texture kSample) 0 .texture = some (queueOp .texture kSample)
    ∧ queueHead (queueState .test kTest) 0 .test = some (queueOp .test kTest)
    ∧ storesEarlier (queueState .test kTest) (queueOp .test kTest) = true ∧ waitsForStream (queueOp .test kTest) = false
    ∧ storesEarlier (queueState .texture kSample) (queueOp .texture kSample) = true ∧ waitsForStream (queueOp .texture kSample) = false := by
  decide +kernel

/-- A batch record of one triangle: vertices at 0x31000, indices at 0x32000, a software queue of `cap` entries at 0x33000. -/
def batchBytes : List Byte :=
  natBytes 8 0x31000 ++ natBytes 8 0x32000 ++ natBytes 4 1 ++ natBytes 4 0 ++ List.replicate 8 0 ++ natBytes 8 0x40000 ++ natBytes 4 64
    ++ natBytes 2 8 ++ natBytes 2 8 ++ natBytes 8 0x33000 ++ List.replicate 8 0
/-- Vertices (0, 0), (2, 0), (0, 2); indices 0, 1, 2; CAPACITY at 0x33008, the entries at 0x34000. -/
def rasMem (cap : Byte) : Memory :=
  ⟨[(0x1000, 0x01), (0x1001, 0x20), (0x2000, 0x0F), (0x31013, 0x40), (0x31027, 0x40), (0x32004, 1), (0x32008, 2),
    (0x33008, cap), (0x33011, 0x40), (0x33012, 0x03)].filter fun c => c.2 != 0, []⟩
def kRastq (ea : DWord) : OpKind := .engine (.rastq m1) 1 [(0, [ea])]
def rasState (cap : Byte) (b : List Batch) (q : Option VqClass) (thr : Word) : State :=
  { queueState .raster (kRastq 0x20040) with
    ops := [{ queueOp .raster (kRastq 0x20040) with owes := false, queue := q }], gddr := rasMem cap
    quads := wState.quads.modify 0 fun d => { d with batches := b }
    parts := [{ installPart with csrs := { installPart.csrs with rasThr := thr } }] }
def wBatch (next : Nat) (soft : List Nat) : Batch := ⟨7, 0, 0, 0x20040, batchBytes, next, soft, none⟩
/-- The record at 0x20040 is all zeros, which is no record. -/
def rasFirst (s : State) (legal : Bool) : Bool :=
  match nextRaster s 0 with
  | some (core, o) =>
    let begun := modQuad (orderEntry s o (entryScope m1.sc)) 0 fun q =>
      { q with batches := q.batches ++ [⟨o.id, o.part, core, 0x20040, [], 0, [], none⟩]
               rasterNext := ((quadCores 0).findIdx (· == core) + 1) % 4 }
    match teamPart begun o.team with
    | some (t, p) =>
      match got (unitRead begun (engineReader core p t.origin) 0x20040 64).1 with
      | some bytes => (parseBatch bytes).isSome == legal && findOp begun o.id == some o && o.kind == kRastq 0x20040
          && (quadAt s 0).batches == []
      | none => false
    | none => false
  | none => false
theorem wit_rasterFirst : rasFirst (rasState 4 [] (some .raster) 0) false = true := by decide +kernel
theorem wit_rasterFirst_legal :
    rasFirst { rasState 4 [] (some .raster) 0 with gddr := writeBytes (rasMem 4) 0x20040 batchBytes } true = true := by decide +kernel
def rasNext (m : Memory) (thr : Word) (path : TriPath) : Bool :=
  let s := { rasState 4 [wBatch 0 []] none thr with gddr := m }
  match teamPart s 0, parseBatch batchBytes with
  | some (t, p), some r =>
    let q := readVertices s (engineReader 0 p t.origin) r 0
    match got q.1 with
    | some vs =>
      let v (k : Nat) : Vertex := vs.getD k ⟨0, 0, 0⟩
      classify r p.csrs.rasThr (v 0) (v 1) (v 2) == path && r.count == 1 && (findOp s 7).isSome
        && (path != .fixed || (got (fixedRasterise q.2 (engineReader 0 p t.origin) r r.base (v 0) (v 1) (v 2)).1).isSome)
    | none => false
  | _, _ => false
theorem wit_rasterSoftware : rasNext (rasMem 4) 0x7F800000 .software = true := by decide +kernel
theorem wit_rasterFixed : rasNext (rasMem 4) 0 .fixed = true := by decide +kernel
/-- All indices are 0. -/
theorem wit_rasterDiscard : rasNext ⟨(rasMem 4).cells.filter fun c => c.1 != 0x32004 && c.1 != 0x32008, []⟩ 0 .discard = true := by decide +kernel
/-- The pixel (0, 0) of that triangle. -/
def pixelOk : Bool :=
  let s := rasState 4 [] none 0
  match teamPart s 0, parseBatch batchBytes, snapTriangle ⟨0, 0, 0⟩ ⟨0x41000000, 0, 0⟩ ⟨0, 0x41000000, 0⟩ with
  | some (t, p), some r, some tri =>
    (got (unitPlace s (engineReader 0 p t.origin) r.vis 8 .atomic).1 == some (.page .dev r.vis r.vis)) && (depthAt tri (128, 128)).isSome
  | _, _, _ => false
theorem wit_rasterPixel : pixelOk = true ∧ Clean (rasState 4 [] none 0) := ⟨by decide +kernel, by decide +kernel⟩
def rasAppend (cap : Byte) : Bool :=
  let s := rasState cap [wBatch 1 [0]] none 0
  match teamPart s 0, parseBatch batchBytes, findOp s 7 with
  | some (t, p), some r, some o =>
    match got (appendEntry s (engineReader 0 p t.origin) o r 0).1 with
    | some done => done == (cap != 0) && r.count ≤ 1
    | none => false
  | _, _, _ => false
theorem wit_rasterAppend : rasAppend 4 = true := by decide +kernel
theorem wit_rasterFull : rasAppend 0 = true := by decide +kernel


/-! MIGRATE, the traversal unit, the engine, groups and teams. -/

/-- A migratory team; page 0 in the TLB of core 0; the partition's lines at home on die `d`. -/
def migPart (d : BitVec 8) : Partition :=
  { installPart with cores := List.range 128, regions := ⟨0, 0x40000000, d, 0xF, 12, 1, List.replicate 12 0⟩ :: List.replicate 63 emptyRegion }
def migTeam : Team := { installTeam 0 with packet := { installPacket with flags := 0x04 } }
def migEntry : TlbEntry := ⟨0, BitVec.ofNat 64 installRoot, 0, .dev, 0, true, true⟩
def migState (d : BitVec 8) : State :=
  { wState with teams := [migTeam], parts := [migPart d], cores := wState.cores.modify 0 fun c => { c with tlb := [migEntry] } }
theorem wit_migrate (d : BitVec 8) (h : d = 1 ∨ d = 2) : Issuing (migState d) wGroup wCur (.migrate b0) ∧ groupOps (migState d) 1 = []
    ∧ findTeam (migState d) 0 = some migTeam ∧ teamPartition (migState d) 0 = some (migPart d) ∧ isMigratory migTeam = true
    ∧ homeDie (migPart d) .dev 0 = some (if d = 1 then 0 else 1) ∧ partDies (migPart d) = [0, 1] := by
  rcases h with rfl | rfl <;> decide +kernel
theorem wit_migrate_free : ∀ l, awaitsFault (laneAt wGroup l) = false := fun l => by unfold awaitsFault; rw [wit_no_park]; simp
theorem wit_migrate_place (d : BitVec 8) (h : (homeDie (migPart d) .dev 0).isNone = false) :
    ResolvesTo (migState d) 0 (migPart d) (.host 0) (sreg wGroup 0) (.page .dev 0 0) := by
  intro u _ _ _ _ hc _
  have ht : (coreAt u 0).tlb = [migEntry] := by
    have := congrArg (fun l : List Core => ((l.map Core.tlb).head?)) hc
    rw [List.map_map, List.map_map] at this
    have h2 : (u.cores.map Core.tlb).head? = some [migEntry] := this.trans rfl
    unfold coreAt
    cases hu : u.cores with
    | nil => rw [hu] at h2; cases h2
    | cons c l => rw [hu] at h2; simpa using h2
  have hs : sreg wGroup 0 = 0 := by decide +kernel
  have hf : tlbFind [migEntry] (migPart d) 0 = some migEntry := rfl
  rw [hs]
  have hm : homeDie (migPart d) .dev 0 ≠ none := by intro hn; rw [hn] at h; cases h
  have htr : (translate u 0 (migPart d) 0).1 = .page .dev 0 true true := by
    simp only [Sys2Proof.Machine.translate, ht, pageOf, Nat.zero_div, hf]; rfl
  simp [resolveGlobal, resolveAddress, checkRead, rangeCheck, isFirmware, isTransient, canonical, resolvePage, htr, usesWrite, hm, badAt]

/-- A ray of operation 7 whose record has been read; its hit record is at 0x30000, its shader table has two entries. -/
def wRay : Ray :=
  { slot := 3, gen := 5, op := 7, part := 0, core := 0, ea := 0x20000, res := 0x20000, bvh := some 1, loaded := true, origin := [0, 0, 0]
    dir := [0x3F800000, 0, 0], tmin := 0, tmax := 0x40000000, flags := 0, shader := 0, payload := 0x30000, user := 9, nodeBase := 0x40000
    nodeCount := 1, triBase := 0x50000, triCount := 1, shTable := 0x60000, shCount := 2, stack := [], todo := none, best := noHit 0x40000000
    bestStatus := 0, cand := none, ended := none, waits := none }
def kTrace : OpKind := .engine (.trace m1) 1 [(0, [0x20000, 0x20000])]
def kVerdict (h : DWord) : OpKind := .engine (.verdict m1) 1 [(0, [h, 1, 0])]
def rayState (k : OpKind) (rays : List Ray) (cands : List CandGather) : State :=
  { queueState .traversal k with
    ops := [{ queueOp .traversal k with owes := false }]
    quads := wState.quads.modify 0 fun q => { q with rays := rays, cands := cands } }
def rayOp (k : OpKind) : Op := { queueOp .traversal k with owes := false }
theorem wit_rayAccept : nextTraversal (rayState kTrace [] []) 0 = some (0, rayOp kTrace) ∧ 0 < (rayState kTrace [] []).quads.length
    ∧ findOp (rayState kTrace [] []) (rayOp kTrace).id = some (rayOp kTrace) := by decide +kernel
/-- A procedural leaf on the stack suspends the ray; a node beyond the current tmax ends it with a miss. -/
def rayHold : Ray := { wRay with stack := [⟨0xC0000005, 0, 0⟩] }
def rayEnd : Ray := { wRay with stack := [⟨0, 0x40400000, 0⟩] }
def traversing (r : Ray) : Prop :=
  findRay (rayState kTrace [r] []) 0 3 = some r ∧ rayTeam (rayState kTrace [r] []) r = some (installTeam 0, installPart)
    ∧ (∀ x ∈ (quadAt (rayState kTrace [r] []) 0).rays, x.slot = r.slot → x = r) ∧ isStopped installPart = false ∧ r.loaded = true
    ∧ r.waits = none ∧ r.cand = none ∧ r.ended = none
def isHold : RayStep → Bool | .hold _ => true | _ => false
theorem wit_rayHold : traversing rayHold
    ∧ isHold (rayStep (rayState kTrace [rayHold] []) (rayReader rayHold (installTeam 0) installPart) rayHold).1 = true :=
  ⟨⟨by decide +kernel, by decide +kernel, by decide +kernel, by decide +kernel⟩, by decide +kernel⟩
theorem wit_rayEnd : traversing rayEnd ∧ fLt rayEnd.tmax 0x40400000 = true
    ∧ (bytesRead (writeRange (hitRecord (rayState kTrace [rayEnd] []) { rayEnd with stack := [] } 0).2
        (rayReader { rayEnd with stack := [] } (installTeam 0) installPart) rayEnd.payload
        (hitRecord (rayState kTrace [rayEnd] []) { rayEnd with stack := [] } 0).1).1).isSome = true :=
  ⟨⟨by decide +kernel, by decide +kernel, by decide +kernel, by decide +kernel⟩, by decide +kernel, by decide +kernel⟩
/-- 17 R284: a ray whose BVH entry is not of kind 5 ends with STATUS 4 in the hit record its ray record names. -/
def rayBad : Ray := { wRay with loaded := false }
theorem test_ray_status4 :
    (loadRay (rayState kTrace [rayBad] []) (rayReader rayBad (installTeam 0) installPart) rayBad).1 = .fail causeDescriptor 0x20040
    ∧ (hitRecord (rayState kTrace [rayBad] []) rayBad 4).1.take 4 = [4, 0, 0, 0]
    ∧ ∀ s q c ea, failRay s q rayBad c ea = writeHit (rayRecord s q rayBad c ea) q rayBad 4 :=
  ⟨by decide +kernel, by decide +kernel, fun _ _ _ _ => rfl⟩
/-- The dies after a number of core clocks at step 0. -/
def aged (n : Nat) : List Die := wState.dies.map fun d => { d with coreTime := 19 * n }
/-- A candidate for entry 1, whose gatherer holds one ray for as long as RECTO. -/
def wCand (sent : Bool) : Candidate := ⟨1, 0, 0, 0, 5, 0, 1, sent⟩
def rayCand (sent : Bool) : Ray := { wRay with cand := some (wCand sent) }
def wCands : CandGather := ⟨{ installPacket with privB := 64 }, 0x60000, 0, 1, 0, [2]⟩
def candState : State := { rayState kTrace [rayCand false, { wRay with slot := 2, cand := some (wCand true) }] [wCands] with dies := aged 300 }
theorem wit_candidate : findRay candState 0 3 = some (rayCand false) ∧ findPart candState 0 = some installPart ∧ launchFree installPart = true
    ∧ (∀ x ∈ (quadAt candState 0).rays, x.slot = 3 → x = rayCand false) ∧ (wCand false).shader.toNat < wRay.shCount
    ∧ (quadAt candState 0).cands.find? (fun x => x.table == wRay.shTable && x.part == 0 && x.shader == 1) = some wCands
    ∧ wCands.rays.length + 1 < packetW wCands.packet
    ∧ (quadAt candState 0).cands.find? (fun x => x.shader.toNat == 1 && recToPassed candState x.part (dieOfQuad 0) x.first) = some wCands := by
  decide +kernel
/-- A gatherer of 15 rays, which this one fills. -/
theorem wit_candidateFull : packetW wCands.packet ≤ (List.range' 4 15).length + 1
    ∧ (quadAt (rayState kTrace [rayCand false] [{ wCands with rays := List.range' 4 15 }]) 0).cands.find? (fun x =>
        x.table == wRay.shTable && x.part == 0 && x.shader == 1) = some { wCands with rays := List.range' 4 15 } := by decide +kernel
/-- A verdict with a stale generation, and one for the candidate. -/
def verdictState (h : DWord) : State := rayState (kVerdict h) [rayCand true] []
theorem wit_verdictStale : nextTraversal (verdictState 3) 0 = some (0, rayOp (kVerdict 3))
    ∧ handleRay (orderEntry (verdictState 3) (rayOp (kVerdict 3)) 3) 0 3 = none := by decide +kernel
theorem wit_verdictLive : nextTraversal (verdictState 0x500003) 0 = some (0, rayOp (kVerdict 0x500003))
    ∧ handleRay (orderEntry (verdictState 0x500003) (rayOp (kVerdict 0x500003)) 3) 0 0x500003 = some (0, rayCand true, wCand true)
    ∧ (∀ x ∈ (quadAt (verdictState 0x500003) 0).rays, x.slot = 3 → x = rayCand true) := by decide +kernel

/-- A verdict of each code for it: the candidate at distance 0 lies between TMIN (0) and the current tmax, and not; a ray that ends
writes its hit record. -/
def codeState (code d : DWord) : State := rayState (.engine (.verdict m1) 1 [(0, [0x500003, code, d])]) [rayCand true] []
theorem wit_verdictCodes (c d : DWord) : nextTraversal (codeState c d) 0 = some (0, rayOp (.engine (.verdict m1) 1 [(0, [0x500003, c, d])])) := rfl
theorem wit_verdictCodes_ray :
    handleRay (orderEntry (codeState 3 0x3F800000) (rayOp (.engine (.verdict m1) 1 [(0, [0x500003, 3, 0x3F800000])])) 3) 0 0x500003
      = some (0, rayCand true, wCand true) := by decide +kernel
theorem wit_verdictCodes_within : fNaN 0x3F800000 = false ∧ fNaN 0x7FC00000 = true
    ∧ (fLt wRay.tmin 0x3F800000 && fLt 0x3F800000 wRay.tmax) = true ∧ (fLt wRay.tmin 0 && fLt 0 wRay.tmax) = false
    ∧ wRay.flags.getLsbD 1 = false ∧ (2 : Word).getLsbD 1 = true := by decide +kernel
def verdictEnd : Ray := { rayCand true with cand := none, gen := 6, best := { wCand true with t := 0x3F800000 }, bestStatus := 2, tmax := 0x3F800000 }
theorem wit_verdictEnds : rayTeam (codeState 3 0x3F800000) verdictEnd = some (installTeam 0, installPart)
    ∧ (bytesRead (writeRange (hitRecord (codeState 3 0x3F800000) verdictEnd 2).2 (rayReader verdictEnd (installTeam 0) installPart)
        verdictEnd.payload (hitRecord (codeState 3 0x3F800000) verdictEnd 2).1).1).isSome = true := by decide +kernel

/-- An MCPYO of one row of f16 from tile 0 to the first bytes of the scratchpad; its descriptor is at 0x20000. -/
def cpMem : Memory :=
  ⟨[(0x1000, 0x01), (0x1001, 0x20), (0x2000, 0x0F), (0x20007, 0xFD), (0x20009, 1), (0x2000C, 1), (0x20010, 9)], []⟩
def cpDesc : TileDesc := parseDesc (readBytes cpMem 0x20000 64)
def cpEntry (posted : Bool) : Entry :=
  { wEntry with instr := .mcpyo x1, a := 0x20000, stage := if posted then .posted else .fetched, descA := if posted then none else some cpDesc }
def cpState (posted : Bool) (busy : Option Nat) : State :=
  withQuad { tState with gddr := cpMem } fun q => { q with table := [cpEntry posted], busy := busy }
theorem wit_tileFetch : findEntry (cpState true none) 0 5 = some (cpEntry true)
    ∧ (∀ x ∈ (quadAt (cpState true none) 0).table, x.id = 5 → x = cpEntry true)
    ∧ teamPart (cpState true none) 0 = some (installTeam 0, installPart)
    ∧ fetchTurn (cpState true none) 0 (cpEntry true) = true
    ∧ (fetched (fetchEntry (cpState true none) (leadCore 0) installPart (installTeam 0) { cpEntry true with waits := none }).1).isSome = true := by
  decide +kernel
theorem wit_arm : findEntry (cpState false none) 0 5 = some (cpEntry false) ∧ findTeam (cpState false none) 0 = some (installTeam 0)
    ∧ (copyOutRows (cpState false none) (installTeam 0) cpDesc).toOption = some [(0, 0)]
    ∧ (∀ l ∈ copyOutLines [(0, 0)] (128 * elemBytes x1.ta), linePresent (cpState false none) l.1 l.2 = true
      ∧ (findTeam (cpState false none) l.1).isSome = true) := by decide +kernel
/-- An MZERO as posted is ready. -/
def zEntry : Entry := { wEntry with instr := .mzero x1 }
def zState (busy : Option Nat) : State := withQuad tState fun q => { q with table := [zEntry], busy := busy }
theorem wit_grant : (quadAt (zState none) 0).busy = none ∧ entryReady (quadAt (zState none) 0) zEntry = true
    ∧ (∀ x ∈ (quadAt (zState none) 0).table, entryReady (quadAt (zState none) 0) x = true → x = zEntry ∨ arbiterBefore x zEntry = false) := by
  decide +kernel
theorem wit_complete : (quadAt (zState (some 5)) 0).busy = some zEntry.id ∧ findTeam (zState (some 5)) 0 = some (installTeam 0)
    ∧ (tilesRead zEntry).find? (installTeam 0).badTiles.contains = none
    ∧ (tilesRead (cpEntry false)).find? (installTeam 0).badTiles.contains = none
    ∧ (∀ x ∈ (cpState false (some 5)).teams, x.scratch.wf = true) ∧ x1.md.toNat < (installTeam 0).tiles.length ∧ x1.mp.toNat < (installTeam 0).tiles.length
    ∧ (quadAt (cpState false (some 5)) 0).busy = some (cpEntry false).id
    ∧ (copyOutRows (cpState false (some 5)) (installTeam 0) cpDesc).toOption = some [(0, 0)] := by decide +kernel

/-- Runs of 23 and 24 instructions; a YIELD 63 and 64 core clocks old. -/
def runGroup (n : Nat) : Group := { wGroup with idx := 1, run := some ⟨0xFFFF, n, none, false⟩ }
theorem wit_runLimit : findGroup (withGroup (runGroup 24)) 1 = some (runGroup 24) ∧ owing (withGroup (runGroup 24)) 1 = []
    ∧ findGroup (withGroup (runGroup 23)) 1 = some (runGroup 23) := by decide +kernel
def yieldState (n : Nat) : State := { withGroup { wGroup with yield := some ⟨[2], 0⟩ } with dies := aged n }
/-- Group 0 of a gated team. -/
def gatedState : State := { wState with teams := [{ installTeam 0 with gated := true, gateOpen := false }], groups := [{ runGroup 24 with idx := 0 }] }
theorem wit_runLimit_gate : findGroup gatedState 1 = some { runGroup 24 with idx := 0 } ∧ owing gatedState 1 = []
    ∧ groupEnded { runGroup 24 with idx := 0 } = false ∧ (runGroup 24).traps = [] ∧ (runGroup 24).after = []
    ∧ findTeam gatedState 0 = some { installTeam 0 with gated := true, gateOpen := false }
    ∧ nextGathering gatedState { installTeam 0 with gated := true, gateOpen := false } (packetW (installTeam 0).packet) = none := by decide +kernel
theorem wit_yield : 64 ≤ coreSince (yieldState 64) 0 0 ∧ ¬ 64 ≤ coreSince (yieldState 63) 0 0 := by decide +kernel
/-- Two lanes of group 0 have waited at segment start 0x200 for REGTO. -/
def gArrival (l : Nat) : Arrival := ⟨l, 0, l, laneAt wGroup l, 0, 0, 0, 0, 0, wGroup.s, (0, 0), 0x100, []⟩
def gGathering : Gathering := ⟨0x200, [gArrival 1, gArrival 0]⟩
def gTeam : Team := { installTeam 0 with gatherings := [gGathering] }
def gState : State := { wState with teams := [gTeam], groups := [], dies := aged 100 }
theorem wit_regroup : findTeam gState 0 = some gTeam ∧ findPart gState 0 = some installPart ∧ gatheringReady gState gTeam 16 gGathering = true
    ∧ packetW gTeam.packet = 16 ∧ liveArrivals gGathering ≠ [] ∧ groupsHeld gState 0 < groupsOf gTeam.packet
    ∧ isStopped installPart = false ∧ gTeam.place = .resident ∧ gGathering.arrivals.length ≤ 16 := by decide +kernel
def sState : State := withGroup { wGroup with run := none, shipping := some 0 }
theorem wit_landing : teamOf sState { wGroup with run := none, shipping := some 0 } = some (installTeam 0)
    ∧ findPart sState (partOfGroup sState { wGroup with run := none, shipping := some 0 }) = some installPart
    ∧ landingCore sState installPart 0 = some 0 := by decide +kernel

/-- A team whose lanes all wait at a scratchpad line since clock 0, another grid's cluster waiting for its core. -/
def swapGroup : Group := { wGroup with run := none, lanes := wGroup.lanes.map fun l => { l with park := .lines [(0, 1)] } }
def swapTeam' : Team := { installTeam 0 with absent := [1], parkedSince := some 0 }
def swapThread : Thread := { wThread with exited := true }
def swapState : State :=
  { wState with groups := [swapGroup], teams := [swapTeam'], threads := [swapThread], dies := aged 30000, now := 30000
                grids := [installGrid 0, { installGrid 1 with packet := { installPacket with flags := 0x02, acct := 0 }, next := 0 }] }
theorem wit_swap : swapEligible swapState swapTeam' installPart = true ∧ swapDrained (drainTeam swapState swapTeam') 0 = true
    ∧ (findTeam (drainTeam swapState swapTeam') 0).isSome = true ∧ swapEligible wState (installTeam 0) installPart = false := by decide +kernel
/-- A store of the team that a bad link holds up. -/
def stuckState : State :=
  { swapState with linkUp := false, ops := [{ opOf (.store [⟨0, .page .host 0 0, [1]⟩] 0 false false) with cls := some .store }] }
theorem wit_swap_undrained : swapEligible stuckState swapTeam' installPart = true ∧ swapDrained (drainTeam stuckState swapTeam') 0 = false := by
  decide +kernel
def savedTeam : Team := { installTeam 0 with place := .saved }
def savedState : State := { wState with teams := [savedTeam], groups := [{ wGroup with run := none }] }
theorem wit_restore : findTeam savedState 0 = some savedTeam ∧ findPart savedState 0 = some installPart
    ∧ canRestore savedState savedTeam 0 = true ∧ (savedState.groups.map (·.id)).Nodup ∧ ∀ g ∈ savedState.groups, g.team = 0 → g.replays = [] := by
  decide +kernel
/-- A swapped team whose line has arrived. -/
def wokenState : State := { swapState with teams := [{ installTeam 0 with place := .swapped }], grids := [installGrid 0] }
theorem wit_restoreSwapped : teamWakes wokenState { installTeam 0 with place := .swapped } = true
    ∧ canRestore wokenState { installTeam 0 with place := .swapped } 0 = true := by decide +kernel
def gateTeam : Team := { installTeam 0 with gateOpen := false }
theorem wit_gate : findTeam (withTeam gateTeam) 0 = some gateTeam ∧ gateOpens (withTeam gateTeam) gateTeam = true := by decide +kernel
/-- The only team of its grid, all lanes exited. -/
def endGroup : Group := { wGroup with run := none, lanes := wGroup.lanes.map fun l => { l with exited := true } }
def endState (next : Nat) : State :=
  { wState with groups := [endGroup], threads := [swapThread], grids := [{ installGrid 0 with next := next, total := 2, job := some 4 }]
                jobs := [⟨4, 0, 0, none, 0, false, 0, 0⟩] }
theorem wit_teamEnd (n : Nat) (h : n = 1 ∨ n = 2) : teamEnded (endState n) (installTeam 0) = true
    ∧ findGrid (endState n) 2 = some { installGrid 0 with next := n, total := 2, job := some 4 } := by
  rcases h with rfl | rfl <;> decide +kernel

/-- A child packet of one group of 16 lanes, and a record for entry 0. -/
def childBytes (kind : Nat) : List Byte :=
  natBytes 1 kind ++ [0, 32, 0] ++ List.replicate 28 0 ++ natBytes 4 1 ++ natBytes 4 1 ++ natBytes 4 1 ++ natBytes 2 16 ++ [1, 1]
    ++ List.replicate 40 0 ++ natBytes 4 0xFFFFFFFF ++ List.replicate 36 0
def launchTeam (kind : Nat) : Team := { installTeam 0 with pendLaunch := [⟨childBytes kind, none, 0⟩] }

/-! Work, the host, partitions, commands, the platform. -/

theorem wit_child (kind : Nat) (h : kind = 2 ∨ kind = 3) : findTeam (withTeam (launchTeam kind)) 0 = some (launchTeam kind)
    ∧ findPart (withTeam (launchTeam kind)) 0 = some installPart ∧ launchFree installPart = true
    ∧ (childPacket (childBytes kind)).kind = kind ∧ packetLegal installPart (childPacket (childBytes kind)) = true
    ∧ (childPacket (childBytes kind)).joinAddr = noJoin ∧ (childPacket (childBytes kind)).mapLen = 0 := by
  rcases h with rfl | rfl <;> decide +kernel
/-- A grid of each origin, with nothing else on its core; the die at a temperature. -/
def admitGrid (o : Origin) : Grid := { installGrid 0 with origin := o, next := 0 }
def admitState (o : Origin) (t : Nat) : State :=
  { wState with grids := [admitGrid o], teams := [], groups := [], threads := []
                dies := wState.dies.modify 0 fun d => { d with areas := [], temps := List.replicate 64 t } }
def admitOk (o : Origin) (t : Nat) (cool : Bool) : Bool :=
  let s := admitState o t
  clusterWaits (admitGrid o) 0 && !isDeferred (admitGrid o) 0 && !lowerFirst s installPart (admitGrid o) 0 && (findGrid s 2 == some (admitGrid o))
  && (rectsOf installPart (admitGrid o) 0).find? (fun r => (admitRect s installPart (admitGrid o) 0 r).isSome
      && !rectTaken s installPart (goesBefore s 0 (s.grids.findIdx (·.id == 2)) (admitGrid o) 0) r) == some [0]
  && coolEnough s installPart [0] 0 == cool
theorem wit_admit : admitOk (.host 0) 0 true = true ∧ admitOk .child 0 true = true ∧ admitOk (.records 0) 0 true = true
    ∧ admitOk (.callback 0) 0 true = true ∧ admitOk (.host 0) 1521 false = true := by decide +kernel
def wRecord (e : Byte) : List Byte := e :: List.replicate 63 0
def recPart : Partition := { installPart with csrs := { installPart.csrs with entCount := 1 } }
def wGather : RecGather := ⟨{ installPacket with privB := 64 }, 0, 0, 0, [wRecord 0]⟩
def emitState (e : Byte) : State :=
  { opState (.emit [wRecord e]) with
    parts := [recPart], dies := (aged 300).modify 0 fun d => { d with gather := [wGather] } }
theorem wit_gather : findOp (emitState 0) 7 = some (opOf (.emit [wRecord 0])) ∧ findPart (emitState 0) 0 = some recPart
    ∧ (opOf (.emit [wRecord 0])).done = false ∧ allEarlier (emitState 0) (opOf (.emit [wRecord 0])) = true ∧ launchFree recPart = true
    ∧ gatherDie (emitState 0) recPart 0 (wRecord 0) = 0 ∧ findGather (dieAt (emitState 0) 0) 0 0 = some wGather
    ∧ fieldNat (wRecord 0) 0 4 = 0 ∧ fieldNat (wRecord 1) 0 4 = 1 ∧ recPart.csrs.entCount.toNat = 1
    ∧ wGather.records.length + 1 < packetW wGather.packet
    ∧ (dieAt (emitState 0) 0).gather.find? (fun x => x.entry == 0 && recToPassed (emitState 0) x.part 0 x.first) = some wGather := by
  decide +kernel

/-- Queue 0 enabled with a ring of two packets, 2 tickets, and a packet in it. -/
def hQueue (head tail : Word) : HQueue := ⟨0x31000, 0x10102, tail, head, 0⟩
def hPart (head tail : Word) : Partition := { installPart with queues := hQueue head tail :: List.replicate 63 ⟨0, 0, 0, 0, 0⟩ }
def hState (head tail : Word) : State := { wState with parts := [hPart head tail] }
theorem wit_hostReaches : HostReaches (hState 0 1) 0 (hPart 0 1) ∧ (hPart 0 1).queues[0]? = some (hQueue 0 1)
    ∧ queueEnabled (hQueue 0 1) = true ∧ queueLog (hQueue 0 1) = 1 ∧ 2 ^ queueLog (hQueue 0 1) < ((3 : Word) - 0).toNat
    ∧ ((2 : Word) - 0).toNat ≤ 2 ^ queueLog (hQueue 0 1) ∧ RoomFor (hState 0 1) 0 unitLaunch 1 := by decide +kernel
theorem wit_queueControl : ((0x10002 : DWord).getLsbD 16 = true ∧ (0x10002 : DWord).toNat / 256 % 32 < 1)
    ∧ ((0x11102 : DWord).getLsbD 16 = true ∧ 16 < (0x11102 : DWord).toNat / 256 % 32)
    ∧ ¬ (16 < (0x11002 : DWord).toNat / 256 % 32) ∧ (0x11002 : DWord) &&& ~~~0x11FFF = 0 ∧ (0x30102 : DWord) &&& ~~~0x11FFF ≠ 0
    ∧ 2 ^ ((0x10102 : DWord).toNat / 256 % 32) < ((3 : Word) - 0).toNat ∧ ¬ 2 ^ ((0x10102 : DWord).toNat / 256 % 32) < ((2 : Word) - 0).toNat := by
  decide
theorem wit_pool : installPart.privAllocs = [] ∧ ({ installPart with privAllocs := [(0, 65536)] } : Partition).privAllocs ≠ []
    ∧ residentTeam (hState 0 1) 0 = true ∧ residentTeam { hState 0 1 with teams := [] } 0 = false := by decide +kernel

theorem wit_draw : ((hPart 0 1).queues.mapIdx fun i q => (i, q)).filter (fun x => queueEligible (hState 0 1) (hPart 0 1) x.2) = [(0, hQueue 0 1)]
    ∧ (hPart 0 1).launchWait = none ∧ (hPart 0 1).taken = none := by decide +kernel
/-- A packet taken from queue 0: at 0x31000 stands a host packet, or zeros. -/
def takenPart : Partition := { hPart 0 1 with taken := some ⟨0, 0x31000, 0⟩ }
def takenState (b : Byte) : State :=
  { hState 0 1 with
    parts := [takenPart]
    gddr := ⟨[(0x1000, 0x01), (0x1001, 0x20), (0x2000, 0x0F)]
      ++ ([(0x31000, b), (0x31002, 32), (0x31020, 1), (0x31024, 1), (0x31028, 1), (0x3102C, 16), (0x3102E, 1), (0x3102F, 1), (0x31058, 0xFF),
        (0x31059, 0xFF), (0x3105A, 0xFF), (0x3105B, 0xFF)].filter fun c => c.2 != 0), []⟩ }
def takenOk (b : Byte) (legal : Bool) : Bool :=
  match got (unitRead (takenState b) (launchReader takenPart) 0x31000 128).1 with
  | some x =>
    let k := parsePacket x
    k.kind == b.toNat && packetLegal takenPart k == legal && k.joinAddr == noJoin && k.mapLen == 0
  | none => false
theorem wit_taken : takenOk 1 true = true ∧ takenOk 0 true = true ∧ launchFree takenPart = true := by decide +kernel
/-- A host packet of another number of lanes than its groups hold is illegal. -/
theorem wit_taken_illegal : packetLegal takenPart { installPacket with kind := 1, teamLanes := 15 } = false := by decide +kernel
/-- A graph packet at 0x31000, with a byte of its reserved field; its descriptor at 0x31100, of a kind; one pass at 0x31200. -/
def graphState (res kind : Byte) : State :=
  { takenState 0 with
    gddr := ⟨([(0x1000, 0x01), (0x1001, 0x20), (0x2000, 0x0F), (0x31000, 3), (0x31001, res), (0x31009, 0x11), (0x3100A, 3), (0x31050, 9),
      (0x31100, kind), (0x31101, 1), (0x31109, 0x12), (0x3110A, 3), (0x31200, 1), (0x31202, 32), (0x31220, 1), (0x31224, 1), (0x31228, 1),
      (0x3122C, 16), (0x3122E, 1), (0x3122F, 1), (0x31258, 0xFF), (0x31259, 0xFF), (0x3125A, 0xFF), (0x3125B, 0xFF), (0x31280, 1),
      (0x31282, 1), (0x3128A, 1), (0x3128D, 8), (0x3128E, 8)] : List Host.Cell).filter fun c => c.2 != 0, []⟩ }
/-- Whether the packet is legal, and what its graph is: none, rejected, or one of a pass. -/
def graphOk (res kind : Byte) : Bool × Option (Option Nat) :=
  let s := graphState res kind
  let r := unitRead s (launchReader takenPart) 0x31000 128
  match got r.1 with
  | some b =>
    (fieldNat b 0 1 == 3 && allZero ((b.drop 1).take 7) && allZero ((b.drop 0x10).take 64) && allZero (b.drop 0x58) && fieldNat b 8 8 % 64 == 0,
      (got (readGraph r.2 takenPart (fieldNat b 8 8)).1).map fun g => g.map (·.passes.length))
  | none => (false, none)
theorem wit_graph : graphOk 0 1 = (true, some (some 1)) ∧ graphOk 0 2 = (true, some none) ∧ graphOk 1 1 = (false, some (some 1))
    ∧ takenPart.graph = none := by decide +kernel
/-- A graph of one pass of one tile. -/
def wPass (st : TileState) : Pass := ⟨installPacket, [], 1, 1, 0, 0, 0, 0, 1, 0, 0, 8, 8, [⟨st, 0, 0⟩]⟩
def wGraph (st : TileState) : Graph := ⟨[wPass st], [], [], 0, 0, 4, 1⟩
def graphPart : Partition := { installPart with graph := some (wGraph .released) }
theorem wit_tileLaunch : launchable (wGraph .released) 0 = some 0 ∧ findPart { wState with parts := [graphPart] } 0 = some graphPart := by decide +kernel
/-- The only team of its grid, of the graph's tile. -/
def tileTeam : Team := { installTeam 0 with origin := .tile 0 0 }
def tileGrid : Grid := { installGrid 0 with origin := .tile 0 0 }
def retireState : State :=
  { wState with
    parts := [{ installPart with graph := some (wGraph .launched) }], teams := [tileTeam], grids := [tileGrid]
    groups := [{ wGroup with run := none, lanes := wGroup.lanes.map fun l => { l with exited := true } }], threads := [{ wThread with exited := true }] }
theorem wit_retire : teamEnded retireState tileTeam = true ∧ findGrid retireState tileTeam.grid = some tileGrid ∧ tileGrid.next = tileGrid.total
    ∧ tileGrid.passed = [] ∧ tileGrid.job = none ∧ tileTeam.rays = [] ∧ tileGrid.part = 0
    ∧ (∀ x ∈ retireState.teams, x.grid = tileGrid.id → x.id ≠ tileTeam.id → x.ended = true)
    ∧ (retired (wGraph .launched) 0 0).passes.all passRetired = true ∧ (wGraph .launched).done = 0
    ∧ (retired { wGraph .launched with passes := [wPass .launched, wPass .pending] } 0 0).passes.all passRetired = false := by decide +kernel
def lateJob : Job := ⟨4, 0, 0, none, 10, false, 3, 0x31000⟩
def lateState : State := { wState with jobs := [lateJob], now := 11 }
theorem wit_deadline : findJob lateState 4 = some lateJob ∧ overrun lateState lateJob = true ∧ overranFirst lateState lateJob = true
    ∧ RoomFor lateState 0 unitLaunch 1 := by decide +kernel
/-- A partition being pre-empted with every team saved; and PREDL2 past its request. -/
def prePart (st : PState) : Partition := { installPart with state := st, preempt := some 0, preemptFn := some 1 }
def preState (now : Nat) : State :=
  { wState with parts := [prePart .preempting], teams := [savedTeam], threads := [swapThread], now := now }
theorem wit_preempt : resetDue (preState 37999) (prePart .preempting) = false ∧ resetDue (preState 95000) (prePart .preempting) = true
    ∧ allSaved (preState 37999) 0 = true ∧ (prePart .preempting).csrs.predl2.toNat ≤ preemptClock (preState 95000) (prePart .preempting)
    ∧ (prePart .preempting).csrs.predl2 ≠ 0 ∧ 1 < (preState 0).funcs.length := by decide +kernel
theorem wit_thermal : wState.powered = true ∧ ([1679, 0] : List Nat).foldl max 0 < 1680 ∧ RoomFor wState 0 unitMgmt 0
    ∧ findPart wState 0 = some installPart ∧ (partDies installPart).contains 0 = true ∧ wState.dies.length = 4 := by decide +kernel

/-- The commands of PF0 and of VF1 on partition 0. -/
def cArgs : MArgs := ⟨1, 0x358, 0, 0⟩
def mboxState (ps : List Partition) (ts : List Team) : State :=
  { wState with parts := ps, teams := ts, threads := [], groups := [{ wGroup with run := none }] }
theorem wit_create : CommandReady (mboxState [] []) 0 0x01 ∧ shapeCores cArgs.m0 = some (List.range 64) ∧ splitOk cArgs.m1 = true
    ∧ findPart (mboxState [] []) 0 = none ∧ coresFree (mboxState [] []) (List.range 64) = true := by decide +kernel
/-- A partition that has halted, its pre-emption completed. -/
def haltedPart : Partition := { prePart .halted with preempt := none, preemptFn := none }
/-- No access in flight holds a translation of page 0, or one does. -/
theorem wit_shootdown : holdsRange (mboxState [installPart] []) 0 0 1 = []
    ∧ holdsRange { mboxState [installPart] [] with ops := [iOp] } 0 0 1 = [iOp.id] := by decide +kernel
theorem wit_commands : CommandReady (mboxState [installPart] []) 0 0x02 ∧ CommandReady (mboxState [installPart] []) 1 0x03
    ∧ findPart (mboxState [installPart] []) (commandPart 1 cArgs) = some installPart
    ∧ findPart (mboxState [installPart] []) (commandPart 0 { cArgs with m3 := 0 }) = some installPart
    ∧ graphActive installPart = false ∧ residentTeam (mboxState [installPart] []) 0 = false
    ∧ (∀ d ∈ (mboxState [] []).dies, floorOk ⟨3, 0, 0, 0⟩ d = true) ∧ allSaved (mboxState [haltedPart] []) 0 = true
    ∧ pstateCode haltedPart = 3 ∧ pstateCode installPart ≠ 3 ∧ pstateCode installPart ≠ 2 ∧ haltedPart.evicted = none ∧ (0x100000 + installPart.cores.length * 4 * 2 ^ 20 ≤ fwBase)
    ∧ shapeCores installPart.shape = some (List.range 64)
    ∧ coresFree (mboxState [{ haltedPart with cores := [], evicted := some 1 }] []) (List.range 64) = true := by decide +kernel
/-- A group with a lane halted by a debug match. -/
def dbgGroup : Group := parkLanes { wGroup with run := none } 4 .debug
theorem wit_debugResume : findGroup { mboxState [installPart] [installTeam 0] with groups := [dbgGroup] } 1 = some dbgGroup
    ∧ haltedLanes dbgGroup = 4 ∧ teamIn (mboxState [installPart] [installTeam 0]) 0 dbgGroup.team = true := by decide +kernel
/-- An image without slots for die 0, at host address 0. -/
def patchState : State :=
  { wState with hostMem := ⟨[(0, 0x4B), (1, 0x4D), (2, 0x42), (3, 0x5A), (4, 1), (0x16, 1)], []⟩, ops := [], threads := [], teams := [] }
theorem wit_patch : (parsePatch (readBytes patchState.hostMem 0 192)).map (fun im => (im.dies, im.slots.length)) = some (1, 0)
    ∧ loadBlocked patchState 0 = false ∧ patchState.dies.length = 4 ∧ CommandReady patchState 0 0x08 := by decide +kernel
theorem wit_refused : ∃ p, findPart (mboxState [p] []) (2 - 1) = some p := ⟨{ installPart with idx := 1 }, by decide +kernel⟩

/-- A record for function 1, whose ring of 16 is enabled. -/
def ringPart : Partition := { installPart with even := true, evlog2n := 4, evbase := 0x1000 }
def wRec : EvRec := ⟨0, unitLaunch, 0x400, 0, some 0, false, []⟩
def ringState : State := { wState with parts := [ringPart], funcs := wState.funcs.modify 1 fun f => { f with queue := [wRec] } }
theorem wit_deliver : eventQueue ringState 1 = [wRec] ∧ ringRoom ringPart = true ∧ findPart ringState (1 - 1) = some ringPart
    ∧ ∀ d < 5, (dieAt ringState d).spill = [] ∧ (dieAt ringState d).kept = [] ∧ (dieAt ringState d).lost = [] := by decide +kernel
theorem wit_deliver_all : ∀ d, (dieAt ringState d).spill = [] ∧ (dieAt ringState d).kept = [] ∧ (dieAt ringState d).lost = [] := fun d => by
  rcases Nat.lt_or_ge d 5 with h | h
  · exact wit_deliver.2.2.2 d h
  · have hl : ringState.dies.length ≤ d := Nat.le_trans (by decide +kernel) h
    simp [dieAt, List.getD, List.getElem?_eq_none hl, Die.reset]
theorem wit_links : wState.powered = true ∧ wState.linkUp = true ∧ (wState.parts.map (·.idx)).Nodup
    ∧ spansLink (migPart 1) 0 (linkPeer 0 .a) = true ∧ spansLink (migPart 1) 0 (linkPeer 0 .b) = false
    ∧ RoomFor wState 3 85 0 := by decide +kernel
def wBoot (ok : Bool) : BootInput := { exchanged := ok, nvmePresent := true, dieids := [3, 2, 1, 0], repairs := [[(1, 2, 3)]], failedCopy := none }
theorem wit_boot : (wBoot true).exchanged = true ∧ (wBoot false).exchanged = false
    ∧ masterDie (bootState State.reset (wBoot true)) = 3 := by decide +kernel

/-- A step that issues: the run, its line, and what it decodes to. -/
def issueOk (w : SlotBits) (i : Instr) : Bool :=
  let s := { State.reset.withFetchWord 96 w.toNat with agenda := [] }
  match quarterGroup s 0 0 with
  | none => false
  | some g =>
    match beginRun s g with
    | none => false
    | some (s0, g0, r) =>
      match lowLane g0.w r.lanes with
      | none => false
      | some low =>
        let pc := (laneAt g0 low).pc
        match runLine s0 g0 r pc with
        | (.line b, s1) =>
          let g1 : Group := { g0 with
            run := some { r with line := some (pcLine pc, b) }
            lastLow := if g0.run.isNone then some low else g0.lastLow }
          (findGroup s g.id == some g) && (findGroup s1 g.id).isSome && tgtBit b (pcSlot pc)
            && (decodeSlot (dieAt (putGroup s1 g1) (dieOfCore g1.core)) (slotOf b (pcSlot pc)) pc).isNone
            && (decode (slotOf b (pcSlot pc))).toOption == some i
        | _ => false
def controlOk (w : SlotBits) (i : Instr) : Bool :=
  let s := { State.reset.withFetchWord 96 w.toNat with agenda := [] }
  match nextThread s 0 with
  | none => false
  | some t =>
    match threadLine s t with
    | (.line b, _) => tgtBit b (pcSlot t.pc) && (decode (slotOf b (pcSlot t.pc))).toOption == some i
    | _ => false
theorem wit_steps : issueOk 0x3FC000002C90005020A9C1A0 (.vfma { f0 with
      imm := 0x3FC00000, rm := .rtz, am := .neg, ck := .imm, bk := .scalar, ra := true, b := 5, a := 2, d := 10, gn := true, gk := 3, ty := .f32 }) = true
    ∧ (State.reset.withFetchWord 96 0x3FC000002C90005020A9C1A0).agenda = [.issue 0 0]
    ∧ controlOk 0x000000030100051010477070 (.mma ⟨0, 3, true, false, 0, 0, 5, 4, 1, 0, 1, 0, .e2m1, .e2m1⟩) = true
    ∧ (State.reset.withFetchWord 96 0x000000030100051010477070).agenda = [.control 0] := by decide +kernel
theorem wit_unique : UniqueIds wState ∧ anyPrivileged wGroup (allLanes wGroup.w) = false ∧ wThread.priv = false := by decide +kernel
theorem wit_stepGoesOn : (match step wState with | .next _ => true | _ => false) = true := by decide +kernel
theorem wit_canonical : Canonical State.reset ∧ Canonical wState ∧ (Memory.fresh 64 5).wf = true ∧ Memory.empty.wf = true := by decide +kernel

/-! ### Worked examples of the spec, each named in its comment -/

/-- A group whose vector registers hold what is said of each lane; the group after one instruction. -/
def exGroup (rs : List (Nat × (Nat → Word))) : Group :=
  { wGroup with lanes := wGroup.lanes.mapIdx fun i l => { l with v := rs.foldl (fun v r => v.set r.1 (r.2 i)) l.v } }
def ran (f : State → Result) (g : Group) : Group := match f (withGroup g) with | .next u => (findGroup u 1).getD g | _ => g
def same (x : Word) : Nat → Word := fun _ => x

/-- 07, worked example of R128: two rows of VPADD.e4m3. -/
def vpadd (a b : Word) : Word × DWord :=
  let g := ran (execVpadd { f0 with ty := .e4m3, d := 3, a := 1, b := 2 }) (exGroup [(1, same a), (2, same b)])
  (vreg g 15 3, g.fst)
theorem test_vpadd : vpadd 0x30407F60 0x00380060 = (0x30447F68, 0) ∧ vpadd 0x30407E60 0x00387E60 = (0x30447F68, 2) := by decide +kernel
/-- 08, worked example of one packed e4m3 lane: VPMUL.e4m3.rdn without and with SAT. -/
def vpmul (sat : Bool) : Word × DWord :=
  let g := ran (execVpmul { f0 with ty := .e4m3, d := 3, a := 1, b := 2, rm := .rdn, sat := sat }) (exGroup [(1, same 0x08DA7F5A), (2, same 0x185F405F)])
  (vreg g 0 3, g.fst)
theorem test_vpmul : vpmul false = (0x00FF7F7E, 0x06) ∧ vpmul true = (0x00FE7F7E, 0x24) := by decide +kernel
/-- 08, conversions into the narrow formats. -/
def cvt (t : Ty) (rm : Rm) (sat : Bool) (x : DWord) : DWord × FlagSet := cvtFV t rm sat false (decodeFloat .f32 x)
theorem test_vfcvt : cvt .e4m3 .rne false 0x3E99999A = (0x2A, 0) ∧ cvt .e4m3 .rne false 0x43E80000 = (0x7E, 0)
    ∧ cvt .e4m3 .rne false 0x43E88000 = (0x7F, flagOF) ∧ cvt .e4m3 .rne true 0x43E88000 = (0x7E, flagSAT)
    ∧ cvt .e4m3 .rne false 0x3A83126F = (0x01, flagUF) ∧ cvt .e4m3 .rtz false 0x3A83126F = (0, flagUF)
    ∧ cvt .e5m2 .rne false 0x42C80000 = (0x56, 0) ∧ cvt .e2m1 .rne false 0x40200000 = (4, 0)
    ∧ cvt .e2m1 .rne false 0xBE4CCCCD = (0, flagUF) ∧ cvt .e2m1 .rne false 0x40E00000 = (7, flagOF)
    ∧ roundE8m0 .rne (decodeFloat .f32 0x3F400000) = (0x7E, 0) := by decide +kernel
/-- 08, exact-pair error terms at the edges. -/
theorem test_pairs : twoSum .f32 false 0x7F400000 0x7F400000 = ⟨0x7F800000, 0x7FC00000, flagXO⟩
    ∧ twoSum .f32 false 0x7F7FFFFF 0x72800000 = ⟨0x7F7FFFFF, 0x72800000, 0⟩
    ∧ twoSum .f32 false 1 0x3F800000 = ⟨0x3F800000, 1, 0⟩ ∧ twoSum .f32 false 0xBF800000 0x3F800000 = ⟨0, 0, 0⟩
    ∧ twoSum .f32 false 0x7F800000 0x40000000 = ⟨0x7F800000, 0, 0⟩
    ∧ twoProd .f32 0x3F800001 0x3F800001 = ⟨0x3F800002, 0x28800000, 0⟩ ∧ twoProd .f32 0x3F800001 0x200 = ⟨0x200, 0, flagXL⟩ := by
  decide +kernel
/-- 08, the elements of an e2m1 block with the spare 0x4A. -/
theorem test_spare : blockElems .e2m1 8 [0x82, 0xF1, 0x08, 0x7A] 0x4A
    = [0x3F800000, 0x40A00000, 0x3F000000, 0xC0C00000, 0x40A00000, 0, 0xBF800000, 0x40C00000] := by decide +kernel
/-- 10, saturation after exact arithmetic, and high multiplies. -/
def vint (f : VF → State → Result) (t : Ty) (sat : Bool) (a b c : Word) : Word × DWord :=
  let g := ran (f { f0 with ty := t, d := 4, a := 1, b := 2, c := if c = 0 then 0 else 3, sat := sat }) (exGroup [(1, same a), (2, same b), (3, same c)])
  (vreg g 7 4, g.fst)
theorem test_saturation : vint execVadd .i8 false 100 50 0 = (0xFFFFFF96, 0) ∧ vint execVadd .i8 true 100 50 0 = (0x7F, 0x20)
    ∧ vint execVadd .n8 true 200 100 0 = (0xFF, 0x20) ∧ vint execVsub .n32 true 3 5 0 = (0, 0x20)
    ∧ vint execVmad .i32 true 65536 65536 0xFFFFFFFF = (0x7FFFFFFF, 0x20) := by decide +kernel
theorem test_highMultiply : vint execVmulh .i32 false 0xFFFFFFFF 2 0 = (0xFFFFFFFF, 0) ∧ vint execVmulhn .n32 false 0xFFFFFFFF 2 0 = (1, 0)
    ∧ vint execVmulh .i8 false 0x80 0x7F 0 = (0xFFFFFFC0, 0) ∧ vint execVmulhn .n8 false 0x80 0x7F 0 = (0x3F, 0) := by decide +kernel
/-- 10, minimum and maximum at the edges. -/
theorem test_minMax : minMaxBits .f32 false 0 0x80000000 = (0x80000000, 0) ∧ minMaxBits .f32 true 0 0x80000000 = (0, 0)
    ∧ minMaxBits .f32 false 0x7FC00000 0x3F800000 = (0x7FC00000, 0) ∧ minMaxNumBits .f32 true 0x7FC00000 0x3F800000 = (0x3F800000, 0)
    ∧ minMaxNumBits .f32 false 0x7F800001 0x3F800000 = (0x3F800000, flagNV)
    ∧ minMaxBits .f32 false 0xFFC00001 0x7FC00002 = (0x7FC00000, 0) := by decide +kernel
/-- 09, saving eight predicates: KTOV of k1 to k8 with the bits 1, 0, 1, 1, 0, 0, 0, 1. -/
theorem test_ktov : vreg (ran (execKtov { f0 with d := 12, a := 1, bk := .imm, imm := 8 })
    { wGroup with k := (List.range 16).map fun k => if [1, 3, 4, 8].contains k then 0xFFFF else 0 }) 3 12 = 0x8D := by decide +kernel
/-- 13, worked examples of R210 and R213: VSHFU by 3 of 100 + i, and VSCANE add of 1, 2, 3, 4 and zeros. -/
theorem test_vshfu : (List.range 16).map (vreg (ran (execVshfu { f0 with ty := .b32, d := 3, a := 2, bk := .imm, imm := 3 })
    (exGroup [(2, fun i => BitVec.ofNat 32 (100 + i))])) · 3)
    = [100, 101, 102, 100, 101, 102, 103, 104, 105, 106, 107, 108, 109, 110, 111, 112] := by decide +kernel
theorem test_vscane : (List.range 16).map (vreg (ran (execVscane { f0 with ty := .i32, d := 3, a := 2, bk := .imm, imm := 0 })
    (exGroup [(2, fun i => [1, 2, 3, 4].getD i 0)])) · 3) = [0, 1, 3, 6] ++ List.replicate 12 10 := by decide +kernel
/-- 13, worked example of R207: DWADD.f32. 07, the trees of VREDFADD and VREDX. -/
theorem test_dwadd : dwAdd .f32 ⟨0x4B800000, 0x3F800000⟩ ⟨0x3F800000, 0x30800000⟩ = ⟨0x4B800001, 0x30800000, 0⟩ := by decide +kernel
def treeLeaves : List DWord := [0x4B800000, 0x3F800000, 0x3F800000, 0x3F800000] ++ List.replicate 12 0
theorem test_trees : laneTree (addRne .f32) treeLeaves = some 0x4B800001
    ∧ (laneTree (fun x y => dwAdd .f32 ⟨x.hi, x.lo⟩ ⟨y.hi, y.lo⟩) (treeLeaves.map fun x => (⟨x, 0, 0⟩ : PairR))).map (fun r => (r.hi, r.lo))
      = some (0x4B800002, 0xBF800000) := by decide +kernel
/-- 11, worked example of R183: four lanes of ATOM.ADD on a word that holds 10. -/
def addState : State :=
  let l : Loc := .page .dev 0x30000 0x30000
  let k : OpKind := .atom .add .n32 [⟨0, l, 1, 0⟩, ⟨1, l, 2, 0⟩, ⟨2, l, 3, 0⟩, ⟨3, l, 4, 0⟩] 3 false false false false (some 5)
  { opState k with ops := [{ opOf k with owes := true }], gddr := ⟨[(0x30000, 10)], []⟩ }
theorem test_atomAdd : (match execAtomicPerform 7 addState with
    | .next u => ((findOp u 7).bind (·.writes), readNat u.gddr 0x30000 4)
    | _ => (none, 0)) = (some [.vec 0 5 10, .vec 1 5 11, .vec 2 5 13, .vec 3 5 16], 20) := by decide +kernel
/-- 15, worked example of R235: the hashes of two lines. -/
theorem test_signature : sigHashes 0x00007F0000002040 = (476, 910) ∧ sigHashes 0x00007F0000002100 = (477, 911)
    ∧ sigHashes 0x1000 = (16, 16) := by decide +kernel
/-- 17, examples of R258, R263 and R288. -/
theorem test_meta : metaIndices 6 1 0x2F261C60 = some [0, 3, 7, 12, 18, 23] := by decide +kernel
def exRay : TestRay := ⟨[0x3E800000, 0x3E800000, 0xBF800000], [0, 0, 0x3F800000], 0, 0x42C80000⟩
def exNode : List Byte :=
  ([0, 0, 0, 0x3F800000, 0x3F800000, 0x3F800000, 0, 0, 0, 0, 0, 0, 7, 0xFFFFFFFF, 0, 0] : List Word).flatMap fun w => natBytes 4 w.toNat
def exTri : List Byte := ([0, 0, 0, 0x3F800000, 0, 0, 0, 0x3F800000, 0, 9, 0, 0] : List Word).flatMap fun w => natBytes 4 w.toNat
theorem test_boxTri : boxResult exRay exNode = [0x3F800000, 0x7F800000, 7, 0xFFFFFFFF]
    ∧ triResult exRay exTri = [0x3F800000, 0x3E800000, 0x3E800000, 9] := by decide +kernel
/-- 19, worked examples of R295, R304 and R313: three draws, the counts of tiles, a predicted temperature. -/
theorem test_lottery : prngStep 1 = 270369 ∧ prngStep 270369 = 67634689 ∧ prngStep 67634689 = 2647435461
    ∧ drawWinner [(0, 10, 0), (1, 30, 0), (2, 60, 0)] 270369 = some 2 ∧ drawWinner [(0, 10, 2), (1, 30, 2)] 2647435461 = some 1 := by decide +kernel
def gridPass (n : Nat) : Pass := { wPass .pending with tw := n, th := n }
theorem test_counts : (clippedSet (gridPass 4) ⟨0, 0, -1, 1, -1, 1, none⟩ (gridPass 4) 0).length = 4
    ∧ (clippedSet (gridPass 4) ⟨0, 0, -1, 1, -1, 1, none⟩ (gridPass 4) 1).length = 6
    ∧ (clippedSet (gridPass 4) ⟨0, 0, -1, 1, -1, 1, none⟩ (gridPass 4) 10).length = 9
    ∧ clippedSet (gridPass 4) ⟨0, 1, 0, 1, 0, 1, none⟩ (gridPass 2) 1 = [2, 3, 6, 7]
    ∧ clippedSet (gridPass 2) ⟨0, 2, 0, 0, 0, 0, none⟩ (gridPass 4) 7 = [1] := by decide +kernel
def heatState : State :=
  { wState with teams := [{ installTeam 0 with core := 28, packet := { installPacket with pde := 3000 } }]
                dies := wState.dies.modify 0 fun d => { d with temps := ((List.replicate 64 0).set 27 1152).set 28 1136 } }
theorem test_temperature : predicted heatState installPart [27] 5000 27 = 1336 ∧ predicted heatState installPart [27] 5000 28 = 1272 := by
  decide +kernel
/-- 26, a region over three dies. -/
def regionPart : Partition :=
  { installPart with cores := [0, 64, 128, 192], regions := [⟨0x4000000000, 0x1000000, 0xD, 3, 12, 1, List.replicate 12 0⟩] }
theorem test_region : [0, 0x1000, 0x2000, 0x3000, 0x4000, 0x10000].map (fun x => homeOf regionPart (0x4000000000 + x))
    = [some (0, 0), some (2, 0), some (3, 0), some (0, 1), some (2, 1), some (2, 1)] := by decide +kernel
/-- 06, the parity of the loop's line. -/
theorem test_parity : lineParity
    ([0x2080407858, 0x000000040100000020200010, 0x4060600010, 0x7020100112, 0x8050].flatMap (natBytes 12)) = 0x74 := by decide +kernel
/-- The first step after reset with a slot in place runs it (05 R88): VADD.i32 v2, v2, 4. -/
theorem test_firstStep : (match step (State.reset.withFetchWord 96 0x000000040100000020200010) with
    | .next u => u.groups.map fun g => (vreg g 5 2, (laneAt g 5).pc)
    | _ => []) = [(4, 1)] := by decide +kernel

/-! What the host reads, and modules. -/

/-- 23 R370: "KMCT", version 1 and 26 keys; the first entry is core.count, 256. -/
theorem test_cap_header : barRead State.reset 0 0x10000 8 = some [0x4B, 0x4D, 0x43, 0x54, 1, 0, 26, 0]
    ∧ barRead State.reset 0 0x10010 16 = some [1, 0, 0, 0, 0, 1, 0, 0, 0, 1, 0, 0, 0, 0, 0, 0] := by decide +kernel
/-- 25 R372, R373: no function answers for a partition that does not exist; PF0 has no partition registers. -/
theorem test_bar_functions : barRead State.reset 1 0 4 = none ∧ barRead State.reset 0 8 4 = some [0, 0, 0, 0] := by decide +kernel

/-- A line of one slot, a legal target, and a module of that line (23 R365). -/
def modLine (w : SlotBits) : List Byte := withParity (natBytes 12 w.toNat ++ natBytes 48 0 ++ natBytes 4 1)
def modBytes (w : SlotBits) : List Byte :=
  natBytes 4 0x4E4B4255 ++ natBytes 2 1 ++ natBytes 6 0 ++ natBytes 4 64 ++ natBytes 4 64 ++ natBytes 44 0 ++ modLine w
/-- 23 R366: code that ends in EXIT loads as it stands; a branch, or code without an end, is refused. -/
theorem test_module : (loadModule State.reset installPart (modBytes ((encode (.exit b0)).getD 0)) [] []).map (·.code.take 12)
      = some (natBytes 12 ((encode (.exit b0)).getD 0).toNat)
    ∧ loadModule State.reset installPart (modBytes ((encode (.bra b0)).getD 0)) [] [] = none
    ∧ loadModule State.reset installPart (modBytes ((encode (.yield b0)).getD 0)) [] [] = none := by decide +kernel


end Sys2Proof.Tests
end

section
/-! PROOFS. What a read of memory finds after a write and after a range has become undefined, and that a canonical memory is
determined by what it reads (00 R4, log entry 3). -/

namespace Sys2Proof.Machine

/-! ### Reads after writes -/

theorem readBytes_succ (m : Memory) (x n : Nat) : readBytes m x (n + 1) = readByte m x :: readBytes m (x + 1) n := by
  simp [readBytes, List.range_succ_eq_map, Nat.add_assoc, Nat.add_comm 1]

/-- No byte outside those written changes. -/
theorem readByte_writeBytes_outside {m : Memory} (h : m.wf = true) {x y : Nat} {b : List Byte} (hy : y < x ∨ x + b.length ≤ y) :
    readByte (writeBytes m x b) y = readByte m y := by
  induction b generalizing m x with
  | nil => rfl
  | cons v l ih =>
    rw [List.length_cons] at hy
    calc readByte (writeBytes (writeByte m x v) (x + 1) l) y
        = readByte (writeByte m x v) y := ih (wf_writeByte h x v) (by omega)
      _ = readByte m y := by rw [readByte_writeByte h, if_neg (by omega)]

theorem readBytes_writeBytes {m : Memory} (h : m.wf = true) (x : Nat) (b : List Byte) :
    readBytes (writeBytes m x b) x b.length = b := by
  induction b generalizing m x with
  | nil => rfl
  | cons v l ih =>
    have hv := wf_writeByte h x v
    have first : readByte (writeBytes (writeByte m x v) (x + 1) l) x = v := by
      rw [readByte_writeBytes_outside hv (by omega), readByte_writeByte h, if_pos rfl]
    rw [List.length_cons, readBytes_succ, writeBytes, first, ih hv (x + 1)]

/-! ### Ranges that become undefined -/

/-- Cells dropped at other addresses do not show at `y`. -/
theorem cellAt_filter {l : List Host.Cell} {lo y : Nat} (r : risingFrom lo l = true) {p : Host.Cell → Bool}
    (hp : ∀ c : Host.Cell, c.1 = y → p c = true) : cellAt (l.filter p) y = cellAt l y := by
  induction l generalizing lo with
  | nil => rfl
  | cons c l ih =>
    simp only [risingFrom, Bool.and_eq_true, decide_eq_true_eq] at r
    rw [List.filter_cons]
    split
    · simp only [cellAt, ih r.2]
    · rename_i hc
      have hne : c.1 ≠ y := fun e => hc (hp c e)
      rw [ih r.2, cellAt, if_neg hne]
      split
      · exact cellAt_none r.2 (by omega)
      · rfl

theorem readByte_clearRange_outside {m : Memory} (h : m.wf = true) {lo hi y : Nat} (seed : Nat) (hy : y < lo ∨ hi ≤ y) :
    readByte (clearRange m lo hi seed) y = readByte m y := by
  have cells : cellAt (clearRange m lo hi seed).cells y = cellAt m.cells y :=
    cellAt_filter ((wf_iff m).1 h).1 fun c hc => by simpa [hc] using hy
  have undef : undefAt (clearRange m lo hi seed).undef y = undefAt m.undef y := if_neg (by dsimp only; omega)
  simp only [readByte, unlistedByte, cells, undef]

/-! ### Canonical memories that read alike -/

/-- What an address reads as where no range is undefined. -/
def listedByte (l : List Host.Cell) (x : Nat) : Byte := (cellAt l x).getD 0

theorem readByte_of_no_undef {m : Memory} (h : m.undef = []) (x : Nat) : readByte m x = listedByte m.cells x := by
  unfold readByte unlistedByte listedByte
  rw [h]
  cases cellAt m.cells x <;> rfl

theorem listedByte_head (c : Host.Cell) (l : List Host.Cell) : listedByte (c :: l) c.1 = c.2 := by
  simp [listedByte, cellAt]

theorem listedByte_before {l : List Host.Cell} {lo x : Nat} (r : risingFrom lo l = true) (h : x < lo) : listedByte l x = 0 := by
  rw [listedByte, cellAt_none r h]; rfl

theorem listedByte_tail {c : Host.Cell} {l : List Host.Cell} {x : Nat} (h : c.1 < x) : listedByte (c :: l) x = listedByte l x := by
  rw [listedByte, cellAt, if_neg (by omega), if_neg (by omega)]; rfl

/-- Two canonical lists of nonzero cells that read alike begin with the same cell: the one that began earlier would read
nonzero where the other reads 0. -/
theorem head_eq_of_listedByte_eq {c d : Host.Cell} {l k : List Host.Cell} (rl : risingFrom (c.1 + 1) l = true)
    (rk : risingFrom (d.1 + 1) k = true) (hc : c.2 ≠ 0) (hd : d.2 ≠ 0) (same : ∀ x, listedByte (c :: l) x = listedByte (d :: k) x) :
    c = d := by
  have rising {e : Host.Cell} {n : List Host.Cell} (r : risingFrom (e.1 + 1) n = true) : risingFrom e.1 (e :: n) = true := by
    simp [risingFrom, r]
  have haddr : c.1 = d.1 := by
    rcases Nat.lt_trichotomy c.1 d.1 with hlt | heq | hgt
    · exact absurd ((listedByte_head c l).symm.trans ((same c.1).trans (listedByte_before (rising rk) hlt))) hc
    · exact heq
    · exact absurd ((listedByte_head d k).symm.trans ((same d.1).symm.trans (listedByte_before (rising rl) hgt))) hd
  refine Prod.ext haddr ?_
  calc c.2 = listedByte (d :: k) c.1 := (listedByte_head c l).symm.trans (same c.1)
    _ = d.2 := by rw [haddr, listedByte_head]

theorem cells_eq_of_listedByte_eq {l k : List Host.Cell} {lo lo' : Nat} (rl : risingFrom lo l = true) (rk : risingFrom lo' k = true)
    (hl : ∀ c ∈ l, c.2 ≠ 0) (hk : ∀ c ∈ k, c.2 ≠ 0) (same : ∀ x, listedByte l x = listedByte k x) : l = k := by
  induction l generalizing k lo lo' with
  | nil =>
    cases k with
    | nil => rfl
    | cons d k => exact absurd ((same d.1).trans (listedByte_head d k)).symm (hk d List.mem_cons_self)
  | cons c l ih =>
    cases k with
    | nil => exact absurd ((same c.1).symm.trans (listedByte_head c l)).symm (hl c List.mem_cons_self)
    | cons d k =>
      simp only [risingFrom, Bool.and_eq_true, decide_eq_true_eq] at rl rk
      obtain rfl : c = d := head_eq_of_listedByte_eq rl.2 rk.2 (hl c List.mem_cons_self) (hk d List.mem_cons_self) same
      have tails (x : Nat) : listedByte l x = listedByte k x := by
        by_cases hx : c.1 < x
        · rw [← listedByte_tail hx, same x, listedByte_tail hx]
        · rw [listedByte_before rl.2 (by omega), listedByte_before rk.2 (by omega)]
      rw [ih rl.2 rk.2 (fun e he => hl e (List.mem_cons_of_mem _ he)) (fun e he => hk e (List.mem_cons_of_mem _ he)) tails]

/-- A canonical memory without undefined ranges lists nonzero bytes alone. -/
theorem cells_ne_zero {m : Memory} (h : m.wf = true) (hu : m.undef = []) : ∀ c ∈ m.cells, c.2 ≠ 0 := by
  intro c hc
  have := ((wf_iff m).1 h).2 c hc
  simpa [hu, undefAt] using this

theorem eq_of_readByte_eq {m n : Memory} (hm : m.wf = true) (hn : n.wf = true) (um : m.undef = []) (un : n.undef = [])
    (same : ∀ x, readByte m x = readByte n x) : m = n := by
  have hcells : m.cells = n.cells :=
    cells_eq_of_listedByte_eq ((wf_iff m).1 hm).1 ((wf_iff n).1 hn).1 (cells_ne_zero hm um) (cells_ne_zero hn un) fun x => by
      rw [← readByte_of_no_undef um, ← readByte_of_no_undef un, same]
  cases m
  cases n
  rw [Memory.mk.injEq]
  exact ⟨hcells, um.trans un.symm⟩

/-- Settles O6: reads after `writeBytes` and `clearRange` by the rules above; extensionality since the lists of cells of two
canonical memories agree cell by cell. -/
theorem memoryReadsBack : Obligations.MemoryReadsBack :=
  ⟨fun _ x b h => ⟨wf_writeBytes h x b, readBytes_writeBytes h x b, fun _ hy => readByte_writeBytes_outside h hy⟩,
    fun _ lo hi seed h => ⟨wf_clearRange h lo hi seed, fun _ hy => readByte_clearRange_outside h seed hy⟩,
    fun _ _ hm hn um un same => eq_of_readByte_eq hm hn um un same⟩

end Sys2Proof.Machine
end

section
/-! PROOFS. Partitions by number, event records, and the registers of a partition as the host writes them (19 R292, R293, R295,
R320; 21 R336; 25 R374, R385, R387 to R389). -/

namespace Sys2Proof.Machine

/-! ### Partitions by number -/

theorem findPart_idx {s : State} {n : Nat} {p : Partition} (h : findPart s n = some p) : p.idx = n := by
  simpa using List.find?_some h

theorem findPart_modPart {s : State} {n : Nat} {f : Partition → Partition} (hf : ∀ p, (f p).idx = p.idx) :
    findPart (modPart s n f) n = (findPart s n).map f := by
  unfold findPart modPart
  rw [find_map_same (fun p : Partition => p.idx == n) (fun p => if p.idx == n then f p else p)
    (fun p => by by_cases h : p.idx = n <;> simp [h, hf])]
  cases h : s.parts.find? (·.idx == n) with
  | none => rfl
  | some p => simp [show p.idx = n from findPart_idx h]

theorem findPart_putPart {s : State} {p q : Partition} (h : findPart s q.idx = some p) : findPart (putPart s q) q.idx = some q := by
  unfold findPart putPart
  rw [find_map_same (fun r : Partition => r.idx == q.idx) (fun r => if r.idx == q.idx then q else r)
    (fun r => by by_cases hr : r.idx = q.idx <;> simp [hr])]
  rw [show s.parts.find? (fun r => r.idx == q.idx) = some p from h]
  simp [findPart_idx h]

/-! ### Event records -/

/-- What an update keeps of every die, it keeps of the one it is applied to. -/
theorem dieAt_modDie_keeps {α : Type} (P : Die → α) {f : Die → Die} (hf : ∀ d, P (f d) = P d) (s : State) (n : Nat) :
    P (dieAt (modDie s n f) n) = P (dieAt s n) := by
  simp only [dieAt, modDie, List.getD_eq_getElem?_getD, List.getElem?_modify]
  cases s.dies[n]? <;> simp [hf]

/-- A record changes the dies and the functions alone. -/
theorem record_eq (s : State) (die unit code : Nat) (part : Option Nat) (dbl : Bool) (payload : List DWord) :
    ∃ ds fs, record s die unit code part dbl payload = { s with dies := ds, funcs := fs } := by
  unfold record numbered routeRecord spillRecord
  dsimp only
  split
  · exact ⟨_, _, rfl⟩
  · split
    · exact ⟨_, _, rfl⟩
    · split <;> exact ⟨_, _, rfl⟩

theorem record_parts (s : State) (die unit code : Nat) (part : Option Nat) (dbl : Bool) (payload : List DWord) :
    (record s die unit code part dbl payload).parts = s.parts := by
  obtain ⟨ds, fs, h⟩ := record_eq s die unit code part dbl payload
  rw [h]

theorem eventQueue_push {s : State} {fn : Nat} (h : fn < s.funcs.length) (r : EvRec) :
    eventQueue (modFunc s fn fun f => { f with queue := f.queue ++ [r] }) fn = eventQueue s fn ++ [r] := by
  simp [eventQueue, modFunc, List.getD_eq_getElem?_getD, h]

/-- A record whose function and die have room for it goes to the function's queue. -/
theorem record_of_room {s : State} {die unit : Nat} {part : Option Nat} (h : RoomFor s die unit (fnOfPart part)) (code : Nat)
    (payload : List DWord) :
    record s die unit code part false payload
      = modFunc (modDie s die fun d => setSeq d unit (seqOf (dieAt s die) unit + 1)) (fnOfPart part)
          fun f => { f with queue := f.queue ++ [⟨die, unit, code, seqOf (dieAt s die) unit, part, false, payload⟩] } := by
  obtain ⟨-, hroom, hspill, hkept, hlost⟩ := h
  let u := modDie s die fun d => setSeq d unit (seqOf (dieAt s die) unit + 1)
  have keeps {α : Type} (P : Die → α) (hP : ∀ d x, P (setSeq d unit x) = P d) : P (dieAt u die) = P (dieAt s die) :=
    dieAt_modDie_keeps P (fun d => hP d _) s die
  have free : ((dieAt u die).spill.any (·.1 == fnOfPart part) || (dieAt u die).kept.any (·.1 == fnOfPart part)
      || (dieAt u die).lost.any (·.unit == unit)) = false := by
    rw [keeps (·.spill) fun _ _ => rfl, keeps (·.kept) fun _ _ => rfl, keeps (·.lost) fun _ _ => rfl, hspill, hkept, hlost]
    rfl
  exact if_pos (Bool.and_eq_true_iff.2 ⟨decide_eq_true hroom, by rw [Bool.not_eq_true']; exact free⟩)

/-- A record is told of, whatever was done before it that left the dies and the functions alone. -/
theorem told_record {s s' : State} (hd : s'.dies = s.dies) (hf : s'.funcs = s.funcs) (die unit code : Nat) (part : Option Nat)
    (payload : List DWord) : Told s (record s' die unit code part false payload) die unit code part payload := by
  intro h
  have hdie : dieAt s' die = dieAt s die := by unfold dieAt; rw [hd]
  have hqueue : eventQueue s' = eventQueue s := by unfold eventQueue; rw [hf]
  have h' : RoomFor s' die unit (fnOfPart part) := by rw [RoomFor, hdie, hqueue, hf]; exact h
  rw [record_of_room h', eventQueue_push (by exact h'.1), hdie, ← hqueue]
  rfl

/-! ### Host queues (19 R293) -/

/-- A queue as it is stored: one that is empty has lost no draws. -/
def storedQueue (q : HQueue) : HQueue := { q with lost := if q.head = q.tail then 0 else q.lost }

theorem putQueue_eq (s : State) (part n : Nat) (q : HQueue) :
    putQueue s part n q = modPart s part fun p => { p with queues := p.queues.set n (storedQueue q) } := by
  simp only [putQueue, storedQueue, beq_iff_eq]

theorem findPart_putQueue {s : State} {p : Partition} (h : findPart s p.idx = some p) (n : Nat) (q : HQueue) :
    findPart (putQueue s p.idx n q) p.idx = some { p with queues := p.queues.set n (storedQueue q) } := by
  rw [putQueue_eq, findPart_modPart, h]
  · rfl
  · exact fun _ => rfl

/-- The partition holds a queue at a place. -/
def HoldsQueue (u : State) (part n : Nat) (r : HQueue) : Prop := ∃ p, findPart u part = some p ∧ p.queues[n]? = some r

theorem holdsQueue_putQueue {s : State} {p : Partition} (h : findPart s p.idx = some p) {n : Nat} {q : HQueue}
    (hq : p.queues[n]? = some q) (q' : HQueue) : HoldsQueue (putQueue s p.idx n q') p.idx n (storedQueue q') := by
  obtain ⟨hn, -⟩ := List.getElem?_eq_some_iff.1 hq
  exact ⟨_, findPart_putQueue h n q', by simp [hn]⟩

/-- A fault of a queue is told by a record of code 0x407, and the queue stands as it was stored. -/
theorem queueFault_putQueue {s : State} {p : Partition} (h : findPart s p.idx = some p) {n : Nat} {q : HQueue}
    (hq : p.queues[n]? = some q) (q' : HQueue) :
    Told s (queueFault (putQueue s p.idx n q') p n) (launchDie p) unitLaunch 0x407 (some p.idx) [BitVec.ofNat 64 n]
      ∧ HoldsQueue (queueFault (putQueue s p.idx n q') p n) p.idx n (storedQueue q') := by
  refine ⟨told_record (s' := putQueue s p.idx n q') rfl rfl _ _ _ _ _, ?_⟩
  obtain ⟨p', hp, hr⟩ := holdsQueue_putQueue h hq q'
  refine ⟨p', ?_, hr⟩
  unfold findPart queueFault launchRecord
  rw [record_parts]
  exact hp

theorem queueEnabled_disable {q : HQueue} {x : DWord} (h : q.ctl = disable x) : queueEnabled q = false := by
  simp [queueEnabled, h, disable, enableBit]

/-- A doorbell past the ring of an enabled queue disables it (19 R293). -/
theorem exec_queueDoorbell_past {s : State} {p : Partition} (h : HostReaches s p.idx p) {n : Nat} {q : HQueue}
    (hq : p.queues[n]? = some q) {x : Word} (on : queueEnabled q = true) (past : 2 ^ queueLog q < (x - q.head).toNat) :
    exec (.queueDoorbell p.idx n x) s
      = .next (queueFault (putQueue s p.idx n { q with tail := x, ctl := disable q.ctl }) p n) := by
  show Host.Outcome.next (queueDoorbell s p.idx n x) = _
  rw [queueDoorbell, hostWrite_reaches h, hq]
  exact congrArg _ (if_pos (Bool.and_eq_true_iff.2 ⟨on, decide_eq_true past⟩))

theorem exec_queueDoorbell_fits {s : State} {p : Partition} (h : HostReaches s p.idx p) {n : Nat} {q : HQueue}
    (hq : p.queues[n]? = some q) {x : Word} (fits : queueEnabled q = false ∨ (x - q.head).toNat ≤ 2 ^ queueLog q) :
    exec (.queueDoorbell p.idx n x) s = .next (putQueue s p.idx n { q with tail := x }) := by
  show Host.Outcome.next (queueDoorbell s p.idx n x) = _
  rw [queueDoorbell, hostWrite_reaches h, hq]
  refine congrArg _ (if_neg fun hx => ?_)
  obtain ⟨on, past⟩ := Bool.and_eq_true_iff.1 hx
  exact fits.elim (fun off => Bool.false_ne_true (off.symm.trans on)) (Nat.not_le.2 (of_decide_eq_true past))

/-- When a control value is refused (19 R293): it would leave the queue enabled with a length, a reserved bit or indices that it may
not have, or it changes the length of an enabled queue. -/
def ControlRefused (q : HQueue) (x : DWord) : Prop :=
  (x.getLsbD 16 = true ∧ (x.toNat / 256 % 32 < 1 ∨ 16 < x.toNat / 256 % 32 ∨ x &&& ~~~0x11FFF ≠ 0
      ∨ 2 ^ (x.toNat / 256 % 32) < (q.tail - q.head).toNat))
    ∨ (queueEnabled q = true ∧ x.toNat / 256 % 32 ≠ queueLog q)

theorem controlRefused_iff (q : HQueue) (x : DWord) :
    (controlIllegal { q with ctl := x } || (queueEnabled q && queueLog { q with ctl := x } != queueLog q)) = true
      ↔ ControlRefused q x := by
  simp only [controlIllegal, overfull, Bool.or_eq_true, Bool.and_eq_true, decide_eq_true_eq, bne_iff_ne, or_assoc]
  rfl

theorem disable_control (x : DWord) : disable (x &&& 0x11FFF) = x &&& 0x1FFF := by
  rw [disable, enableBit, BitVec.and_assoc]
  rfl

theorem exec_queueControlWrite_refused {s : State} {p : Partition} (h : HostReaches s p.idx p) {n : Nat} {q : HQueue}
    (hq : p.queues[n]? = some q) {x : DWord} (bad : ControlRefused q x) :
    exec (.queueControlWrite p.idx n x) s = .next (queueFault (putQueue s p.idx n { q with ctl := x &&& 0x1FFF }) p n) := by
  show Host.Outcome.next (queueControl s p.idx n x) = _
  rw [queueControl, hostWrite_reaches h, hq, ← disable_control]
  exact congrArg _ (if_pos ((controlRefused_iff q x).2 bad))

theorem exec_queueControlWrite_taken {s : State} {p : Partition} (h : HostReaches s p.idx p) {n : Nat} {q : HQueue}
    (hq : p.queues[n]? = some q) {x : DWord} (good : ¬ ControlRefused q x) :
    exec (.queueControlWrite p.idx n x) s = .next (putQueue s p.idx n { q with ctl := x &&& 0x11FFF }) := by
  show Host.Outcome.next (queueControl s p.idx n x) = _
  rw [queueControl, hostWrite_reaches h, hq]
  exact congrArg _ (if_neg fun bad => good ((controlRefused_iff q x).1 bad))

theorem exec_queueBaseWrite_moved {s : State} {p : Partition} (h : HostReaches s p.idx p) {n : Nat} {q : HQueue}
    (hq : p.queues[n]? = some q) {x : DWord} (on : queueEnabled q = true) (moved : x &&& ~~~0x7F ≠ q.base) :
    exec (.queueBaseWrite p.idx n x) s
      = .next (queueFault (putQueue s p.idx n { q with base := x &&& ~~~0x7F, ctl := disable q.ctl }) p n) := by
  show Host.Outcome.next (queueBase s p.idx n x) = _
  rw [queueBase, hostWrite_reaches h, hq]
  exact congrArg _ (if_pos (Bool.and_eq_true_iff.2 ⟨on, bne_iff_ne.2 moved⟩))

theorem exec_queueBaseWrite_kept {s : State} {p : Partition} (h : HostReaches s p.idx p) {n : Nat} {q : HQueue}
    (hq : p.queues[n]? = some q) {x : DWord} (kept : queueEnabled q = false ∨ x &&& ~~~0x7F = q.base) :
    exec (.queueBaseWrite p.idx n x) s = .next (putQueue s p.idx n { q with base := x &&& ~~~0x7F }) := by
  show Host.Outcome.next (queueBase s p.idx n x) = _
  rw [queueBase, hostWrite_reaches h, hq]
  refine congrArg _ (if_neg fun hx => ?_)
  obtain ⟨on, moved⟩ := Bool.and_eq_true_iff.1 hx
  exact kept.elim (fun off => Bool.false_ne_true (off.symm.trans on)) (bne_iff_ne.1 moved)

/-! ### Other registers (19 R295, R320; 25 R374, R385) -/

theorem hostWrite_putPart {s : State} {p q : Partition} (h : HostReaches s p.idx p) (hq : q.idx = p.idx) :
    findPart (putPart s q) p.idx = some q := by
  rw [← hq] at h ⊢
  exact findPart_putPart h.1

theorem low_zeroExtend (x : Word) : (x.zeroExtend 64).extractLsb' 0 32 = x := by
  ext i hi
  simp [hi, Nat.lt_trans hi (show 32 < 64 by decide)]

theorem exec_prngseedWrite {s : State} {p : Partition} (h : HostReaches s p.idx p) (x : Word) :
    exec (.prngseedWrite p.idx x) s
      = .next (putPart s { p with csrs := { p.csrs with prngSeed := x, prngState := if x = 0 then 1 else x } }) := by
  show Host.Outcome.next (hostWrite s p.idx _) = _
  rw [hostWrite_reaches h]
  simp only [writePartCsr, nonZero, low_zeroExtend]

theorem exec_prngstateWrite {s : State} {p : Partition} (h : HostReaches s p.idx p) (x : Word) :
    exec (.prngstateWrite p.idx x) s = .next (putPart s { p with csrs := { p.csrs with prngState := if x = 0 then 1 else x } }) := by
  show Host.Outcome.next (hostWrite s p.idx _) = _
  rw [hostWrite_reaches h]
  simp only [writePartCsr, nonZero, low_zeroExtend]

theorem exec_privpoolWrite_base {s : State} {p : Partition} (h : HostReaches s p.idx p) (unused : p.privAllocs = []) (x : DWord) :
    exec (.privpoolWrite p.idx .base x) s = .next (putPart s { p with privPool := x &&& 0x01FFFFFFFFFF0000 }) := by
  show Host.Outcome.next (hostWrite s p.idx _) = _
  rw [hostWrite_reaches h]
  exact congrArg _ (if_neg (by simp [unused]))

theorem exec_privpoolWrite_size {s : State} {p : Partition} (h : HostReaches s p.idx p) (unused : p.privAllocs = []) (x : DWord) :
    exec (.privpoolWrite p.idx .size x) s = .next (putPart s { p with privSize := x &&& 0x0000FFFFFFFF0000 }) := by
  show Host.Outcome.next (hostWrite s p.idx _) = _
  rw [hostWrite_reaches h]
  exact congrArg _ (if_neg (by simp [unused]))

theorem exec_privpoolWrite_used {s : State} {p : Partition} (h : HostReaches s p.idx p) (used : p.privAllocs ≠ [])
    (reg : PoolReg) (x : DWord) : exec (.privpoolWrite p.idx reg x) s = .next (mgmtRecord s 0x409 (p.idx + 1) []) := by
  show Host.Outcome.next (hostWrite s p.idx _) = _
  rw [hostWrite_reaches h, if_pos (by simpa using used)]

theorem exec_regionTableWrite_idle {s : State} {p : Partition} (h : HostReaches s p.idx p) (idle : residentTeam s p.idx = false)
    (n : Nat) (b : List Byte) :
    exec (.regionTableWrite p.idx n b) s = .next (putPart s { p with regions := p.regions.set n (parseRegion b) }) := by
  show Host.Outcome.next (hostWrite s p.idx _) = _
  rw [hostWrite_reaches h, if_neg (by simp [idle])]

theorem exec_regionTableWrite_resident {s : State} {p : Partition} (h : HostReaches s p.idx p)
    (resident : residentTeam s p.idx = true) (n : Nat) (b : List Byte) :
    exec (.regionTableWrite p.idx n b) s = .next (mgmtRecord s 0x408 (p.idx + 1) []) := by
  show Host.Outcome.next (hostWrite s p.idx _) = _
  rw [hostWrite_reaches h, if_pos resident]

theorem exec_registerWrite {s : State} {p : Partition} (h : HostReaches s p.idx p) (reg : HostReg) (x : DWord) :
    exec (.registerWrite p.idx reg x) s = .next (putPart s (writeHostReg p reg x)) := by
  show Host.Outcome.next (hostWrite s p.idx _) = _
  rw [hostWrite_reaches h]

theorem writeHostReg_idx (p : Partition) (reg : HostReg) (x : DWord) : (writeHostReg p reg x).idx = p.idx := by
  cases reg <;> rfl

/-- A refusal of the management processor changes no partition and is told by its record. -/
theorem mgmtRecord_told (s : State) (code part : Nat) :
    (mgmtRecord s code (part + 1) []).parts = s.parts ∧ Told s (mgmtRecord s code (part + 1) []) 0 unitMgmt code (some part) [] :=
  ⟨record_parts _ _ _ _ _ _ _, told_record rfl rfl _ _ _ _ _⟩

/-- Registers that store as the list says answer a write so, and nothing but the partition changes. -/
theorem registerWrite_stores {s : State} {p : Partition} (h : HostReaches s p.idx p) (x : DWord) {l : List (HostReg × Partition)}
    (stores : ∀ a ∈ l, writeHostReg p a.1 x = a.2) :
    ∀ a ∈ l, Does (.registerWrite p.idx a.1 x) s fun u => findPart u p.idx = some a.2 ∧ u.groups = s.groups ∧ SameMemory s u := by
  intro a ha
  rw [← stores a ha]
  exact ⟨_, exec_registerWrite h a.1 x, hostWrite_putPart h (writeHostReg_idx p a.1 x), rfl, rfl, rfl, rfl, rfl, rfl⟩

/-- Settles O56, register by register: a write either faults, told by its record, or is stored. -/
theorem hostRegisters : Obligations.HostRegisters := by
  intro s p h
  refine ⟨fun n q x hq => ⟨fun on past => ?doorbellPast, fun fits => ?doorbell⟩,
    fun n q x hq => ⟨fun bad => ?controlRefused, fun good => ?control⟩,
    fun n q x hq => ⟨fun on moved => ?baseMoved, fun kept => ?base⟩,
    fun x => ⟨_, exec_prngseedWrite h x, rfl, hostWrite_putPart h rfl⟩,
    fun x => ⟨_, exec_prngstateWrite h x, rfl, hostWrite_putPart h rfl⟩,
    fun x unused => ⟨⟨_, exec_privpoolWrite_base h unused x, hostWrite_putPart h rfl⟩,
      ⟨_, exec_privpoolWrite_size h unused x, hostWrite_putPart h rfl⟩⟩,
    fun x reg used => ⟨_, exec_privpoolWrite_used h used reg x, mgmtRecord_told s 0x409 p.idx⟩,
    fun n b => ⟨fun idle => ⟨_, exec_regionTableWrite_idle h idle n b, hostWrite_putPart h rfl⟩,
      fun resident => ⟨_, exec_regionTableWrite_resident h resident n b, mgmtRecord_told s 0x408 p.idx⟩⟩,
    fun x => registerWrite_stores h x ?registers⟩
  case doorbellPast =>
    obtain ⟨told, p', hp, hr⟩ := queueFault_putQueue h.1 hq { q with tail := x, ctl := disable q.ctl }
    exact ⟨_, exec_queueDoorbell_past h hq on past, told, p', _, hp, hr, rfl, rfl⟩
  case doorbell =>
    exact ⟨_, exec_queueDoorbell_fits h hq fits, ⟨rfl, rfl, rfl, rfl, rfl⟩, rfl, findPart_putQueue h.1 n _⟩
  case controlRefused =>
    obtain ⟨told, p', hp, hr⟩ := queueFault_putQueue h.1 hq { q with ctl := x &&& 0x1FFF }
    exact ⟨_, exec_queueControlWrite_refused h hq bad, told, p', _, hp, hr, rfl, rfl⟩
  case control =>
    obtain ⟨p', hp, hr⟩ := holdsQueue_putQueue h.1 hq { q with ctl := x &&& 0x11FFF }
    exact ⟨_, exec_queueControlWrite_taken h hq good, ⟨rfl, rfl, rfl, rfl, rfl⟩, rfl, p', _, hp, hr, rfl, rfl, rfl⟩
  case baseMoved =>
    obtain ⟨told, p', hp, hr⟩ := queueFault_putQueue h.1 hq { q with base := x &&& ~~~0x7F, ctl := disable q.ctl }
    exact ⟨_, exec_queueBaseWrite_moved h hq on moved, told, p', _, hp, hr, rfl, queueEnabled_disable rfl⟩
  case base =>
    obtain ⟨p', hp, hr⟩ := holdsQueue_putQueue h.1 hq { q with base := x &&& ~~~0x7F }
    exact ⟨_, exec_queueBaseWrite_kept h hq kept, rfl, p', _, hp, hr, rfl, rfl⟩
  case registers =>
    simp only [List.map_cons, List.map_nil, List.cons_append, List.nil_append, List.forall_mem_cons]
    exact ⟨rfl, rfl, rfl, rfl, rfl, rfl, rfl, rfl, rfl, rfl, rfl, rfl, rfl, rfl, rfl, rfl, rfl, rfl, rfl, rfl, rfl, rfl,
      fun _ ha => absurd ha List.not_mem_nil⟩

end Sys2Proof.Machine
end

section
/-! PROOFS. A step that moves the trap vector of a group without privilege (11 R197, 23 R353, R354). -/

namespace Sys2Proof.Machine

/-- A micro-store: a MIGRATE, then a CSRW of s0 to TVEC. 23 R354 bars both from substitutions, so no check of a patch image lets
them through; but `UniqueIds`, the premise of O7's last clause, says nothing of the micro-store. -/
def migrateThenTvec : List (SlotBits × Word) :=
  [((encode (.migrate ⟨0, 0, 0, 0, false, false, 0⟩)).getD 0, 0), ((encode (.csrw ⟨0x100, 0, 0, false, 0⟩)).getD 0, 0)]

/-- A REWRITE of every NOP by that micro-store. -/
def rewriteNop : PatchSlot := { PatchSlot.empty with kind := 1, action := 1, arg := 2 }

/-- A group without privilege, its handler at 0x40, about to issue a NOP that its die rewrites so. The MIGRATE is illegal in
its kernel and, as it ends the run whatever issues it, enters the handler in the midst of the substitution; its lanes, privileged
from there on, go on to the CSRW. -/
def nopRewritten : State :=
  let s := installWord State.reset 0
  { s with
    dies := s.dies.modify 0 fun d => { d with bezel := { d.bezel with slots := [rewriteNop], micro := migrateThenTvec } }
    groups := s.groups.map fun g => { g with trap := { g.trap with tvec := 0x40 } } }

/-- The trap vectors of the groups that a step leaves, by number. -/
def trapVectorsAfter (r : Result) : List (Nat × Word) :=
  match r with
  | .next t => t.groups.map fun g => (g.id, g.trap.tvec)
  | _ => []

theorem mem_trapVectorsAfter {r : Result} {n : Nat} {v : Word} (h : (n, v) ∈ trapVectorsAfter r) :
    ∃ t, r = .next t ∧ ∃ g ∈ t.groups, g.id = n ∧ g.trap.tvec = v := by
  cases r with
  | next t =>
    obtain ⟨g, hg, he⟩ := List.mem_map.1 h
    exact ⟨t, rfl, g, hg, congrArg Prod.fst he, congrArg Prod.snd he⟩
  | fault => cases h
  | refused => cases h

theorem nopRewritten_uniqueIds : UniqueIds nopRewritten := by decide +kernel

theorem nopRewritten_group : ∃ g ∈ nopRewritten.groups, anyPrivileged g (allLanes g.w) = false ∧ g.id = 1 ∧ g.trap.tvec = 0x40 := by
  decide +kernel

theorem nopRewritten_step : trapVectorsAfter (step nopRewritten) = [(1, 0)] := by decide +kernel

/-- Refutes O7: the step of `nopRewritten` changes the trap vector of its one group, which has no privileged lane, from 0x40
to 0. -/
theorem not_memoryStaysCanonical : ¬ Obligations.MemoryStaysCanonical := by
  rintro ⟨-, -, keepsVectors⟩
  obtain ⟨g, hg, hpriv, hid, htvec⟩ := nopRewritten_group
  obtain ⟨t, ht, g', hg', hid', htvec'⟩ := mem_trapVectorsAfter (nopRewritten_step ▸ List.mem_singleton_self _)
  have same := (keepsVectors _ t nopRewritten_uniqueIds ht).1 g hg hpriv g' hg' (hid'.trans hid.symm)
  rw [htvec, htvec'] at same
  exact absurd same (by decide)

end Sys2Proof.Machine
end

section
/-! PROOFS. Decoding and encoding: each reads back what the other writes (05 R83 to R93, R100, R103). -/

namespace Sys2Proof

/-! ### Codes of the enumerated fields -/

@[simp] theorem tyOfCode_codeOfTy (t : Ty) : tyOfCode (codeOfTy t) = t := by cases t <;> rfl
@[simp] theorem codeOfTy_tyOfCode (c : BitVec 4) : codeOfTy (tyOfCode c) = c := by revert c; decide
@[simp] theorem rmOfCode_codeOfRm (m : Rm) : rmOfCode (codeOfRm m) = m := by cases m <;> rfl
@[simp] theorem codeOfRm_rmOfCode (c : BitVec 2) : codeOfRm (rmOfCode c) = c := by revert c; decide
@[simp] theorem amOfCode_codeOfAm (m : Am) : amOfCode (codeOfAm m) = m := by cases m <;> rfl
@[simp] theorem codeOfAm_amOfCode (c : BitVec 2) : codeOfAm (amOfCode c) = c := by revert c; decide
@[simp] theorem kindOfCode_codeOfKind (k : Kind) : kindOfCode (codeOfKind k) = k := by cases k <;> rfl
@[simp] theorem codeOfKind_kindOfCode (c : BitVec 2) : codeOfKind (kindOfCode c) = c := by revert c; decide
@[simp] theorem ordOfCode_codeOfOrd (o : Ord4) : ordOfCode (codeOfOrd o) = o := by cases o <;> rfl
@[simp] theorem codeOfOrd_ordOfCode (c : BitVec 2) : codeOfOrd (ordOfCode c) = c := by revert c; decide

theorem oneBit_eq_one (b : Bool) : (oneBit b == 1) = b := by cases b <;> rfl

theorem oneBit_slotBit (w : SlotBits) (k : Nat) : oneBit (slotBit w k) = w.extractLsb' k 1 := by
  unfold slotBit
  generalize w.extractLsb' k 1 = c
  revert c
  decide

@[simp] theorem condOfCode_codeOfCond (k : Cond) : condOfCode (codeOfCond k).toNat = some k := by cases k <;> rfl
@[simp] theorem fcondOfCode_codeOfFCond (k : FCond) : fcondOfCode (codeOfFCond k).toNat = some k := by cases k <;> rfl
@[simp] theorem atomOpOfCode_codeOfAtomOp (k : AtomOp) : atomOpOfCode (codeOfAtomOp k).toNat = some k := by cases k <;> rfl
@[simp] theorem redOpOfCode_codeOfRedOp (k : RedOp) : redOpOfCode (codeOfRedOp k).toNat = some k := by cases k <;> rfl

theorem codeOfAtomOp_ne_clasp (k : AtomOp) : (codeOfAtomOp k).toNat ≠ 10 := by cases k <;> decide

theorem codeOfCond_of_condOfCode {n : Nat} {k : Cond} : condOfCode n = some k → codeOfCond k = BitVec.ofNat 4 n := by
  fun_cases condOfCode n <;> rintro ⟨⟩ <;> rfl
theorem codeOfFCond_of_fcondOfCode {n : Nat} {k : FCond} : fcondOfCode n = some k → codeOfFCond k = BitVec.ofNat 4 n := by
  fun_cases fcondOfCode n <;> rintro ⟨⟩ <;> rfl
theorem codeOfAtomOp_of_atomOpOfCode {n : Nat} {k : AtomOp} : atomOpOfCode n = some k → codeOfAtomOp k = BitVec.ofNat 4 n := by
  fun_cases atomOpOfCode n <;> rintro ⟨⟩ <;> rfl
theorem codeOfRedOp_of_redOpOfCode {n : Nat} {k : RedOp} : redOpOfCode n = some k → codeOfRedOp k = BitVec.ofNat 4 n := by
  fun_cases redOpOfCode n <;> rintro ⟨⟩ <;> rfl

/-! ### What a word of a format holds -/

section
open BitVec
variable (op : BitVec 7) (fn : BitVec 4)

theorem majorOf_wordV (f : VF) : majorOf (wordV op fn f) = op.toNat := congrArg BitVec.toNat extractLsb'_append_eq_right
theorem majorOf_wordM (f : MF) : majorOf (wordM op fn f) = op.toNat := congrArg BitVec.toNat extractLsb'_append_eq_right
theorem majorOf_wordB (f : BF) : majorOf (wordB op fn f) = op.toNat := congrArg BitVec.toNat extractLsb'_append_eq_right
theorem majorOf_wordX (f : XF) : majorOf (wordX op fn f) = op.toNat := congrArg BitVec.toNat extractLsb'_append_eq_right
theorem majorOf_wordC (f : CF) : majorOf (wordC op fn f) = op.toNat := congrArg BitVec.toNat extractLsb'_append_eq_right

theorem fnOf_append {n : Nat} (x : BitVec n) : ((x ++ fn ++ op).extractLsb' 7 4) = fn :=
  (extractLsb'_append_eq_of_le (Nat.le_refl 7)).trans extractLsb'_append_eq_right

theorem fnOf_wordV (f : VF) : fnOf (wordV op fn f) = fn.toNat := congrArg BitVec.toNat (fnOf_append op fn _)
theorem fnOf_wordM (f : MF) : fnOf (wordM op fn f) = fn.toNat := congrArg BitVec.toNat (fnOf_append op fn _)
theorem fnOf_wordB (f : BF) : fnOf (wordB op fn f) = fn.toNat := congrArg BitVec.toNat (fnOf_append op fn _)
theorem fnOf_wordX (f : XF) : fnOf (wordX op fn f) = fn.toNat := congrArg BitVec.toNat (fnOf_append op fn _)
theorem fnOf_wordC (f : CF) : fnOf (wordC op fn f) = fn.toNat := congrArg BitVec.toNat (fnOf_append op fn _)

theorem fieldsV_wordV (f : VF) : fieldsV (wordV op fn f) = f := by
  simp (disch := decide) only [fieldsV, wordV, slotBit, extractLsb'_append_eq_of_le, extractLsb'_append_eq_of_add_le, Nat.reduceSub,
    extractLsb'_eq_self, oneBit_eq_one, rmOfCode_codeOfRm, amOfCode_codeOfAm, kindOfCode_codeOfKind, tyOfCode_codeOfTy]

theorem fieldsM_wordM (f : MF) : fieldsM (wordM op fn f) = f := by
  simp (disch := decide) only [fieldsM, wordM, slotBit, extractLsb'_append_eq_of_le, extractLsb'_append_eq_of_add_le, Nat.reduceSub,
    extractLsb'_eq_self, oneBit_eq_one, ordOfCode_codeOfOrd, tyOfCode_codeOfTy]

theorem fieldsB_wordB (f : BF) : fieldsB (wordB op fn f) = f := by
  simp (disch := decide) only [fieldsB, wordB, slotBit, extractLsb'_append_eq_of_le, extractLsb'_append_eq_of_add_le, Nat.reduceSub,
    extractLsb'_eq_self, oneBit_eq_one]

theorem fieldsX_wordX (f : XF) : fieldsX (wordX op fn f) = f := by
  simp (disch := decide) only [fieldsX, wordX, slotBit, extractLsb'_append_eq_of_le, extractLsb'_append_eq_of_add_le, Nat.reduceSub,
    extractLsb'_eq_self, oneBit_eq_one, tyOfCode_codeOfTy]

theorem fieldsC_wordC (f : CF) : fieldsC (wordC op fn f) = f := by
  simp (disch := decide) only [fieldsC, wordC, slotBit, extractLsb'_append_eq_of_le, extractLsb'_append_eq_of_add_le, Nat.reduceSub,
    extractLsb'_eq_self, oneBit_eq_one]

theorem reservedZero_wordM (f : MF) : reservedZero .m (wordM op fn f) = true := by
  simp (disch := decide) only [reservedZero, wordM, extractLsb'_append_eq_of_le, extractLsb'_append_eq_of_add_le, Nat.reduceSub,
    extractLsb'_eq_self, BEq.rfl]

theorem reservedZero_wordB (f : BF) : reservedZero .b (wordB op fn f) = true := by
  simp (disch := decide) only [reservedZero, wordB, extractLsb'_append_eq_of_le, extractLsb'_append_eq_of_add_le, Nat.reduceSub,
    extractLsb'_eq_self, BEq.rfl, Bool.and_self]

theorem reservedZero_wordX (f : XF) : reservedZero .x (wordX op fn f) = true := by
  simp (disch := decide) only [reservedZero, wordX, extractLsb'_append_eq_of_le, extractLsb'_append_eq_of_add_le, Nat.reduceSub,
    extractLsb'_eq_self, BEq.rfl, Bool.and_self]

theorem reservedZero_wordC (f : CF) : reservedZero .c (wordC op fn f) = true := by
  simp (disch := decide) only [reservedZero, wordC, extractLsb'_append_eq_of_le, extractLsb'_append_eq_of_add_le, Nat.reduceSub,
    extractLsb'_eq_self, BEq.rfl, Bool.and_self]

end

/-! ### The word of a slot's own fields -/

/-- The slot of a format with a major, an FN and the fields of a slot. -/
def rewritten (fm : Format) (major fn : Nat) (w : SlotBits) : SlotBits :=
  match fm with
  | .v => wordV (BitVec.ofNat 7 major) (BitVec.ofNat 4 fn) (fieldsV w)
  | .m => wordM (BitVec.ofNat 7 major) (BitVec.ofNat 4 fn) (fieldsM w)
  | .b => wordB (BitVec.ofNat 7 major) (BitVec.ofNat 4 fn) (fieldsB w)
  | .x => wordX (BitVec.ofNat 7 major) (BitVec.ofNat 4 fn) (fieldsX w)
  | .c => wordC (BitVec.ofNat 7 major) (BitVec.ofNat 4 fn) (fieldsC w)

open BitVec in
/-- A slot whose reserved bits are 0 is made up of its fields. -/
theorem rewritten_of_reservedZero {fm : Format} {w : SlotBits} (h : reservedZero fm w = true) :
    rewritten fm (majorOf w) (fnOf w) w = w := by
  have join {a b m n : Nat} (e : a = b + n) : w.extractLsb' a m ++ w.extractLsb' b n = w.extractLsb' b (m + n) :=
    extractLsb'_append_extractLsb'_eq_extractLsb' e
  have whole : w.extractLsb' 0 96 = w := extractLsb'_eq_self
  cases fm <;> simp only [reservedZero, Bool.and_eq_true, beq_iff_eq] at h <;>
    simp only [rewritten, majorOf, fnOf, ofNat_toNat, setWidth_eq]
  case v =>
    simp (disch := decide) only [wordV, fieldsV, oneBit_slotBit, codeOfRm_rmOfCode, codeOfAm_amOfCode, codeOfKind_kindOfCode,
      codeOfTy_tyOfCode, join]
    exact whole
  case m =>
    simp (disch := decide) only [wordM, fieldsM, oneBit_slotBit, codeOfOrd_ordOfCode, codeOfTy_tyOfCode, ← h, join]
    exact whole
  case b =>
    obtain ⟨⟨h52, h21⟩, h11⟩ := h
    simp (disch := decide) only [wordB, fieldsB, oneBit_slotBit, ← h52, ← h21, ← h11, join]
    exact whole
  case x =>
    obtain ⟨h82, h57⟩ := h
    simp (disch := decide) only [wordX, fieldsX, oneBit_slotBit, codeOfTy_tyOfCode, ← h82, ← h57, join]
    exact whole
  case c =>
    obtain ⟨⟨h76, h36⟩, h11⟩ := h
    simp (disch := decide) only [wordC, fieldsC, oneBit_slotBit, ← h76, ← h36, ← h11, join]
    exact whole

/-! ### Instructions and slots -/

theorem decode_eq_ok_iff {w : SlotBits} {i : Instr} :
    decode w = .ok i ↔ construct w = some i ∧ reservedZero (formatOf (majorOf w)) w = true := by
  unfold decode
  split
  next j hj =>
    split
    next hz => simp [hj, hz]
    next hz => simp [hz]
  next hj => split <;> simp [hj]

/-- What encodes is decoded, if the slot that it encodes to constructs it and has its reserved bits 0. -/
theorem decode_of_word {i : Instr} {w z : SlotBits} (he : encode i = some z) (hc : construct z = some i)
    (hz : reservedZero (formatOf (majorOf z)) z = true) (h : encode i = some w) : decode w = .ok i :=
  Option.some.inj (he.symm.trans h) ▸ decode_eq_ok_iff.2 ⟨hc, hz⟩

/-- Settles O3, format by format: the major and FN of the word that an instruction encodes to select its constructor, and the fields
are read where they were written. -/
theorem decodeOfEncode : Obligations.DecodeOfEncode := by
  intro i w h
  cases i with
  | sadd f | ssub f | smul f | smulh f | smulhn f | sand f | sor f | sxor f | sandn f | sshl f | sshr f | ssra f | smin f
  | smax f | sminn f | smaxn f | smov f | sli f | slih f | ssel f | sbfe f | sbfi f | spopc f | sclz f | sbrev f | sdiv f
  | sdivn f | srem f | sremn f | vadd f | vsub f | vrsub f | vmul f | vmulh f | vmulhn f | vand f | vor f | vxor f | vandn f
  | vshl f | vshr f | vsra f | vmin f | vmax f | vabsd f | vmad f | vmov f | vsel f | vbfe f | vbfi f | vpopc f | vclz f
  | vbrev f | vdot4 f | vdot2 f | vmadw f | vdiv f | vdivn f | vrem f | vremn f | vfadd f | vfsub f | vfmul f | vfma f
  | vfms f | vfnma f | vfnms f | vfmin f | vfmax f | vfminn f | vfmaxn f | vfcpys f | vfrcp f | vfrsq f | vfsqrt f | vfexp2 f
  | vflog2 f | vfsinp f | vfcosp f | vftanh f | vfdiv f | vfsqrtc f | vfcvt f | vftoi f | vitof f | vfrint f | vfclass f
  | vfgetx f | vfldx f | vpadd f | vpsub f | vpmul f | vpfma f | vpmin f | vpmax f | vpack2 f | vunpk2 f | vpack4 f | vunpk4 f
  | vscl f | vfaddx f | vfsubx f | vfmulx f | vfnorm f | dwadd f | dwsub f | dwmul f | dwadds f | dwmuls f | vredx f
  | vreddw f | vdotx f | vshfi f | vshfu f | vshfd f | vshfx f | vbcast f | vredadd f | vredmin f | vredmax f | vredand f
  | vredor f | vredxor f | vredfadd f | vredfmin f | vredfmax f | vscani f | vscane f | vballot f | vany f | vall f | vmatch f
  | ddx f | ddy f | ddxf f | ddyf f | vqswx f | vqswy f | vqswd f | mstat f | kand f | kor f | kxor f | kandn f | knot f
  | kmov f | kpopc f | kffs f | kset f | kget f | ktov f | vtok f =>
    exact decode_of_word rfl (by rw [construct, majorOf_wordV, fnOf_wordV, fieldsV_wordV]; rfl)
      (by rw [majorOf_wordV]; exact rfl) h
  | ld f | ldnc f | ldr f | st f | stnc f | str f | lds f | sts f | ldp f | stp f | atomClasp f | fence f | lfence f | icinv f
  | cinv f | cwb f | pref f | cpy f | waitc f | emit f | launch f | tex f | texl f | texg f | texq f | rastq f | trace f
  | verdict f | boxt f | trit f =>
    exact decode_of_word rfl (by rw [construct, majorOf_wordM, fnOf_wordM, fieldsM_wordM]; rfl)
      (by rw [majorOf_wordM]; exact reservedZero_wordM _ _ _) h
  | nop f | exit f | yield f | bra f | brx f | call f | callx f | ret f | meet f | join f | succ f | succ2 f | enter f
  | leave f | trap f | bkpt f | tret f | migrate f =>
    exact decode_of_word rfl (by rw [construct, majorOf_wordB, fnOf_wordB, fieldsB_wordB]; rfl)
      (by rw [majorOf_wordB]; exact reservedZero_wordB _ _ _) h
  | mma f | mmas f | mscl f | mzero f | mcpyo f | mcpyi f | mwait f | ppoint f =>
    exact decode_of_word rfl (by rw [construct, majorOf_wordX, fnOf_wordX, fieldsX_wordX]; rfl)
      (by rw [majorOf_wordX]; exact reservedZero_wordX _ _ _) h
  | getid f | clock f | csrr f | csrw f | csrs f | csrc f | evrd f =>
    exact decode_of_word rfl (by rw [construct, majorOf_wordC, fnOf_wordC, fieldsC_wordC]; rfl)
      (by rw [majorOf_wordC]; exact reservedZero_wordC _ _ _) h
  | scmp k f | vicmp k f =>
    exact decode_of_word rfl
      (by rw [construct, majorOf_wordV, fnOf_wordV, fieldsV_wordV]
          exact congrArg (Option.map _) (condOfCode_codeOfCond k))
      (by rw [majorOf_wordV]; exact rfl) h
  | vfcmp k f =>
    exact decode_of_word rfl
      (by rw [construct, majorOf_wordV, fnOf_wordV, fieldsV_wordV]
          exact congrArg (Option.map _) (fcondOfCode_codeOfFCond k))
      (by rw [majorOf_wordV]; exact rfl) h
  | red k f =>
    exact decode_of_word rfl
      (by rw [construct, majorOf_wordM, fnOf_wordM, fieldsM_wordM]
          exact congrArg (Option.map _) (redOpOfCode_codeOfRedOp k))
      (by rw [majorOf_wordM]; exact reservedZero_wordM _ _ _) h
  | atom k f =>
    have hc : construct (wordM 0x5C (codeOfAtomOp k) f) = some (.atom k f) := by
      rw [construct, majorOf_wordM, fnOf_wordM, fieldsM_wordM]
      exact (if_neg (codeOfAtomOp_ne_clasp k)).trans (congrArg (Option.map _) (atomOpOfCode_codeOfAtomOp k))
    exact decode_of_word rfl hc (by rw [majorOf_wordM]; exact reservedZero_wordM _ _ _) h
  | _ => cases h

/-- A slot that names an instruction is encoded by its own fields again. -/
theorem encode_construct {w : SlotBits} {i : Instr} (h : construct w = some i) :
    encode i = some (rewritten (formatOf (majorOf w)) (majorOf w) (fnOf w) w) := by
  revert h
  fun_cases construct w <;> intro h
  -- the members whose FN is an operation: SCMP, VICMP, VFCMP, ATOM and RED
  case case32 hM | case67 hM =>
    obtain ⟨k, hk, rfl⟩ := Option.map_eq_some_iff.1 h
    rw [hM]
    exact congrArg (fun c => some (wordV _ c _)) (codeOfCond_of_condOfCode hk)
  case case86 hM =>
    obtain ⟨k, hk, rfl⟩ := Option.map_eq_some_iff.1 h
    rw [hM]
    exact congrArg (fun c => some (wordV _ c _)) (codeOfFCond_of_fcondOfCode hk)
  case case222 hM _ =>
    obtain ⟨k, hk, rfl⟩ := Option.map_eq_some_iff.1 h
    rw [hM]
    exact congrArg (fun c => some (wordM _ c _)) (codeOfAtomOp_of_atomOpOfCode hk)
  case case223 hM =>
    obtain ⟨k, hk, rfl⟩ := Option.map_eq_some_iff.1 h
    rw [hM]
    exact congrArg (fun c => some (wordM _ c _)) (codeOfRedOp_of_redOpOfCode hk)
  -- every other member, by its major and FN; a slot that names none
  all_goals cases h
  all_goals
    rename_i hM hF
    rw [hM, hF]
    rfl

/-- Settles O4: a slot that decodes has its reserved bits 0, so it is made up of the fields that its instruction holds. -/
theorem encodeOfDecode : Obligations.EncodeOfDecode := by
  intro w i h
  obtain ⟨hc, hz⟩ := decode_eq_ok_iff.1 h
  rw [encode_construct hc, rewritten_of_reservedZero hz]

/-- Settles O2: the words that hold an instruction are the encodings of what they stand for. -/
theorem decodesWrittenWords : Obligations.DecodesWrittenWords := by
  refine ⟨?_, ?_, ?_, ?_, ?_, ?_, ?_, ?_, ?_, ?_, rfl, rfl, rfl⟩ <;> exact decodeOfEncode _ _ rfl

end Sys2Proof
end

section
/-! PROOFS. Control instructions and CSRs of a control thread (05 R88, R94, R102; 11 R162 to R171, R197, R198; 17 R254; 21 R328,
R330). -/

namespace Sys2Proof.Machine

/-! ### What translating and fetching leave alone -/

/-- Only cores, dies and the counter of free values differ: TLBs, instruction caches, miss queues and counters (15 R219; 21 R342,
R344). -/
def SameButCaches (s u : State) : Prop := u = { s with cores := u.cores, dies := u.dies, fresh := u.fresh }

namespace SameButCaches

theorem refl (s : State) : SameButCaches s s := rfl

theorem trans {s u v : State} (h : SameButCaches s u) (k : SameButCaches u v) : SameButCaches s v := by
  unfold SameButCaches at *
  rw [h] at k
  exact k

theorem ofModCore (s : State) (c : Nat) (f : Core → Core) : SameButCaches s (modCore s c f) := rfl
theorem ofModDie (s : State) (d : Nat) (f : Die → Die) : SameButCaches s (modDie s d f) := rfl

theorem ofPageWalkStep (s : State) (die : Nat) : SameButCaches s (pageWalkStep s die) := by
  unfold pageWalkStep
  split
  · exact refl s
  · dsimp only
    split
    · exact ofModDie ..
    · split
      · exact ((ofModDie ..).trans (ofModDie ..)).trans (ofModCore ..)
      · exact ofModDie ..

theorem ofQueueWalk (s : State) (core : Nat) (p : Partition) (page : Nat) : SameButCaches s (queueWalk s core p page) := by
  unfold queueWalk
  dsimp only
  split
  · exact refl s
  · refine trans ?_ (ofModDie ..)
    split
    · exact ofPageWalkStep ..
    · exact refl s

theorem ofTranslate (s : State) (core : Nat) (p : Partition) (va : Nat) : SameButCaches s (translate s core p va).2 := by
  unfold translate
  dsimp only
  split
  · exact refl s
  · split
    · exact ofModCore ..
    · refine trans ?_ (ofQueueWalk ..)
      split <;> rfl

theorem ofRequestStream (s : State) (die : Nat) (p : Partition) (page locator : Nat) :
    SameButCaches s (requestStream s die p page locator) := by
  refine trans ?_ (ofModDie ..)
  unfold countDie countDieBy
  split
  · exact refl s
  · exact ofModDie ..

theorem ofResolvePage (s : State) (core : Nat) (p : Partition) (va : Nat) (u : Use) : SameButCaches s (resolvePage s core p va u).2 := by
  have ht := ofTranslate s core p va
  unfold resolvePage
  dsimp only
  split
  case h_3 =>
    split
    · exact ht
    · split
      · exact ht
      · exact ht.trans (ofRequestStream ..)
  case h_4 => repeat' (split; exact ht)
              exact ht
  all_goals exact ht

theorem ofFetchLine (s : State) (core : Nat) (p : Partition) (codeBase : DWord) (emu : Bool) (pc : Word) :
    SameButCaches s (fetchLine s core p codeBase emu pc).2 := by
  unfold fetchLine
  split
  · unfold fetchFirmware
    dsimp only
    split
    · exact refl s
    · exact ofModCore ..
  · dsimp only
    split
    · exact refl s
    · split
      · exact refl s
      · have hr := ofResolvePage s core p ((lineVa codeBase pc).extractLsb' 0 57).toNat .fetch
        split <;> rename_i h <;> rw [h] at hr
        · exact hr
        · exact hr.trans (ofModCore ..)
        · exact hr

theorem ofCheckTarget (s : State) (core : Nat) (p : Partition) (codeBase : DWord) (emu : Bool) (pc : Word) :
    SameButCaches s (checkTarget s core p codeBase emu pc).2 := by
  have hf := ofFetchLine s core p codeBase emu pc
  unfold checkTarget
  split
  · exact refl s
  · split <;> rename_i h <;> rw [h] at hf
    · exact hf
    · exact hf
    · split
      · exact hf
      · split <;> exact hf

theorem asideCtl {s u : State} (h : SameButCaches s u) (team : Nat) : AsideCtl s u team := by
  rw [h]
  exact ⟨⟨rfl, rfl, rfl, rfl, rfl⟩, rfl, rfl, rfl, rfl, rfl, rfl, rfl, rfl, rfl, fun _ _ => rfl⟩

end SameButCaches

/-! ### A control thread put back -/

theorem findThread_team {s : State} {n : Nat} {t : Thread} (h : findThread s n = some t) : t.team = n := by
  simpa using List.find?_some h

theorem findThread_putThread {s : State} {t r : Thread} (h : findThread s r.team = some t) :
    findThread (putThread s r) r.team = some r := by
  have hteam := findThread_team h
  unfold findThread putThread at *
  rw [find_map_same (fun x : Thread => x.team == r.team) (fun x => if x.team == r.team then r else x)
    (fun x => by by_cases hx : x.team = r.team <;> simp [hx]), h]
  simp [hteam]

theorem findThread_putThread_ne {s : State} {r : Thread} {n : Nat} (h : n ≠ r.team) : findThread (putThread s r) n = findThread s n := by
  unfold findThread putThread
  rw [find_map_same (fun x : Thread => x.team == n) (fun x => if x.team == r.team then r else x)
    (fun x => by by_cases hx : x.team = r.team <;> simp [hx])]
  cases hf : s.threads.find? (·.team == n) with
  | none => rfl
  | some x => simp [show x.team = n from findThread_team hf, h]

theorem apartCtl_putThread {s : State} {r : Thread} {n : Nat} (h : r.team = n) : ApartCtl s (putThread s r) n :=
  ⟨⟨rfl, rfl, rfl, rfl, rfl⟩, rfl, rfl, rfl, rfl, rfl, rfl, rfl, rfl, rfl, rfl, rfl,
    fun _ hn => findThread_putThread_ne (h ▸ hn)⟩

/-- An instruction that only puts its thread back completes with it. -/
theorem completesCtl_of_put {i : Instr} {s : State} {t r : Thread} (hx : exec i s = .next (putThread s r))
    (ht : findThread s t.team = some t) (hr : r.team = t.team) : CompletesCtl i s t r :=
  ⟨_, hx, apartCtl_putThread hr, hr ▸ findThread_putThread (hr.symm ▸ ht)⟩

theorem CompletesCtl.goesCtl {i : Instr} {s : State} {t r : Thread} (h : CompletesCtl i s t r) : GoesCtl i s t r := by
  obtain ⟨u, hx, ⟨mem, teams, groups, parts, quads, grids, jobs, homes, funcs, -, -, ops, others⟩, hu⟩ := h
  exact ⟨u, hx, ⟨mem, teams, groups, parts, quads, grids, jobs, homes, funcs, ops, others⟩, hu⟩

/-- An instruction that puts its thread back after translating or fetching goes with it. -/
theorem goesCtl_of_put {i : Instr} {s v : State} {t r : Thread} (hx : exec i s = .next (putThread v r)) (hv : SameButCaches s v)
    (ht : findThread s t.team = some t) (hr : r.team = t.team) : GoesCtl i s t r := by
  obtain ⟨mem, teams, groups, parts, quads, grids, jobs, homes, funcs, ops, others⟩ := hv.asideCtl t.team
  have found : findThread v t.team = some t := by rw [hv]; exact ht
  exact ⟨_, hx, ⟨mem, teams, groups, parts, quads, grids, jobs, homes, funcs, ops,
    fun n hn => (findThread_putThread_ne (hr.symm ▸ hn)).trans (others n hn)⟩, hr ▸ findThread_putThread (hr.symm ▸ found)⟩

/-! ### How an instruction of a control thread ends -/

theorem doneThread_free {s : State} {t : Thread} (h : t.stepping = false) (pc next : Word) :
    doneThread s t pc next = putThread s { t with pc := next } := by
  unfold doneThread
  exact if_neg (by simp [h])

theorem completesCtl_of_done {i : Instr} {s : State} {t r : Thread} {pc next : Word}
    (hx : exec i s = .next (doneThread s r pc next)) (ht : findThread s t.team = some t) (hr : r.team = t.team)
    (free : r.stepping = false) : CompletesCtl i s t { r with pc := next } :=
  completesCtl_of_put (hx.trans (congrArg _ (doneThread_free free pc next))) ht hr

theorem unstepped {t : Thread} (h : t.stepping = false) : { t with stepping := false } = t := by rw [← h]

theorem enterThreadTrap_user {t : Thread} (h : t.priv = false) (c : Cause) (tpc : Word) (tval : DWord) :
    enterThreadTrap t { threadReq t c tpc tval with bezelDone := true } = threadEntered t c tpc tval := by
  simp only [enterThreadTrap, enterRegs, threadReq, threadEntered, h]

/-- A trap that the handler of a thread takes enters it. -/
theorem trapThread_entered {s : State} {t : Thread} {c : Cause} (free : t.stepping = false) (h : ThreadHandlerFree s t c) (tpc : Word)
    (tval : DWord) : trapThread s t (threadReq t c tpc tval) = putThread s (threadEntered t c tpc tval) := by
  obtain ⟨hvec, hpriv, hslot, hdel⟩ := h
  let r : TrapReq := { threadReq t c tpc tval with bezelDone := true }
  calc trapThread s t (threadReq t c tpc tval)
    _ = deliverThread s t r := by
      rw [trapThread, if_neg (by simp [threadReq, hpriv]), show (threadReq t c tpc tval).cause = c from rfl, hslot]
      rfl
    _ = deliverThreadHandler s t r := by
      rw [deliverThread, show r.cause = c from rfl, hdel, unstepped free]
    _ = putThread s (enterThreadTrap t r) := by
      rw [deliverThreadHandler, if_neg (by simp [hpriv]), if_neg hvec]
    _ = putThread s (threadEntered t c tpc tval) := congrArg _ (enterThreadTrap_user hpriv c tpc tval)

/-! ### Control instructions -/

theorem threadReturn_plain {t : Thread} (h : t.emu = false) :
    threadReturn t = { t with
      pc := t.trap.tpc, line := none, priv := t.trap.ppriv, trap := { t.trap with inh := false }, stepping := t.trap.ss } := by
  unfold threadReturn
  simp only [h]

theorem exit_completesCtl {s : State} {t : Thread} {cur : Cur} {f : BF} (h : IssuingCtl s t cur (.exit f)) (quiet : t.faults = []) :
    CompletesCtl (.exit f) s t
      (if threadGuard t f.gk f.gn then { t with exited := true, park := .none, faults := [] } else { t with pc := pcNext cur.pc }) := by
  have hx : exec (.exit f) s = .next (if threadGuard t f.gk f.gn then endThread s t else doneThread s t cur.pc (pcNext cur.pc)) :=
    issueBoth_thread h _ _
  obtain ⟨-, -, found, -, free, -⟩ := h
  cases hg : threadGuard t f.gk f.gn <;> rw [hg] at hx
  case false => exact completesCtl_of_done hx found rfl free
  case true =>
    refine completesCtl_of_put (hx.trans ?_) found rfl
    rw [if_pos rfl, endThread, quiet]
    rfl

/-- A transfer goes to its target where its guard holds and the target passes, and on where the guard does not hold. -/
theorem threadTransfer_goes {i : Instr} {f : BF} {s : State} {t : Thread} {cur : Cur} {target : Word} {link : Option Nat}
    (h : IssuingCtl s t cur i) (hx : exec i s = .next (threadTransfer f target link s t cur)) :
    (threadGuard t f.gk f.gn = false → GoesCtl i s t { t with pc := pcNext cur.pc })
      ∧ (threadGuard t f.gk f.gn = true → ∀ p, teamPartition s t.team = some p →
        (checkTarget s (leadCore t.quad) p (codeBaseOf s t.team) t.emu target).1 = .ok →
        GoesCtl i s t { (match link with | some r => threadWrote t r ((pcNext cur.pc).zeroExtend 64) | none => t) with
          pc := target, line := none }) := by
  obtain ⟨-, -, found, -, free, -⟩ := h
  constructor
  · intro off
    unfold threadTransfer at hx
    rw [off] at hx
    exact (completesCtl_of_done hx found rfl free).goesCtl
  · intro on p hp pass
    have aside := SameButCaches.ofCheckTarget s (leadCore t.quad) p (codeBaseOf s t.team) t.emu target
    generalize hc : checkTarget s (leadCore t.quad) p (codeBaseOf s t.team) t.emu target = c at pass aside
    obtain ⟨_, v⟩ := c
    obtain rfl : _ = TargetCheck.ok := pass
    simp only [threadTransfer, on, Bool.not_true, Bool.false_eq_true, if_false, hp, hc] at hx
    cases link with
    | none => exact goesCtl_of_put (hx.trans (congrArg _ (doneThread_free (by exact free) ..))) aside found rfl
    | some r => exact goesCtl_of_put (hx.trans (congrArg _ (doneThread_free (by exact free) ..))) aside found rfl

/-- TRAP and BKPT: the thread enters its handler, or goes on where its guard does not hold. -/
theorem threadTrapMember_goes {i : Instr} {f : BF} {s : State} {t : Thread} {cur : Cur} {c : Cause} {tpc : Word} {tval : DWord}
    (h : IssuingCtl s t cur i) (hx : exec i s = .next (threadTrapMember f c tpc tval s t cur)) :
    (threadGuard t f.gk f.gn = false → GoesCtl i s t { t with pc := pcNext cur.pc })
      ∧ (threadGuard t f.gk f.gn = true → ThreadHandlerFree s t c → GoesCtl i s t (threadEntered t c tpc tval)) := by
  obtain ⟨-, -, found, -, free, -⟩ := h
  constructor
  · intro off
    rw [threadTrapMember, off] at hx
    exact (completesCtl_of_done hx found rfl free).goesCtl
  · intro on handler
    rw [threadTrapMember, on, if_pos rfl, trapThread_entered free handler] at hx
    exact (completesCtl_of_put hx found rfl).goesCtl

/-- Settles O42, instruction by instruction. -/
theorem controlThreadFlow : Obligations.ControlThreadFlow := by
  intro s t cur f
  refine ⟨?flow, fun h quiet => exit_completesCtl h quiet, ?transfers, ?traps, ?tret⟩
  case flow =>
    simp only [List.forall_mem_cons]
    refine ⟨fun h => ?_, fun h => ?_, fun _ hi => absurd hi List.not_mem_nil⟩
    · exact completesCtl_of_done (issueBoth_thread h _ _) h.2.2.1 rfl h.2.2.2.2.1
    · exact completesCtl_of_done (issueBoth_thread h _ _) h.2.2.1 rfl h.2.2.2.2.1
  case transfers =>
    simp only [transfers, List.forall_mem_cons]
    exact ⟨fun h => threadTransfer_goes h (issueBoth_thread h _ _), fun h => threadTransfer_goes h (issueBoth_thread h _ _),
      fun h => threadTransfer_goes h (issueBoth_thread h _ _), fun h => threadTransfer_goes h (issueBoth_thread h _ _),
      fun h => threadTransfer_goes h (issueBoth_thread h _ _), fun _ ha => absurd ha List.not_mem_nil⟩
  case traps =>
    simp only [List.forall_mem_cons]
    exact ⟨fun h => threadTrapMember_goes h (issueBoth_thread h _ _), fun h => threadTrapMember_goes h (issueBoth_thread h _ _),
      fun _ ha => absurd ha List.not_mem_nil⟩
  case tret =>
    intro h plain
    have hx : exec (.tret f) s = .next (putThread s (threadReturn t)) := issueBoth_thread h _ _
    rw [threadReturn_plain plain] at hx
    exact (completesCtl_of_put hx h.2.2.1 rfl).goesCtl

/-! ### CSRs -/

theorem writeThreadCsr_trap {n : Nat} (h : n < 0x200) (s : State) (t : Thread) (x : DWord) :
    writeThreadCsr s t n x = (s, { t with trap := writeTrapCsr t.trap n x }) := if_neg (by omega)

theorem writeThreadCsr_part {n : Nat} (h : 0x200 ≤ n) (s : State) (t : Thread) (x : DWord) :
    writeThreadCsr s t n x = (modPart s t.part fun p => writePartCsr p n x, t) := if_pos h

/-- What a thread that changes a CSR writes, with the value that CSRW, CSRS or CSRC gives. -/
theorem threadCsrWrite_effect {i : Instr} {s : State} {t : Thread} {cur : Cur} {n : Nat} {x : DWord} {go : Bool}
    (h : IssuingCtl s t cur i)
    (hx : let r := if go then writeThreadCsr s t n x else (s, t)
      exec i s = .next (doneThread r.1 r.2 cur.pc (pcNext cur.pc))) :
    let next := { t with pc := pcNext cur.pc }
    (go = false → CompletesCtl i s t next)
      ∧ (go = true → n < 0x200 → CompletesCtl i s t { next with trap := writeTrapCsr t.trap n x })
      ∧ (go = true → 0x200 ≤ n → ∃ u, exec i s = .next u ∧ findThread u t.team = some next
        ∧ u.parts = s.parts.map (fun q => if q.idx == t.part then writePartCsr q n x else q)
        ∧ u.groups = s.groups ∧ u.teams = s.teams ∧ SameMemory s u) := by
  obtain ⟨-, -, found, -, free, -⟩ := h
  dsimp only at hx
  refine ⟨fun off => ?_, fun on low => ?_, fun on high => ?_⟩
  · rw [off] at hx
    exact completesCtl_of_done hx found rfl free
  · rw [on, if_pos rfl, writeThreadCsr_trap low] at hx
    exact completesCtl_of_done hx found rfl free
  · rw [on, if_pos rfl, writeThreadCsr_part high, doneThread_free free] at hx
    exact ⟨_, hx, findThread_putThread (r := { t with pc := pcNext cur.pc }) found, rfl, rfl, rfl, rfl, rfl, rfl, rfl, rfl⟩

/-- Settles O43: one lemma for the three members that write. -/
theorem controlThreadCsrs : Obligations.ControlThreadCsrs := by
  intro s t cur f
  refine ⟨fun h => ?read, ?write⟩
  case read =>
    have hx : exec (.csrr f) s = .next (doneThread s (if threadGuard t f.gk f.gn then threadWrote t f.d.toNat
        (readThreadCsr s t f.csr.toNat) else t) cur.pc (pcNext cur.pc)) := issueBoth_thread h _ _
    obtain ⟨-, -, found, -, free, -⟩ := h
    cases hg : threadGuard t f.gk f.gn <;> rw [hg] at hx
    · exact completesCtl_of_done hx found rfl free
    · exact completesCtl_of_done hx found rfl free
  case write =>
    simp only [List.forall_mem_cons]
    exact ⟨fun h => threadCsrWrite_effect h (issueBoth_thread h _ _), fun h => threadCsrWrite_effect h (issueBoth_thread h _ _),
      fun h => threadCsrWrite_effect h (issueBoth_thread h _ _), fun _ ha => absurd ha List.not_mem_nil⟩

end Sys2Proof.Machine
end

section
/-! PROOFS. Traps into a handler and traps without one (05 R101; 11 R171; 21 R326; 03 R64, 07 R125, 18 R291). -/

namespace Sys2Proof.Machine

/-- What a query of the state gives where a result goes on to one. -/
def afterNext {α : Type} (q : State → α) (r : Result) : Option α :=
  match r with
  | .next u => some (q u)
  | _ => none

/-- The issue by these lanes of group 1 of the instruction at pc 0, whose slot does not end the run. -/
def issueAtZero (active : DWord) : Cur := ⟨.group 1, active, 0, false, 0, false⟩

/-- The one group that an installed package holds. -/
def installedGroup : Group := launchGroup installPacket 1 0 0 0 0 (0, 0) 0 0xFFFFFFFF 16

/-- An installed package with these teams and groups, in which these lanes of group 1 issue. -/
def issuingPackage (teams : List Team) (groups : List Group) (active : DWord) : State :=
  { installWord State.reset 0 with teams := teams, groups := groups, cur := some (issueAtZero active) }

/-! ### A trap without a handler releases a derivative that traps as well -/

/-- A TRAP 0 under no guard. -/
def trapZero : BF := ⟨0, 0, 0, 0, false, false, 0⟩

/-- A DDX of v1 to v3 on f32. -/
def ddxOfV1 : VF := ⟨0, false, .rne, .none, .vec, .vec, false, false, false, 0, 0, 1, 3, false, 0, .f32⟩

/-- Lanes 0 to 2 of the first quad are held at a DDX of infinities, lane 3 has branched off to pc 0, and the lanes of the other
quads have exited. -/
def heldAtDdx (l : Nat) (x : Lane) : Lane :=
  if l < 3 then { x with v := x.v.set 1 0x7F800000, pc := 1, park := .quad (.ddx ddxOfV1) true 0 }
  else { x with exited := decide (3 < l) }

/-- The group of these lanes: FTEN enables NV, TVEC names no handler. -/
def ddxGroup : Group := { installedGroup with ften := 1, lanes := installedGroup.lanes.mapIdx heldAtDdx }

def ddxState : State := issuingPackage [installTeam 0] [ddxGroup] 8

theorem ddxState_issuing : Issuing ddxState ddxGroup (issueAtZero 8) (.trap trapZero) ∧ MidRun ddxGroup (issueAtZero 8) := by
  decide +kernel

theorem ddxState_active : ActiveAt ddxGroup (issueAtZero 8) :=
  have live : ∀ l < 64, (issueAtZero 8).active.getLsbD l = true →
      l < ddxGroup.w ∧ (laneAt ddxGroup l).exited = false ∧ (laneAt ddxGroup l).pc = 0 ∧ (laneAt ddxGroup l).park = .none := by
    decide +kernel
  ⟨by decide +kernel, by decide +kernel, by decide, fun l h => live l (BitVec.lt_of_getLsbD h) h⟩

theorem ddxState_noHandler : guardB ddxGroup (issueAtZero 8) trapZero ≠ 0 ∧ Settled ddxState ddxGroup
    ∧ faultSlot (dieAt ddxState (dieOfCore ddxGroup.core)) (BitVec.ofNat 10 (0x340 + trapZero.disp.toNat % 64)) = none
    ∧ anyPrivileged ddxGroup (guardB ddxGroup (issueAtZero 8) trapZero) = false ∧ ddxGroup.trap.tvec = 0xFFFFFFFF := by
  decide +kernel

theorem ddxState_room : RoomFor ddxState (dieOfCore ddxGroup.core) (unitCore ddxGroup.core)
    (fnOfPart (some (partOfGroup ddxState ddxGroup))) := by decide +kernel

theorem ddxState_records : (eventQueue ddxState (fnOfPart (some (partOfGroup ddxState ddxGroup)))).length = 0 := by decide +kernel

/-- The codes of the records that the step leaves: TRAP 0, and the NV of the DDX. -/
theorem ddxState_step : afterNext (fun u => (eventQueue u (fnOfPart (some (partOfGroup ddxState ddxGroup)))).map (·.code))
    (exec (.trap trapZero) ddxState) = some [0x340, 0x080] := by decide +kernel

/-- Refutes O30: its clause on traps without a handler claims one record. When lane 3 of `ddxState` takes TRAP 0 and exits, its
quad's DDX, which waited for that lane alone, executes (03 R64); the NV it raises is enabled and traps in the same step (07
R125), so a second record follows the first. -/
theorem not_trapEntries : ¬ Obligations.TrapEntries := by
  rintro ⟨-, trapMembers⟩
  obtain ⟨issuing, midRun⟩ := ddxState_issuing
  obtain ⟨guard, settled, noSlot, user, noHandler⟩ := ddxState_noHandler
  obtain ⟨-, -, withoutHandler, -⟩ :=
    trapMembers ddxState ddxGroup (issueAtZero 8) trapZero _ List.mem_cons_self issuing midRun ddxState_active
  obtain ⟨u, -, hx, -, -, -, told⟩ := withoutHandler guard settled noSlot user noHandler
  have codes := ddxState_step
  rw [hx] at codes
  have two := congrArg List.length (Option.some.inj codes)
  rw [List.length_map, told ddxState_room, List.length_append, ddxState_records] at two
  exact absurd two (by decide)

/-! ### A trap that marks the gate of a second team of the same number -/

/-- A group without privilege that names a handler; the group beside it, of index 0 as well, has ended. -/
def handlerGroup : Group := { installedGroup with trap := launchTrap 0x40 }
def endedGroup : Group :=
  { installedGroup with id := 7, lanes := installedGroup.lanes.map fun x => { x with exited := true } }

/-- Two teams of number 0: the gate of the first is marked, that of the second is not. -/
def unmarkedTeam : Team := { installTeam 0 with gateMark := none }
def twinState : State := issuingPackage [installTeam 0, unmarkedTeam] [handlerGroup, endedGroup] 0xFFFF

theorem twinState_fails : twinState.cur = some (issueAtZero 0xFFFF) ∧ findGroup twinState handlerGroup.id = some handlerGroup
    ∧ checkInstr (groupEnv twinState handlerGroup 0xFFFF) (.tret trapZero) = some 0x00A
    ∧ MidRun handlerGroup (issueAtZero 0xFFFF) ∧ Settled twinState handlerGroup := by decide +kernel

theorem twinState_active : ActiveAt handlerGroup (issueAtZero 0xFFFF) :=
  have live : ∀ l < 64, (issueAtZero 0xFFFF).active.getLsbD l = true → l < handlerGroup.w
      ∧ (laneAt handlerGroup l).exited = false ∧ (laneAt handlerGroup l).pc = 0 ∧ (laneAt handlerGroup l).park = .none := by
    decide +kernel
  ⟨by decide +kernel, by decide +kernel, by decide, fun l h => live l (BitVec.lt_of_getLsbD h) h⟩

theorem twinState_handler : HandlerFree twinState handlerGroup 0xFFFF 0x00A := by decide +kernel

theorem twinState_step : afterNext (fun u => u.teams.map (·.gateMark)) (exec (.tret trapZero) twinState) = some [some 0, some 3] := by
  decide +kernel

/-- Refutes O31: its first clause has the trap leave every team as it was. `findTeam` and with it `TeamQuiet` see only the first
team of a number, but the mark of a gate goes to each of them, so in `twinState`, whose two teams share number 0, the end of the
run marks the second. No premise bars two teams of one number. -/
theorem not_checksAndPrivileges : ¬ Obligations.ChecksAndPrivileges := by
  rintro ⟨traps, -⟩
  obtain ⟨hcur, hfind, hcheck, midRun, settled⟩ := twinState_fails
  obtain ⟨u, -, hx, ⟨-, teams, -⟩, -, -⟩ :=
    traps twinState handlerGroup (issueAtZero 0xFFFF) (.tret trapZero) 0x00A hcur rfl hfind rfl hcheck midRun
      twinState_active settled twinState_handler
  have marks := twinState_step
  rw [hx] at marks
  have same : [some 0, none] = [some 0, some 3] := (congrArg (List.map Team.gateMark) teams).symm.trans (Option.some.inj marks)
  exact absurd same (by decide)

end Sys2Proof.Machine
end

section
/-! PROOFS. What a code of e4m3 decodes to (07 R110 to R112). -/

namespace Sys2Proof.Machine

/-- The two NaN codes are those whose exponent and fraction fields are all ones, under either sign. -/
theorem e4m3_allOnes_iff {n : Nat} (hn : n < 256) : n / 8 % 16 = 15 ∧ n % 8 = 7 ↔ n = 0x7F ∨ n = 0xFF := by omega

/-- The sign of an eight-bit code is its top bit. -/
theorem byte_div_eq_one {n : Nat} (hn : n < 256) : (n / 128 == 1) = decide (128 ≤ n) := by
  rw [Bool.eq_iff_iff, beq_iff_eq, decide_eq_true_iff]
  omega

/-- A code of e4m3 read by its sign, exponent and fraction fields: NaN, zero or subnormal, and normal (07 R110 to R112). -/
theorem decodeFloat_e4m3 {n : Nat} (hn : n < 256) :
    decodeFloat .e4m3 (BitVec.ofNat 64 n) =
      if n = 0x7F ∨ n = 0xFF then .nan false
      else if n / 8 % 16 = 0 then .fin (decide (128 ≤ n)) (n % 8) (-9)
      else .fin (decide (128 ≤ n)) (8 + n % 8) (-9 + (n / 8 % 16 - 1 : Nat)) := by
  simp [decodeFloat, fmtOf, bitsOf, Fmt.qmin, Nat.shiftRight_eq_div_pow, Nat.mod_eq_of_lt hn, byte_div_eq_one hn,
    e4m3_allOnes_iff hn]

/-- Settles O8: the equation of `decodeFloat` at e4m3 gives every code, NaN or finite; 0x7E and 0xFE are the normal codes of the
largest exponent field. -/
theorem e4m3Codes : Obligations.E4m3Codes := by
  unfold Obligations.E4m3Codes
  refine ⟨fun n hn => ?_, decodeFloat_e4m3 (n := 0x7E) (by decide), by decide, decodeFloat_e4m3 (n := 0xFE) (by decide)⟩
  rw [decodeFloat_e4m3 hn]
  by_cases hnan : n = 0x7F ∨ n = 0xFF
  · rw [if_pos hnan]
    exact ⟨iff_of_true rfl hnan, rfl, rfl, fun _ h7F hFF => absurd hnan (not_or.mpr ⟨h7F, hFF⟩)⟩
  rw [if_neg hnan]
  by_cases hzero : n / 8 % 16 = 0
  · rw [if_pos hzero]
    exact ⟨iff_of_false Bool.false_ne_true hnan, rfl, rfl, fun h15 => absurd (hzero ▸ h15) (by decide)⟩
  · rw [if_neg hzero]
    exact ⟨iff_of_false Bool.false_ne_true hnan, rfl, rfl, fun h15 _ _ => by rw [h15]; rfl⟩

end Sys2Proof.Machine
end
